-- ==== Sys2Proof/Word.lean ====
section
/-! DEFINITION. The word types of the Folivo (R2, R6) and the plain-data operand types that instruction and event
rows carry. -/

namespace Sys2Proof

/-- One byte of memory. -/
abbrev Byte := BitVec 8
/-- An instruction word of any engine (R303). -/
abbrev Word := BitVec 32
/-- A g register, a vs register, a pointer (Table 3.1). -/
abbrev W64 := BitVec 64
/-- One 128 B accumulator row, byte 0 least significant (R59, R147). -/
abbrev Row := BitVec 1024

/-- The agents of R35. -/
inductive Agent where
  | seq | vec | mat | xfr | dec
  deriving DecidableEq, Repr, Inhabited

/-- The four engines with a command queue (R28, R30). -/
inductive Eng where
  | vec | mat | xfr | dec
  deriving DecidableEq, Repr, Inhabited

/-- The code section that holds a word; it alone names the engine (R303). -/
inductive Section where
  | seq | vec | mat | xfr | dec
  deriving DecidableEq, Repr, Inhabited

/-- A host command as it arrives: the fields of its header that the device reads (Table 14.6) and its body.
`authentic` is the verdict of the transport security sublayer (R276). -/
structure HostCmd where
  part : BitVec 16
  seq : BitVec 64
  session : BitVec 64
  flags : BitVec 8
  authentic : Bool
  body : List Byte
  deriving DecidableEq, Repr, Inhabited

/-- What a request of another chip asks of its owner (R254, R172, R178). -/
inductive RemoteOp where
  /-- read n bytes at a virtual address -/
  | read (n : Nat)
  /-- whether n bytes at a virtual address translate for a write, and leave no poisoned word covered in part, as every part of a store that
  crosses chips must before any is written (R165, R324); `taken` as for a write -/
  | check (n : Nat) (taken : Bool)
  /-- write bytes at a virtual address; `taken` where they replace data whose poison has been taken as zeros (R173) -/
  | write (bs : List Byte) (taken : Bool)
  /-- an amo (R328): operation, doubleword flag, operand, cas replacement -/
  | amo (op : BitVec 4) (dbl : Bool) (b c : BitVec 64)
  /-- a barrier arrival at a virtual address (R177) -/
  | arrive (n : BitVec 64)
  /-- one row of an xrem, to a segment pointer on a tile (R172) -/
  | put (tile : BitVec 8) (ctx : BitVec 8) (ptr : BitVec 64) (bs : List Byte)
  /-- an arrival on a REMOTE barrier slot (R172, R178) -/
  | arriveSeg (tile : BitVec 8) (ctx : BitVec 8) (ptr : BitVec 64) (n : BitVec 64)
  /-- the object of a REMOTE barrier slot, which xwait reads at its home (R433) -/
  | readSeg (tile : BitVec 8) (ctx : BitVec 8) (ptr : BitVec 64)
  /-- a barrier object whose checks have passed, read once more: at the IPA page of its virtual address (R330) -/
  | readAt (ipa : Nat)
  /-- the same in a segment (R433) -/
  | readSegAt (tile : BitVec 8) (ctx : BitVec 8) (ptr : BitVec 64)
  deriving DecidableEq, Repr, Inhabited

/-- An agent as a WAIT record names it: chip, tile, engine code, issue (R300); and the count of turns taken when it acted, its place in
program order (R182). -/
structure Who where
  chip : BitVec 8 := 0
  tile : BitVec 8 := 0
  eng : BitVec 8 := 0
  issue : BitVec 16 := 0
  stamp : Nat := 0
  deriving DecidableEq, Repr, Inhabited

/-- A release tag (tile, clock) of R192, and a race record of R193. -/
structure Clk where
  tile : BitVec 8
  clock : Nat
  deriving DecidableEq, Repr, Inhabited

/-- A request that reaches this chip from another chip of the partition (R253, R255). -/
structure RemoteReq where
  id : Nat
  fromChip : BitVec 3
  part : BitVec 8
  tile : BitVec 8
  ctx : BitVec 8
  va : BitVec 54
  op : RemoteOp
  /-- the requester's engine code and the issue number of its entry (R300) -/
  eng : BitVec 8
  issue : BitVec 16
  /-- the clock of the release that the request makes (R192) -/
  rel : Option Nat
  /-- whether it has met a translation fault at its owner, a stage-1 record or XLAT2 (R298) -/
  met : Bool := false
  deriving DecidableEq, Repr, Inhabited

/-- The answer of another chip to request `id` of this chip (R261). -/
structure RemoteReply where
  id : Nat
  /-- 0 done; otherwise the cause code the owner refused with -/
  cause : BitVec 8
  finfo : BitVec 64
  bs : List Byte
  /-- who made PHASE of the object that was read differ (R300) -/
  setter : Who
  /-- the release tags of tiles of this chip that the access observed (R182, R192) -/
  tags : List Clk := []
  /-- whether the request met a translation fault at its owner, a stage-1 record or XLAT2 (R298) -/
  met : Bool := false
  /-- the IPA page of the object that was read (R330) -/
  page : Nat := 0
  deriving DecidableEq, Repr, Inhabited

/-- The 64 B SRAM line that the scrubber visits (R250). -/
inductive ScrubLine where
  /-- a line that no context owns -/
  | free (tile : BitVec 8)
  /-- line `line` of a segment, in its home store or in the pool -/
  | segment (tile : BitVec 8) (slot : BitVec 2) (seg : BitVec 12) (line : Nat)
  /-- line `line` of accumulator tile `acc` -/
  | accum (tile : BitVec 8) (acc : BitVec 8) (line : Nat)
  /-- queues or slot state of a slot -/
  | slotState (tile : BitVec 8) (slot : BitVec 2)
  /-- a line with the partition flag, in tower `tower` -/
  | partition (tower : BitVec 3)
  deriving DecidableEq, Repr, Inhabited

/-- A vertical-bus beat that failed parity (R283, R284): which channel and direction, the lanes whose bit arrived wrong at first (128
data lanes, then 4 parity lanes), the 16 B word of the layer it carries, and the retry that was accepted (none: the fourth retry
failed too). -/
structure BusBeat where
  asynch : Bool
  chan : BitVec 6
  write : Bool
  flipped : BitVec 132
  word : BitVec 29
  accepted : Option (BitVec 3)
  deriving DecidableEq, Repr, Inhabited

/-- A physical page of 64 KiB (R255): one of the 393,216 pages of the 24 GiB of GDDR 7 of a tower of this chip (R9, R18),
or held by the host (R262). -/
inductive PhysPage where
  | gddr (tower : BitVec 3) (page : Fin 393216)
  | host
  deriving DecidableEq, Repr, Inhabited

/-- One stage-2 mapping the SMC installs (R255): tower, 64 KiB IPA page, physical page. -/
structure S2Map where
  tower : BitVec 3
  ipaPage : Nat
  phys : PhysPage
  deriving DecidableEq, Repr, Inhabited

/-- What the SMC sets up for a partition on this chip (R265, Table 14.4, R219, R267). `farTowers` names the towers that the
partition holds on its other chips, by chip index (R254). -/
structure PartSetup where
  num : BitVec 8
  tenant : BitVec 16
  chip : BitVec 3
  chips : BitVec 4
  towers : BitVec 8
  farTowers : List (BitVec 3 × BitVec 8)
  ports : BitVec 18
  routes : List (BitVec 3 × Nat)
  classes : List Nat
  meshMask : BitVec 32
  kv : Bool
  powerCaps : List Nat
  s2 : List S2Map
  deriving DecidableEq, Repr, Inhabited

/-- What a SEGPUT or SEGGET names (Table 14.7): a virtual address; a segment of a context on a tile, with an offset; the
dump region after a fatal error (R252), with an offset. -/
inductive HostTarget where
  | va (v : BitVec 64)
  | seg (ctx tile : BitVec 8) (seg : BitVec 12) (off : Nat)
  | dump (off : Nat)
  deriving DecidableEq, Repr, Inhabited

/-- A KVPUT body (Table 14.7). -/
structure KvPut where
  tower : BitVec 3
  ctx : BitVec 8
  slot : BitVec 8
  layer : BitVec 8
  head : BitVec 6
  k : List Byte
  v : List Byte
  deriving DecidableEq, Repr, Inhabited

/-- What bring-up finds beside its pass or failure (R287, Table 15.4): the digest of firmware that is rejected, the failing lanes of
channels (tower, path, channel), layers that the self-test retires (a fuse map for each tower), tiles that fail it. -/
structure Training where
  rejected : List Byte
  lanes : List (BitVec 3 × Bool × BitVec 6 × List (BitVec 8))
  retired : List (BitVec 3 × BitVec 128)
  badTiles : List (BitVec 8)
  deriving DecidableEq, Repr, Inhabited

/-- An error that arises in a memory (R250, R251, R282): one bit of the 144 of a DRAM layer word and its code, or an uncorrectable word or
row. -/
inductive Upset where
  | layerBit (tower : BitVec 3) (word : BitVec 29) (bit : BitVec 8)
  | gddr (tower : BitVec 3) (word : Nat)
  | segment (tile : BitVec 8) (slot : BitVec 2) (seg : BitVec 12) (word : Nat)
  | accum (tile : BitVec 8) (acc : BitVec 8) (row : BitVec 5)
  deriving DecidableEq, Repr, Inhabited

/-- Every bit set. -/
def ones (n : Nat) : BitVec n := BitVec.allOnes n

end Sys2Proof
end

