-- ==== Sys2Proof/Syntax.lean ====
section
/-! DEFINITION. The instructions of the Folivo: one constructor for each row of spec/opcode_table.json. Rows with an
encoding carry the row's fields, under the table's own letters and widths (registers, predicates and codes as the word
holds them; Tables 17.3, 17.5, 17.7, 9.2). Rows without an encoding are events and host commands: they carry where and
to what they happen. -/

namespace Sys2Proof

/-- The operations and events of the Folivo. -/
inductive Instr where
  /-- IOP (R351). Sequencer integer register-register operation: gd takes the Table 17.9 integer function of gs and gt at 64 bits. -/
  | iop (q : BitVec 3) (d : BitVec 5) (s : BitVec 5) (t : BitVec 5) (f : BitVec 5)
  /-- IOPI (R352). Sequencer integer operation with a 10-bit immediate; iopi.add into g2 makes the STKLIM check. -/
  | iopi (q : BitVec 3) (d : BitVec 5) (s : BitVec 5) (f : BitVec 3) (i : BitVec 10)
  /-- LUI (R364). Writes imm18 into gd[63:46] and clears gd[45:0]. -/
  | lui (q : BitVec 3) (d : BitVec 5) (i : BitVec 18)
  /-- ADDPC (R327). Sets gd to PC plus 4 times the signed word offset. -/
  | addpc (q : BitVec 3) (d : BitVec 5) (i : BitVec 18)
  /-- CMP (R336). Compares two g registers under a condition and writes the result to a predicate. -/
  | cmp (q : BitVec 3) (d : BitVec 3) (s : BitVec 5) (t : BitVec 5) (c : BitVec 3)
  /-- CMPI (R337). Compares a g register with a sign-extended immediate and writes the result to a predicate. -/
  | cmpi (q : BitVec 3) (d : BitVec 3) (s : BitVec 5) (c : BitVec 3) (i : BitVec 10)
  /-- PLOG (R383). Combines predicates by and, or, xor, andn, orn or not. -/
  | plog (q : BitVec 3) (d : BitVec 3) (s : BitVec 3) (t : BitVec 3) (f : BitVec 3)
  /-- PSAVE (R382). Writes the packed predicate byte to gd. -/
  | psave (q : BitVec 3) (d : BitVec 5)
  /-- PLOAD (R382). Restores logical p1 to p7 from gs[7:1]. -/
  | pload (q : BitVec 3) (s : BitVec 5)
  /-- SEL (R388). Selects one of two g registers by a predicate. -/
  | sel (q : BitVec 3) (d : BitVec 5) (s : BitVec 5) (t : BitVec 5) (c : BitVec 3)
  /-- SEL_F (R388). Selects one of two f registers by a predicate. -/
  | selF (q : BitVec 3) (d : BitVec 5) (s : BitVec 5) (t : BitVec 5) (c : BitVec 3)
  /-- FOP (R349). FP32 arithmetic on f registers, rounded once in FPMODE.RM, with sticky flags. -/
  | fop (q : BitVec 3) (d : BitVec 5) (s : BitVec 5) (t : BitVec 5) (f : BitVec 5)
  /-- FMA (R348). Fused multiply-add variants on f registers, rounded once. -/
  | fma (q : BitVec 3) (d : BitVec 5) (s : BitVec 5) (t : BitVec 5) (f : BitVec 3)
  /-- FCMP (R344). Compares two f registers under a float condition into a predicate. -/
  | fcmp (q : BitVec 3) (d : BitVec 3) (s : BitVec 5) (t : BitVec 5) (c : BitVec 3)
  /-- FCVT (R345). Converts or moves between f and g registers and FP16 or BF16 bit patterns. -/
  | fcvt (q : BitVec 3) (d : BitVec 5) (s : BitVec 5) (f : BitVec 4)
  /-- LDS (R361). Loads 1 to 8 bytes from a segment into gd, with zero or sign extension. -/
  | lds (q : BitVec 3) (d : BitVec 5) (b : BitVec 5) (z : BitVec 2) (x : BitVec 1) (i : BitVec 10)
  /-- STS (R393). Stores the low 1 to 8 bytes of gd to a segment. -/
  | sts (q : BitVec 3) (d : BitVec 5) (b : BitVec 5) (z : BitVec 2) (i : BitVec 10)
  /-- FLDS (R347). Loads 4 bytes from a segment into an f register, bits unchanged. -/
  | flds (q : BitVec 3) (d : BitVec 5) (b : BitVec 5) (i : BitVec 10)
  /-- FSTS (R350). Stores an f register's 32 bits to a segment. -/
  | fsts (q : BitVec 3) (d : BitVec 5) (b : BitVec 5) (i : BitVec 10)
  /-- LDG (R359). Loads from global memory at a virtual address through a capability. -/
  | ldg (q : BitVec 3) (d : BitVec 5) (s : BitVec 5) (t : BitVec 4) (x : BitVec 1) (z : BitVec 2)
  /-- STG (R393). Stores to global memory at a virtual address through a capability. -/
  | stg (q : BitVec 3) (d : BitVec 5) (s : BitVec 5) (t : BitVec 4) (z : BitVec 2)
  /-- LDQ (R360). Loads 16 bytes from a segment into an even register pair. -/
  | ldq (q : BitVec 3) (d : BitVec 5) (b : BitVec 5) (i : BitVec 10)
  /-- STQ (R393). Stores an even register pair as 16 bytes to a segment. -/
  | stq (q : BitVec 3) (d : BitVec 5) (b : BitVec 5) (i : BitVec 10)
  /-- AMO (R328). Atomic read-modify-write on a segment or global location, with optional acquire and release. -/
  | amo (q : BitVec 3) (d : BitVec 5) (s : BitVec 5) (t : BitVec 5) (w : BitVec 1) (c : BitVec 1) (l : BitVec 1) (a : BitVec 1) (o : BitVec 4)
  /-- CAPLD (R332). Loads a 16-byte capability and its tag into a cap register. -/
  | capld (q : BitVec 3) (d : BitVec 4) (b : BitVec 5) (i : BitVec 10)
  /-- CAPST (R334). Stores a cap register and its tag to a 16-byte granule. -/
  | capst (q : BitVec 3) (d : BitVec 4) (b : BitVec 5) (i : BitVec 10)
  /-- CAPOP_MOV (R333). Copies a capability register, tag included. -/
  | capopMov (q : BitVec 3) (d : BitVec 4) (s : BitVec 4)
  /-- CAPOP_TRIM (R333). Derives a capability with its base raised by gt and its end kept. -/
  | capopTrim (q : BitVec 3) (d : BitVec 4) (s : BitVec 4) (t : BitVec 5)
  /-- CAPOP_LEN (R333). Derives a capability with its length set to gt, rounded down. -/
  | capopLen (q : BitVec 3) (d : BitVec 4) (s : BitVec 4) (t : BitVec 5)
  /-- CAPOP_PERM (R333). Derives a capability with its permissions narrowed by gt[7:0]. -/
  | capopPerm (q : BitVec 3) (d : BitVec 4) (s : BitVec 4) (t : BitVec 5)
  /-- CAPOP_BASE (R333). Reads a capability's base into gd. -/
  | capopBase (q : BitVec 3) (d : BitVec 5) (s : BitVec 4)
  /-- CAPOP_SIZE (R333). Reads a capability's length into gd. -/
  | capopSize (q : BitVec 3) (d : BitVec 5) (s : BitVec 4)
  /-- CAPOP_INFO (R333). Reads a capability's permissions, tenant, tag and malformed bit into gd. -/
  | capopInfo (q : BitVec 3) (d : BitVec 5) (s : BitVec 4)
  /-- CAPOP_UNTAG (R333). Copies a capability with its tag cleared. -/
  | capopUntag (q : BitVec 3) (d : BitVec 4) (s : BitVec 4)
  /-- BR (R331). Branches by a sign-magnitude word offset. -/
  | br (q : BitVec 3) (n : BitVec 1) (f : BitVec 22)
  /-- JAL (R354). Writes the link into g1 and branches by a word offset. -/
  | jal (q : BitVec 3) (n : BitVec 1) (f : BitVec 22)
  /-- JALR (R355). Jumps to gs plus an immediate and writes the link into gd. -/
  | jalr (q : BitVec 3) (d : BitVec 5) (s : BitVec 5) (i : BitVec 13)
  /-- LOOP (R362). Starts a non-rotating hardware loop with a count from gs. -/
  | loop (q : BitVec 3) (i : BitVec 2) (s : BitVec 5) (l : BitVec 10)
  /-- LOOP_ROT (R362). Starts a rotating hardware loop with stage predicates. -/
  | loopRot (q : BitVec 3) (i : BitVec 2) (s : BitVec 5) (g : BitVec 3) (l : BitVec 10)
  /-- RPT (R56). Issues the next sequencer instruction cnt times with stepped register fields. -/
  | rpt (q : BitVec 3) (c : BitVec 6) (a : BitVec 3) (b : BitVec 3) (e : BitVec 3)
  /-- CMD (R335). Builds an entry and pushes it into the selected engine queue. -/
  | cmd (e : BitVec 2) (k : BitVec 6) (s : BitVec 5) (t : BitVec 5) (w : BitVec 3) (v : BitVec 1) (z : BitVec 3) (y : BitVec 1)
  /-- POPR (R384). Pops one element from a FIFO into gd, waiting while it is empty. -/
  | popr (q : BitVec 3) (d : BitVec 5) (f : BitVec 2)
  /-- PUSHD (R385). Appends one record of gt to a deferral queue, waiting while it is full. -/
  | pushd (q : BitVec 3) (s : BitVec 5) (t : BitVec 5)
  /-- SEMS_SIG (R389). Signals a semaphore of the running context, with release effect. -/
  | semsSig (q : BitVec 3) (n : BitVec 3)
  /-- SEMS_WAIT (R389). Waits until a semaphore is nonzero, then decrements it with acquire effect. -/
  | semsWait (q : BitVec 3) (n : BitVec 3)
  /-- SEMS_GET (R389). Reads a semaphore's count into gd. -/
  | semsGet (q : BitVec 3) (d : BitVec 5) (n : BitVec 3)
  /-- SEMS_TRY (R389). Decrements a nonzero semaphore and acquires, or reports 0 without effect. -/
  | semsTry (q : BitVec 3) (d : BitVec 5) (n : BitVec 3)
  /-- BARA (R329). Arrives gt bytes on a barrier object in a segment. -/
  | bara (q : BitVec 3) (s : BitVec 5) (t : BitVec 5)
  /-- BARA_CAP (R329). Arrives gt bytes on a barrier object at a virtual address through a capability. -/
  | baraCap (q : BitVec 3) (c : BitVec 4) (s : BitVec 5) (t : BitVec 5)
  /-- BARW (R330). Waits until a segment barrier object's PHASE differs from gt[0]. -/
  | barw (q : BitVec 3) (s : BitVec 5) (t : BitVec 5)
  /-- BARW_CAP (R330). Waits on a barrier object at a virtual address through a capability. -/
  | barwCap (q : BitVec 3) (c : BitVec 4) (s : BitVec 5) (t : BitVec 5)
  /-- FENCE_ACQ (R186). Acquire fence of the named scope on the sequencer's own accesses. -/
  | fenceAcq (q : BitVec 3) (s : BitVec 2)
  /-- FENCE_REL (R186). Release fence of the named scope. -/
  | fenceRel (q : BitVec 3) (s : BitVec 2)
  /-- FENCE_FULL (R186). Full fence of the named scope, ordering stores before later loads. -/
  | fenceFull (q : BitVec 3) (s : BitVec 2)
  /-- FENCE_LAYER (R188). Waits for earlier xlayer items to be acknowledged, then acts as a full fence. -/
  | fenceLayer (q : BitVec 3) (s : BitVec 2)
  /-- EVPOP (R343). Removes the oldest event record into a register pair, waiting while empty. -/
  | evpop (q : BitVec 3) (d : BitVec 5)
  /-- ITER_DONE (R353). Ends the iteration when it retires, freeing the tile for the context. -/
  | iterDone (q : BitVec 3)
  /-- ITER_PT (R353). Writes the row-major index of the running point into gd. -/
  | iterPt (q : BitVec 3) (d : BitVec 5)
  /-- SYSR (R394). Reads a system register, whole or one half, into gd. -/
  | sysr (q : BitVec 3) (d : BitVec 5) (f : BitVec 2) (n : BitVec 12)
  /-- SYSW (R394). Writes a system register that has no behaviour of its own, field by field by its Access. -/
  | sysw (q : BitVec 3) (s : BitVec 5) (n : BitVec 12)
  /-- SYSW_QUOTA (R98). Writes QUOTA; a value that leaves RES above QUOTA makes the porter push at once. -/
  | syswQuota (q : BitVec 3) (s : BitVec 5)
  /-- SYSW_LSTAT (R362). Writes LSTAT; setting ACTn resumes loop n with its last start and end. -/
  | syswLstat (q : BitVec 3) (s : BitVec 5)
  /-- SYSW_TRCTL (R289). Writes TRCTL: arms stops, sets filters and unfreezes recorders by FROZEN. -/
  | syswTrctl (q : BitVec 3) (s : BitVec 5)
  /-- TRAP (R240). Raises TRAPSW with FVAL n and EPC at the next instruction. -/
  | trap (q : BitVec 3) (n : BitVec 13)
  /-- SETROOT (R269). Firmware call 1: sets the stage-1 root of a tower. -/
  | setroot (q : BitVec 3)
  /-- RINGS (R269). Firmware call 2: registers the fault and command rings and makes the caller the service tile. -/
  | rings (q : BitVec 3)
  /-- FLUSH (R258). Firmware call 3: retries every stalled access under a new generation. -/
  | flush (q : BitVec 3)
  /-- REFUSE (R258). Firmware call 4: refuses a fault-ring record, so its stalled accesses raise XLAT1. -/
  | refuse (q : BitVec 3)
  /-- TLBINV (R257). Firmware call 5: invalidates translations of a VA range. -/
  | tlbinv (q : BitVec 3)
  /-- FIRMWARE_LAUNCH (R272). Firmware call 6: chooses tiles, validates and launches a LAUNCH body and answers the host. -/
  | firmwareLaunch (q : BitVec 3)
  /-- TIMEOUT (R261). Firmware call 7: sets the fabric timeout. -/
  | timeout (q : BitVec 3)
  /-- MIGRATE (R263). Firmware call 8: migrates a page to another tower of the chip. -/
  | migrate (q : BitVec 3)
  /-- RECREAD (R299). Firmware call 9: copies a recorder's frames into a segment. -/
  | recread (q : BitVec 3)
  /-- RETS (R241). Returns from a trap to the trapping slot. -/
  | rets (q : BitVec 3)
  /-- RETS_SLOT (R241). Returns from a trap into the slot named by gs. -/
  | retsSlot (q : BitVec 3) (s : BitVec 5)
  /-- RETS_END (R241). Ends the context of the named slot and continues in the runtime. -/
  | retsEnd (q : BitVec 3) (s : BitVec 5)
  /-- WAITI (R429). Waits until a selected queue or semaphore condition holds or gs cycles pass. -/
  | waiti (q : BitVec 3) (d : BitVec 5) (s : BitVec 5) (m : BitVec 5)
  /-- WAITI_WAKE (R429). A waiting WAITI completes when a selected condition holds or its time limit expires, writing the condition mask. -/
  | waitiWake (tile : BitVec 8)
  /-- RANGE_PUSH (R295). Pushes a label on the range-label stack and writes a RANGE record. -/
  | rangePush (q : BitVec 3) (l : BitVec 16)
  /-- RANGE_POP (R295). Pops the range-label stack and writes a RANGE record. -/
  | rangePop (q : BitVec 3)
  /-- SEGOP_DEF (R106). Creates a segment homed on this tile, backed and zero. -/
  | segopDef (q : BitVec 3) (d : BitVec 5) (s : BitVec 5) (t : BitVec 5)
  /-- SEGOP_DROP (R106). Waits for earlier entries to retire, then frees a segment. -/
  | segopDrop (q : BitVec 3) (s : BitVec 5)
  /-- SEGOP_PIN (R106). Recalls a segment if absent and sets PIN. -/
  | segopPin (q : BitVec 3) (s : BitVec 5)
  /-- SEGOP_UNPIN (R106). Clears PIN of a segment. -/
  | segopUnpin (q : BitVec 3) (s : BitVec 5)
  /-- SEGOP_QUERY (R106). Reads descriptor bits [127:64] of a segment into gd. -/
  | segopQuery (q : BitVec 3) (d : BitVec 5) (s : BitVec 5)
  /-- SEGOP_STAT (R107). Reads a porter counter into gd. -/
  | segopStat (q : BitVec 3) (d : BitVec 5) (s : BitVec 5)
  /-- ACCOP_QUERY (R325). Reads an accumulator tile's owner into gd. -/
  | accopQuery (q : BitVec 3) (d : BitVec 5) (s : BitVec 5)
  /-- ACCOP_CLAIM (R325). Touches an accumulator tile, claiming it if free. -/
  | accopClaim (q : BitVec 3) (s : BitVec 5)
  /-- ACCOP_RELEASE (R325). Waits for earlier entries, then zeroes and frees an owned accumulator tile. -/
  | accopRelease (q : BitVec 3) (s : BitVec 5)
  /-- ACCOP_SET (R325). Sets an accumulator tile's owner, zeroing it when the owner changes between contexts. -/
  | accopSet (q : BitVec 3) (s : BitVec 5) (t : BitVec 5)
  /-- ACCOP_SAVE (R325). Writes an accumulator tile and its sidebands to global memory. -/
  | accopSave (q : BitVec 3) (d : BitVec 5) (s : BitVec 5) (t : BitVec 4)
  /-- ACCOP_LOAD (R325). Restores an accumulator tile and its sidebands from global memory. -/
  | accopLoad (q : BitVec 3) (d : BitVec 5) (s : BitVec 5) (t : BitVec 4)
  /-- SLOT_SET (R391). Waits for earlier DEC entries, then replaces a sequence slot entry from a 64 B image. -/
  | slotSet (q : BitVec 3) (s : BitVec 5) (t : BitVec 5)
  /-- SLOT_LEN (R391). Waits for earlier DEC entries, then sets a sequence slot's LEN. -/
  | slotLen (q : BitVec 3) (s : BitVec 5) (t : BitVec 5)
  /-- SLOT_GET (R391). Reads one doubleword of a sequence slot entry. -/
  | slotGet (q : BitVec 3) (d : BitVec 5) (s : BitVec 5) (t : BitVec 5)
  /-- KVOP_FORK (R358). Forks a child sequence from a parent at a fork point. -/
  | kvopFork (q : BitVec 3) (d : BitVec 5) (s : BitVec 5) (t : BitVec 5)
  /-- KVOP_DROP (R358). Lowers the REF of every block named under a slot's sequence. -/
  | kvopDrop (q : BitVec 3) (s : BitVec 5)
  /-- KVOP_LOOK (R358). Looks up a KV block and returns its DRAM layer offset. -/
  | kvopLook (q : BitVec 3) (d : BitVec 5) (s : BitVec 5) (t : BitVec 5)
  /-- MSKLD_PROG (R208). Validates an MSK block and makes it a mask slot's program. -/
  | mskldProg (q : BitVec 3) (e : BitVec 1) (l : BitVec 3) (b : BitVec 3)
  /-- MSKLD_PARAM (R207). Loads mask parameter mp n of a mask slot from gs. -/
  | mskldParam (q : BitVec 3) (s : BitVec 5) (e : BitVec 1) (l : BitVec 3) (n : BitVec 3)
  /-- MSKLD_RUNS (R207). Loads a mask slot's run table from a segment. -/
  | mskldRuns (q : BitVec 3) (s : BitVec 5) (e : BitVec 1) (l : BitVec 3)
  /-- MSKLD_STAT (R207). Reads a mask slot counter into gd. -/
  | mskldStat (q : BitVec 3) (d : BitVec 5) (e : BitVec 1) (l : BitVec 3) (n : BitVec 2)
  /-- MSKLD_CLEAR (R207). Zeroes a mask slot's counters. -/
  | mskldClear (q : BitVec 3) (e : BitVec 1) (l : BitVec 3)
  /-- TSTAT (R397). Reads TSTAT into gd. -/
  | tstat (q : BitVec 3) (d : BitVec 5)
  /-- TSTAT_CLR (R397). Reads TSTAT, clears the W1C bits named in gs and zeroes FCHG and THRCNT. -/
  | tstatClr (q : BitVec 3) (d : BitVec 5) (s : BitVec 5)
  /-- VOP (R418). Vector lane-wise arithmetic function of va and vb. -/
  | vop (d : BitVec 6) (a : BitVec 6) (b : BitVec 6) (f : BitVec 5) (p : BitVec 3)
  /-- VFMA (R411). Vector fused multiply-add variants into vd. -/
  | vfma (d : BitVec 6) (a : BitVec 6) (b : BitVec 6) (v : BitVec 2) (r : BitVec 3) (p : BitVec 3)
  /-- VUN (R427). Vector unary function such as neg, recip, exp2 or popc. -/
  | vun (d : BitVec 6) (a : BitVec 6) (f : BitVec 5) (p : BitVec 3)
  /-- VCMP (R404). Compares lanes of two rows into a vector predicate. -/
  | vcmp (d : BitVec 3) (a : BitVec 6) (b : BitVec 6) (c : BitVec 3) (p : BitVec 3)
  /-- VSEL (R422). Selects lanes of va or vb by a vector predicate. -/
  | vsel (d : BitVec 6) (a : BitVec 6) (b : BitVec 6) (c : BitVec 3) (p : BitVec 3)
  /-- VCVT (R406). Converts lanes to another element type, by part. -/
  | vcvt (d : BitVec 6) (a : BitVec 6) (r : BitVec 3) (k : BitVec 2) (t : BitVec 3) (p : BitVec 3)
  /-- VRED (R420). Reduces active lanes over the fixed pairwise tree into lane 0. -/
  | vred (d : BitVec 6) (a : BitVec 6) (f : BitVec 5) (p : BitVec 3)
  /-- VSCAN (R420). Writes the inclusive prefix of active lanes. -/
  | vscan (d : BitVec 6) (a : BitVec 6) (f : BitVec 5) (p : BitVec 3)
  /-- VSHUF (R424). Permutes lanes by index, reversal, rotation or zip. -/
  | vshuf (d : BitVec 6) (a : BitVec 6) (b : BitVec 6) (f : BitVec 5) (p : BitVec 3)
  /-- VLD (R414). Loads n 128 B rows through an address register. -/
  | vld (d : BitVec 6) (a : BitVec 3) (c : BitVec 6) (p : BitVec 3)
  /-- VST (R414). Stores n rows through an address register. -/
  | vst (d : BitVec 6) (a : BitVec 3) (c : BitVec 6) (p : BitVec 3)
  /-- VLDS (R415). Loads a scalar from a segment into a vs register. -/
  | vlds (d : BitVec 3) (a : BitVec 3) (z : BitVec 2) (x : BitVec 1) (i : BitVec 17)
  /-- VSTS (R415). Stores a vs register's low bytes to a segment. -/
  | vsts (d : BitVec 3) (a : BitVec 3) (z : BitVec 2) (i : BitVec 17)
  /-- VGATH (R412). Gathers lanes from segment offsets given by an index row. -/
  | vgath (d : BitVec 6) (a : BitVec 3) (s : BitVec 3) (i : BitVec 6) (p : BitVec 3)
  /-- VSCAT (R412). Scatters lanes to segment offsets given by an index row. -/
  | vscat (d : BitVec 6) (a : BitVec 3) (s : BitVec 3) (i : BitVec 6) (p : BitVec 3)
  /-- VBCST (R401). Broadcasts one lane of a row to the active lanes of vd. -/
  | vbcst (d : BitVec 6) (a : BitVec 6) (i : BitVec 6) (j : BitVec 1) (p : BitVec 3)
  /-- VBCST_S (R401). Broadcasts a vs register to the active lanes of vd. -/
  | vbcstS (d : BitVec 6) (n : BitVec 3) (p : BitVec 3)
  /-- VMOVS_GET (R417). Moves one lane, sign-extended, into a vs register. -/
  | vmovsGet (n : BitVec 3) (a : BitVec 6) (i : BitVec 6) (j : BitVec 1)
  /-- VMOVS_GETU (R417). Moves one lane, zero-extended, into a vs register. -/
  | vmovsGetu (n : BitVec 3) (a : BitVec 6) (i : BitVec 6) (j : BitVec 1)
  /-- VMOVS_PUT (R417). Writes a vs register into one lane of a row. -/
  | vmovsPut (d : BitVec 6) (n : BitVec 3) (i : BitVec 6) (j : BitVec 1) (p : BitVec 3)
  /-- VSOP (R426). 64-bit integer function on vs registers with an immediate or a register. -/
  | vsop (d : BitVec 3) (a : BitVec 3) (f : BitVec 5) (r : BitVec 1) (i : BitVec 14)
  /-- VSOP_LI (R426). Loads a sign-extended 14-bit immediate into a vs register. -/
  | vsopLi (d : BitVec 3) (i : BitVec 14)
  /-- VSOP_SETRM (R114). Sets the vector rounding mode VRM. -/
  | vsopSetrm (r : BitVec 2)
  /-- VSOP_GETRM (R426). Reads VRM into a vs register. -/
  | vsopGetrm (d : BitVec 3)
  /-- VADDR (R399). Sets an address register to linear mode over a segment pointer with a step. -/
  | vaddr (n : BitVec 3) (a : BitVec 3) (s : BitVec 17)
  /-- VADDR_LEN (R399). Sets an address register's length and mode. -/
  | vaddrLen (n : BitVec 3) (a : BitVec 3) (m : BitVec 2)
  /-- VADDR_STEP (R399). Sets an address register's step. -/
  | vaddrStep (n : BitVec 3) (a : BitVec 3)
  /-- VADDR_POS (R399). Sets an address register's position. -/
  | vaddrPos (n : BitVec 3) (a : BitVec 3)
  /-- VADDR_GET (R399). Reads an address register's position into a vs register. -/
  | vaddrGet (d : BitVec 3) (n : BitVec 3)
  /-- VSHAPE (R423). Sets SHAPE from an immediate element type and window. -/
  | vshape (t : BitVec 4) (w : BitVec 8)
  /-- VSHAPE_VS (R423). Sets SHAPE from a vs register. -/
  | vshapeVs (a : BitVec 3)
  /-- VSHAPE_GET (R423). Reads SHAPE into a vs register. -/
  | vshapeGet (d : BitVec 3)
  /-- VPRED_LOGIC (R419). Combines vector predicates by and, or, xor or andn. -/
  | vpredLogic (d : BitVec 3) (a : BitVec 3) (b : BitVec 3) (f : BitVec 5) (p : BitVec 3)
  /-- VPRED_NOT (R419). Inverts a vector predicate. -/
  | vpredNot (d : BitVec 3) (a : BitVec 3) (p : BitVec 3)
  /-- VPRED_LT (R419). Sets predicate bits of lanes below a vs value. -/
  | vpredLt (d : BitVec 3) (n : BitVec 3) (p : BitVec 3)
  /-- VPRED_CNT (R419). Counts set predicate bits into a vs register. -/
  | vpredCnt (d : BitVec 3) (a : BitVec 3) (p : BitVec 3)
  /-- VDEFER (R407). Appends records of selected lanes to a deferral queue and reports lanes that did not fit. -/
  | vdefer (d : BitVec 6) (a : BitVec 3) (o : BitVec 3) (k : BitVec 6) (t : BitVec 3) (p : BitVec 3)
  /-- VUNDEF (R428). Removes records from a deferral queue into rows and a predicate. -/
  | vundef (d : BitVec 6) (a : BitVec 3) (o : BitVec 3) (k : BitVec 6)
  /-- VPACK (R152). Packs integer lanes into a WIDE row with a sideband. -/
  | vpack (d : BitVec 6) (a : BitVec 6) (r : BitVec 1) (n : BitVec 7) (o : BitVec 3) (p : BitVec 3)
  /-- VXTRD (R156). Extracts signed digits of a row pair into lanes. -/
  | vxtrd (d : BitVec 6) (a : BitVec 5) (j : BitVec 11) (p : BitVec 3)
  /-- VGUARD (R151). Sets the guard width and FAULT or FLAG mode. -/
  | vguard (f : BitVec 1) (g : BitVec 6)
  /-- VBXENC (R402). Encodes four FP32 rows as BX blocks and headers. -/
  | vbxenc (d : BitVec 6) (a : BitVec 6) (b : BitVec 6) (w : BitVec 2)
  /-- VBXDEC (R402). Decodes BX blocks into four FP32 rows. -/
  | vbxdec (d : BitVec 6) (a : BitVec 6) (b : BitVec 6) (w : BitVec 2)
  /-- VFIFO_SEQ (R410). Pushes one lane to the VEC to SEQ FIFO. -/
  | vfifoSeq (a : BitVec 6) (i : BitVec 6)
  /-- VFIFO_MAT (R410). Pushes a row to the VEC to MAT row FIFO. -/
  | vfifoMat (a : BitVec 6)
  /-- VFIFO_POP (R410). Pops a row from the MAT to VEC FIFO into vd. -/
  | vfifoPop (d : BitVec 6) (p : BitVec 3)
  /-- VRPT (R56). Issues the next vector instruction cnt times with stepped fields. -/
  | vrpt (c : BitVec 6) (d : BitVec 3) (a : BitVec 3) (b : BitVec 3)
  /-- VSOFT (R425). One step of online softmax over a score row with a state row. -/
  | vsoft (d : BitVec 6) (a : BitVec 6) (b : BitVec 6) (p : BitVec 3)
  /-- VMASKB (R416). Evaluates a mask program per lane into a vector predicate. -/
  | vmaskb (d : BitVec 3) (s : BitVec 3) (n : BitVec 3) (p : BitVec 3)
  /-- VCPY (R405). Copies active lanes of a row. -/
  | vcpy (d : BitVec 6) (a : BitVec 6) (p : BitVec 3)
  /-- VCPY_P (R405). Copies vector predicate bits of active lanes. -/
  | vcpyP (d : BitVec 3) (a : BitVec 3) (p : BitVec 3)
  /-- VCPY_PN (R405). Copies inverted vector predicate bits of active lanes. -/
  | vcpyPn (d : BitVec 3) (a : BitVec 3) (p : BitVec 3)
  /-- VDOT (R408). Exact dot product of active lanes, rounded once into lane 0. -/
  | vdot (d : BitVec 6) (a : BitVec 6) (b : BitVec 6) (c : BitVec 1) (r : BitVec 3) (p : BitVec 3)
  /-- VAMAX (R400). Largest magnitude over active non-NaN lanes into lane 0. -/
  | vamax (d : BitVec 6) (a : BitVec 6) (c : BitVec 1) (p : BitVec 3)
  /-- VCLASS (R403). Writes a one-hot class of each float lane. -/
  | vclass (d : BitVec 6) (a : BitVec 6) (p : BitVec 3)
  /-- MMA (R374). Press step C plus A times B into an accumulator tile, with optional mask, zeroing and status. -/
  | mma (c : BitVec 8) (a : BitVec 5) (b : BitVec 4) (f : BitVec 4) (z : BitVec 1) (t : BitVec 1) (m : BitVec 1) (s : BitVec 1)
  /-- MLDD_OD (R373). Loads an operand descriptor from x. -/
  | mlddOd (n : BitVec 4)
  /-- MLDD_AS (R373). Loads an accumulator source slot from x. -/
  | mlddAs (n : BitVec 4)
  /-- MFMT (R371). Sets FMTBASE and the loop id for fsel 15. -/
  | mfmt (c : BitVec 8) (l : BitVec 2)
  /-- MDRAIN (R369). Converts and writes an accumulator tile to a descriptor and merges its amax. -/
  | mdrain (c : BitVec 8) (b : BitVec 4) (f : BitVec 4) (q : BitVec 1)
  /-- MZERO (R381). Writes an accumulator tile as zeros. -/
  | mzero (c : BitVec 8)
  /-- MWMUL (R154). Wide multiply of two packed rows into a row pair under the guard check. -/
  | mwmul (c : BitVec 8) (a : BitVec 5) (b : BitVec 4) (f : BitVec 4) (t : BitVec 1) (s : BitVec 1)
  /-- MWMAC (R154). Wide multiply-accumulate into a row pair under the guard check. -/
  | mwmac (c : BitVec 8) (a : BitVec 5) (b : BitVec 4) (f : BitVec 4) (t : BitVec 1) (s : BitVec 1)
  /-- MFOLD_STRICT (R372). Sets the fold policy to strict with a layer mask. -/
  | mfoldStrict (l : BitVec 4)
  /-- MFIFO_POP (R370). Pops a row from the VEC to MAT FIFO into an accumulator row. -/
  | mfifoPop (c : BitVec 8) (a : BitVec 5)
  /-- MFIFO_PUSH (R370). Pushes an accumulator row to the MAT to VEC FIFO. -/
  | mfifoPush (c : BitVec 8) (a : BitVec 5)
  /-- MMSK (R211). Sets the press mask state: slot, mode, key advance and positions. -/
  | mmsk (s : BitVec 3) (c : BitVec 1) (k : BitVec 5) (q : BitVec 1) (j : BitVec 1)
  /-- MSYNC (R379). Waits until earlier press steps have made their effects, optionally pushing a status element. -/
  | msync (s : BitVec 1)
  /-- MCPY (R368). Copies one source-slot accumulator tile into another tile. -/
  | mcpy (d : BitVec 8) (n : BitVec 4) (c : BitVec 2)
  /-- MRPT (R376). Issues the next press step n times with stepped fields. -/
  | mrpt (c : BitVec 6) (a : BitVec 3) (b : BitVec 3) (e : BitVec 3)
  /-- XCOPY (R167). Copies rows from one descriptor to another. -/
  | xcopy (a : BitVec 3) (d : BitVec 3) (l : BitVec 8) (o : BitVec 5) (b : BitVec 1) (s : BitVec 1)
  /-- XGATH (R430). Gathers indexed source rows into consecutive destination rows. -/
  | xgath (a : BitVec 3) (d : BitVec 3) (l : BitVec 8) (o : BitVec 5) (b : BitVec 1) (s : BitVec 1)
  /-- XSCAT (R430). Scatters consecutive source rows to indexed destination rows. -/
  | xscat (a : BitVec 3) (d : BitVec 3) (l : BitVec 8) (o : BitVec 5) (b : BitVec 1) (s : BitVec 1)
  /-- XIDX (R169). Feeds index words to the address queue for the following indexed step. -/
  | xidx (a : BitVec 3) (d : BitVec 3) (l : BitVec 8)
  /-- XFILL (R167). Fills rows with zeros or a 32-bit pattern. -/
  | xfill (d : BitVec 3) (l : BitVec 8) (o : BitVec 5) (b : BitVec 1) (s : BitVec 1) (p : BitVec 1)
  /-- XRED (R168). Adds or takes the maximum of source rows into destination rows. -/
  | xred (a : BitVec 3) (d : BitVec 3) (l : BitVec 8) (o : BitVec 5) (b : BitVec 1) (s : BitVec 1) (i : BitVec 1) (n : BitVec 1) (f : BitVec 4)
  /-- XLAYER (R167). Copies rows between a segment and the DRAM layer over the asynchronous path. -/
  | xlayer (a : BitVec 3) (d : BitVec 3) (l : BitVec 8) (o : BitVec 5) (b : BitVec 1) (s : BitVec 1)
  /-- XREM (R172). Puts rows into a segment of another tile or chip. -/
  | xrem (a : BitVec 3) (d : BitVec 3) (l : BitVec 8) (o : BitVec 5) (b : BitVec 1) (s : BitVec 1)
  /-- XREM_ACK (R172). An xrem item completes when the target acknowledges it. -/
  | xremAck (tile : BitVec 8)
  /-- XBAR (R431). Waits for earlier steps, then arrives len times 2^SH bytes on a barrier slot. -/
  | xbar (l : BitVec 8) (o : BitVec 5) (s : BitVec 1) (h : BitVec 5)
  /-- XDESC (R164). Sets a transfer descriptor from x and y. -/
  | xdesc (d : BitVec 3) (l : BitVec 8) (u : BitVec 2) (k : BitVec 2) (p : BitVec 1) (r : BitVec 2)
  /-- XDESC_SLOT (R164). Loads a barrier slot with a pointer. -/
  | xdescSlot (o : BitVec 5) (k : BitVec 2) (r : BitVec 2)
  /-- XWAIT (R433). Waits until the barrier object of a slot changes phase from PH. -/
  | xwait (o : BitVec 5) (h : BitVec 1)
  /-- DEC_ENTRY_PARK (R248). When the issuing slot stops, the decode engine stops the entry at its next commit and parks it with the later entries of that slot. -/
  | decEntryPark (tower : BitVec 3)
  /-- ENTRY_ADMISSION (R110). An entry at the head of its queue is admitted once its declared segments can be booked and made resident. -/
  | entryAdmission (tile : BitVec 8) (e : Eng)
  /-- ENTRY_WAIT_TOKEN (R31). An admitted entry whose wait token's semaphore is nonzero decrements it with acquire and starts to run. -/
  | entryWaitToken (tile : BitVec 8) (e : Eng)
  /-- ENTRY_RETIRE (R31). An entry that finished its steps releases its bookings and signals its semaphore with release effect. -/
  | entryRetire (tile : BitVec 8) (e : Eng)
  /-- SEMAPHORE_WAIT_END (R390). A signal satisfies the earliest semaphore waiter, which decrements and acquires. -/
  | semaphoreWaitEnd (tile : BitVec 8) (n : BitVec 3)
  /-- BARRIER_WAIT_END (R179). A barw or xwait observes the phase flip and ends with acquire effect. -/
  | barrierWaitEnd (tile : BitVec 8) (a : Agent)
  /-- POP_WAIT_END (R384). An element arrives in an empty FIFO or event queue and the waiting pop completes. -/
  | popWaitEnd (tile : BitVec 8) (a : Agent)
  /-- PUSH_WAIT_END (R34). A slot frees in a full queue and the stalled push completes. -/
  | pushWaitEnd (tile : BitVec 8) (a : Agent)
  /-- RETIREMENT_WAIT_END (R325). The last awaited earlier entry retires and the waiting instruction acts. -/
  | retirementWaitEnd (tile : BitVec 8)
  /-- LAYER_FENCE_WAIT_END (R188). The last outstanding xlayer item is acknowledged and fence.layer completes. -/
  | layerFenceWaitEnd (tile : BitVec 8)
  /-- LAYER_AVAILABLE_WAIT_END (R138). A layer of the column becomes available and the waiting press step begins. -/
  | layerAvailableWaitEnd (tile : BitVec 8)
  /-- PROBE_LAUNCH (R36). An agent blocked for 512 c launches one probe along its wait edges. -/
  | probeLaunch (tile : BitVec 8) (a : Agent)
  /-- PROBE_RESPONSE (R36). A probe that has ended grants a spare room or raises WAITCYCLE according to the cycles found. -/
  | probeResponse (tile : BitVec 8) (a : Agent)
  /-- WATCHDOG_EXPIRY (R39). An agent blocked for the watchdog period raises WATCHDOG against its context. -/
  | watchdogExpiry (tile : BitVec 8) (a : Agent)
  /-- SLICE_END (R245). The slice count reaches zero and the slot begins to stop. -/
  | sliceEnd (tile : BitVec 8)
  /-- SLICE_BUDGET_EXPIRY (R245). An entry not retired 4,096 c after the slice end stops at its next unit boundary. -/
  | sliceBudgetExpiry (tile : BitVec 8)
  /-- TRAP_ENTRY (R237). Once the slot has stopped, trap state is written and the sequencer enters the runtime at TVEC. -/
  | trapEntry (tile : BitVec 8)
  /-- SMC_WATCHDOG_EXPIRY (R252). Expiry of the SMC's own watchdog is fatal to the partition. -/
  | smcWatchdogExpiry (part : BitVec 8)
  /-- WALKER_HANDOUT (R45). A tower's walker hands the next point to a free tile of a context. -/
  | walkerHandout (tower : BitVec 3)
  /-- LAUNCH_COMPLETE (R44). All points handed out, iterations done and entries signalled: the launch completes. -/
  | launchComplete (tile : BitVec 8)
  /-- SEGMENT_RECALL (R100). A recall of an absent segment to its home store completes and the faulting access restarts. -/
  | segmentRecall (tile : BitVec 8) (slot : BitVec 2) (seg : BitVec 12)
  /-- COMPACTION_MOVE (R102). The porter moves the lowest segment with a free frame below it down in the store. -/
  | compactionMove (tile : BitVec 8)
  /-- REMOTE_REQUEST (R255). A request arrives at its owner tower and is translated in two stages. -/
  | remoteRequest (r : RemoteReq)
  /-- FABRIC_TIMEOUT (R261). A request to an unreachable owner completes with UNREACH when the fabric timeout expires. -/
  | fabricTimeout (tile : BitVec 8) (a : Agent)
  /-- ROUTE_UP (R261). The SMC marks an owner chip up again. -/
  | routeUp (part : BitVec 8) (chip : BitVec 3)
  /-- MOVE_HOLD_EXPIRY (R263). The 1 ms hold after a page move ends. -/
  | moveHoldExpiry (tower : BitVec 3) (page : Nat)
  /-- REPLICA_LOCK_TIMEOUT (R189). A replica locked for more than 2 µs raises WATCHDOG and the page becomes unreplicated. -/
  | replicaLockTimeout (tower : BitVec 3) (page : Nat)
  /-- PENDING_ZERO_FILL (R268). The background fill zeroes a line whose pending bit is still set. -/
  | pendingZeroFill (tower : BitVec 3) (layer : Bool) (line : Nat)
  /-- RACE_SWEEP_END (R194). The checked-metadata sweep finishes and checking resumes. -/
  | raceSweepEnd (ctx : BitVec 8)
  /-- DROOP_STRETCH (R277). The column droop detector fires and the column clock stretches. -/
  | droopStretch (tile : BitVec 8)
  /-- STRETCH_END (R277). Stretching ends at the first edge with the voltage back above threshold. -/
  | stretchEnd (tile : BitVec 8)
  /-- THERMAL_THROTTLE (R279). The SMC throttles a layer at 105 °C or at the module power rating. -/
  | thermalThrottle (tile : BitVec 8) (layer : BitVec 2)
  /-- THROTTLE_RELEASE (R279). A thermal throttle is released when the junction falls below 95 °C. -/
  | throttleRelease (tile : BitVec 8) (layer : BitVec 2)
  /-- BOND_PARITY_FAILURE (R281). A press step meets a bond parity failure and is replayed, retiring the layer if it fails again. -/
  | bondParityFailure (tile : BitVec 8) (layer : BitVec 2) (again : Bool)
  /-- DRAM_PATROL_SCRUB (R282). The patrol scrub reads a DRAM layer word, correcting or poisoning it. -/
  | dramPatrolScrub (tower : BitVec 3) (word : BitVec 29)
  /-- SRAM_SCRUB (R250). The scrubber visits an SRAM line, correcting single errors and handling uncorrectable ones by owner tag. -/
  | sramScrub (l : ScrubLine) (uncorrectable : Bool)
  /-- VBUS_PARITY_FAILURE (R284). A vertical-bus beat fails parity and is retried, up to four times. -/
  | vbusParityFailure (tower : BitVec 3) (b : BusBeat)
  /-- LANE_TEST_END (R284). A 64 c lane test ends, maps the failing lane to a spare or poisons the beat. -/
  | laneTestEnd (tower : BitVec 3) (asynch : Bool) (chan : BitVec 6) (lane : Option (BitVec 8))
  /-- RETRY_STORM (R298). More than 64 link-level retries within 10 µs on one port freeze the recorders. -/
  | retryStorm (port : BitVec 5) (retries : BitVec 16)
  /-- MODULE_RESET (R287). Module reset runs the bring-up sequence. -/
  | moduleReset (pass : Bool)
  /-- LOAD (R274). Host command storing and measuring an object or the S-mode runtime. -/
  | load (c : HostCmd)
  /-- LAUNCH (R271). Host command posted to the command ring for the runtime to complete. -/
  | launch (c : HostCmd)
  /-- SEGPUT (R438). Host command writing bytes to a segment or virtual address. -/
  | segput (c : HostCmd)
  /-- SEGGET (R438). Host command reading bytes, optionally taking a page to the host. -/
  | segget (c : HostCmd)
  /-- KVPUT (R274). Host command storing K and V rows as dappend does. -/
  | kvput (c : HostCmd)
  /-- STATUS (R274). Host command returning partition state, launch statuses and error counts. -/
  | status (c : HostCmd)
  /-- ATTEST (R276). Host command returning a signed attestation report for a nonce. -/
  | attest (c : HostCmd)
  /-- ATTEST_OPEN (R276). Host command that decapsulates a ciphertext and opens a session. -/
  | attestOpen (c : HostCmd)
  /-- RESETPART (R268). Host command ending every context and clearing the partition. -/
  | resetpart (c : HostCmd)
  /-- SEGMENT_PUSH_COMPLETE (R103). A push of a segment one tier outward completes, its STATE leaves moving, and accesses stalled on it take the absent fault. -/
  | segmentPushComplete (tile : BitVec 8) (slot : BitVec 2) (seg : BitVec 12)
  /-- RESERVED_WORD (R319). The sequencer fetches a reserved word, such as an opcode from 0x34 to 0x3F or an unlisted function code, and raises ILLEGAL whatever its predicate. -/
  | reservedWord (w : BitVec 32)
  /-- PARTITION_SET_UP (R265). The SMC sets up a partition: its towers, ports, routes, mesh slots, KV store setting, clock plan and key, and hands over its zeroed regions. -/
  | partitionSetUp (p : PartSetup)
  /-- END_OF_THE_RESERVATION (R267). A partition's reservation ends, its clock plan is released and its GDDR 7 key is erased. -/
  | endOfTheReservation (part : BitVec 8)
  /-- PRE_COPY_ROUND (R264). The SMC begins a pre-copy round of a live migration, after which the first write to each 64 KiB page appends a log entry. -/
  | preCopyRound (part : BitVec 8)
  /-- MFOLD_ADAPTIVE (R372). Sets the fold policy to adaptive. -/
  | mfoldAdaptive
  /-- MFOLD_REPORT (R372). Sets the fold policy to report. -/
  | mfoldReport
  /-- MAMAX (R366). Sets the amax target to a segment pointer. -/
  | mamax
  /-- MAMAX_CAP (R366). Sets the amax target to a capability and virtual address. -/
  | mamaxCap
  /-- MAMAX_CLR (R366). Unsets the amax target. -/
  | mamaxClr
  /-- MSCALE (R377). Sets SCALE from x. -/
  | mscale
  /-- MSCALE_Y (R377). Sets SCALE from y. -/
  | mscaleY
  /-- MBAR (R367). Waits for the entry's earlier steps, then arrives on a barrier object. -/
  | mbar
  /-- XEVT (R432). Waits for earlier steps, then posts a POSTED completion record. -/
  | xevt
  /-- DATTN (R340). Decode attention walk over a sequence's KV blocks with online softmax. -/
  | dattn
  /-- DAPPEND (R339). Stores the K and V rows of token LEN, allocating blocks as needed. -/
  | dappend
  /-- DSTAT (R342). Writes the eight decode counters as one snapshot. -/
  | dstat
  /-- DBAR (R341). Waits for earlier DEC entries of the context, then arrives on a barrier object. -/
  | dbar
  deriving DecidableEq, Repr, Inhabited

end Sys2Proof
end

