-- ==== Sys2Proof/Config.lean ====
section
/-! DEFINITION. What the spec leaves open, as constants without a body, and the turns in which the machine moves. No
number of this file is a value of the Folivo that the spec states. -/

namespace Sys2Proof

/-- One move of the machine. The spec gives no order between agents (R181, R184), so a schedule of turns does. -/
inductive Turn where
  /-- the sequencer of a tile runs one instruction, or one repeat -/
  | seq (tile : BitVec 8)
  /-- an engine of a tile passes one stage of an entry (R31) or runs one unit of Table 13.5 -/
  | eng (tile : BitVec 8) (e : Eng)
  /-- the decode engine of a tower does the same -/
  | dec (tower : BitVec 3)
  /-- an event row of the opcode table happens -/
  | event (i : Instr)
  /-- cycles pass (R4) -/
  | elapse (n : Nat)
  /-- another chip answers a request of this one (R254, R261) -/
  | reply (r : RemoteReply)
  /-- a memory error arises (R251, R282) -/
  | upset (u : Upset)
  /-- bring-up goes on to its next step (R287) -/
  | bringUp
  /-- the store of a command to a replicated page is made whole (R189) -/
  | hostStore (c : HostCmd)
  deriving DecidableEq, Repr, Inhabited

namespace Config

/-- The next turn where the agenda is empty, as a function of the count of turns taken (DESIGN CHOICE, log 2). -/
opaque turn : Nat → Turn

/-- A value the spec leaves open, fresh at each use: old or new of a race (R62, R136, R184), and the like (DESIGN CHOICE, log 3). -/
opaque fresh : Nat → BitVec 64

/-- Whether a unit sees a row of the accumulator store as it was before a write that it is not ordered behind (R62, R159): by the count of
turns taken, accumulator tile and row, so that one unit sees a row in one way (DESIGN CHOICE, log 3). -/
opaque rowOld : Nat → BitVec 8 → BitVec 5 → Bool

/-- How long before its first record the TICK of a frame's header was taken (R291): by frame number and TICK of the record. No
rule says when a header takes it; the delta it leaves stays below the one that begins a new frame (DESIGN CHOICE, log 35). -/
opaque headerLag : Nat → Nat → Nat

/-- What bring-up finds on the module (R287): Table 15.4 says what follows from it, not what it is, nor the firmware whose digest is
rejected (DESIGN CHOICE, log 84). -/
opaque training : Nat → Training

/-- The BACKING field that a new segment receives (R96): no rule states an address (DESIGN CHOICE, log 10). -/
opaque backing : Nat → BitVec 48

/-- What the SMC does with a stage-2 failure (R260): a mapping it installs, or none and it ends the context (DESIGN CHOICE, log 12). -/
opaque smcMap : Nat → Option PhysPage

/-- Where an object's `.accuse` range stands: R80 to R89 give the OVO format no place for it (DESIGN CHOICE, log 9). First tile and
count. -/
opaque accuse : List Byte → Nat × Nat

/-- SHAKE256 digest, Falcon-1024 signature, ML-KEM-1024 keys and decapsulation of R276 (DESIGN CHOICE, log 11). -/
opaque digest : List Byte → List Byte
opaque sign : List Byte → List Byte
opaque encapKey : Nat → List Byte
opaque decapSession : Nat → List Byte → BitVec 64

/-- The clock plan words that an attestation report and STATUS name (R267, R274, R276): no rule gives their bytes. -/
opaque planBytes : List Nat → List Byte

/-- The fields of SEGPUT, SEGGET and KVPUT bodies: Table 14.7 names them and no rule lays them out (DESIGN CHOICE, log 18). The bytes of a
SEGPUT; the length of a SEGGET. -/
opaque putTarget : List Byte → HostTarget × List Byte
opaque getTarget : List Byte → HostTarget × Nat
opaque kvBody : List Byte → KvPut

/-- Parts of the dump whose contents the spec names and whose layout no rule gives, as functions of those contents: the 64 KiB of a
tile's state and the 8 KiB of its sideband words, by offset, and the queues of a chip (R252) (DESIGN CHOICE, log 18). -/
opaque dumpByte : List Nat → Nat → Byte
opaque dumpQueues : List Nat → List Byte

/-- Bytes of a STATUS body (R274): Table 14.7 names its contents and no rule lays them out. -/
opaque statusBytes : List Nat → List Byte

end Config

end Sys2Proof
end

