-- ==== Sys2Proof/WellFormed.lean ====
section
/-! DEFINITION. Which terms of Instr are instructions: the conditions of R318 that the field widths do not carry (codes an
instruction admits, register limits of Table 17.3, fields that other fields force to zero). Event rows are always well
formed. -/

namespace Sys2Proof

/-- The codes that VRED and VSCAN admit (R420). -/
def redCode (f : BitVec 5) : Bool := f == 1 || f == 5 || f == 6 || f == 7 || f == 8 || f == 9 || f == 0x11 || f == 0x13

/-- Whether a term is an instruction (R318). -/
def Instr.wf (i : Instr) : Bool :=
  match i with
  | .iop _ _ _ _ f => decide (1 ≤ f.toNat) && (decide (f.toNat ≤ 0x10) || f == 0x15)
  | .iopi _ _ _ _ _ => true
  | .lui _ _ _ => true
  | .addpc _ _ _ => true
  | .cmp _ _ _ _ _ => true
  | .cmpi _ _ _ _ _ => true
  | .plog _ _ _ t f => decide (1 ≤ f.toNat) && decide (f.toNat ≤ 6) && (f != 6 || t == 0)
  | .psave _ _ => true
  | .pload _ _ => true
  | .sel _ _ _ _ _ => true
  | .selF _ _ _ _ _ => true
  | .fop _ _ _ _ f => decide (1 ≤ f.toNat) && (decide (f.toNat ≤ 6) || f == 0x15)
  | .fma _ _ _ _ f => decide (1 ≤ f.toNat) && decide (f.toNat ≤ 4)
  | .fcmp _ _ _ _ _ => true
  | .fcvt _ _ _ f => decide (1 ≤ f.toNat) && decide (f.toNat ≤ 0xA)
  | .lds _ _ _ z x _ => !(x == 1 && z == 3)
  | .sts _ _ _ _ _ => true
  | .flds _ _ _ _ => true
  | .fsts _ _ _ _ => true
  | .ldg _ _ _ _ x z => !(x == 1 && z == 3)
  | .stg _ _ _ _ _ => true
  | .ldq _ d _ _ => decide (2 ≤ d.toNat) && decide (d.toNat % 2 = 0)
  | .stq _ d _ _ => decide (2 ≤ d.toNat) && decide (d.toNat % 2 = 0)
  | .amo _ d _ t _ c _ _ o => decide (o.toNat ≤ 9) && (c != 0 || t == 0) && (c != 1 || decide (t.toNat < 16)) && (o != 9 || (decide (2 ≤ d.toNat) && decide (d.toNat % 2 = 0)))
  | .capld _ _ _ _ => true
  | .capst _ _ _ _ => true
  | .capopMov _ _ _ => true
  | .capopTrim _ _ _ _ => true
  | .capopLen _ _ _ _ => true
  | .capopPerm _ _ _ _ => true
  | .capopBase _ _ _ => true
  | .capopSize _ _ _ => true
  | .capopInfo _ _ _ => true
  | .capopUntag _ _ _ => true
  | .br _ n f => !(n == 1 && f == 0)
  | .jal _ n f => !(n == 1 && f == 0)
  | .jalr _ _ _ _ => true
  | .loop _ _ _ l => l != 0
  | .loopRot _ _ _ g l => l != 0 && g != 7
  | .rpt _ _ _ _ _ => true
  | .cmd _ _ _ _ w v z y => (v != 0 || w == 0) && (y != 0 || z == 0)
  | .popr _ _ f => f != 3
  | .pushd _ _ _ => true
  | .semsSig _ _ => true
  | .semsWait _ _ => true
  | .semsGet _ _ _ => true
  | .semsTry _ _ _ => true
  | .bara _ _ _ => true
  | .baraCap _ _ _ _ => true
  | .barw _ _ _ => true
  | .barwCap _ _ _ _ => true
  | .fenceAcq _ _ => true
  | .fenceRel _ _ => true
  | .fenceFull _ _ => true
  | .fenceLayer _ _ => true
  | .evpop _ d => decide (2 ≤ d.toNat) && decide (d.toNat ≤ 30)
  | .iterDone _ => true
  | .iterPt _ _ => true
  | .sysr _ _ f _ => f != 3
  | .sysw _ _ n => n != 0x21 && n != 0x45 && n != 0x70
  | .syswQuota _ _ => true
  | .syswLstat _ _ => true
  | .syswTrctl _ _ => true
  | .trap _ n => decide (n.toNat = 0) || decide (9 < n.toNat)
  | .setroot _ => true
  | .rings _ => true
  | .flush _ => true
  | .refuse _ => true
  | .tlbinv _ => true
  | .firmwareLaunch _ => true
  | .timeout _ => true
  | .migrate _ => true
  | .recread _ => true
  | .rets _ => true
  | .retsSlot _ _ => true
  | .retsEnd _ _ => true
  | .waiti _ _ _ _ => true
  | .waitiWake _ => true
  | .rangePush _ _ => true
  | .rangePop _ => true
  | .segopDef _ _ _ _ => true
  | .segopDrop _ _ => true
  | .segopPin _ _ => true
  | .segopUnpin _ _ => true
  | .segopQuery _ _ _ => true
  | .segopStat _ _ _ => true
  | .accopQuery _ _ _ => true
  | .accopClaim _ _ => true
  | .accopRelease _ _ => true
  | .accopSet _ _ _ => true
  | .accopSave _ _ _ _ => true
  | .accopLoad _ _ _ _ => true
  | .slotSet _ _ _ => true
  | .slotLen _ _ _ => true
  | .slotGet _ _ _ _ => true
  | .kvopFork _ _ _ _ => true
  | .kvopDrop _ _ => true
  | .kvopLook _ _ _ _ => true
  | .mskldProg _ _ _ _ => true
  | .mskldParam _ _ _ _ _ => true
  | .mskldRuns _ _ _ _ => true
  | .mskldStat _ _ _ _ _ => true
  | .mskldClear _ _ _ => true
  | .tstat _ _ => true
  | .tstatClr _ _ _ => true
  | .vop _ _ _ f _ => decide (1 ≤ f.toNat) && decide (f.toNat ≤ 0x15)
  | .vfma _ _ _ _ r _ => r == 0 || decide (4 ≤ r.toNat)
  | .vun _ _ f _ => decide (1 ≤ f.toNat) && decide (f.toNat ≤ 0xB)
  | .vcmp _ _ _ _ _ => true
  | .vsel _ _ _ _ _ => true
  | .vcvt _ _ r _ t _ => (r == 0 || decide (4 ≤ r.toNat)) && decide (t.toNat ≤ 5)
  | .vred _ _ f _ => redCode f
  | .vscan _ _ f _ => redCode f
  | .vshuf _ _ b f _ => decide (f.toNat ≤ 4) && (f != 1 || b == 0)
  | .vld _ _ _ _ => true
  | .vst _ _ _ _ => true
  | .vlds _ _ z x _ => !(x == 1 && z == 3)
  | .vsts _ _ _ _ => true
  | .vgath _ _ _ _ _ => true
  | .vscat _ _ _ _ _ => true
  | .vbcst _ _ _ _ _ => true
  | .vbcstS _ _ _ => true
  | .vmovsGet _ _ _ _ => true
  | .vmovsGetu _ _ _ _ => true
  | .vmovsPut _ _ _ _ _ => true
  | .vsop _ _ f r i => decide (1 ≤ f.toNat) && (decide (f.toNat ≤ 0x10) || f == 0x15) && (r != 1 || decide (i.toNat < 8))
  | .vsopLi _ _ => true
  | .vsopSetrm _ => true
  | .vsopGetrm _ => true
  | .vaddr _ _ _ => true
  | .vaddrLen _ _ _ => true
  | .vaddrStep _ _ => true
  | .vaddrPos _ _ => true
  | .vaddrGet _ _ => true
  | .vshape t w => decide (t.toNat ≤ 6) && decide (w.toNat % 2 = 0)
  | .vshapeVs _ => true
  | .vshapeGet _ => true
  | .vpredLogic _ _ _ f _ => decide (1 ≤ f.toNat) && decide (f.toNat ≤ 4)
  | .vpredNot _ _ _ => true
  | .vpredLt _ _ _ => true
  | .vpredCnt _ _ _ => true
  | .vdefer _ _ _ k _ _ => decide (k.toNat ≤ 3)
  | .vundef _ _ _ k => decide (k.toNat ≤ 3)
  | .vpack _ _ _ _ _ _ => true
  | .vxtrd _ _ _ _ => true
  | .vguard _ g => decide (5 ≤ g.toNat) && decide (g.toNat ≤ 32)
  | .vbxenc d _ b w => w != 3 && d != b
  | .vbxdec d _ b w => w != 3 && d != b
  | .vfifoSeq _ _ => true
  | .vfifoMat _ => true
  | .vfifoPop _ _ => true
  | .vrpt _ _ _ _ => true
  | .vsoft d a b _ => b != d && b != a
  | .vmaskb _ _ _ _ => true
  | .vcpy _ _ _ => true
  | .vcpyP _ _ _ => true
  | .vcpyPn _ _ _ => true
  | .vdot _ _ _ _ r _ => r == 0 || decide (4 ≤ r.toNat)
  | .vamax _ _ _ _ => true
  | .vclass _ _ _ => true
  | .mma _ _ _ _ _ _ _ _ => true
  | .mlddOd _ => true
  | .mlddAs _ => true
  | .mfmt c _ => decide (c.toNat ≤ 14)
  | .mdrain _ _ _ _ => true
  | .mzero _ => true
  | .mwmul _ _ _ _ _ _ => true
  | .mwmac _ _ _ _ _ _ => true
  | .mfoldAdaptive => true
  | .mfoldStrict _ => true
  | .mfoldReport => true
  | .mfifoPop _ _ => true
  | .mfifoPush _ _ => true
  | .mmsk _ _ _ _ _ => true
  | .msync _ => true
  | .mamax => true
  | .mamaxCap => true
  | .mamaxClr => true
  | .mcpy _ _ _ => true
  | .mrpt _ _ _ _ => true
  | .mscale => true
  | .mscaleY => true
  | .mbar => true
  | .xcopy _ _ _ _ _ _ => true
  | .xgath _ _ _ _ _ _ => true
  | .xscat _ _ _ _ _ _ => true
  | .xidx _ _ _ => true
  | .xfill _ _ _ _ _ _ => true
  | .xred _ _ _ _ _ _ _ _ f => decide (f.toNat ≤ 6)
  | .xlayer _ _ _ _ _ _ => true
  | .xrem _ _ _ _ _ _ => true
  | .xremAck _ => true
  | .xbar _ _ _ h => decide (h.toNat ≤ 24)
  | .xevt => true
  | .xdesc _ _ _ _ _ r => r != 3
  | .xdescSlot _ k r => r != 3 && (k == 0 || k == 3)
  | .xwait _ _ => true
  | .dattn => true
  | .dappend => true
  | .dstat => true
  | .dbar => true
  | .decEntryPark _ => true
  | .entryAdmission _ _ => true
  | .entryWaitToken _ _ => true
  | .entryRetire _ _ => true
  | .semaphoreWaitEnd _ _ => true
  | .barrierWaitEnd _ _ => true
  | .popWaitEnd _ _ => true
  | .pushWaitEnd _ _ => true
  | .retirementWaitEnd _ => true
  | .layerFenceWaitEnd _ => true
  | .layerAvailableWaitEnd _ => true
  | .probeLaunch _ _ => true
  | .probeResponse _ _ => true
  | .watchdogExpiry _ _ => true
  | .sliceEnd _ => true
  | .sliceBudgetExpiry _ => true
  | .trapEntry _ => true
  | .smcWatchdogExpiry _ => true
  | .walkerHandout _ => true
  | .launchComplete _ => true
  | .segmentRecall _ _ _ => true
  | .compactionMove _ => true
  | .remoteRequest _ => true
  | .fabricTimeout _ _ => true
  | .routeUp _ _ => true
  | .moveHoldExpiry _ _ => true
  | .replicaLockTimeout _ _ => true
  | .pendingZeroFill _ _ _ => true
  | .raceSweepEnd _ => true
  | .droopStretch _ => true
  | .stretchEnd _ => true
  | .thermalThrottle _ _ => true
  | .throttleRelease _ _ => true
  | .bondParityFailure _ _ _ => true
  | .dramPatrolScrub _ _ => true
  | .sramScrub _ _ => true
  | .vbusParityFailure _ _ => true
  | .laneTestEnd _ _ _ _ => true
  | .retryStorm _ _ => true
  | .moduleReset _ => true
  | .load _ => true
  | .launch _ => true
  | .segput _ => true
  | .segget _ => true
  | .kvput _ => true
  | .status _ => true
  | .attest _ => true
  | .attestOpen _ => true
  | .resetpart _ => true
  | .segmentPushComplete _ _ _ => true
  | .reservedWord _ => true
  | .partitionSetUp _ => true
  | .endOfTheReservation _ => true
  | .preCopyRound _ => true

/-- The section that holds the word of an instruction (R303); none for an event. -/
def Instr.sect (i : Instr) : Option Section :=
  match i with
  | .iop _ _ _ _ _ => some .seq
  | .iopi _ _ _ _ _ => some .seq
  | .lui _ _ _ => some .seq
  | .addpc _ _ _ => some .seq
  | .cmp _ _ _ _ _ => some .seq
  | .cmpi _ _ _ _ _ => some .seq
  | .plog _ _ _ _ _ => some .seq
  | .psave _ _ => some .seq
  | .pload _ _ => some .seq
  | .sel _ _ _ _ _ => some .seq
  | .selF _ _ _ _ _ => some .seq
  | .fop _ _ _ _ _ => some .seq
  | .fma _ _ _ _ _ => some .seq
  | .fcmp _ _ _ _ _ => some .seq
  | .fcvt _ _ _ _ => some .seq
  | .lds _ _ _ _ _ _ => some .seq
  | .sts _ _ _ _ _ => some .seq
  | .flds _ _ _ _ => some .seq
  | .fsts _ _ _ _ => some .seq
  | .ldg _ _ _ _ _ _ => some .seq
  | .stg _ _ _ _ _ => some .seq
  | .ldq _ _ _ _ => some .seq
  | .stq _ _ _ _ => some .seq
  | .amo _ _ _ _ _ _ _ _ _ => some .seq
  | .capld _ _ _ _ => some .seq
  | .capst _ _ _ _ => some .seq
  | .capopMov _ _ _ => some .seq
  | .capopTrim _ _ _ _ => some .seq
  | .capopLen _ _ _ _ => some .seq
  | .capopPerm _ _ _ _ => some .seq
  | .capopBase _ _ _ => some .seq
  | .capopSize _ _ _ => some .seq
  | .capopInfo _ _ _ => some .seq
  | .capopUntag _ _ _ => some .seq
  | .br _ _ _ => some .seq
  | .jal _ _ _ => some .seq
  | .jalr _ _ _ _ => some .seq
  | .loop _ _ _ _ => some .seq
  | .loopRot _ _ _ _ _ => some .seq
  | .rpt _ _ _ _ _ => some .seq
  | .cmd _ _ _ _ _ _ _ _ => some .seq
  | .popr _ _ _ => some .seq
  | .pushd _ _ _ => some .seq
  | .semsSig _ _ => some .seq
  | .semsWait _ _ => some .seq
  | .semsGet _ _ _ => some .seq
  | .semsTry _ _ _ => some .seq
  | .bara _ _ _ => some .seq
  | .baraCap _ _ _ _ => some .seq
  | .barw _ _ _ => some .seq
  | .barwCap _ _ _ _ => some .seq
  | .fenceAcq _ _ => some .seq
  | .fenceRel _ _ => some .seq
  | .fenceFull _ _ => some .seq
  | .fenceLayer _ _ => some .seq
  | .evpop _ _ => some .seq
  | .iterDone _ => some .seq
  | .iterPt _ _ => some .seq
  | .sysr _ _ _ _ => some .seq
  | .sysw _ _ _ => some .seq
  | .syswQuota _ _ => some .seq
  | .syswLstat _ _ => some .seq
  | .syswTrctl _ _ => some .seq
  | .trap _ _ => some .seq
  | .setroot _ => some .seq
  | .rings _ => some .seq
  | .flush _ => some .seq
  | .refuse _ => some .seq
  | .tlbinv _ => some .seq
  | .firmwareLaunch _ => some .seq
  | .timeout _ => some .seq
  | .migrate _ => some .seq
  | .recread _ => some .seq
  | .rets _ => some .seq
  | .retsSlot _ _ => some .seq
  | .retsEnd _ _ => some .seq
  | .waiti _ _ _ _ => some .seq
  | .waitiWake _ => none
  | .rangePush _ _ => some .seq
  | .rangePop _ => some .seq
  | .segopDef _ _ _ _ => some .seq
  | .segopDrop _ _ => some .seq
  | .segopPin _ _ => some .seq
  | .segopUnpin _ _ => some .seq
  | .segopQuery _ _ _ => some .seq
  | .segopStat _ _ _ => some .seq
  | .accopQuery _ _ _ => some .seq
  | .accopClaim _ _ => some .seq
  | .accopRelease _ _ => some .seq
  | .accopSet _ _ _ => some .seq
  | .accopSave _ _ _ _ => some .seq
  | .accopLoad _ _ _ _ => some .seq
  | .slotSet _ _ _ => some .seq
  | .slotLen _ _ _ => some .seq
  | .slotGet _ _ _ _ => some .seq
  | .kvopFork _ _ _ _ => some .seq
  | .kvopDrop _ _ => some .seq
  | .kvopLook _ _ _ _ => some .seq
  | .mskldProg _ _ _ _ => some .seq
  | .mskldParam _ _ _ _ _ => some .seq
  | .mskldRuns _ _ _ _ => some .seq
  | .mskldStat _ _ _ _ _ => some .seq
  | .mskldClear _ _ _ => some .seq
  | .tstat _ _ => some .seq
  | .tstatClr _ _ _ => some .seq
  | .vop _ _ _ _ _ => some .vec
  | .vfma _ _ _ _ _ _ => some .vec
  | .vun _ _ _ _ => some .vec
  | .vcmp _ _ _ _ _ => some .vec
  | .vsel _ _ _ _ _ => some .vec
  | .vcvt _ _ _ _ _ _ => some .vec
  | .vred _ _ _ _ => some .vec
  | .vscan _ _ _ _ => some .vec
  | .vshuf _ _ _ _ _ => some .vec
  | .vld _ _ _ _ => some .vec
  | .vst _ _ _ _ => some .vec
  | .vlds _ _ _ _ _ => some .vec
  | .vsts _ _ _ _ => some .vec
  | .vgath _ _ _ _ _ => some .vec
  | .vscat _ _ _ _ _ => some .vec
  | .vbcst _ _ _ _ _ => some .vec
  | .vbcstS _ _ _ => some .vec
  | .vmovsGet _ _ _ _ => some .vec
  | .vmovsGetu _ _ _ _ => some .vec
  | .vmovsPut _ _ _ _ _ => some .vec
  | .vsop _ _ _ _ _ => some .vec
  | .vsopLi _ _ => some .vec
  | .vsopSetrm _ => some .vec
  | .vsopGetrm _ => some .vec
  | .vaddr _ _ _ => some .vec
  | .vaddrLen _ _ _ => some .vec
  | .vaddrStep _ _ => some .vec
  | .vaddrPos _ _ => some .vec
  | .vaddrGet _ _ => some .vec
  | .vshape _ _ => some .vec
  | .vshapeVs _ => some .vec
  | .vshapeGet _ => some .vec
  | .vpredLogic _ _ _ _ _ => some .vec
  | .vpredNot _ _ _ => some .vec
  | .vpredLt _ _ _ => some .vec
  | .vpredCnt _ _ _ => some .vec
  | .vdefer _ _ _ _ _ _ => some .vec
  | .vundef _ _ _ _ => some .vec
  | .vpack _ _ _ _ _ _ => some .vec
  | .vxtrd _ _ _ _ => some .vec
  | .vguard _ _ => some .vec
  | .vbxenc _ _ _ _ => some .vec
  | .vbxdec _ _ _ _ => some .vec
  | .vfifoSeq _ _ => some .vec
  | .vfifoMat _ => some .vec
  | .vfifoPop _ _ => some .vec
  | .vrpt _ _ _ _ => some .vec
  | .vsoft _ _ _ _ => some .vec
  | .vmaskb _ _ _ _ => some .vec
  | .vcpy _ _ _ => some .vec
  | .vcpyP _ _ _ => some .vec
  | .vcpyPn _ _ _ => some .vec
  | .vdot _ _ _ _ _ _ => some .vec
  | .vamax _ _ _ _ => some .vec
  | .vclass _ _ _ => some .vec
  | .mma _ _ _ _ _ _ _ _ => some .mat
  | .mlddOd _ => some .mat
  | .mlddAs _ => some .mat
  | .mfmt _ _ => some .mat
  | .mdrain _ _ _ _ => some .mat
  | .mzero _ => some .mat
  | .mwmul _ _ _ _ _ _ => some .mat
  | .mwmac _ _ _ _ _ _ => some .mat
  | .mfoldAdaptive => some .mat
  | .mfoldStrict _ => some .mat
  | .mfoldReport => some .mat
  | .mfifoPop _ _ => some .mat
  | .mfifoPush _ _ => some .mat
  | .mmsk _ _ _ _ _ => some .mat
  | .msync _ => some .mat
  | .mamax => some .mat
  | .mamaxCap => some .mat
  | .mamaxClr => some .mat
  | .mcpy _ _ _ => some .mat
  | .mrpt _ _ _ _ => some .mat
  | .mscale => some .mat
  | .mscaleY => some .mat
  | .mbar => some .mat
  | .xcopy _ _ _ _ _ _ => some .xfr
  | .xgath _ _ _ _ _ _ => some .xfr
  | .xscat _ _ _ _ _ _ => some .xfr
  | .xidx _ _ _ => some .xfr
  | .xfill _ _ _ _ _ _ => some .xfr
  | .xred _ _ _ _ _ _ _ _ _ => some .xfr
  | .xlayer _ _ _ _ _ _ => some .xfr
  | .xrem _ _ _ _ _ _ => some .xfr
  | .xremAck _ => none
  | .xbar _ _ _ _ => some .xfr
  | .xevt => some .xfr
  | .xdesc _ _ _ _ _ _ => some .xfr
  | .xdescSlot _ _ _ => some .xfr
  | .xwait _ _ => some .xfr
  | .dattn => some .dec
  | .dappend => some .dec
  | .dstat => some .dec
  | .dbar => some .dec
  | .decEntryPark _ => none
  | .entryAdmission _ _ => none
  | .entryWaitToken _ _ => none
  | .entryRetire _ _ => none
  | .semaphoreWaitEnd _ _ => none
  | .barrierWaitEnd _ _ => none
  | .popWaitEnd _ _ => none
  | .pushWaitEnd _ _ => none
  | .retirementWaitEnd _ => none
  | .layerFenceWaitEnd _ => none
  | .layerAvailableWaitEnd _ => none
  | .probeLaunch _ _ => none
  | .probeResponse _ _ => none
  | .watchdogExpiry _ _ => none
  | .sliceEnd _ => none
  | .sliceBudgetExpiry _ => none
  | .trapEntry _ => none
  | .smcWatchdogExpiry _ => none
  | .walkerHandout _ => none
  | .launchComplete _ => none
  | .segmentRecall _ _ _ => none
  | .compactionMove _ => none
  | .remoteRequest _ => none
  | .fabricTimeout _ _ => none
  | .routeUp _ _ => none
  | .moveHoldExpiry _ _ => none
  | .replicaLockTimeout _ _ => none
  | .pendingZeroFill _ _ _ => none
  | .raceSweepEnd _ => none
  | .droopStretch _ => none
  | .stretchEnd _ => none
  | .thermalThrottle _ _ => none
  | .throttleRelease _ _ => none
  | .bondParityFailure _ _ _ => none
  | .dramPatrolScrub _ _ => none
  | .sramScrub _ _ => none
  | .vbusParityFailure _ _ => none
  | .laneTestEnd _ _ _ _ => none
  | .retryStorm _ _ => none
  | .moduleReset _ => none
  | .load _ => none
  | .launch _ => none
  | .segput _ => none
  | .segget _ => none
  | .kvput _ => none
  | .status _ => none
  | .attest _ => none
  | .attestOpen _ => none
  | .resetpart _ => none
  | .segmentPushComplete _ _ _ => none
  | .reservedWord _ => none
  | .partitionSetUp _ => none
  | .endOfTheReservation _ => none
  | .preCopyRound _ => none

end Sys2Proof
end

