-- ==== Sys2Proof/Decode.lean ====
section
/-! DEFINITION. Decoding: words of each section to instructions (R303 to R311, R318 and the encoding tables of the
reference entries), and the encoder. -/

namespace Sys2Proof

/-- Why bytes are no instruction. -/
inductive Reject where
  /-- fewer than four bytes are left (R303) -/
  | short
  /-- an opcode or function code that names no instruction (Table 17.1, R318) -/
  | opcode (s : Section) (w : Word)
  /-- a field outside what its instruction admits (R318) -/
  | field (s : Section) (w : Word)
  deriving DecidableEq, Repr, Inhabited

/-- Seq opcode 0x00: IOP. -/
def rowSeq00 (w : Word) : Option Instr :=
  if w.toNat / 32 % 8 = 0 then some (.iop (BitVec.ofNat 3 (w.toNat / 8388608)) (BitVec.ofNat 5 (w.toNat / 262144)) (BitVec.ofNat 5 (w.toNat / 8192)) (BitVec.ofNat 5 (w.toNat / 256)) (BitVec.ofNat 5 w.toNat)) else
  none

/-- Seq opcode 0x01: IOPI. -/
def rowSeq01 (w : Word) : Option Instr :=
  some (.iopi (BitVec.ofNat 3 (w.toNat / 8388608)) (BitVec.ofNat 5 (w.toNat / 262144)) (BitVec.ofNat 5 (w.toNat / 8192)) (BitVec.ofNat 3 (w.toNat / 1024)) (BitVec.ofNat 10 w.toNat))

/-- Seq opcode 0x02: LUI. -/
def rowSeq02 (w : Word) : Option Instr :=
  some (.lui (BitVec.ofNat 3 (w.toNat / 8388608)) (BitVec.ofNat 5 (w.toNat / 262144)) (BitVec.ofNat 18 w.toNat))

/-- Seq opcode 0x03: ADDPC. -/
def rowSeq03 (w : Word) : Option Instr :=
  some (.addpc (BitVec.ofNat 3 (w.toNat / 8388608)) (BitVec.ofNat 5 (w.toNat / 262144)) (BitVec.ofNat 18 w.toNat))

/-- Seq opcode 0x04: CMP. -/
def rowSeq04 (w : Word) : Option Instr :=
  if w.toNat / 8 % 32 = 0 ∧ w.toNat / 2097152 % 4 = 0 then some (.cmp (BitVec.ofNat 3 (w.toNat / 8388608)) (BitVec.ofNat 3 (w.toNat / 262144)) (BitVec.ofNat 5 (w.toNat / 8192)) (BitVec.ofNat 5 (w.toNat / 256)) (BitVec.ofNat 3 w.toNat)) else
  none

/-- Seq opcode 0x05: CMPI. -/
def rowSeq05 (w : Word) : Option Instr :=
  if w.toNat / 2097152 % 4 = 0 then some (.cmpi (BitVec.ofNat 3 (w.toNat / 8388608)) (BitVec.ofNat 3 (w.toNat / 262144)) (BitVec.ofNat 5 (w.toNat / 8192)) (BitVec.ofNat 3 (w.toNat / 1024)) (BitVec.ofNat 10 w.toNat)) else
  none

/-- Seq opcode 0x06: PLOG. -/
def rowSeq06 (w : Word) : Option Instr :=
  if w.toNat / 8 % 32 = 0 ∧ w.toNat / 2048 % 4 = 0 ∧ w.toNat / 65536 % 4 = 0 ∧ w.toNat / 2097152 % 4 = 0 then some (.plog (BitVec.ofNat 3 (w.toNat / 8388608)) (BitVec.ofNat 3 (w.toNat / 262144)) (BitVec.ofNat 3 (w.toNat / 8192)) (BitVec.ofNat 3 (w.toNat / 256)) (BitVec.ofNat 3 w.toNat)) else
  none

/-- Seq opcode 0x07: PSAVE. -/
def rowSeq07 (w : Word) : Option Instr :=
  if w.toNat % 262144 = 0 then some (.psave (BitVec.ofNat 3 (w.toNat / 8388608)) (BitVec.ofNat 5 (w.toNat / 262144))) else
  none

/-- Seq opcode 0x08: PLOAD. -/
def rowSeq08 (w : Word) : Option Instr :=
  if w.toNat % 8192 = 0 ∧ w.toNat / 262144 % 32 = 0 then some (.pload (BitVec.ofNat 3 (w.toNat / 8388608)) (BitVec.ofNat 5 (w.toNat / 8192))) else
  none

/-- Seq opcode 0x09: SEL, SEL_F. -/
def rowSeq09 (w : Word) : Option Instr :=
  if w.toNat / 8 % 32 = 0 then some (.sel (BitVec.ofNat 3 (w.toNat / 8388608)) (BitVec.ofNat 5 (w.toNat / 262144)) (BitVec.ofNat 5 (w.toNat / 8192)) (BitVec.ofNat 5 (w.toNat / 256)) (BitVec.ofNat 3 w.toNat)) else
  if w.toNat / 8 % 32 = 1 then some (.selF (BitVec.ofNat 3 (w.toNat / 8388608)) (BitVec.ofNat 5 (w.toNat / 262144)) (BitVec.ofNat 5 (w.toNat / 8192)) (BitVec.ofNat 5 (w.toNat / 256)) (BitVec.ofNat 3 w.toNat)) else
  none

/-- Seq opcode 0x0A: FOP. -/
def rowSeq0A (w : Word) : Option Instr :=
  if w.toNat / 32 % 8 = 0 then some (.fop (BitVec.ofNat 3 (w.toNat / 8388608)) (BitVec.ofNat 5 (w.toNat / 262144)) (BitVec.ofNat 5 (w.toNat / 8192)) (BitVec.ofNat 5 (w.toNat / 256)) (BitVec.ofNat 5 w.toNat)) else
  none

/-- Seq opcode 0x0B: FMA. -/
def rowSeq0B (w : Word) : Option Instr :=
  if w.toNat / 8 % 32 = 0 then some (.fma (BitVec.ofNat 3 (w.toNat / 8388608)) (BitVec.ofNat 5 (w.toNat / 262144)) (BitVec.ofNat 5 (w.toNat / 8192)) (BitVec.ofNat 5 (w.toNat / 256)) (BitVec.ofNat 3 w.toNat)) else
  none

/-- Seq opcode 0x0C: FCMP. -/
def rowSeq0C (w : Word) : Option Instr :=
  if w.toNat / 8 % 32 = 0 ∧ w.toNat / 2097152 % 4 = 0 then some (.fcmp (BitVec.ofNat 3 (w.toNat / 8388608)) (BitVec.ofNat 3 (w.toNat / 262144)) (BitVec.ofNat 5 (w.toNat / 8192)) (BitVec.ofNat 5 (w.toNat / 256)) (BitVec.ofNat 3 w.toNat)) else
  none

/-- Seq opcode 0x0D: FCVT. -/
def rowSeq0D (w : Word) : Option Instr :=
  if w.toNat / 16 % 512 = 0 then some (.fcvt (BitVec.ofNat 3 (w.toNat / 8388608)) (BitVec.ofNat 5 (w.toNat / 262144)) (BitVec.ofNat 5 (w.toNat / 8192)) (BitVec.ofNat 4 w.toNat)) else
  none

/-- Seq opcode 0x0E: LDS. -/
def rowSeq0E (w : Word) : Option Instr :=
  some (.lds (BitVec.ofNat 3 (w.toNat / 8388608)) (BitVec.ofNat 5 (w.toNat / 262144)) (BitVec.ofNat 5 (w.toNat / 8192)) (BitVec.ofNat 2 (w.toNat / 2048)) (BitVec.ofNat 1 (w.toNat / 1024)) (BitVec.ofNat 10 w.toNat))

/-- Seq opcode 0x0F: STS. -/
def rowSeq0F (w : Word) : Option Instr :=
  if w.toNat / 1024 % 2 = 0 then some (.sts (BitVec.ofNat 3 (w.toNat / 8388608)) (BitVec.ofNat 5 (w.toNat / 262144)) (BitVec.ofNat 5 (w.toNat / 8192)) (BitVec.ofNat 2 (w.toNat / 2048)) (BitVec.ofNat 10 w.toNat)) else
  none

/-- Seq opcode 0x10: FLDS. -/
def rowSeq10 (w : Word) : Option Instr :=
  if w.toNat / 1024 % 8 = 4 then some (.flds (BitVec.ofNat 3 (w.toNat / 8388608)) (BitVec.ofNat 5 (w.toNat / 262144)) (BitVec.ofNat 5 (w.toNat / 8192)) (BitVec.ofNat 10 w.toNat)) else
  none

/-- Seq opcode 0x11: FSTS. -/
def rowSeq11 (w : Word) : Option Instr :=
  if w.toNat / 1024 % 8 = 4 then some (.fsts (BitVec.ofNat 3 (w.toNat / 8388608)) (BitVec.ofNat 5 (w.toNat / 262144)) (BitVec.ofNat 5 (w.toNat / 8192)) (BitVec.ofNat 10 w.toNat)) else
  none

/-- Seq opcode 0x12: LDG. -/
def rowSeq12 (w : Word) : Option Instr :=
  if w.toNat / 8 % 32 = 0 ∧ w.toNat / 4096 % 2 = 0 then some (.ldg (BitVec.ofNat 3 (w.toNat / 8388608)) (BitVec.ofNat 5 (w.toNat / 262144)) (BitVec.ofNat 5 (w.toNat / 8192)) (BitVec.ofNat 4 (w.toNat / 256)) (BitVec.ofNat 1 (w.toNat / 4)) (BitVec.ofNat 2 w.toNat)) else
  none

/-- Seq opcode 0x13: STG. -/
def rowSeq13 (w : Word) : Option Instr :=
  if w.toNat / 4 % 64 = 0 ∧ w.toNat / 4096 % 2 = 0 then some (.stg (BitVec.ofNat 3 (w.toNat / 8388608)) (BitVec.ofNat 5 (w.toNat / 262144)) (BitVec.ofNat 5 (w.toNat / 8192)) (BitVec.ofNat 4 (w.toNat / 256)) (BitVec.ofNat 2 w.toNat)) else
  none

/-- Seq opcode 0x14: LDQ. -/
def rowSeq14 (w : Word) : Option Instr :=
  if w.toNat / 1024 % 8 = 0 then some (.ldq (BitVec.ofNat 3 (w.toNat / 8388608)) (BitVec.ofNat 5 (w.toNat / 262144)) (BitVec.ofNat 5 (w.toNat / 8192)) (BitVec.ofNat 10 w.toNat)) else
  none

/-- Seq opcode 0x15: STQ. -/
def rowSeq15 (w : Word) : Option Instr :=
  if w.toNat / 1024 % 8 = 0 then some (.stq (BitVec.ofNat 3 (w.toNat / 8388608)) (BitVec.ofNat 5 (w.toNat / 262144)) (BitVec.ofNat 5 (w.toNat / 8192)) (BitVec.ofNat 10 w.toNat)) else
  none

/-- Seq opcode 0x16: AMO. -/
def rowSeq16 (w : Word) : Option Instr :=
  some (.amo (BitVec.ofNat 3 (w.toNat / 8388608)) (BitVec.ofNat 5 (w.toNat / 262144)) (BitVec.ofNat 5 (w.toNat / 8192)) (BitVec.ofNat 5 (w.toNat / 256)) (BitVec.ofNat 1 (w.toNat / 128)) (BitVec.ofNat 1 (w.toNat / 64)) (BitVec.ofNat 1 (w.toNat / 32)) (BitVec.ofNat 1 (w.toNat / 16)) (BitVec.ofNat 4 w.toNat))

/-- Seq opcode 0x17: CAPLD. -/
def rowSeq17 (w : Word) : Option Instr :=
  if w.toNat / 1024 % 8 = 0 ∧ w.toNat / 4194304 % 2 = 0 then some (.capld (BitVec.ofNat 3 (w.toNat / 8388608)) (BitVec.ofNat 4 (w.toNat / 262144)) (BitVec.ofNat 5 (w.toNat / 8192)) (BitVec.ofNat 10 w.toNat)) else
  none

/-- Seq opcode 0x18: CAPST. -/
def rowSeq18 (w : Word) : Option Instr :=
  if w.toNat / 1024 % 8 = 0 ∧ w.toNat / 4194304 % 2 = 0 then some (.capst (BitVec.ofNat 3 (w.toNat / 8388608)) (BitVec.ofNat 4 (w.toNat / 262144)) (BitVec.ofNat 5 (w.toNat / 8192)) (BitVec.ofNat 10 w.toNat)) else
  none

/-- Seq opcode 0x19: CAPOP_MOV, CAPOP_UNTAG, CAPOP_BASE, CAPOP_SIZE, CAPOP_INFO, CAPOP_TRIM, CAPOP_LEN, CAPOP_PERM. -/
def rowSeq19 (w : Word) : Option Instr :=
  if w.toNat % 8192 = 1 ∧ w.toNat / 131072 % 2 = 0 ∧ w.toNat / 4194304 % 2 = 0 then some (.capopMov (BitVec.ofNat 3 (w.toNat / 8388608)) (BitVec.ofNat 4 (w.toNat / 262144)) (BitVec.ofNat 4 (w.toNat / 8192))) else
  if w.toNat % 8192 = 8 ∧ w.toNat / 131072 % 2 = 0 ∧ w.toNat / 4194304 % 2 = 0 then some (.capopUntag (BitVec.ofNat 3 (w.toNat / 8388608)) (BitVec.ofNat 4 (w.toNat / 262144)) (BitVec.ofNat 4 (w.toNat / 8192))) else
  if w.toNat % 8192 = 5 ∧ w.toNat / 131072 % 2 = 0 then some (.capopBase (BitVec.ofNat 3 (w.toNat / 8388608)) (BitVec.ofNat 5 (w.toNat / 262144)) (BitVec.ofNat 4 (w.toNat / 8192))) else
  if w.toNat % 8192 = 6 ∧ w.toNat / 131072 % 2 = 0 then some (.capopSize (BitVec.ofNat 3 (w.toNat / 8388608)) (BitVec.ofNat 5 (w.toNat / 262144)) (BitVec.ofNat 4 (w.toNat / 8192))) else
  if w.toNat % 8192 = 7 ∧ w.toNat / 131072 % 2 = 0 then some (.capopInfo (BitVec.ofNat 3 (w.toNat / 8388608)) (BitVec.ofNat 5 (w.toNat / 262144)) (BitVec.ofNat 4 (w.toNat / 8192))) else
  if w.toNat % 256 = 2 ∧ w.toNat / 131072 % 2 = 0 ∧ w.toNat / 4194304 % 2 = 0 then some (.capopTrim (BitVec.ofNat 3 (w.toNat / 8388608)) (BitVec.ofNat 4 (w.toNat / 262144)) (BitVec.ofNat 4 (w.toNat / 8192)) (BitVec.ofNat 5 (w.toNat / 256))) else
  if w.toNat % 256 = 3 ∧ w.toNat / 131072 % 2 = 0 ∧ w.toNat / 4194304 % 2 = 0 then some (.capopLen (BitVec.ofNat 3 (w.toNat / 8388608)) (BitVec.ofNat 4 (w.toNat / 262144)) (BitVec.ofNat 4 (w.toNat / 8192)) (BitVec.ofNat 5 (w.toNat / 256))) else
  if w.toNat % 256 = 4 ∧ w.toNat / 131072 % 2 = 0 ∧ w.toNat / 4194304 % 2 = 0 then some (.capopPerm (BitVec.ofNat 3 (w.toNat / 8388608)) (BitVec.ofNat 4 (w.toNat / 262144)) (BitVec.ofNat 4 (w.toNat / 8192)) (BitVec.ofNat 5 (w.toNat / 256))) else
  none

/-- Seq opcode 0x1A: BR. -/
def rowSeq1A (w : Word) : Option Instr :=
  some (.br (BitVec.ofNat 3 (w.toNat / 8388608)) (BitVec.ofNat 1 (w.toNat / 4194304)) (BitVec.ofNat 22 w.toNat))

/-- Seq opcode 0x1B: JAL. -/
def rowSeq1B (w : Word) : Option Instr :=
  some (.jal (BitVec.ofNat 3 (w.toNat / 8388608)) (BitVec.ofNat 1 (w.toNat / 4194304)) (BitVec.ofNat 22 w.toNat))

/-- Seq opcode 0x1C: JALR. -/
def rowSeq1C (w : Word) : Option Instr :=
  some (.jalr (BitVec.ofNat 3 (w.toNat / 8388608)) (BitVec.ofNat 5 (w.toNat / 262144)) (BitVec.ofNat 5 (w.toNat / 8192)) (BitVec.ofNat 13 w.toNat))

/-- Seq opcode 0x1D: LOOP, LOOP_ROT. -/
def rowSeq1D (w : Word) : Option Instr :=
  if w.toNat / 1024 % 8 = 0 ∧ w.toNat / 262144 % 8 = 0 then some (.loop (BitVec.ofNat 3 (w.toNat / 8388608)) (BitVec.ofNat 2 (w.toNat / 2097152)) (BitVec.ofNat 5 (w.toNat / 8192)) (BitVec.ofNat 10 w.toNat)) else
  if w.toNat / 262144 % 8 = 4 then some (.loopRot (BitVec.ofNat 3 (w.toNat / 8388608)) (BitVec.ofNat 2 (w.toNat / 2097152)) (BitVec.ofNat 5 (w.toNat / 8192)) (BitVec.ofNat 3 (w.toNat / 1024)) (BitVec.ofNat 10 w.toNat)) else
  none

/-- Seq opcode 0x1E: RPT. -/
def rowSeq1E (w : Word) : Option Instr :=
  if w.toNat % 8 = 0 ∧ w.toNat / 262144 % 32 = 0 then some (.rpt (BitVec.ofNat 3 (w.toNat / 8388608)) (BitVec.ofNat 6 (w.toNat / 4096)) (BitVec.ofNat 3 (w.toNat / 512)) (BitVec.ofNat 3 (w.toNat / 64)) (BitVec.ofNat 3 (w.toNat / 8))) else
  none

/-- Seq opcode 0x1F: CMD. -/
def rowSeq1F (w : Word) : Option Instr :=
  some (.cmd (BitVec.ofNat 2 (w.toNat / 16777216)) (BitVec.ofNat 6 (w.toNat / 262144)) (BitVec.ofNat 5 (w.toNat / 8192)) (BitVec.ofNat 5 (w.toNat / 256)) (BitVec.ofNat 3 (w.toNat / 32)) (BitVec.ofNat 1 (w.toNat / 16)) (BitVec.ofNat 3 (w.toNat / 2)) (BitVec.ofNat 1 w.toNat))

/-- Seq opcode 0x20: POPR. -/
def rowSeq20 (w : Word) : Option Instr :=
  if w.toNat / 4 % 65536 = 0 then some (.popr (BitVec.ofNat 3 (w.toNat / 8388608)) (BitVec.ofNat 5 (w.toNat / 262144)) (BitVec.ofNat 2 w.toNat)) else
  none

/-- Seq opcode 0x21: PUSHD. -/
def rowSeq21 (w : Word) : Option Instr :=
  if w.toNat % 256 = 1 ∧ w.toNat / 262144 % 32 = 0 then some (.pushd (BitVec.ofNat 3 (w.toNat / 8388608)) (BitVec.ofNat 5 (w.toNat / 8192)) (BitVec.ofNat 5 (w.toNat / 256))) else
  none

/-- Seq opcode 0x22: SEMS_SIG, SEMS_WAIT, SEMS_GET, SEMS_TRY. -/
def rowSeq22 (w : Word) : Option Instr :=
  if w.toNat / 8 % 1048576 = 0 then some (.semsSig (BitVec.ofNat 3 (w.toNat / 8388608)) (BitVec.ofNat 3 w.toNat)) else
  if w.toNat / 8 % 1048576 = 128 then some (.semsWait (BitVec.ofNat 3 (w.toNat / 8388608)) (BitVec.ofNat 3 w.toNat)) else
  if w.toNat / 8 % 32768 = 256 then some (.semsGet (BitVec.ofNat 3 (w.toNat / 8388608)) (BitVec.ofNat 5 (w.toNat / 262144)) (BitVec.ofNat 3 w.toNat)) else
  if w.toNat / 8 % 32768 = 384 then some (.semsTry (BitVec.ofNat 3 (w.toNat / 8388608)) (BitVec.ofNat 5 (w.toNat / 262144)) (BitVec.ofNat 3 w.toNat)) else
  none

/-- Seq opcode 0x23: BARA, BARA_CAP. -/
def rowSeq23 (w : Word) : Option Instr :=
  if w.toNat % 256 = 0 ∧ w.toNat / 262144 % 32 = 0 then some (.bara (BitVec.ofNat 3 (w.toNat / 8388608)) (BitVec.ofNat 5 (w.toNat / 8192)) (BitVec.ofNat 5 (w.toNat / 256))) else
  if w.toNat % 256 = 1 ∧ w.toNat / 4194304 % 2 = 0 then some (.baraCap (BitVec.ofNat 3 (w.toNat / 8388608)) (BitVec.ofNat 4 (w.toNat / 262144)) (BitVec.ofNat 5 (w.toNat / 8192)) (BitVec.ofNat 5 (w.toNat / 256))) else
  none

/-- Seq opcode 0x24: BARW, BARW_CAP. -/
def rowSeq24 (w : Word) : Option Instr :=
  if w.toNat % 256 = 0 ∧ w.toNat / 262144 % 32 = 0 then some (.barw (BitVec.ofNat 3 (w.toNat / 8388608)) (BitVec.ofNat 5 (w.toNat / 8192)) (BitVec.ofNat 5 (w.toNat / 256))) else
  if w.toNat % 256 = 1 ∧ w.toNat / 4194304 % 2 = 0 then some (.barwCap (BitVec.ofNat 3 (w.toNat / 8388608)) (BitVec.ofNat 4 (w.toNat / 262144)) (BitVec.ofNat 5 (w.toNat / 8192)) (BitVec.ofNat 5 (w.toNat / 256))) else
  none

/-- Seq opcode 0x25: FENCE_ACQ, FENCE_REL, FENCE_FULL, FENCE_LAYER. -/
def rowSeq25 (w : Word) : Option Instr :=
  if w.toNat % 4 = 0 ∧ w.toNat / 16 % 524288 = 0 then some (.fenceAcq (BitVec.ofNat 3 (w.toNat / 8388608)) (BitVec.ofNat 2 (w.toNat / 4))) else
  if w.toNat % 4 = 1 ∧ w.toNat / 16 % 524288 = 0 then some (.fenceRel (BitVec.ofNat 3 (w.toNat / 8388608)) (BitVec.ofNat 2 (w.toNat / 4))) else
  if w.toNat % 4 = 2 ∧ w.toNat / 16 % 524288 = 0 then some (.fenceFull (BitVec.ofNat 3 (w.toNat / 8388608)) (BitVec.ofNat 2 (w.toNat / 4))) else
  if w.toNat % 4 = 3 ∧ w.toNat / 16 % 524288 = 0 then some (.fenceLayer (BitVec.ofNat 3 (w.toNat / 8388608)) (BitVec.ofNat 2 (w.toNat / 4))) else
  none

/-- Seq opcode 0x26: EVPOP. -/
def rowSeq26 (w : Word) : Option Instr :=
  if w.toNat % 262144 = 0 then some (.evpop (BitVec.ofNat 3 (w.toNat / 8388608)) (BitVec.ofNat 5 (w.toNat / 262144))) else
  none

/-- Seq opcode 0x27: ITER_DONE, ITER_PT. -/
def rowSeq27 (w : Word) : Option Instr :=
  if w.toNat % 8388608 = 1 then some (.iterDone (BitVec.ofNat 3 (w.toNat / 8388608))) else
  if w.toNat % 262144 = 2 then some (.iterPt (BitVec.ofNat 3 (w.toNat / 8388608)) (BitVec.ofNat 5 (w.toNat / 262144))) else
  none

/-- Seq opcode 0x28: SYSR. -/
def rowSeq28 (w : Word) : Option Instr :=
  if w.toNat / 4096 % 2 = 0 ∧ w.toNat / 32768 % 8 = 0 then some (.sysr (BitVec.ofNat 3 (w.toNat / 8388608)) (BitVec.ofNat 5 (w.toNat / 262144)) (BitVec.ofNat 2 (w.toNat / 8192)) (BitVec.ofNat 12 w.toNat)) else
  none

/-- Seq opcode 0x29: SYSW_QUOTA, SYSW_LSTAT, SYSW_TRCTL, SYSW. -/
def rowSeq29 (w : Word) : Option Instr :=
  if w.toNat % 8192 = 33 ∧ w.toNat / 262144 % 32 = 0 then some (.syswQuota (BitVec.ofNat 3 (w.toNat / 8388608)) (BitVec.ofNat 5 (w.toNat / 8192))) else
  if w.toNat % 8192 = 69 ∧ w.toNat / 262144 % 32 = 0 then some (.syswLstat (BitVec.ofNat 3 (w.toNat / 8388608)) (BitVec.ofNat 5 (w.toNat / 8192))) else
  if w.toNat % 8192 = 112 ∧ w.toNat / 262144 % 32 = 0 then some (.syswTrctl (BitVec.ofNat 3 (w.toNat / 8388608)) (BitVec.ofNat 5 (w.toNat / 8192))) else
  if w.toNat / 4096 % 2 = 0 ∧ w.toNat / 262144 % 32 = 0 then some (.sysw (BitVec.ofNat 3 (w.toNat / 8388608)) (BitVec.ofNat 5 (w.toNat / 8192)) (BitVec.ofNat 12 w.toNat)) else
  none

/-- Seq opcode 0x2A: SETROOT, RINGS, FLUSH, REFUSE, TLBINV, FIRMWARE_LAUNCH, TIMEOUT, MIGRATE, RECREAD, TRAP. -/
def rowSeq2A (w : Word) : Option Instr :=
  if w.toNat % 8388608 = 1 then some (.setroot (BitVec.ofNat 3 (w.toNat / 8388608))) else
  if w.toNat % 8388608 = 2 then some (.rings (BitVec.ofNat 3 (w.toNat / 8388608))) else
  if w.toNat % 8388608 = 3 then some (.flush (BitVec.ofNat 3 (w.toNat / 8388608))) else
  if w.toNat % 8388608 = 4 then some (.refuse (BitVec.ofNat 3 (w.toNat / 8388608))) else
  if w.toNat % 8388608 = 5 then some (.tlbinv (BitVec.ofNat 3 (w.toNat / 8388608))) else
  if w.toNat % 8388608 = 6 then some (.firmwareLaunch (BitVec.ofNat 3 (w.toNat / 8388608))) else
  if w.toNat % 8388608 = 7 then some (.timeout (BitVec.ofNat 3 (w.toNat / 8388608))) else
  if w.toNat % 8388608 = 8 then some (.migrate (BitVec.ofNat 3 (w.toNat / 8388608))) else
  if w.toNat % 8388608 = 9 then some (.recread (BitVec.ofNat 3 (w.toNat / 8388608))) else
  if w.toNat / 8192 % 1024 = 0 then some (.trap (BitVec.ofNat 3 (w.toNat / 8388608)) (BitVec.ofNat 13 w.toNat)) else
  none

/-- Seq opcode 0x2B: RETS, RETS_SLOT, RETS_END. -/
def rowSeq2B (w : Word) : Option Instr :=
  if w.toNat % 8388608 = 0 then some (.rets (BitVec.ofNat 3 (w.toNat / 8388608))) else
  if w.toNat % 8192 = 1 ∧ w.toNat / 262144 % 32 = 0 then some (.retsSlot (BitVec.ofNat 3 (w.toNat / 8388608)) (BitVec.ofNat 5 (w.toNat / 8192))) else
  if w.toNat % 8192 = 2 ∧ w.toNat / 262144 % 32 = 0 then some (.retsEnd (BitVec.ofNat 3 (w.toNat / 8388608)) (BitVec.ofNat 5 (w.toNat / 8192))) else
  none

/-- Seq opcode 0x2C: WAITI. -/
def rowSeq2C (w : Word) : Option Instr :=
  if w.toNat / 32 % 256 = 0 then some (.waiti (BitVec.ofNat 3 (w.toNat / 8388608)) (BitVec.ofNat 5 (w.toNat / 262144)) (BitVec.ofNat 5 (w.toNat / 8192)) (BitVec.ofNat 5 w.toNat)) else
  none

/-- Seq opcode 0x2D: RANGE_POP, RANGE_PUSH. -/
def rowSeq2D (w : Word) : Option Instr :=
  if w.toNat % 8388608 = 65536 then some (.rangePop (BitVec.ofNat 3 (w.toNat / 8388608))) else
  if w.toNat / 65536 % 128 = 0 then some (.rangePush (BitVec.ofNat 3 (w.toNat / 8388608)) (BitVec.ofNat 16 w.toNat)) else
  none

/-- Seq opcode 0x2E: SEGOP_DROP, SEGOP_PIN, SEGOP_UNPIN, SEGOP_QUERY, SEGOP_STAT, SEGOP_DEF. -/
def rowSeq2E (w : Word) : Option Instr :=
  if w.toNat % 8192 = 2 ∧ w.toNat / 262144 % 32 = 0 then some (.segopDrop (BitVec.ofNat 3 (w.toNat / 8388608)) (BitVec.ofNat 5 (w.toNat / 8192))) else
  if w.toNat % 8192 = 3 ∧ w.toNat / 262144 % 32 = 0 then some (.segopPin (BitVec.ofNat 3 (w.toNat / 8388608)) (BitVec.ofNat 5 (w.toNat / 8192))) else
  if w.toNat % 8192 = 4 ∧ w.toNat / 262144 % 32 = 0 then some (.segopUnpin (BitVec.ofNat 3 (w.toNat / 8388608)) (BitVec.ofNat 5 (w.toNat / 8192))) else
  if w.toNat % 8192 = 5 then some (.segopQuery (BitVec.ofNat 3 (w.toNat / 8388608)) (BitVec.ofNat 5 (w.toNat / 262144)) (BitVec.ofNat 5 (w.toNat / 8192))) else
  if w.toNat % 8192 = 6 then some (.segopStat (BitVec.ofNat 3 (w.toNat / 8388608)) (BitVec.ofNat 5 (w.toNat / 262144)) (BitVec.ofNat 5 (w.toNat / 8192))) else
  if w.toNat % 256 = 1 then some (.segopDef (BitVec.ofNat 3 (w.toNat / 8388608)) (BitVec.ofNat 5 (w.toNat / 262144)) (BitVec.ofNat 5 (w.toNat / 8192)) (BitVec.ofNat 5 (w.toNat / 256))) else
  none

/-- Seq opcode 0x2F: ACCOP_CLAIM, ACCOP_RELEASE, ACCOP_QUERY, ACCOP_SET, ACCOP_SAVE, ACCOP_LOAD. -/
def rowSeq2F (w : Word) : Option Instr :=
  if w.toNat % 8192 = 2 ∧ w.toNat / 262144 % 32 = 0 then some (.accopClaim (BitVec.ofNat 3 (w.toNat / 8388608)) (BitVec.ofNat 5 (w.toNat / 8192))) else
  if w.toNat % 8192 = 3 ∧ w.toNat / 262144 % 32 = 0 then some (.accopRelease (BitVec.ofNat 3 (w.toNat / 8388608)) (BitVec.ofNat 5 (w.toNat / 8192))) else
  if w.toNat % 8192 = 1 then some (.accopQuery (BitVec.ofNat 3 (w.toNat / 8388608)) (BitVec.ofNat 5 (w.toNat / 262144)) (BitVec.ofNat 5 (w.toNat / 8192))) else
  if w.toNat % 256 = 4 ∧ w.toNat / 262144 % 32 = 0 then some (.accopSet (BitVec.ofNat 3 (w.toNat / 8388608)) (BitVec.ofNat 5 (w.toNat / 8192)) (BitVec.ofNat 5 (w.toNat / 256))) else
  if w.toNat % 256 = 5 ∧ w.toNat / 4096 % 2 = 0 then some (.accopSave (BitVec.ofNat 3 (w.toNat / 8388608)) (BitVec.ofNat 5 (w.toNat / 262144)) (BitVec.ofNat 5 (w.toNat / 8192)) (BitVec.ofNat 4 (w.toNat / 256))) else
  if w.toNat % 256 = 6 ∧ w.toNat / 4096 % 2 = 0 then some (.accopLoad (BitVec.ofNat 3 (w.toNat / 8388608)) (BitVec.ofNat 5 (w.toNat / 262144)) (BitVec.ofNat 5 (w.toNat / 8192)) (BitVec.ofNat 4 (w.toNat / 256))) else
  none

/-- Seq opcode 0x30: SLOT_SET, SLOT_LEN, SLOT_GET. -/
def rowSeq30 (w : Word) : Option Instr :=
  if w.toNat % 256 = 1 ∧ w.toNat / 262144 % 32 = 0 then some (.slotSet (BitVec.ofNat 3 (w.toNat / 8388608)) (BitVec.ofNat 5 (w.toNat / 8192)) (BitVec.ofNat 5 (w.toNat / 256))) else
  if w.toNat % 256 = 2 ∧ w.toNat / 262144 % 32 = 0 then some (.slotLen (BitVec.ofNat 3 (w.toNat / 8388608)) (BitVec.ofNat 5 (w.toNat / 8192)) (BitVec.ofNat 5 (w.toNat / 256))) else
  if w.toNat % 256 = 3 then some (.slotGet (BitVec.ofNat 3 (w.toNat / 8388608)) (BitVec.ofNat 5 (w.toNat / 262144)) (BitVec.ofNat 5 (w.toNat / 8192)) (BitVec.ofNat 5 (w.toNat / 256))) else
  none

/-- Seq opcode 0x31: KVOP_DROP, KVOP_FORK, KVOP_LOOK. -/
def rowSeq31 (w : Word) : Option Instr :=
  if w.toNat % 8192 = 2 ∧ w.toNat / 262144 % 32 = 0 then some (.kvopDrop (BitVec.ofNat 3 (w.toNat / 8388608)) (BitVec.ofNat 5 (w.toNat / 8192))) else
  if w.toNat % 256 = 1 then some (.kvopFork (BitVec.ofNat 3 (w.toNat / 8388608)) (BitVec.ofNat 5 (w.toNat / 262144)) (BitVec.ofNat 5 (w.toNat / 8192)) (BitVec.ofNat 5 (w.toNat / 256))) else
  if w.toNat % 256 = 3 then some (.kvopLook (BitVec.ofNat 3 (w.toNat / 8388608)) (BitVec.ofNat 5 (w.toNat / 262144)) (BitVec.ofNat 5 (w.toNat / 8192)) (BitVec.ofNat 5 (w.toNat / 256))) else
  none

/-- Seq opcode 0x32: MSKLD_CLEAR, MSKLD_PROG, MSKLD_RUNS, MSKLD_STAT, MSKLD_PARAM. -/
def rowSeq32 (w : Word) : Option Instr :=
  if w.toNat % 8 = 0 ∧ w.toNat / 64 % 8 = 0 ∧ w.toNat / 1024 % 8192 = 4 then some (.mskldClear (BitVec.ofNat 3 (w.toNat / 8388608)) (BitVec.ofNat 1 (w.toNat / 512)) (BitVec.ofNat 3 (w.toNat / 8))) else
  if w.toNat / 64 % 8 = 0 ∧ w.toNat / 1024 % 8192 = 0 then some (.mskldProg (BitVec.ofNat 3 (w.toNat / 8388608)) (BitVec.ofNat 1 (w.toNat / 512)) (BitVec.ofNat 3 (w.toNat / 8)) (BitVec.ofNat 3 w.toNat)) else
  if w.toNat % 8 = 0 ∧ w.toNat / 64 % 8 = 0 ∧ w.toNat / 1024 % 8 = 2 ∧ w.toNat / 262144 % 32 = 0 then some (.mskldRuns (BitVec.ofNat 3 (w.toNat / 8388608)) (BitVec.ofNat 5 (w.toNat / 8192)) (BitVec.ofNat 1 (w.toNat / 512)) (BitVec.ofNat 3 (w.toNat / 8))) else
  if w.toNat / 4 % 2 = 0 ∧ w.toNat / 64 % 8 = 0 ∧ w.toNat / 1024 % 256 = 3 then some (.mskldStat (BitVec.ofNat 3 (w.toNat / 8388608)) (BitVec.ofNat 5 (w.toNat / 262144)) (BitVec.ofNat 1 (w.toNat / 512)) (BitVec.ofNat 3 (w.toNat / 8)) (BitVec.ofNat 2 w.toNat)) else
  if w.toNat / 64 % 8 = 0 ∧ w.toNat / 1024 % 8 = 1 ∧ w.toNat / 262144 % 32 = 0 then some (.mskldParam (BitVec.ofNat 3 (w.toNat / 8388608)) (BitVec.ofNat 5 (w.toNat / 8192)) (BitVec.ofNat 1 (w.toNat / 512)) (BitVec.ofNat 3 (w.toNat / 8)) (BitVec.ofNat 3 w.toNat)) else
  none

/-- Seq opcode 0x33: TSTAT, TSTAT_CLR. -/
def rowSeq33 (w : Word) : Option Instr :=
  if w.toNat % 262144 = 1 then some (.tstat (BitVec.ofNat 3 (w.toNat / 8388608)) (BitVec.ofNat 5 (w.toNat / 262144))) else
  if w.toNat % 8192 = 2 then some (.tstatClr (BitVec.ofNat 3 (w.toNat / 8388608)) (BitVec.ofNat 5 (w.toNat / 262144)) (BitVec.ofNat 5 (w.toNat / 8192))) else
  none

/-- The row of the table that a word of a .seq section names. -/
def rowSeq (w : Word) : Option Instr :=
  match w.toNat / 67108864 with
  | 0 => rowSeq00 w
  | 1 => rowSeq01 w
  | 2 => rowSeq02 w
  | 3 => rowSeq03 w
  | 4 => rowSeq04 w
  | 5 => rowSeq05 w
  | 6 => rowSeq06 w
  | 7 => rowSeq07 w
  | 8 => rowSeq08 w
  | 9 => rowSeq09 w
  | 10 => rowSeq0A w
  | 11 => rowSeq0B w
  | 12 => rowSeq0C w
  | 13 => rowSeq0D w
  | 14 => rowSeq0E w
  | 15 => rowSeq0F w
  | 16 => rowSeq10 w
  | 17 => rowSeq11 w
  | 18 => rowSeq12 w
  | 19 => rowSeq13 w
  | 20 => rowSeq14 w
  | 21 => rowSeq15 w
  | 22 => rowSeq16 w
  | 23 => rowSeq17 w
  | 24 => rowSeq18 w
  | 25 => rowSeq19 w
  | 26 => rowSeq1A w
  | 27 => rowSeq1B w
  | 28 => rowSeq1C w
  | 29 => rowSeq1D w
  | 30 => rowSeq1E w
  | 31 => rowSeq1F w
  | 32 => rowSeq20 w
  | 33 => rowSeq21 w
  | 34 => rowSeq22 w
  | 35 => rowSeq23 w
  | 36 => rowSeq24 w
  | 37 => rowSeq25 w
  | 38 => rowSeq26 w
  | 39 => rowSeq27 w
  | 40 => rowSeq28 w
  | 41 => rowSeq29 w
  | 42 => rowSeq2A w
  | 43 => rowSeq2B w
  | 44 => rowSeq2C w
  | 45 => rowSeq2D w
  | 46 => rowSeq2E w
  | 47 => rowSeq2F w
  | 48 => rowSeq30 w
  | 49 => rowSeq31 w
  | 50 => rowSeq32 w
  | 51 => rowSeq33 w
  | _ => none

/-- Vec opcode 0x00: VOP. -/
def rowVec00 (w : Word) : Option Instr :=
  some (.vop (BitVec.ofNat 6 (w.toNat / 1048576)) (BitVec.ofNat 6 (w.toNat / 16384)) (BitVec.ofNat 6 (w.toNat / 256)) (BitVec.ofNat 5 (w.toNat / 8)) (BitVec.ofNat 3 w.toNat))

/-- Vec opcode 0x01: VFMA. -/
def rowVec01 (w : Word) : Option Instr :=
  some (.vfma (BitVec.ofNat 6 (w.toNat / 1048576)) (BitVec.ofNat 6 (w.toNat / 16384)) (BitVec.ofNat 6 (w.toNat / 256)) (BitVec.ofNat 2 (w.toNat / 64)) (BitVec.ofNat 3 (w.toNat / 8)) (BitVec.ofNat 3 w.toNat))

/-- Vec opcode 0x02: VUN. -/
def rowVec02 (w : Word) : Option Instr :=
  if w.toNat / 256 % 64 = 0 then some (.vun (BitVec.ofNat 6 (w.toNat / 1048576)) (BitVec.ofNat 6 (w.toNat / 16384)) (BitVec.ofNat 5 (w.toNat / 8)) (BitVec.ofNat 3 w.toNat)) else
  none

/-- Vec opcode 0x03: VCMP. -/
def rowVec03 (w : Word) : Option Instr :=
  if w.toNat / 64 % 4 = 0 ∧ w.toNat / 8388608 % 8 = 0 then some (.vcmp (BitVec.ofNat 3 (w.toNat / 1048576)) (BitVec.ofNat 6 (w.toNat / 16384)) (BitVec.ofNat 6 (w.toNat / 256)) (BitVec.ofNat 3 (w.toNat / 8)) (BitVec.ofNat 3 w.toNat)) else
  none

/-- Vec opcode 0x04: VSEL. -/
def rowVec04 (w : Word) : Option Instr :=
  if w.toNat / 64 % 4 = 0 then some (.vsel (BitVec.ofNat 6 (w.toNat / 1048576)) (BitVec.ofNat 6 (w.toNat / 16384)) (BitVec.ofNat 6 (w.toNat / 256)) (BitVec.ofNat 3 (w.toNat / 8)) (BitVec.ofNat 3 w.toNat)) else
  none

/-- Vec opcode 0x05: VCVT. -/
def rowVec05 (w : Word) : Option Instr :=
  if w.toNat / 2048 % 8 = 0 then some (.vcvt (BitVec.ofNat 6 (w.toNat / 1048576)) (BitVec.ofNat 6 (w.toNat / 16384)) (BitVec.ofNat 3 (w.toNat / 256)) (BitVec.ofNat 2 (w.toNat / 64)) (BitVec.ofNat 3 (w.toNat / 8)) (BitVec.ofNat 3 w.toNat)) else
  none

/-- Vec opcode 0x06: VRED. -/
def rowVec06 (w : Word) : Option Instr :=
  if w.toNat / 256 % 64 = 0 then some (.vred (BitVec.ofNat 6 (w.toNat / 1048576)) (BitVec.ofNat 6 (w.toNat / 16384)) (BitVec.ofNat 5 (w.toNat / 8)) (BitVec.ofNat 3 w.toNat)) else
  none

/-- Vec opcode 0x07: VSCAN. -/
def rowVec07 (w : Word) : Option Instr :=
  if w.toNat / 256 % 64 = 0 then some (.vscan (BitVec.ofNat 6 (w.toNat / 1048576)) (BitVec.ofNat 6 (w.toNat / 16384)) (BitVec.ofNat 5 (w.toNat / 8)) (BitVec.ofNat 3 w.toNat)) else
  none

/-- Vec opcode 0x08: VSHUF. -/
def rowVec08 (w : Word) : Option Instr :=
  some (.vshuf (BitVec.ofNat 6 (w.toNat / 1048576)) (BitVec.ofNat 6 (w.toNat / 16384)) (BitVec.ofNat 6 (w.toNat / 256)) (BitVec.ofNat 5 (w.toNat / 8)) (BitVec.ofNat 3 w.toNat))

/-- Vec opcode 0x09: VLD. -/
def rowVec09 (w : Word) : Option Instr :=
  if w.toNat / 8 % 32 = 0 ∧ w.toNat / 16384 % 8 = 0 then some (.vld (BitVec.ofNat 6 (w.toNat / 1048576)) (BitVec.ofNat 3 (w.toNat / 131072)) (BitVec.ofNat 6 (w.toNat / 256)) (BitVec.ofNat 3 w.toNat)) else
  none

/-- Vec opcode 0x0A: VST. -/
def rowVec0A (w : Word) : Option Instr :=
  if w.toNat / 8 % 32 = 0 ∧ w.toNat / 16384 % 8 = 0 then some (.vst (BitVec.ofNat 6 (w.toNat / 1048576)) (BitVec.ofNat 3 (w.toNat / 131072)) (BitVec.ofNat 6 (w.toNat / 256)) (BitVec.ofNat 3 w.toNat)) else
  none

/-- Vec opcode 0x0B: VLDS. -/
def rowVec0B (w : Word) : Option Instr :=
  some (.vlds (BitVec.ofNat 3 (w.toNat / 8388608)) (BitVec.ofNat 3 (w.toNat / 1048576)) (BitVec.ofNat 2 (w.toNat / 262144)) (BitVec.ofNat 1 (w.toNat / 131072)) (BitVec.ofNat 17 w.toNat))

/-- Vec opcode 0x0C: VSTS. -/
def rowVec0C (w : Word) : Option Instr :=
  if w.toNat / 131072 % 2 = 0 then some (.vsts (BitVec.ofNat 3 (w.toNat / 8388608)) (BitVec.ofNat 3 (w.toNat / 1048576)) (BitVec.ofNat 2 (w.toNat / 262144)) (BitVec.ofNat 17 w.toNat)) else
  none

/-- Vec opcode 0x0D: VGATH. -/
def rowVec0D (w : Word) : Option Instr :=
  if w.toNat / 8 % 32 = 0 then some (.vgath (BitVec.ofNat 6 (w.toNat / 1048576)) (BitVec.ofNat 3 (w.toNat / 131072)) (BitVec.ofNat 3 (w.toNat / 16384)) (BitVec.ofNat 6 (w.toNat / 256)) (BitVec.ofNat 3 w.toNat)) else
  none

/-- Vec opcode 0x0E: VSCAT. -/
def rowVec0E (w : Word) : Option Instr :=
  if w.toNat / 8 % 32 = 0 then some (.vscat (BitVec.ofNat 6 (w.toNat / 1048576)) (BitVec.ofNat 3 (w.toNat / 131072)) (BitVec.ofNat 3 (w.toNat / 16384)) (BitVec.ofNat 6 (w.toNat / 256)) (BitVec.ofNat 3 w.toNat)) else
  none

/-- Vec opcode 0x0F: VBCST_S, VBCST. -/
def rowVec0F (w : Word) : Option Instr :=
  if w.toNat / 8 % 32 = 2 ∧ w.toNat / 2048 % 512 = 0 then some (.vbcstS (BitVec.ofNat 6 (w.toNat / 1048576)) (BitVec.ofNat 3 (w.toNat / 256)) (BitVec.ofNat 3 w.toNat)) else
  if w.toNat / 16 % 16 = 0 then some (.vbcst (BitVec.ofNat 6 (w.toNat / 1048576)) (BitVec.ofNat 6 (w.toNat / 16384)) (BitVec.ofNat 6 (w.toNat / 256)) (BitVec.ofNat 1 (w.toNat / 8)) (BitVec.ofNat 3 w.toNat)) else
  none

/-- Vec opcode 0x10: VMOVS_GET, VMOVS_GETU, VMOVS_PUT. -/
def rowVec10 (w : Word) : Option Instr :=
  if w.toNat % 8 = 0 ∧ w.toNat / 16 % 16 = 0 ∧ w.toNat / 8388608 % 8 = 0 then some (.vmovsGet (BitVec.ofNat 3 (w.toNat / 1048576)) (BitVec.ofNat 6 (w.toNat / 16384)) (BitVec.ofNat 6 (w.toNat / 256)) (BitVec.ofNat 1 (w.toNat / 8))) else
  if w.toNat % 8 = 0 ∧ w.toNat / 16 % 16 = 2 ∧ w.toNat / 8388608 % 8 = 0 then some (.vmovsGetu (BitVec.ofNat 3 (w.toNat / 1048576)) (BitVec.ofNat 6 (w.toNat / 16384)) (BitVec.ofNat 6 (w.toNat / 256)) (BitVec.ofNat 1 (w.toNat / 8))) else
  if w.toNat / 16 % 16 = 4 ∧ w.toNat / 131072 % 8 = 0 then some (.vmovsPut (BitVec.ofNat 6 (w.toNat / 1048576)) (BitVec.ofNat 3 (w.toNat / 16384)) (BitVec.ofNat 6 (w.toNat / 256)) (BitVec.ofNat 1 (w.toNat / 8)) (BitVec.ofNat 3 w.toNat)) else
  none

/-- Vec opcode 0x11: VSOP_SETRM, VSOP_GETRM, VSOP_LI, VSOP. -/
def rowVec11 (w : Word) : Option Instr :=
  if w.toNat / 4 % 16777216 = 212992 then some (.vsopSetrm (BitVec.ofNat 2 w.toNat)) else
  if w.toNat % 8388608 = 884736 then some (.vsopGetrm (BitVec.ofNat 3 (w.toNat / 8388608))) else
  if w.toNat / 16384 % 512 = 48 then some (.vsopLi (BitVec.ofNat 3 (w.toNat / 8388608)) (BitVec.ofNat 14 w.toNat)) else
  some (.vsop (BitVec.ofNat 3 (w.toNat / 8388608)) (BitVec.ofNat 3 (w.toNat / 1048576)) (BitVec.ofNat 5 (w.toNat / 32768)) (BitVec.ofNat 1 (w.toNat / 16384)) (BitVec.ofNat 14 w.toNat))

/-- Vec opcode 0x12: VADDR_STEP, VADDR_POS, VADDR_GET, VADDR_LEN, VADDR. -/
def rowVec12 (w : Word) : Option Instr :=
  if w.toNat % 1048576 = 262144 then some (.vaddrStep (BitVec.ofNat 3 (w.toNat / 8388608)) (BitVec.ofNat 3 (w.toNat / 1048576))) else
  if w.toNat % 1048576 = 393216 then some (.vaddrPos (BitVec.ofNat 3 (w.toNat / 8388608)) (BitVec.ofNat 3 (w.toNat / 1048576))) else
  if w.toNat / 8 % 1048576 = 65536 then some (.vaddrGet (BitVec.ofNat 3 (w.toNat / 8388608)) (BitVec.ofNat 3 w.toNat)) else
  if w.toNat / 4 % 262144 = 32768 then some (.vaddrLen (BitVec.ofNat 3 (w.toNat / 8388608)) (BitVec.ofNat 3 (w.toNat / 1048576)) (BitVec.ofNat 2 w.toNat)) else
  if w.toNat / 131072 % 8 = 0 then some (.vaddr (BitVec.ofNat 3 (w.toNat / 8388608)) (BitVec.ofNat 3 (w.toNat / 1048576)) (BitVec.ofNat 17 w.toNat)) else
  none

/-- Vec opcode 0x13: VSHAPE_VS, VSHAPE_GET, VSHAPE. -/
def rowVec13 (w : Word) : Option Instr :=
  if w.toNat % 1048576 = 524288 ∧ w.toNat / 8388608 % 8 = 0 then some (.vshapeVs (BitVec.ofNat 3 (w.toNat / 1048576))) else
  if w.toNat % 8388608 = 262144 then some (.vshapeGet (BitVec.ofNat 3 (w.toNat / 8388608))) else
  if w.toNat / 4096 % 16384 = 0 then some (.vshape (BitVec.ofNat 4 (w.toNat / 256)) (BitVec.ofNat 8 w.toNat)) else
  none

/-- Vec opcode 0x14: VPRED_NOT, VPRED_LT, VPRED_CNT, VPRED_LOGIC. -/
def rowVec14 (w : Word) : Option Instr :=
  if w.toNat / 8 % 2048 = 5 ∧ w.toNat / 131072 % 8 = 0 ∧ w.toNat / 8388608 % 8 = 0 then some (.vpredNot (BitVec.ofNat 3 (w.toNat / 1048576)) (BitVec.ofNat 3 (w.toNat / 16384)) (BitVec.ofNat 3 w.toNat)) else
  if w.toNat / 8 % 2048 = 6 ∧ w.toNat / 131072 % 8 = 0 ∧ w.toNat / 8388608 % 8 = 0 then some (.vpredLt (BitVec.ofNat 3 (w.toNat / 1048576)) (BitVec.ofNat 3 (w.toNat / 16384)) (BitVec.ofNat 3 w.toNat)) else
  if w.toNat / 8 % 2048 = 7 ∧ w.toNat / 131072 % 8 = 0 ∧ w.toNat / 8388608 % 8 = 0 then some (.vpredCnt (BitVec.ofNat 3 (w.toNat / 1048576)) (BitVec.ofNat 3 (w.toNat / 16384)) (BitVec.ofNat 3 w.toNat)) else
  if w.toNat / 2048 % 8 = 0 ∧ w.toNat / 131072 % 8 = 0 ∧ w.toNat / 8388608 % 8 = 0 then some (.vpredLogic (BitVec.ofNat 3 (w.toNat / 1048576)) (BitVec.ofNat 3 (w.toNat / 16384)) (BitVec.ofNat 3 (w.toNat / 256)) (BitVec.ofNat 5 (w.toNat / 8)) (BitVec.ofNat 3 w.toNat)) else
  none

/-- Vec opcode 0x15: VDEFER. -/
def rowVec15 (w : Word) : Option Instr :=
  if w.toNat / 64 % 4 = 0 then some (.vdefer (BitVec.ofNat 6 (w.toNat / 1048576)) (BitVec.ofNat 3 (w.toNat / 131072)) (BitVec.ofNat 3 (w.toNat / 16384)) (BitVec.ofNat 6 (w.toNat / 256)) (BitVec.ofNat 3 (w.toNat / 8)) (BitVec.ofNat 3 w.toNat)) else
  none

/-- Vec opcode 0x16: VUNDEF. -/
def rowVec16 (w : Word) : Option Instr :=
  if w.toNat % 256 = 0 then some (.vundef (BitVec.ofNat 6 (w.toNat / 1048576)) (BitVec.ofNat 3 (w.toNat / 131072)) (BitVec.ofNat 3 (w.toNat / 16384)) (BitVec.ofNat 6 (w.toNat / 256))) else
  none

/-- Vec opcode 0x17: VPACK. -/
def rowVec17 (w : Word) : Option Instr :=
  some (.vpack (BitVec.ofNat 6 (w.toNat / 1048576)) (BitVec.ofNat 6 (w.toNat / 16384)) (BitVec.ofNat 1 (w.toNat / 8192)) (BitVec.ofNat 7 (w.toNat / 64)) (BitVec.ofNat 3 (w.toNat / 8)) (BitVec.ofNat 3 w.toNat))

/-- Vec opcode 0x18: VXTRD. -/
def rowVec18 (w : Word) : Option Instr :=
  if w.toNat / 16384 % 2 = 0 then some (.vxtrd (BitVec.ofNat 6 (w.toNat / 1048576)) (BitVec.ofNat 5 (w.toNat / 32768)) (BitVec.ofNat 11 (w.toNat / 8)) (BitVec.ofNat 3 w.toNat)) else
  none

/-- Vec opcode 0x19: VGUARD. -/
def rowVec19 (w : Word) : Option Instr :=
  if w.toNat / 128 % 524288 = 0 then some (.vguard (BitVec.ofNat 1 (w.toNat / 64)) (BitVec.ofNat 6 w.toNat)) else
  none

/-- Vec opcode 0x1A: VBXENC. -/
def rowVec1A (w : Word) : Option Instr :=
  if w.toNat % 8 = 0 ∧ w.toNat / 32 % 8 = 0 then some (.vbxenc (BitVec.ofNat 6 (w.toNat / 1048576)) (BitVec.ofNat 6 (w.toNat / 16384)) (BitVec.ofNat 6 (w.toNat / 256)) (BitVec.ofNat 2 (w.toNat / 8))) else
  none

/-- Vec opcode 0x1B: VBXDEC. -/
def rowVec1B (w : Word) : Option Instr :=
  if w.toNat % 8 = 0 ∧ w.toNat / 32 % 8 = 0 then some (.vbxdec (BitVec.ofNat 6 (w.toNat / 1048576)) (BitVec.ofNat 6 (w.toNat / 16384)) (BitVec.ofNat 6 (w.toNat / 256)) (BitVec.ofNat 2 (w.toNat / 8))) else
  none

/-- Vec opcode 0x1C: VFIFO_MAT, VFIFO_POP, VFIFO_SEQ. -/
def rowVec1C (w : Word) : Option Instr :=
  if w.toNat % 16384 = 8 ∧ w.toNat / 1048576 % 64 = 0 then some (.vfifoMat (BitVec.ofNat 6 (w.toNat / 16384))) else
  if w.toNat / 8 % 131072 = 2 then some (.vfifoPop (BitVec.ofNat 6 (w.toNat / 1048576)) (BitVec.ofNat 3 w.toNat)) else
  if w.toNat % 256 = 0 ∧ w.toNat / 1048576 % 64 = 0 then some (.vfifoSeq (BitVec.ofNat 6 (w.toNat / 16384)) (BitVec.ofNat 6 (w.toNat / 256))) else
  none

/-- Vec opcode 0x1D: VRPT. -/
def rowVec1D (w : Word) : Option Instr :=
  if w.toNat % 32 = 0 ∧ w.toNat / 1048576 % 64 = 0 then some (.vrpt (BitVec.ofNat 6 (w.toNat / 16384)) (BitVec.ofNat 3 (w.toNat / 2048)) (BitVec.ofNat 3 (w.toNat / 256)) (BitVec.ofNat 3 (w.toNat / 32))) else
  none

/-- Vec opcode 0x1E: VSOFT. -/
def rowVec1E (w : Word) : Option Instr :=
  if w.toNat / 8 % 32 = 0 then some (.vsoft (BitVec.ofNat 6 (w.toNat / 1048576)) (BitVec.ofNat 6 (w.toNat / 16384)) (BitVec.ofNat 6 (w.toNat / 256)) (BitVec.ofNat 3 w.toNat)) else
  none

/-- Vec opcode 0x1F: VMASKB. -/
def rowVec1F (w : Word) : Option Instr :=
  if w.toNat / 8 % 32 = 0 ∧ w.toNat / 2048 % 8 = 0 ∧ w.toNat / 131072 % 8 = 0 ∧ w.toNat / 8388608 % 8 = 0 then some (.vmaskb (BitVec.ofNat 3 (w.toNat / 1048576)) (BitVec.ofNat 3 (w.toNat / 16384)) (BitVec.ofNat 3 (w.toNat / 256)) (BitVec.ofNat 3 w.toNat)) else
  none

/-- Vec opcode 0x20: VCPY_P, VCPY_PN, VCPY. -/
def rowVec20 (w : Word) : Option Instr :=
  if w.toNat / 8 % 2048 = 1 ∧ w.toNat / 131072 % 8 = 0 ∧ w.toNat / 8388608 % 8 = 0 then some (.vcpyP (BitVec.ofNat 3 (w.toNat / 1048576)) (BitVec.ofNat 3 (w.toNat / 16384)) (BitVec.ofNat 3 w.toNat)) else
  if w.toNat / 8 % 2048 = 2 ∧ w.toNat / 131072 % 8 = 0 ∧ w.toNat / 8388608 % 8 = 0 then some (.vcpyPn (BitVec.ofNat 3 (w.toNat / 1048576)) (BitVec.ofNat 3 (w.toNat / 16384)) (BitVec.ofNat 3 w.toNat)) else
  if w.toNat / 8 % 2048 = 0 then some (.vcpy (BitVec.ofNat 6 (w.toNat / 1048576)) (BitVec.ofNat 6 (w.toNat / 16384)) (BitVec.ofNat 3 w.toNat)) else
  none

/-- Vec opcode 0x21: VDOT. -/
def rowVec21 (w : Word) : Option Instr :=
  if w.toNat / 128 % 2 = 0 then some (.vdot (BitVec.ofNat 6 (w.toNat / 1048576)) (BitVec.ofNat 6 (w.toNat / 16384)) (BitVec.ofNat 6 (w.toNat / 256)) (BitVec.ofNat 1 (w.toNat / 64)) (BitVec.ofNat 3 (w.toNat / 8)) (BitVec.ofNat 3 w.toNat)) else
  none

/-- Vec opcode 0x22: VAMAX. -/
def rowVec22 (w : Word) : Option Instr :=
  if w.toNat / 16 % 1024 = 0 then some (.vamax (BitVec.ofNat 6 (w.toNat / 1048576)) (BitVec.ofNat 6 (w.toNat / 16384)) (BitVec.ofNat 1 (w.toNat / 8)) (BitVec.ofNat 3 w.toNat)) else
  none

/-- Vec opcode 0x23: VCLASS. -/
def rowVec23 (w : Word) : Option Instr :=
  if w.toNat / 8 % 2048 = 0 then some (.vclass (BitVec.ofNat 6 (w.toNat / 1048576)) (BitVec.ofNat 6 (w.toNat / 16384)) (BitVec.ofNat 3 w.toNat)) else
  none

/-- The row of the table that a word of a .vec section names. -/
def rowVec (w : Word) : Option Instr :=
  match w.toNat / 67108864 with
  | 0 => rowVec00 w
  | 1 => rowVec01 w
  | 2 => rowVec02 w
  | 3 => rowVec03 w
  | 4 => rowVec04 w
  | 5 => rowVec05 w
  | 6 => rowVec06 w
  | 7 => rowVec07 w
  | 8 => rowVec08 w
  | 9 => rowVec09 w
  | 10 => rowVec0A w
  | 11 => rowVec0B w
  | 12 => rowVec0C w
  | 13 => rowVec0D w
  | 14 => rowVec0E w
  | 15 => rowVec0F w
  | 16 => rowVec10 w
  | 17 => rowVec11 w
  | 18 => rowVec12 w
  | 19 => rowVec13 w
  | 20 => rowVec14 w
  | 21 => rowVec15 w
  | 22 => rowVec16 w
  | 23 => rowVec17 w
  | 24 => rowVec18 w
  | 25 => rowVec19 w
  | 26 => rowVec1A w
  | 27 => rowVec1B w
  | 28 => rowVec1C w
  | 29 => rowVec1D w
  | 30 => rowVec1E w
  | 31 => rowVec1F w
  | 32 => rowVec20 w
  | 33 => rowVec21 w
  | 34 => rowVec22 w
  | 35 => rowVec23 w
  | _ => none

/-- Mat opcode 0x00: MMA. -/
def rowMat00 (w : Word) : Option Instr :=
  if w.toNat / 2 % 4 = 0 then some (.mma (BitVec.ofNat 8 (w.toNat / 524288)) (BitVec.ofNat 5 (w.toNat / 16384)) (BitVec.ofNat 4 (w.toNat / 1024)) (BitVec.ofNat 4 (w.toNat / 64)) (BitVec.ofNat 1 (w.toNat / 32)) (BitVec.ofNat 1 (w.toNat / 16)) (BitVec.ofNat 1 (w.toNat / 8)) (BitVec.ofNat 1 w.toNat)) else
  none

/-- Mat opcode 0x01: MLDD_OD, MLDD_AS. -/
def rowMat01 (w : Word) : Option Instr :=
  if w.toNat % 16384 = 0 ∧ w.toNat / 262144 % 512 = 0 then some (.mlddOd (BitVec.ofNat 4 (w.toNat / 16384))) else
  if w.toNat % 16384 = 0 ∧ w.toNat / 262144 % 512 = 1 then some (.mlddAs (BitVec.ofNat 4 (w.toNat / 16384))) else
  none

/-- Mat opcode 0x02: MFMT. -/
def rowMat02 (w : Word) : Option Instr :=
  if w.toNat % 1024 = 0 ∧ w.toNat / 4096 % 128 = 0 then some (.mfmt (BitVec.ofNat 8 (w.toNat / 524288)) (BitVec.ofNat 2 (w.toNat / 1024))) else
  none

/-- Mat opcode 0x03: MDRAIN. -/
def rowMat03 (w : Word) : Option Instr :=
  if w.toNat % 32 = 0 ∧ w.toNat / 16384 % 32 = 0 then some (.mdrain (BitVec.ofNat 8 (w.toNat / 524288)) (BitVec.ofNat 4 (w.toNat / 1024)) (BitVec.ofNat 4 (w.toNat / 64)) (BitVec.ofNat 1 (w.toNat / 32))) else
  none

/-- Mat opcode 0x04: MZERO. -/
def rowMat04 (w : Word) : Option Instr :=
  if w.toNat % 524288 = 0 then some (.mzero (BitVec.ofNat 8 (w.toNat / 524288))) else
  none

/-- Mat opcode 0x05: MWMUL. -/
def rowMat05 (w : Word) : Option Instr :=
  if w.toNat / 2 % 8 = 0 ∧ w.toNat / 32 % 2 = 0 then some (.mwmul (BitVec.ofNat 8 (w.toNat / 524288)) (BitVec.ofNat 5 (w.toNat / 16384)) (BitVec.ofNat 4 (w.toNat / 1024)) (BitVec.ofNat 4 (w.toNat / 64)) (BitVec.ofNat 1 (w.toNat / 16)) (BitVec.ofNat 1 w.toNat)) else
  none

/-- Mat opcode 0x06: MWMAC. -/
def rowMat06 (w : Word) : Option Instr :=
  if w.toNat / 2 % 8 = 0 ∧ w.toNat / 32 % 2 = 0 then some (.mwmac (BitVec.ofNat 8 (w.toNat / 524288)) (BitVec.ofNat 5 (w.toNat / 16384)) (BitVec.ofNat 4 (w.toNat / 1024)) (BitVec.ofNat 4 (w.toNat / 64)) (BitVec.ofNat 1 (w.toNat / 16)) (BitVec.ofNat 1 w.toNat)) else
  none

/-- Mat opcode 0x07: MFOLD_ADAPTIVE, MFOLD_REPORT, MFOLD_STRICT. -/
def rowMat07 (w : Word) : Option Instr :=
  if w.toNat % 134217728 = 0 then some .mfoldAdaptive else
  if w.toNat % 134217728 = 32768 then some .mfoldReport else
  if w.toNat % 1024 = 0 ∧ w.toNat / 16384 % 8192 = 1 then some (.mfoldStrict (BitVec.ofNat 4 (w.toNat / 1024))) else
  none

/-- Mat opcode 0x08: MFIFO_POP, MFIFO_PUSH. -/
def rowMat08 (w : Word) : Option Instr :=
  if w.toNat % 16384 = 0 then some (.mfifoPop (BitVec.ofNat 8 (w.toNat / 524288)) (BitVec.ofNat 5 (w.toNat / 16384))) else
  if w.toNat % 16384 = 16 then some (.mfifoPush (BitVec.ofNat 8 (w.toNat / 524288)) (BitVec.ofNat 5 (w.toNat / 16384))) else
  none

/-- Mat opcode 0x09: MMSK. -/
def rowMat09 (w : Word) : Option Instr :=
  if w.toNat % 4096 = 0 ∧ w.toNat / 1048576 % 16 = 0 then some (.mmsk (BitVec.ofNat 3 (w.toNat / 16777216)) (BitVec.ofNat 1 (w.toNat / 524288)) (BitVec.ofNat 5 (w.toNat / 16384)) (BitVec.ofNat 1 (w.toNat / 8192)) (BitVec.ofNat 1 (w.toNat / 4096))) else
  none

/-- Mat opcode 0x0A: MSYNC. -/
def rowMat0A (w : Word) : Option Instr :=
  if w.toNat / 2 % 67108864 = 0 then some (.msync (BitVec.ofNat 1 w.toNat)) else
  none

/-- Mat opcode 0x0B: MAMAX, MAMAX_CAP, MAMAX_CLR. -/
def rowMat0B (w : Word) : Option Instr :=
  if w.toNat % 134217728 = 0 then some .mamax else
  if w.toNat % 134217728 = 16384 then some .mamaxCap else
  if w.toNat % 134217728 = 32768 then some .mamaxClr else
  none

/-- Mat opcode 0x0C: MCPY. -/
def rowMat0C (w : Word) : Option Instr :=
  if w.toNat % 1024 = 0 ∧ w.toNat / 4096 % 4 = 0 ∧ w.toNat / 262144 % 2 = 1 then some (.mcpy (BitVec.ofNat 8 (w.toNat / 524288)) (BitVec.ofNat 4 (w.toNat / 16384)) (BitVec.ofNat 2 (w.toNat / 1024))) else
  none

/-- Mat opcode 0x0D: MRPT. -/
def rowMat0D (w : Word) : Option Instr :=
  if w.toNat % 1024 = 0 ∧ w.toNat / 524288 % 4 = 0 then some (.mrpt (BitVec.ofNat 6 (w.toNat / 2097152)) (BitVec.ofNat 3 (w.toNat / 65536)) (BitVec.ofNat 3 (w.toNat / 8192)) (BitVec.ofNat 3 (w.toNat / 1024))) else
  none

/-- Mat opcode 0x0E: MSCALE, MSCALE_Y. -/
def rowMat0E (w : Word) : Option Instr :=
  if w.toNat % 134217728 = 0 then some .mscale else
  if w.toNat % 134217728 = 16384 then some .mscaleY else
  none

/-- Mat opcode 0x0F: MBAR. -/
def rowMat0F (w : Word) : Option Instr :=
  if w.toNat % 134217728 = 0 then some .mbar else
  none

/-- The row of the table that a word of a .mat section names. -/
def rowMat (w : Word) : Option Instr :=
  match w.toNat / 134217728 with
  | 0 => rowMat00 w
  | 1 => rowMat01 w
  | 2 => rowMat02 w
  | 3 => rowMat03 w
  | 4 => rowMat04 w
  | 5 => rowMat05 w
  | 6 => rowMat06 w
  | 7 => rowMat07 w
  | 8 => rowMat08 w
  | 9 => rowMat09 w
  | 10 => rowMat0A w
  | 11 => rowMat0B w
  | 12 => rowMat0C w
  | 13 => rowMat0D w
  | 14 => rowMat0E w
  | 15 => rowMat0F w
  | _ => none

/-- Xfr opcode 0x00: XCOPY. -/
def rowXfr00 (w : Word) : Option Instr :=
  if w.toNat % 64 = 0 then some (.xcopy (BitVec.ofNat 3 (w.toNat / 16777216)) (BitVec.ofNat 3 (w.toNat / 2097152)) (BitVec.ofNat 8 (w.toNat / 8192)) (BitVec.ofNat 5 (w.toNat / 256)) (BitVec.ofNat 1 (w.toNat / 128)) (BitVec.ofNat 1 (w.toNat / 64))) else
  none

/-- Xfr opcode 0x01: XGATH. -/
def rowXfr01 (w : Word) : Option Instr :=
  if w.toNat % 64 = 0 then some (.xgath (BitVec.ofNat 3 (w.toNat / 16777216)) (BitVec.ofNat 3 (w.toNat / 2097152)) (BitVec.ofNat 8 (w.toNat / 8192)) (BitVec.ofNat 5 (w.toNat / 256)) (BitVec.ofNat 1 (w.toNat / 128)) (BitVec.ofNat 1 (w.toNat / 64))) else
  none

/-- Xfr opcode 0x02: XSCAT. -/
def rowXfr02 (w : Word) : Option Instr :=
  if w.toNat % 64 = 0 then some (.xscat (BitVec.ofNat 3 (w.toNat / 16777216)) (BitVec.ofNat 3 (w.toNat / 2097152)) (BitVec.ofNat 8 (w.toNat / 8192)) (BitVec.ofNat 5 (w.toNat / 256)) (BitVec.ofNat 1 (w.toNat / 128)) (BitVec.ofNat 1 (w.toNat / 64))) else
  none

/-- Xfr opcode 0x03: XIDX. -/
def rowXfr03 (w : Word) : Option Instr :=
  if w.toNat % 8192 = 0 then some (.xidx (BitVec.ofNat 3 (w.toNat / 16777216)) (BitVec.ofNat 3 (w.toNat / 2097152)) (BitVec.ofNat 8 (w.toNat / 8192))) else
  none

/-- Xfr opcode 0x04: XFILL. -/
def rowXfr04 (w : Word) : Option Instr :=
  if w.toNat % 32 = 0 ∧ w.toNat / 16777216 % 8 = 0 then some (.xfill (BitVec.ofNat 3 (w.toNat / 2097152)) (BitVec.ofNat 8 (w.toNat / 8192)) (BitVec.ofNat 5 (w.toNat / 256)) (BitVec.ofNat 1 (w.toNat / 128)) (BitVec.ofNat 1 (w.toNat / 64)) (BitVec.ofNat 1 (w.toNat / 32))) else
  none

/-- Xfr opcode 0x05: XRED. -/
def rowXfr05 (w : Word) : Option Instr :=
  some (.xred (BitVec.ofNat 3 (w.toNat / 16777216)) (BitVec.ofNat 3 (w.toNat / 2097152)) (BitVec.ofNat 8 (w.toNat / 8192)) (BitVec.ofNat 5 (w.toNat / 256)) (BitVec.ofNat 1 (w.toNat / 128)) (BitVec.ofNat 1 (w.toNat / 64)) (BitVec.ofNat 1 (w.toNat / 32)) (BitVec.ofNat 1 (w.toNat / 16)) (BitVec.ofNat 4 w.toNat))

/-- Xfr opcode 0x06: XLAYER. -/
def rowXfr06 (w : Word) : Option Instr :=
  if w.toNat % 64 = 0 then some (.xlayer (BitVec.ofNat 3 (w.toNat / 16777216)) (BitVec.ofNat 3 (w.toNat / 2097152)) (BitVec.ofNat 8 (w.toNat / 8192)) (BitVec.ofNat 5 (w.toNat / 256)) (BitVec.ofNat 1 (w.toNat / 128)) (BitVec.ofNat 1 (w.toNat / 64))) else
  none

/-- Xfr opcode 0x07: XREM. -/
def rowXfr07 (w : Word) : Option Instr :=
  if w.toNat % 64 = 0 then some (.xrem (BitVec.ofNat 3 (w.toNat / 16777216)) (BitVec.ofNat 3 (w.toNat / 2097152)) (BitVec.ofNat 8 (w.toNat / 8192)) (BitVec.ofNat 5 (w.toNat / 256)) (BitVec.ofNat 1 (w.toNat / 128)) (BitVec.ofNat 1 (w.toNat / 64))) else
  none

/-- Xfr opcode 0x08: XBAR. -/
def rowXfr08 (w : Word) : Option Instr :=
  if w.toNat / 32 % 2 = 0 ∧ w.toNat / 128 % 2 = 0 ∧ w.toNat / 2097152 % 64 = 0 then some (.xbar (BitVec.ofNat 8 (w.toNat / 8192)) (BitVec.ofNat 5 (w.toNat / 256)) (BitVec.ofNat 1 (w.toNat / 64)) (BitVec.ofNat 5 w.toNat)) else
  none

/-- Xfr opcode 0x09: XEVT. -/
def rowXfr09 (w : Word) : Option Instr :=
  if w.toNat % 134217728 = 0 then some .xevt else
  none

/-- Xfr opcode 0x0A: XDESC_SLOT, XDESC. -/
def rowXfr0A (w : Word) : Option Instr :=
  if w.toNat % 2 = 1 ∧ w.toNat / 8 % 2 = 0 ∧ w.toNat / 64 % 4 = 0 ∧ w.toNat / 8192 % 16384 = 0 then some (.xdescSlot (BitVec.ofNat 5 (w.toNat / 256)) (BitVec.ofNat 2 (w.toNat / 16)) (BitVec.ofNat 2 (w.toNat / 2))) else
  if w.toNat % 2 = 0 ∧ w.toNat / 256 % 32 = 0 ∧ w.toNat / 16777216 % 8 = 0 then some (.xdesc (BitVec.ofNat 3 (w.toNat / 2097152)) (BitVec.ofNat 8 (w.toNat / 8192)) (BitVec.ofNat 2 (w.toNat / 64)) (BitVec.ofNat 2 (w.toNat / 16)) (BitVec.ofNat 1 (w.toNat / 8)) (BitVec.ofNat 2 (w.toNat / 2))) else
  none

/-- Xfr opcode 0x0B: XWAIT. -/
def rowXfr0B (w : Word) : Option Instr :=
  if w.toNat / 2 % 128 = 0 ∧ w.toNat / 8192 % 16384 = 0 then some (.xwait (BitVec.ofNat 5 (w.toNat / 256)) (BitVec.ofNat 1 w.toNat)) else
  none

/-- The row of the table that a word of a .xfr section names. -/
def rowXfr (w : Word) : Option Instr :=
  match w.toNat / 134217728 with
  | 0 => rowXfr00 w
  | 1 => rowXfr01 w
  | 2 => rowXfr02 w
  | 3 => rowXfr03 w
  | 4 => rowXfr04 w
  | 5 => rowXfr05 w
  | 6 => rowXfr06 w
  | 7 => rowXfr07 w
  | 8 => rowXfr08 w
  | 9 => rowXfr09 w
  | 10 => rowXfr0A w
  | 11 => rowXfr0B w
  | _ => none

/-- Dec opcode 0x00: DATTN. -/
def rowDec00 (w : Word) : Option Instr :=
  if w.toNat % 536870912 = 0 then some .dattn else
  none

/-- Dec opcode 0x01: DAPPEND. -/
def rowDec01 (w : Word) : Option Instr :=
  if w.toNat % 536870912 = 0 then some .dappend else
  none

/-- Dec opcode 0x02: DSTAT. -/
def rowDec02 (w : Word) : Option Instr :=
  if w.toNat % 536870912 = 0 then some .dstat else
  none

/-- Dec opcode 0x03: DBAR. -/
def rowDec03 (w : Word) : Option Instr :=
  if w.toNat % 536870912 = 0 then some .dbar else
  none

/-- The row of the table that a word of a .dec section names. -/
def rowDec (w : Word) : Option Instr :=
  match w.toNat / 536870912 with
  | 0 => rowDec00 w
  | 1 => rowDec01 w
  | 2 => rowDec02 w
  | 3 => rowDec03 w
  | _ => none

/-- The row that a word names in a section. -/
def rowOf (s : Section) (w : Word) : Option Instr :=
  match s with
  | .seq => rowSeq w
  | .vec => rowVec w
  | .mat => rowMat w
  | .xfr => rowXfr w
  | .dec => rowDec w

/-- The instruction that a word is in a section (R318). -/
def decodeWord (s : Section) (w : Word) : Except Reject Instr :=
  match rowOf s w with
  | none => .error (.opcode s w)
  | some i => if i.wf then .ok i else .error (.field s w)

/-- Decode the next word of a section, little-endian (R2, R303): the instruction and the bytes after it. -/
def decode (s : Section) (bs : List Byte) : Except Reject (Instr × List Byte) :=
  match bs with
  | b0 :: b1 :: b2 :: b3 :: rest =>
    match decodeWord s (BitVec.ofNat 32 (b0.toNat + 256 * b1.toNat + 65536 * b2.toNat + 16777216 * b3.toNat)) with
    | .ok i => .ok (i, rest)
    | .error e => .error e
  | _ => .error .short

/-- The word of an instruction; none for an event. -/
def encode (i : Instr) : Option Word :=
  match i with
  | .iop q d s t f => some (BitVec.ofNat 32 (0 + q.toNat * 8388608 + d.toNat * 262144 + s.toNat * 8192 + t.toNat * 256 + f.toNat))
  | .iopi q d s f i => some (BitVec.ofNat 32 (67108864 + q.toNat * 8388608 + d.toNat * 262144 + s.toNat * 8192 + f.toNat * 1024 + i.toNat))
  | .lui q d i => some (BitVec.ofNat 32 (134217728 + q.toNat * 8388608 + d.toNat * 262144 + i.toNat))
  | .addpc q d i => some (BitVec.ofNat 32 (201326592 + q.toNat * 8388608 + d.toNat * 262144 + i.toNat))
  | .cmp q d s t c => some (BitVec.ofNat 32 (268435456 + q.toNat * 8388608 + d.toNat * 262144 + s.toNat * 8192 + t.toNat * 256 + c.toNat))
  | .cmpi q d s c i => some (BitVec.ofNat 32 (335544320 + q.toNat * 8388608 + d.toNat * 262144 + s.toNat * 8192 + c.toNat * 1024 + i.toNat))
  | .plog q d s t f => some (BitVec.ofNat 32 (402653184 + q.toNat * 8388608 + d.toNat * 262144 + s.toNat * 8192 + t.toNat * 256 + f.toNat))
  | .psave q d => some (BitVec.ofNat 32 (469762048 + q.toNat * 8388608 + d.toNat * 262144))
  | .pload q s => some (BitVec.ofNat 32 (536870912 + q.toNat * 8388608 + s.toNat * 8192))
  | .sel q d s t c => some (BitVec.ofNat 32 (603979776 + q.toNat * 8388608 + d.toNat * 262144 + s.toNat * 8192 + t.toNat * 256 + c.toNat))
  | .selF q d s t c => some (BitVec.ofNat 32 (603979784 + q.toNat * 8388608 + d.toNat * 262144 + s.toNat * 8192 + t.toNat * 256 + c.toNat))
  | .fop q d s t f => some (BitVec.ofNat 32 (671088640 + q.toNat * 8388608 + d.toNat * 262144 + s.toNat * 8192 + t.toNat * 256 + f.toNat))
  | .fma q d s t f => some (BitVec.ofNat 32 (738197504 + q.toNat * 8388608 + d.toNat * 262144 + s.toNat * 8192 + t.toNat * 256 + f.toNat))
  | .fcmp q d s t c => some (BitVec.ofNat 32 (805306368 + q.toNat * 8388608 + d.toNat * 262144 + s.toNat * 8192 + t.toNat * 256 + c.toNat))
  | .fcvt q d s f => some (BitVec.ofNat 32 (872415232 + q.toNat * 8388608 + d.toNat * 262144 + s.toNat * 8192 + f.toNat))
  | .lds q d b z x i => some (BitVec.ofNat 32 (939524096 + q.toNat * 8388608 + d.toNat * 262144 + b.toNat * 8192 + z.toNat * 2048 + x.toNat * 1024 + i.toNat))
  | .sts q d b z i => some (BitVec.ofNat 32 (1006632960 + q.toNat * 8388608 + d.toNat * 262144 + b.toNat * 8192 + z.toNat * 2048 + i.toNat))
  | .flds q d b i => some (BitVec.ofNat 32 (1073745920 + q.toNat * 8388608 + d.toNat * 262144 + b.toNat * 8192 + i.toNat))
  | .fsts q d b i => some (BitVec.ofNat 32 (1140854784 + q.toNat * 8388608 + d.toNat * 262144 + b.toNat * 8192 + i.toNat))
  | .ldg q d s t x z => some (BitVec.ofNat 32 (1207959552 + q.toNat * 8388608 + d.toNat * 262144 + s.toNat * 8192 + t.toNat * 256 + x.toNat * 4 + z.toNat))
  | .stg q d s t z => some (BitVec.ofNat 32 (1275068416 + q.toNat * 8388608 + d.toNat * 262144 + s.toNat * 8192 + t.toNat * 256 + z.toNat))
  | .ldq q d b i => some (BitVec.ofNat 32 (1342177280 + q.toNat * 8388608 + d.toNat * 262144 + b.toNat * 8192 + i.toNat))
  | .stq q d b i => some (BitVec.ofNat 32 (1409286144 + q.toNat * 8388608 + d.toNat * 262144 + b.toNat * 8192 + i.toNat))
  | .amo q d s t w c l a o => some (BitVec.ofNat 32 (1476395008 + q.toNat * 8388608 + d.toNat * 262144 + s.toNat * 8192 + t.toNat * 256 + w.toNat * 128 + c.toNat * 64 + l.toNat * 32 + a.toNat * 16 + o.toNat))
  | .capld q d b i => some (BitVec.ofNat 32 (1543503872 + q.toNat * 8388608 + d.toNat * 262144 + b.toNat * 8192 + i.toNat))
  | .capst q d b i => some (BitVec.ofNat 32 (1610612736 + q.toNat * 8388608 + d.toNat * 262144 + b.toNat * 8192 + i.toNat))
  | .capopMov q d s => some (BitVec.ofNat 32 (1677721601 + q.toNat * 8388608 + d.toNat * 262144 + s.toNat * 8192))
  | .capopTrim q d s t => some (BitVec.ofNat 32 (1677721602 + q.toNat * 8388608 + d.toNat * 262144 + s.toNat * 8192 + t.toNat * 256))
  | .capopLen q d s t => some (BitVec.ofNat 32 (1677721603 + q.toNat * 8388608 + d.toNat * 262144 + s.toNat * 8192 + t.toNat * 256))
  | .capopPerm q d s t => some (BitVec.ofNat 32 (1677721604 + q.toNat * 8388608 + d.toNat * 262144 + s.toNat * 8192 + t.toNat * 256))
  | .capopBase q d s => some (BitVec.ofNat 32 (1677721605 + q.toNat * 8388608 + d.toNat * 262144 + s.toNat * 8192))
  | .capopSize q d s => some (BitVec.ofNat 32 (1677721606 + q.toNat * 8388608 + d.toNat * 262144 + s.toNat * 8192))
  | .capopInfo q d s => some (BitVec.ofNat 32 (1677721607 + q.toNat * 8388608 + d.toNat * 262144 + s.toNat * 8192))
  | .capopUntag q d s => some (BitVec.ofNat 32 (1677721608 + q.toNat * 8388608 + d.toNat * 262144 + s.toNat * 8192))
  | .br q n f => some (BitVec.ofNat 32 (1744830464 + q.toNat * 8388608 + n.toNat * 4194304 + f.toNat))
  | .jal q n f => some (BitVec.ofNat 32 (1811939328 + q.toNat * 8388608 + n.toNat * 4194304 + f.toNat))
  | .jalr q d s i => some (BitVec.ofNat 32 (1879048192 + q.toNat * 8388608 + d.toNat * 262144 + s.toNat * 8192 + i.toNat))
  | .loop q i s l => some (BitVec.ofNat 32 (1946157056 + q.toNat * 8388608 + i.toNat * 2097152 + s.toNat * 8192 + l.toNat))
  | .loopRot q i s g l => some (BitVec.ofNat 32 (1947205632 + q.toNat * 8388608 + i.toNat * 2097152 + s.toNat * 8192 + g.toNat * 1024 + l.toNat))
  | .rpt q c a b e => some (BitVec.ofNat 32 (2013265920 + q.toNat * 8388608 + c.toNat * 4096 + a.toNat * 512 + b.toNat * 64 + e.toNat * 8))
  | .cmd e k s t w v z y => some (BitVec.ofNat 32 (2080374784 + e.toNat * 16777216 + k.toNat * 262144 + s.toNat * 8192 + t.toNat * 256 + w.toNat * 32 + v.toNat * 16 + z.toNat * 2 + y.toNat))
  | .popr q d f => some (BitVec.ofNat 32 (2147483648 + q.toNat * 8388608 + d.toNat * 262144 + f.toNat))
  | .pushd q s t => some (BitVec.ofNat 32 (2214592513 + q.toNat * 8388608 + s.toNat * 8192 + t.toNat * 256))
  | .semsSig q n => some (BitVec.ofNat 32 (2281701376 + q.toNat * 8388608 + n.toNat))
  | .semsWait q n => some (BitVec.ofNat 32 (2281702400 + q.toNat * 8388608 + n.toNat))
  | .semsGet q d n => some (BitVec.ofNat 32 (2281703424 + q.toNat * 8388608 + d.toNat * 262144 + n.toNat))
  | .semsTry q d n => some (BitVec.ofNat 32 (2281704448 + q.toNat * 8388608 + d.toNat * 262144 + n.toNat))
  | .bara q s t => some (BitVec.ofNat 32 (2348810240 + q.toNat * 8388608 + s.toNat * 8192 + t.toNat * 256))
  | .baraCap q c s t => some (BitVec.ofNat 32 (2348810241 + q.toNat * 8388608 + c.toNat * 262144 + s.toNat * 8192 + t.toNat * 256))
  | .barw q s t => some (BitVec.ofNat 32 (2415919104 + q.toNat * 8388608 + s.toNat * 8192 + t.toNat * 256))
  | .barwCap q c s t => some (BitVec.ofNat 32 (2415919105 + q.toNat * 8388608 + c.toNat * 262144 + s.toNat * 8192 + t.toNat * 256))
  | .fenceAcq q s => some (BitVec.ofNat 32 (2483027968 + q.toNat * 8388608 + s.toNat * 4))
  | .fenceRel q s => some (BitVec.ofNat 32 (2483027969 + q.toNat * 8388608 + s.toNat * 4))
  | .fenceFull q s => some (BitVec.ofNat 32 (2483027970 + q.toNat * 8388608 + s.toNat * 4))
  | .fenceLayer q s => some (BitVec.ofNat 32 (2483027971 + q.toNat * 8388608 + s.toNat * 4))
  | .evpop q d => some (BitVec.ofNat 32 (2550136832 + q.toNat * 8388608 + d.toNat * 262144))
  | .iterDone q => some (BitVec.ofNat 32 (2617245697 + q.toNat * 8388608))
  | .iterPt q d => some (BitVec.ofNat 32 (2617245698 + q.toNat * 8388608 + d.toNat * 262144))
  | .sysr q d f n => some (BitVec.ofNat 32 (2684354560 + q.toNat * 8388608 + d.toNat * 262144 + f.toNat * 8192 + n.toNat))
  | .sysw q s n => some (BitVec.ofNat 32 (2751463424 + q.toNat * 8388608 + s.toNat * 8192 + n.toNat))
  | .syswQuota q s => some (BitVec.ofNat 32 (2751463457 + q.toNat * 8388608 + s.toNat * 8192))
  | .syswLstat q s => some (BitVec.ofNat 32 (2751463493 + q.toNat * 8388608 + s.toNat * 8192))
  | .syswTrctl q s => some (BitVec.ofNat 32 (2751463536 + q.toNat * 8388608 + s.toNat * 8192))
  | .trap q n => some (BitVec.ofNat 32 (2818572288 + q.toNat * 8388608 + n.toNat))
  | .setroot q => some (BitVec.ofNat 32 (2818572289 + q.toNat * 8388608))
  | .rings q => some (BitVec.ofNat 32 (2818572290 + q.toNat * 8388608))
  | .flush q => some (BitVec.ofNat 32 (2818572291 + q.toNat * 8388608))
  | .refuse q => some (BitVec.ofNat 32 (2818572292 + q.toNat * 8388608))
  | .tlbinv q => some (BitVec.ofNat 32 (2818572293 + q.toNat * 8388608))
  | .firmwareLaunch q => some (BitVec.ofNat 32 (2818572294 + q.toNat * 8388608))
  | .timeout q => some (BitVec.ofNat 32 (2818572295 + q.toNat * 8388608))
  | .migrate q => some (BitVec.ofNat 32 (2818572296 + q.toNat * 8388608))
  | .recread q => some (BitVec.ofNat 32 (2818572297 + q.toNat * 8388608))
  | .rets q => some (BitVec.ofNat 32 (2885681152 + q.toNat * 8388608))
  | .retsSlot q s => some (BitVec.ofNat 32 (2885681153 + q.toNat * 8388608 + s.toNat * 8192))
  | .retsEnd q s => some (BitVec.ofNat 32 (2885681154 + q.toNat * 8388608 + s.toNat * 8192))
  | .waiti q d s m => some (BitVec.ofNat 32 (2952790016 + q.toNat * 8388608 + d.toNat * 262144 + s.toNat * 8192 + m.toNat))
  | .waitiWake _ => none
  | .rangePush q l => some (BitVec.ofNat 32 (3019898880 + q.toNat * 8388608 + l.toNat))
  | .rangePop q => some (BitVec.ofNat 32 (3019964416 + q.toNat * 8388608))
  | .segopDef q d s t => some (BitVec.ofNat 32 (3087007745 + q.toNat * 8388608 + d.toNat * 262144 + s.toNat * 8192 + t.toNat * 256))
  | .segopDrop q s => some (BitVec.ofNat 32 (3087007746 + q.toNat * 8388608 + s.toNat * 8192))
  | .segopPin q s => some (BitVec.ofNat 32 (3087007747 + q.toNat * 8388608 + s.toNat * 8192))
  | .segopUnpin q s => some (BitVec.ofNat 32 (3087007748 + q.toNat * 8388608 + s.toNat * 8192))
  | .segopQuery q d s => some (BitVec.ofNat 32 (3087007749 + q.toNat * 8388608 + d.toNat * 262144 + s.toNat * 8192))
  | .segopStat q d s => some (BitVec.ofNat 32 (3087007750 + q.toNat * 8388608 + d.toNat * 262144 + s.toNat * 8192))
  | .accopQuery q d s => some (BitVec.ofNat 32 (3154116609 + q.toNat * 8388608 + d.toNat * 262144 + s.toNat * 8192))
  | .accopClaim q s => some (BitVec.ofNat 32 (3154116610 + q.toNat * 8388608 + s.toNat * 8192))
  | .accopRelease q s => some (BitVec.ofNat 32 (3154116611 + q.toNat * 8388608 + s.toNat * 8192))
  | .accopSet q s t => some (BitVec.ofNat 32 (3154116612 + q.toNat * 8388608 + s.toNat * 8192 + t.toNat * 256))
  | .accopSave q d s t => some (BitVec.ofNat 32 (3154116613 + q.toNat * 8388608 + d.toNat * 262144 + s.toNat * 8192 + t.toNat * 256))
  | .accopLoad q d s t => some (BitVec.ofNat 32 (3154116614 + q.toNat * 8388608 + d.toNat * 262144 + s.toNat * 8192 + t.toNat * 256))
  | .slotSet q s t => some (BitVec.ofNat 32 (3221225473 + q.toNat * 8388608 + s.toNat * 8192 + t.toNat * 256))
  | .slotLen q s t => some (BitVec.ofNat 32 (3221225474 + q.toNat * 8388608 + s.toNat * 8192 + t.toNat * 256))
  | .slotGet q d s t => some (BitVec.ofNat 32 (3221225475 + q.toNat * 8388608 + d.toNat * 262144 + s.toNat * 8192 + t.toNat * 256))
  | .kvopFork q d s t => some (BitVec.ofNat 32 (3288334337 + q.toNat * 8388608 + d.toNat * 262144 + s.toNat * 8192 + t.toNat * 256))
  | .kvopDrop q s => some (BitVec.ofNat 32 (3288334338 + q.toNat * 8388608 + s.toNat * 8192))
  | .kvopLook q d s t => some (BitVec.ofNat 32 (3288334339 + q.toNat * 8388608 + d.toNat * 262144 + s.toNat * 8192 + t.toNat * 256))
  | .mskldProg q e l b => some (BitVec.ofNat 32 (3355443200 + q.toNat * 8388608 + e.toNat * 512 + l.toNat * 8 + b.toNat))
  | .mskldParam q s e l n => some (BitVec.ofNat 32 (3355444224 + q.toNat * 8388608 + s.toNat * 8192 + e.toNat * 512 + l.toNat * 8 + n.toNat))
  | .mskldRuns q s e l => some (BitVec.ofNat 32 (3355445248 + q.toNat * 8388608 + s.toNat * 8192 + e.toNat * 512 + l.toNat * 8))
  | .mskldStat q d e l n => some (BitVec.ofNat 32 (3355446272 + q.toNat * 8388608 + d.toNat * 262144 + e.toNat * 512 + l.toNat * 8 + n.toNat))
  | .mskldClear q e l => some (BitVec.ofNat 32 (3355447296 + q.toNat * 8388608 + e.toNat * 512 + l.toNat * 8))
  | .tstat q d => some (BitVec.ofNat 32 (3422552065 + q.toNat * 8388608 + d.toNat * 262144))
  | .tstatClr q d s => some (BitVec.ofNat 32 (3422552066 + q.toNat * 8388608 + d.toNat * 262144 + s.toNat * 8192))
  | .vop d a b f p => some (BitVec.ofNat 32 (0 + d.toNat * 1048576 + a.toNat * 16384 + b.toNat * 256 + f.toNat * 8 + p.toNat))
  | .vfma d a b v r p => some (BitVec.ofNat 32 (67108864 + d.toNat * 1048576 + a.toNat * 16384 + b.toNat * 256 + v.toNat * 64 + r.toNat * 8 + p.toNat))
  | .vun d a f p => some (BitVec.ofNat 32 (134217728 + d.toNat * 1048576 + a.toNat * 16384 + f.toNat * 8 + p.toNat))
  | .vcmp d a b c p => some (BitVec.ofNat 32 (201326592 + d.toNat * 1048576 + a.toNat * 16384 + b.toNat * 256 + c.toNat * 8 + p.toNat))
  | .vsel d a b c p => some (BitVec.ofNat 32 (268435456 + d.toNat * 1048576 + a.toNat * 16384 + b.toNat * 256 + c.toNat * 8 + p.toNat))
  | .vcvt d a r k t p => some (BitVec.ofNat 32 (335544320 + d.toNat * 1048576 + a.toNat * 16384 + r.toNat * 256 + k.toNat * 64 + t.toNat * 8 + p.toNat))
  | .vred d a f p => some (BitVec.ofNat 32 (402653184 + d.toNat * 1048576 + a.toNat * 16384 + f.toNat * 8 + p.toNat))
  | .vscan d a f p => some (BitVec.ofNat 32 (469762048 + d.toNat * 1048576 + a.toNat * 16384 + f.toNat * 8 + p.toNat))
  | .vshuf d a b f p => some (BitVec.ofNat 32 (536870912 + d.toNat * 1048576 + a.toNat * 16384 + b.toNat * 256 + f.toNat * 8 + p.toNat))
  | .vld d a c p => some (BitVec.ofNat 32 (603979776 + d.toNat * 1048576 + a.toNat * 131072 + c.toNat * 256 + p.toNat))
  | .vst d a c p => some (BitVec.ofNat 32 (671088640 + d.toNat * 1048576 + a.toNat * 131072 + c.toNat * 256 + p.toNat))
  | .vlds d a z x i => some (BitVec.ofNat 32 (738197504 + d.toNat * 8388608 + a.toNat * 1048576 + z.toNat * 262144 + x.toNat * 131072 + i.toNat))
  | .vsts d a z i => some (BitVec.ofNat 32 (805306368 + d.toNat * 8388608 + a.toNat * 1048576 + z.toNat * 262144 + i.toNat))
  | .vgath d a s i p => some (BitVec.ofNat 32 (872415232 + d.toNat * 1048576 + a.toNat * 131072 + s.toNat * 16384 + i.toNat * 256 + p.toNat))
  | .vscat d a s i p => some (BitVec.ofNat 32 (939524096 + d.toNat * 1048576 + a.toNat * 131072 + s.toNat * 16384 + i.toNat * 256 + p.toNat))
  | .vbcst d a i j p => some (BitVec.ofNat 32 (1006632960 + d.toNat * 1048576 + a.toNat * 16384 + i.toNat * 256 + j.toNat * 8 + p.toNat))
  | .vbcstS d n p => some (BitVec.ofNat 32 (1006632976 + d.toNat * 1048576 + n.toNat * 256 + p.toNat))
  | .vmovsGet n a i j => some (BitVec.ofNat 32 (1073741824 + n.toNat * 1048576 + a.toNat * 16384 + i.toNat * 256 + j.toNat * 8))
  | .vmovsGetu n a i j => some (BitVec.ofNat 32 (1073741856 + n.toNat * 1048576 + a.toNat * 16384 + i.toNat * 256 + j.toNat * 8))
  | .vmovsPut d n i j p => some (BitVec.ofNat 32 (1073741888 + d.toNat * 1048576 + n.toNat * 16384 + i.toNat * 256 + j.toNat * 8 + p.toNat))
  | .vsop d a f r i => some (BitVec.ofNat 32 (1140850688 + d.toNat * 8388608 + a.toNat * 1048576 + f.toNat * 32768 + r.toNat * 16384 + i.toNat))
  | .vsopLi d i => some (BitVec.ofNat 32 (1141637120 + d.toNat * 8388608 + i.toNat))
  | .vsopSetrm r => some (BitVec.ofNat 32 (1141702656 + r.toNat))
  | .vsopGetrm d => some (BitVec.ofNat 32 (1141735424 + d.toNat * 8388608))
  | .vaddr n a s => some (BitVec.ofNat 32 (1207959552 + n.toNat * 8388608 + a.toNat * 1048576 + s.toNat))
  | .vaddrLen n a m => some (BitVec.ofNat 32 (1208090624 + n.toNat * 8388608 + a.toNat * 1048576 + m.toNat))
  | .vaddrStep n a => some (BitVec.ofNat 32 (1208221696 + n.toNat * 8388608 + a.toNat * 1048576))
  | .vaddrPos n a => some (BitVec.ofNat 32 (1208352768 + n.toNat * 8388608 + a.toNat * 1048576))
  | .vaddrGet d n => some (BitVec.ofNat 32 (1208483840 + d.toNat * 8388608 + n.toNat))
  | .vshape t w => some (BitVec.ofNat 32 (1275068416 + t.toNat * 256 + w.toNat))
  | .vshapeVs a => some (BitVec.ofNat 32 (1275592704 + a.toNat * 1048576))
  | .vshapeGet d => some (BitVec.ofNat 32 (1275330560 + d.toNat * 8388608))
  | .vpredLogic d a b f p => some (BitVec.ofNat 32 (1342177280 + d.toNat * 1048576 + a.toNat * 16384 + b.toNat * 256 + f.toNat * 8 + p.toNat))
  | .vpredNot d a p => some (BitVec.ofNat 32 (1342177320 + d.toNat * 1048576 + a.toNat * 16384 + p.toNat))
  | .vpredLt d n p => some (BitVec.ofNat 32 (1342177328 + d.toNat * 1048576 + n.toNat * 16384 + p.toNat))
  | .vpredCnt d a p => some (BitVec.ofNat 32 (1342177336 + d.toNat * 1048576 + a.toNat * 16384 + p.toNat))
  | .vdefer d a o k t p => some (BitVec.ofNat 32 (1409286144 + d.toNat * 1048576 + a.toNat * 131072 + o.toNat * 16384 + k.toNat * 256 + t.toNat * 8 + p.toNat))
  | .vundef d a o k => some (BitVec.ofNat 32 (1476395008 + d.toNat * 1048576 + a.toNat * 131072 + o.toNat * 16384 + k.toNat * 256))
  | .vpack d a r n o p => some (BitVec.ofNat 32 (1543503872 + d.toNat * 1048576 + a.toNat * 16384 + r.toNat * 8192 + n.toNat * 64 + o.toNat * 8 + p.toNat))
  | .vxtrd d a j p => some (BitVec.ofNat 32 (1610612736 + d.toNat * 1048576 + a.toNat * 32768 + j.toNat * 8 + p.toNat))
  | .vguard f g => some (BitVec.ofNat 32 (1677721600 + f.toNat * 64 + g.toNat))
  | .vbxenc d a b w => some (BitVec.ofNat 32 (1744830464 + d.toNat * 1048576 + a.toNat * 16384 + b.toNat * 256 + w.toNat * 8))
  | .vbxdec d a b w => some (BitVec.ofNat 32 (1811939328 + d.toNat * 1048576 + a.toNat * 16384 + b.toNat * 256 + w.toNat * 8))
  | .vfifoSeq a i => some (BitVec.ofNat 32 (1879048192 + a.toNat * 16384 + i.toNat * 256))
  | .vfifoMat a => some (BitVec.ofNat 32 (1879048200 + a.toNat * 16384))
  | .vfifoPop d p => some (BitVec.ofNat 32 (1879048208 + d.toNat * 1048576 + p.toNat))
  | .vrpt c d a b => some (BitVec.ofNat 32 (1946157056 + c.toNat * 16384 + d.toNat * 2048 + a.toNat * 256 + b.toNat * 32))
  | .vsoft d a b p => some (BitVec.ofNat 32 (2013265920 + d.toNat * 1048576 + a.toNat * 16384 + b.toNat * 256 + p.toNat))
  | .vmaskb d s n p => some (BitVec.ofNat 32 (2080374784 + d.toNat * 1048576 + s.toNat * 16384 + n.toNat * 256 + p.toNat))
  | .vcpy d a p => some (BitVec.ofNat 32 (2147483648 + d.toNat * 1048576 + a.toNat * 16384 + p.toNat))
  | .vcpyP d a p => some (BitVec.ofNat 32 (2147483656 + d.toNat * 1048576 + a.toNat * 16384 + p.toNat))
  | .vcpyPn d a p => some (BitVec.ofNat 32 (2147483664 + d.toNat * 1048576 + a.toNat * 16384 + p.toNat))
  | .vdot d a b c r p => some (BitVec.ofNat 32 (2214592512 + d.toNat * 1048576 + a.toNat * 16384 + b.toNat * 256 + c.toNat * 64 + r.toNat * 8 + p.toNat))
  | .vamax d a c p => some (BitVec.ofNat 32 (2281701376 + d.toNat * 1048576 + a.toNat * 16384 + c.toNat * 8 + p.toNat))
  | .vclass d a p => some (BitVec.ofNat 32 (2348810240 + d.toNat * 1048576 + a.toNat * 16384 + p.toNat))
  | .mma c a b f z t m s => some (BitVec.ofNat 32 (0 + c.toNat * 524288 + a.toNat * 16384 + b.toNat * 1024 + f.toNat * 64 + z.toNat * 32 + t.toNat * 16 + m.toNat * 8 + s.toNat))
  | .mlddOd n => some (BitVec.ofNat 32 (134217728 + n.toNat * 16384))
  | .mlddAs n => some (BitVec.ofNat 32 (134479872 + n.toNat * 16384))
  | .mfmt c l => some (BitVec.ofNat 32 (268435456 + c.toNat * 524288 + l.toNat * 1024))
  | .mdrain c b f q => some (BitVec.ofNat 32 (402653184 + c.toNat * 524288 + b.toNat * 1024 + f.toNat * 64 + q.toNat * 32))
  | .mzero c => some (BitVec.ofNat 32 (536870912 + c.toNat * 524288))
  | .mwmul c a b f t s => some (BitVec.ofNat 32 (671088640 + c.toNat * 524288 + a.toNat * 16384 + b.toNat * 1024 + f.toNat * 64 + t.toNat * 16 + s.toNat))
  | .mwmac c a b f t s => some (BitVec.ofNat 32 (805306368 + c.toNat * 524288 + a.toNat * 16384 + b.toNat * 1024 + f.toNat * 64 + t.toNat * 16 + s.toNat))
  | .mfoldAdaptive => some 939524096
  | .mfoldStrict l => some (BitVec.ofNat 32 (939540480 + l.toNat * 1024))
  | .mfoldReport => some 939556864
  | .mfifoPop c a => some (BitVec.ofNat 32 (1073741824 + c.toNat * 524288 + a.toNat * 16384))
  | .mfifoPush c a => some (BitVec.ofNat 32 (1073741840 + c.toNat * 524288 + a.toNat * 16384))
  | .mmsk s c k q j => some (BitVec.ofNat 32 (1207959552 + s.toNat * 16777216 + c.toNat * 524288 + k.toNat * 16384 + q.toNat * 8192 + j.toNat * 4096))
  | .msync s => some (BitVec.ofNat 32 (1342177280 + s.toNat))
  | .mamax => some 1476395008
  | .mamaxCap => some 1476411392
  | .mamaxClr => some 1476427776
  | .mcpy d n c => some (BitVec.ofNat 32 (1610874880 + d.toNat * 524288 + n.toNat * 16384 + c.toNat * 1024))
  | .mrpt c a b e => some (BitVec.ofNat 32 (1744830464 + c.toNat * 2097152 + a.toNat * 65536 + b.toNat * 8192 + e.toNat * 1024))
  | .mscale => some 1879048192
  | .mscaleY => some 1879064576
  | .mbar => some 2013265920
  | .xcopy a d l o b s => some (BitVec.ofNat 32 (0 + a.toNat * 16777216 + d.toNat * 2097152 + l.toNat * 8192 + o.toNat * 256 + b.toNat * 128 + s.toNat * 64))
  | .xgath a d l o b s => some (BitVec.ofNat 32 (134217728 + a.toNat * 16777216 + d.toNat * 2097152 + l.toNat * 8192 + o.toNat * 256 + b.toNat * 128 + s.toNat * 64))
  | .xscat a d l o b s => some (BitVec.ofNat 32 (268435456 + a.toNat * 16777216 + d.toNat * 2097152 + l.toNat * 8192 + o.toNat * 256 + b.toNat * 128 + s.toNat * 64))
  | .xidx a d l => some (BitVec.ofNat 32 (402653184 + a.toNat * 16777216 + d.toNat * 2097152 + l.toNat * 8192))
  | .xfill d l o b s p => some (BitVec.ofNat 32 (536870912 + d.toNat * 2097152 + l.toNat * 8192 + o.toNat * 256 + b.toNat * 128 + s.toNat * 64 + p.toNat * 32))
  | .xred a d l o b s i n f => some (BitVec.ofNat 32 (671088640 + a.toNat * 16777216 + d.toNat * 2097152 + l.toNat * 8192 + o.toNat * 256 + b.toNat * 128 + s.toNat * 64 + i.toNat * 32 + n.toNat * 16 + f.toNat))
  | .xlayer a d l o b s => some (BitVec.ofNat 32 (805306368 + a.toNat * 16777216 + d.toNat * 2097152 + l.toNat * 8192 + o.toNat * 256 + b.toNat * 128 + s.toNat * 64))
  | .xrem a d l o b s => some (BitVec.ofNat 32 (939524096 + a.toNat * 16777216 + d.toNat * 2097152 + l.toNat * 8192 + o.toNat * 256 + b.toNat * 128 + s.toNat * 64))
  | .xremAck _ => none
  | .xbar l o s h => some (BitVec.ofNat 32 (1073741824 + l.toNat * 8192 + o.toNat * 256 + s.toNat * 64 + h.toNat))
  | .xevt => some 1207959552
  | .xdesc d l u k p r => some (BitVec.ofNat 32 (1342177280 + d.toNat * 2097152 + l.toNat * 8192 + u.toNat * 64 + k.toNat * 16 + p.toNat * 8 + r.toNat * 2))
  | .xdescSlot o k r => some (BitVec.ofNat 32 (1342177281 + o.toNat * 256 + k.toNat * 16 + r.toNat * 2))
  | .xwait o h => some (BitVec.ofNat 32 (1476395008 + o.toNat * 256 + h.toNat))
  | .dattn => some 0
  | .dappend => some 536870912
  | .dstat => some 1073741824
  | .dbar => some 1610612736
  | .decEntryPark _ => none
  | .entryAdmission _ _ => none
  | .entryWaitToken _ _ => none
  | .entryRetire _ _ => none
  | .semaphoreWaitEnd _ _ => none
  | .barrierWaitEnd _ _ => none
  | .popWaitEnd _ _ => none
  | .pushWaitEnd _ _ => none
  | .retirementWaitEnd _ => none
  | .layerFenceWaitEnd _ => none
  | .layerAvailableWaitEnd _ => none
  | .probeLaunch _ _ => none
  | .probeResponse _ _ => none
  | .watchdogExpiry _ _ => none
  | .sliceEnd _ => none
  | .sliceBudgetExpiry _ => none
  | .trapEntry _ => none
  | .smcWatchdogExpiry _ => none
  | .walkerHandout _ => none
  | .launchComplete _ => none
  | .segmentRecall _ _ _ => none
  | .compactionMove _ => none
  | .remoteRequest _ => none
  | .fabricTimeout _ _ => none
  | .routeUp _ _ => none
  | .moveHoldExpiry _ _ => none
  | .replicaLockTimeout _ _ => none
  | .pendingZeroFill _ _ _ => none
  | .raceSweepEnd _ => none
  | .droopStretch _ => none
  | .stretchEnd _ => none
  | .thermalThrottle _ _ => none
  | .throttleRelease _ _ => none
  | .bondParityFailure _ _ _ => none
  | .dramPatrolScrub _ _ => none
  | .sramScrub _ _ => none
  | .vbusParityFailure _ _ => none
  | .laneTestEnd _ _ _ _ => none
  | .retryStorm _ _ => none
  | .moduleReset _ => none
  | .load _ => none
  | .launch _ => none
  | .segput _ => none
  | .segget _ => none
  | .kvput _ => none
  | .status _ => none
  | .attest _ => none
  | .attestOpen _ => none
  | .resetpart _ => none
  | .segmentPushComplete _ _ _ => none
  | .reservedWord _ => none
  | .partitionSetUp _ => none
  | .endOfTheReservation _ => none
  | .preCopyRound _ => none

/-- How many bits the table fixes in the row of an instruction. -/
def Instr.fixedBits (i : Instr) : Nat :=
  match i with
  | .iop _ _ _ _ _ => 9
  | .iopi _ _ _ _ _ => 6
  | .lui _ _ _ => 6
  | .addpc _ _ _ => 6
  | .cmp _ _ _ _ _ => 13
  | .cmpi _ _ _ _ _ => 8
  | .plog _ _ _ _ _ => 17
  | .psave _ _ => 24
  | .pload _ _ => 24
  | .sel _ _ _ _ _ => 11
  | .selF _ _ _ _ _ => 11
  | .fop _ _ _ _ _ => 9
  | .fma _ _ _ _ _ => 11
  | .fcmp _ _ _ _ _ => 13
  | .fcvt _ _ _ _ => 15
  | .lds _ _ _ _ _ _ => 6
  | .sts _ _ _ _ _ => 7
  | .flds _ _ _ _ => 9
  | .fsts _ _ _ _ => 9
  | .ldg _ _ _ _ _ _ => 12
  | .stg _ _ _ _ _ => 13
  | .ldq _ _ _ _ => 9
  | .stq _ _ _ _ => 9
  | .amo _ _ _ _ _ _ _ _ _ => 6
  | .capld _ _ _ _ => 10
  | .capst _ _ _ _ => 10
  | .capopMov _ _ _ => 21
  | .capopTrim _ _ _ _ => 16
  | .capopLen _ _ _ _ => 16
  | .capopPerm _ _ _ _ => 16
  | .capopBase _ _ _ => 20
  | .capopSize _ _ _ => 20
  | .capopInfo _ _ _ => 20
  | .capopUntag _ _ _ => 21
  | .br _ _ _ => 6
  | .jal _ _ _ => 6
  | .jalr _ _ _ _ => 6
  | .loop _ _ _ _ => 12
  | .loopRot _ _ _ _ _ => 9
  | .rpt _ _ _ _ _ => 14
  | .cmd _ _ _ _ _ _ _ _ => 6
  | .popr _ _ _ => 22
  | .pushd _ _ _ => 19
  | .semsSig _ _ => 26
  | .semsWait _ _ => 26
  | .semsGet _ _ _ => 21
  | .semsTry _ _ _ => 21
  | .bara _ _ _ => 19
  | .baraCap _ _ _ _ => 15
  | .barw _ _ _ => 19
  | .barwCap _ _ _ _ => 15
  | .fenceAcq _ _ => 27
  | .fenceRel _ _ => 27
  | .fenceFull _ _ => 27
  | .fenceLayer _ _ => 27
  | .evpop _ _ => 24
  | .iterDone _ => 29
  | .iterPt _ _ => 24
  | .sysr _ _ _ _ => 10
  | .sysw _ _ _ => 12
  | .syswQuota _ _ => 24
  | .syswLstat _ _ => 24
  | .syswTrctl _ _ => 24
  | .trap _ _ => 16
  | .setroot _ => 29
  | .rings _ => 29
  | .flush _ => 29
  | .refuse _ => 29
  | .tlbinv _ => 29
  | .firmwareLaunch _ => 29
  | .timeout _ => 29
  | .migrate _ => 29
  | .recread _ => 29
  | .rets _ => 29
  | .retsSlot _ _ => 24
  | .retsEnd _ _ => 24
  | .waiti _ _ _ _ => 14
  | .waitiWake _ => 0
  | .rangePush _ _ => 13
  | .rangePop _ => 29
  | .segopDef _ _ _ _ => 14
  | .segopDrop _ _ => 24
  | .segopPin _ _ => 24
  | .segopUnpin _ _ => 24
  | .segopQuery _ _ _ => 19
  | .segopStat _ _ _ => 19
  | .accopQuery _ _ _ => 19
  | .accopClaim _ _ => 24
  | .accopRelease _ _ => 24
  | .accopSet _ _ _ => 19
  | .accopSave _ _ _ _ => 15
  | .accopLoad _ _ _ _ => 15
  | .slotSet _ _ _ => 19
  | .slotLen _ _ _ => 19
  | .slotGet _ _ _ _ => 14
  | .kvopFork _ _ _ _ => 14
  | .kvopDrop _ _ => 24
  | .kvopLook _ _ _ _ => 14
  | .mskldProg _ _ _ _ => 22
  | .mskldParam _ _ _ _ _ => 17
  | .mskldRuns _ _ _ _ => 20
  | .mskldStat _ _ _ _ _ => 18
  | .mskldClear _ _ _ => 25
  | .tstat _ _ => 24
  | .tstatClr _ _ _ => 19
  | .vop _ _ _ _ _ => 6
  | .vfma _ _ _ _ _ _ => 6
  | .vun _ _ _ _ => 12
  | .vcmp _ _ _ _ _ => 11
  | .vsel _ _ _ _ _ => 8
  | .vcvt _ _ _ _ _ _ => 9
  | .vred _ _ _ _ => 12
  | .vscan _ _ _ _ => 12
  | .vshuf _ _ _ _ _ => 6
  | .vld _ _ _ _ => 14
  | .vst _ _ _ _ => 14
  | .vlds _ _ _ _ _ => 6
  | .vsts _ _ _ _ => 7
  | .vgath _ _ _ _ _ => 11
  | .vscat _ _ _ _ _ => 11
  | .vbcst _ _ _ _ _ => 10
  | .vbcstS _ _ _ => 20
  | .vmovsGet _ _ _ _ => 16
  | .vmovsGetu _ _ _ _ => 16
  | .vmovsPut _ _ _ _ _ => 13
  | .vsop _ _ _ _ _ => 6
  | .vsopLi _ _ => 15
  | .vsopSetrm _ => 30
  | .vsopGetrm _ => 29
  | .vaddr _ _ _ => 9
  | .vaddrLen _ _ _ => 24
  | .vaddrStep _ _ => 26
  | .vaddrPos _ _ => 26
  | .vaddrGet _ _ => 26
  | .vshape _ _ => 20
  | .vshapeVs _ => 29
  | .vshapeGet _ => 29
  | .vpredLogic _ _ _ _ _ => 15
  | .vpredNot _ _ _ => 23
  | .vpredLt _ _ _ => 23
  | .vpredCnt _ _ _ => 23
  | .vdefer _ _ _ _ _ _ => 8
  | .vundef _ _ _ _ => 14
  | .vpack _ _ _ _ _ _ => 6
  | .vxtrd _ _ _ _ => 7
  | .vguard _ _ => 25
  | .vbxenc _ _ _ _ => 12
  | .vbxdec _ _ _ _ => 12
  | .vfifoSeq _ _ => 20
  | .vfifoMat _ => 26
  | .vfifoPop _ _ => 23
  | .vrpt _ _ _ _ => 17
  | .vsoft _ _ _ _ => 11
  | .vmaskb _ _ _ _ => 20
  | .vcpy _ _ _ => 17
  | .vcpyP _ _ _ => 23
  | .vcpyPn _ _ _ => 23
  | .vdot _ _ _ _ _ _ => 7
  | .vamax _ _ _ _ => 16
  | .vclass _ _ _ => 17
  | .mma _ _ _ _ _ _ _ _ => 7
  | .mlddOd _ => 28
  | .mlddAs _ => 28
  | .mfmt _ _ => 22
  | .mdrain _ _ _ _ => 15
  | .mzero _ => 24
  | .mwmul _ _ _ _ _ _ => 9
  | .mwmac _ _ _ _ _ _ => 9
  | .mfoldAdaptive => 32
  | .mfoldStrict _ => 28
  | .mfoldReport => 32
  | .mfifoPop _ _ => 19
  | .mfifoPush _ _ => 19
  | .mmsk _ _ _ _ _ => 21
  | .msync _ => 31
  | .mamax => 32
  | .mamaxCap => 32
  | .mamaxClr => 32
  | .mcpy _ _ _ => 18
  | .mrpt _ _ _ _ => 17
  | .mscale => 32
  | .mscaleY => 32
  | .mbar => 32
  | .xcopy _ _ _ _ _ _ => 11
  | .xgath _ _ _ _ _ _ => 11
  | .xscat _ _ _ _ _ _ => 11
  | .xidx _ _ _ => 18
  | .xfill _ _ _ _ _ _ => 13
  | .xred _ _ _ _ _ _ _ _ _ => 5
  | .xlayer _ _ _ _ _ _ => 11
  | .xrem _ _ _ _ _ _ => 11
  | .xremAck _ => 0
  | .xbar _ _ _ _ => 13
  | .xevt => 32
  | .xdesc _ _ _ _ _ _ => 14
  | .xdescSlot _ _ _ => 23
  | .xwait _ _ => 26
  | .dattn => 32
  | .dappend => 32
  | .dstat => 32
  | .dbar => 32
  | .decEntryPark _ => 0
  | .entryAdmission _ _ => 0
  | .entryWaitToken _ _ => 0
  | .entryRetire _ _ => 0
  | .semaphoreWaitEnd _ _ => 0
  | .barrierWaitEnd _ _ => 0
  | .popWaitEnd _ _ => 0
  | .pushWaitEnd _ _ => 0
  | .retirementWaitEnd _ => 0
  | .layerFenceWaitEnd _ => 0
  | .layerAvailableWaitEnd _ => 0
  | .probeLaunch _ _ => 0
  | .probeResponse _ _ => 0
  | .watchdogExpiry _ _ => 0
  | .sliceEnd _ => 0
  | .sliceBudgetExpiry _ => 0
  | .trapEntry _ => 0
  | .smcWatchdogExpiry _ => 0
  | .walkerHandout _ => 0
  | .launchComplete _ => 0
  | .segmentRecall _ _ _ => 0
  | .compactionMove _ => 0
  | .remoteRequest _ => 0
  | .fabricTimeout _ _ => 0
  | .routeUp _ _ => 0
  | .moveHoldExpiry _ _ => 0
  | .replicaLockTimeout _ _ => 0
  | .pendingZeroFill _ _ _ => 0
  | .raceSweepEnd _ => 0
  | .droopStretch _ => 0
  | .stretchEnd _ => 0
  | .thermalThrottle _ _ => 0
  | .throttleRelease _ _ => 0
  | .bondParityFailure _ _ _ => 0
  | .dramPatrolScrub _ _ => 0
  | .sramScrub _ _ => 0
  | .vbusParityFailure _ _ => 0
  | .laneTestEnd _ _ _ _ => 0
  | .retryStorm _ _ => 0
  | .moduleReset _ => 0
  | .load _ => 0
  | .launch _ => 0
  | .segput _ => 0
  | .segget _ => 0
  | .kvput _ => 0
  | .status _ => 0
  | .attest _ => 0
  | .attestOpen _ => 0
  | .resetpart _ => 0
  | .segmentPushComplete _ _ _ => 0
  | .reservedWord _ => 0
  | .partitionSetUp _ => 0
  | .endOfTheReservation _ => 0
  | .preCopyRound _ => 0

/-- The instruction of a section, where there is one. -/
def inSection (s : Section) (w : Word) : Option Instr :=
  match decodeWord s w with
  | .ok i => some i
  | .error _ => none

/-- Of two readings of a word, the one whose row fixes more bits; the first where they fix as many (DESIGN CHOICE, log 6). -/
def closer (a b : Option Instr) : Option Instr :=
  match a, b with
  | none, b => b
  | a, none => a
  | some x, some y => if x.fixedBits < y.fixedBits then some y else some x

/-- The instruction of a table word. A word names no section (R303): of the five readings, the row with the most fixed
bits is taken, the sequencer first (DESIGN CHOICE, log 6). -/
def decodeTableWord (nbits w : Nat) : Option Instr :=
  if nbits = 32 then
    let x : Word := BitVec.ofNat 32 w
    closer (closer (closer (closer (inSection .seq x) (inSection .vec x)) (inSection .mat x)) (inSection .xfr x)) (inSection .dec x)
  else none

end Sys2Proof
end

