-- ==== Sys2Proof/Machine/State.lean ====
section
/-! DEFINITION. The state of the Folivo as plain data: every piece of state that the spec names (INVENTORY.md, State),
and State.reset, the module at the end of module reset, before bring-up step 1 (R287). -/

namespace Sys2Proof.Machine

/-! ## How a step can stop -/

/-- Why the machine stops with a fault. A fault of the Folivo (Table 13.1) is a next state, never one of these. -/
inductive Fault where
  /-- an engine's block holds a word that is no instruction. Raised by the engine turn; R320 says that no running engine
  meets one, so it stops only states that no launch makes. Safe. -/
  | engineWord
  deriving DecidableEq, Repr, Inhabited

/-- Why the machine refuses an instruction. -/
inductive Refusal where
  /-- an instruction without a meaning. Raised by an arm of exec. Safe. -/
  | notModelled (mnemonic : String)
  deriving DecidableEq, Repr, Inhabited

/-- The causes of Table 13.1 that are faults (R233). -/
inductive Cause where
  | illegal | fetchbound | priv | align | segbound | segname | booking | stacklim | cap | xlat1 | xlat2 | race
  | guard | fold | maskprog | accown | layout | waitcycle | poison | unreach | watchdog | semovf | barrier | trapsw
  deriving DecidableEq, Repr, Inhabited

/-- Privilege levels (Table 2.2). -/
inductive Level where
  | u | s | m
  deriving DecidableEq, Repr, Inhabited

/-! ## Small records -/

/-- A release tag as a location carries it (R182, R192): the chip of its tile, tile and clock, whether an `amo` or an arrival made it,
and whether an acquire observes it: an arrival once its phase has flipped, an `amo` while no plain store stands over it. -/
structure Tag where
  chip : BitVec 3
  clk : Clk
  amo : Bool
  seen : Bool
  deriving DecidableEq, Repr, Inhabited

/-- A capability register (R68). -/
structure Cap where
  raw : BitVec 128 := 0
  tag : Bool := false
  deriving DecidableEq, Repr, Inhabited

/-- A byte store: the bytes (an unlisted byte reads 0), the tagged 16 B granules (R68), the poisoned 16 B words (R251),
the race records of 64 B granules (R193), the release tags that the 4 B words of a location carry (R182, R192), who last made bit 0
of a 16 B unit differ, the PHASE of a barrier object (R300), and who last wrote a 16 B unit (R136). -/
structure Store where
  bytes : List Host.Cell := []
  tags : List Nat := []
  poison : List Nat := []
  lw : List (Nat × Clk) := []
  lr : List (Nat × Clk) := []
  sync : List (Nat × List Tag) := []
  flips : List (Nat × Who) := []
  writer : List (Nat × Who) := []
  deriving DecidableEq, Repr, Inhabited

/-- A live segment, by where it stands, with an offset. -/
structure SegRef where
  tile : BitVec 8
  slot : BitVec 2
  num : BitVec 12
  off : Nat
  deriving DecidableEq, Repr, Inhabited

/-- A translated 64 KiB page: where it is, its IPA page, its attributes. -/
structure Xl where
  phys : PhysPage
  ipa : Nat
  chk : Bool
  rpl : Bool
  deriving DecidableEq, Repr, Inhabited

/-- A translated piece of a range: owner tower, page, offset in the page, length. -/
structure Piece where
  owner : BitVec 3
  x : Xl
  inPage : Nat
  len : Nat
  deriving DecidableEq, Repr, Inhabited

/-- A location that an atomic acts on: in a segment, or at a physical place with its owner and IPA page. -/
inductive Place where
  | seg (r : SegRef)
  | glob (tower : BitVec 3) (addr : Nat) (p : Piece)
  deriving DecidableEq, Repr, Inhabited

/-- What happens before a point of an agent (R182, R183): for each agent, by tile and engine code, the turn up to which its accesses do. -/
abbrev Knows := List (Nat × Nat)

/-- What an agent waits for: Table 2.5, and the waits that R35 says are not blocked states. -/
inductive WaitObj where
  /-- a semaphore (kind 0) -/
  | sem (n : BitVec 3)
  /-- a barrier object at a segment pointer or virtual address, with its place once its checks have passed (R330), and the phase to
  differ from (kind 1) -/
  | barrier (addr : W64) (at_ : Option Place) (ph : Nat)
  /-- a pop from an empty queue (kind 2, queue ids of R294) -/
  | pop (q : BitVec 8)
  /-- a push to a full queue (kind 3) -/
  | push (q : BitVec 8)
  /-- a booking that cannot be admitted (kind 4) -/
  | booking (seg : BitVec 12)
  /-- a recall that waits for booked bytes at its home tile (R100) (kind 4) -/
  | recall (seg : BitVec 12) (home : BitVec 8)
  /-- fence.layer (kind 5) -/
  | layerFence
  /-- retirement of earlier entries of the named queues: vec, mat, xfr, dec (kind 6) -/
  | retire (issue : BitVec 16) (engs : BitVec 4)
  /-- an available layer (kind 7, R138) -/
  | layer (col : BitVec 5)
  /-- a PUSHD on a full deferral queue (R385) -/
  | pushd
  /-- WAITI with its condition mask and time limit (R429) -/
  | waiti (mask : BitVec 5) (limit : BitVec 64)
  /-- a segment of a home tile that is moving or being recalled (R100, R103) -/
  | moving (seg : BitVec 12) (home : BitVec 8)
  /-- a stalled stage-1 failure (R258) -/
  | xlat (va : BitVec 54)
  /-- the answer of another chip (R254) -/
  | remote (id : Nat) (va : W64)
  /-- a page that the host holds, with its IPA page (R262) -/
  | hostPage (va : BitVec 54) (ipa : Nat)
  /-- a replica that is locked (R189) -/
  | replica (va : BitVec 54)
  /-- the accesses of other tiles that reached a segment before its drop (R106) -/
  | dropping (seg : BitVec 12)
  /-- a channel of the main vertical bus that runs a lane test (R285) -/
  | lane (chan : BitVec 6)
  /-- the acknowledgement of an xrem row (R172) -/
  | xremAck (id : Nat) (addr : W64)
  deriving DecidableEq, Repr, Inhabited

/-- An edge that a probe has yet to try: the agent at its far end, the agents the branch has passed, and whether the
branch has a queue edge and a booking edge (R36). -/
structure ProbeEdge where
  dest : Agent
  path : List Agent
  queue : Bool
  booking : Bool
  deriving DecidableEq, Repr, Inhabited

/-- A probe in flight (R36): what its origin was blocked on, cycles not yet spent on an edge, edges followed, edges to
try (next first), and for each cycle found whether it has a queue and a booking edge. -/
structure Probe where
  obj : WaitObj
  half : Nat
  edges : Nat
  todo : List ProbeEdge
  found : List (Bool × Bool)
  deriving DecidableEq, Repr, Inhabited

/-- A wait: its object, its cycles (R39), its cycles since it began or was last stopped (R300), its cycles since the last
probe result (R36), its probe. -/
structure Wait where
  obj : WaitObj
  cycles : Nat := 0
  since : Nat := 0
  blocked : Nat := 0
  probe : Option Probe := none
  deriving DecidableEq, Repr, Inhabited

/-- What is left of a store that has passed its checks: bytes at an address of another chip, or over a translated piece of this one. -/
inductive OutPart where
  | far (va : W64) (bs : List Byte) (taken : Bool)
  | here (p : Piece) (bs : List Byte)
  deriving DecidableEq, Repr, Inhabited

/-- What every agent has beside its own state: its wait, a spare-room grant it may use (R36), and of the unit it is running:
its traffic with other chips (the answers received in order, the request outstanding, the count used so far), the segment whose
absence it has counted, by home tile and number, and whether its recall is yet to complete (R100), whether its admission has passed the
test of R110 that is made once, what is left of its store, which no check can stop any more, and the layers that its press step sampled
when it began, with whether a throttle left one out (R138). -/
structure Agt where
  wait : Option Wait := none
  grant : Bool := false
  got : List RemoteReply := []
  pend : Option Nat := none
  used : Nat := 0
  absent : Option (BitVec 8 × BitVec 12 × Bool) := none
  tested : Bool := false
  out : Option (List OutPart) := none
  layers : Option (BitVec 4 × Bool) := none
  deriving DecidableEq, Repr, Inhabited

/-- An entry (Table 2.3), with what its CMD releases (R182). -/
structure Entry where
  blk : BitVec 6
  x : W64
  y : W64
  wtok : Option (BitVec 3)
  stok : Option (BitVec 3)
  lcs : Vector Word 4
  issue : BitVec 16
  ctx : BitVec 8
  tile : BitVec 8
  knows : Knows := []
  deriving DecidableEq, Repr, Inhabited

/-- A queue with its spare room (R33): the items oldest first, whether the spare room is granted and not re-armed (R37),
and who popped last (R300). -/
structure Queue (α : Type) where
  items : List α := []
  spare : Bool := false
  popper : Who := {}
  deriving DecidableEq, Repr, Inhabited

/-- A FIFO element, row or record with its producer (R300), and what its pop synchronises with (R182). -/
structure Item (α : Type) where
  val : α
  src : Who
  knows : Knows := []
  deriving DecidableEq, Repr, Inhabited

/-- A raised fault (Tables 13.1, 13.2), with the TICK of the cycle in which it was raised (R236). -/
structure FaultRec where
  eng : BitVec 3
  cause : Cause
  fval : W64 := 0
  finfo : W64 := 0
  item : BitVec 16 := 0
  issue : BitVec 16 := 0
  rpv : Bool := false
  rpi : BitVec 6 := 0
  tick : W64 := 0
  deriving DecidableEq, Repr, Inhabited

/-- A repeat in progress: count, increment codes of the three fields, repeat index (R56, R376). -/
structure Rpt where
  cnt : BitVec 7
  a : BitVec 3
  b : BitVec 3
  c : BitVec 3
  i : BitVec 7
  deriving DecidableEq, Repr, Inhabited

/-! ## Sequencer -/

/-- A set of sequencer registers (Table 3.1, R51, R53, R54), its program counter, the loop starts and ends that LOOP
wrote (R362), the loop ids most recently entered first, and the repeat in progress. -/
structure Bank where
  g : Vector W64 32
  f : Vector Word 32
  p : BitVec 8
  cap : Vector Cap 16
  lc : Vector Word 4
  rrb : BitVec 6
  lstat : W64
  fpmode : W64
  pc : W64
  loopStart : Vector W64 4
  loopEnd : Vector W64 4
  loopOrder : List (BitVec 2)
  rpt : Option Rpt
  deriving DecidableEq, Repr, Inhabited

/-- Trap state and the other S registers of a tile (Tables 3.2, 13.2 to 13.4). -/
structure TrapRegs where
  epc : W64
  fcause : W64
  fval : W64
  finfo : W64
  tvec : W64
  sscratch : W64
  slotsel : BitVec 2
  slice : W64
  deriving DecidableEq, Repr, Inhabited

/-! ## Engines -/

/-- An address register (Table 3.11). -/
abbrev AdReg := BitVec 128

/-- Vector engine state of a slot (Tables 3.9, 3.10, 8.2, R114). -/
structure VecState where
  shape : BitVec 12
  vp : Vector (BitVec 128) 8
  vs : Vector W64 8
  ad : Vector AdReg 8
  vrm : BitVec 2
  guard : BitVec 8
  deriving DecidableEq, Repr, Inhabited

/-- Fold policy (R139). -/
inductive Fold where
  | adaptive
  | strict (layers : BitVec 4)
  | report
  deriving DecidableEq, Repr, Inhabited

/-- The amax target (R142): unset, a segment pointer, or a virtual address with its capability. -/
inductive Amt where
  | unset
  | seg (p : W64)
  | cap (p : W64) (c : Cap)
  deriving DecidableEq, Repr, Inhabited

/-- A drain whose amax merge another chip has been asked to make (R142): the bytes it will store, the flags it raises, whether it found
a NaN, the magnitude that it merges. -/
structure Drain where
  pieces : List (SegRef × List Byte)
  flags : BitVec 4
  nan : Bool
  amax : Nat
  deriving DecidableEq, Repr, Inhabited

/-- Press state of a slot (Tables 7.1, 7.3, 11.5, R127, R136, R139, R141, R142). `held` are the operand bytes fetched in
the running entry: for a descriptor number, the 16 B words of its segment by number. -/
structure PressState where
  od : Vector (BitVec 128) 16
  asl : Vector (BitVec 16) 16
  fmtBase : BitVec 4
  fmtLoop : BitVec 2
  policy : Fold
  scale : Word
  amt : Amt
  mslot : BitVec 3
  carry : Bool
  kadv : BitVec 5
  mqPos : BitVec 24
  mkPos : BitVec 24
  held : List (Nat × List (Nat × List Byte))
  drain : Option Drain
  deriving DecidableEq, Repr, Inhabited

/-- A transfer descriptor (Table 9.1) with its hidden capability (R162). -/
structure Xd where
  raw : BitVec 192 := 0
  cap : Cap := {}
  deriving DecidableEq, Repr, Inhabited

/-- A barrier slot (R161): pointer, valid, and whether it was loaded with KIND REMOTE (R164). -/
structure Bo where
  ptr : W64 := 0
  valid : Bool := false
  remote : Bool := false
  deriving DecidableEq, Repr, Inhabited

/-- Transfer state of a slot. -/
structure XferState where
  xd : Vector Xd 8
  bo : Vector Bo 32
  deriving DecidableEq, Repr, Inhabited

/-- What an item of a transfer step did: bytes written, bytes that count without being written, records to post, flags. -/
structure ItemDone where
  wrote : List (W64 × Nat) := []
  extra : Nat := 0
  recs : List (BitVec 8 × W64) := []
  flags : BitVec 3 := 0
  deriving DecidableEq, Repr, Inhabited

/-- A row index that the address queue has formed (R170), with the 16 B units, by space and number, of the index word and its link. -/
structure IndexAhead where
  row : Nat
  units : List (Nat × Nat)
  deriving DecidableEq, Repr, Inhabited

/-- A source row that the data queue has read (R170): its address and bytes, and its 16 B units, none for one that the step's own items
have written since. -/
structure RowAhead where
  addr : W64
  bytes : List Byte
  units : List (Option (Nat × Nat))
  deriving DecidableEq, Repr, Inhabited

/-- Where a transfer step stands (R165, R171, R174, R178): next item; items, arrival or element pending; items reported,
DECOUPLE, flags NV OF UF, destination ranges written (address, length), bytes that poisoned xscat items count, the records
still to post for the finished item, the row indices formed ahead of their items and the source rows read ahead of them (R170), and
what the item did whose row has gone out and is not acknowledged yet (R172, R189, R254). -/
structure XStep where
  item : Nat := 0
  phase : BitVec 2 := 0
  reported : Nat := 0
  decouple : Nat := 0
  flags : BitVec 3 := 0
  wrote : List (W64 × Nat) := []
  extra : Nat := 0
  recs : List (BitVec 8 × W64) := []
  ahead : List (Nat × IndexAhead) := []
  rows : List (Nat × RowAhead) := []
  sent : Option ItemDone := none
  deriving DecidableEq, Repr, Inhabited

/-- An engine of a slot: the entry that runs (R31 stage 4), whether the entry at the head of its queue is admitted
(stage 2) and holds its token (stage 3), the unit index, the repeat in progress, the transfer step, the index list fed
by an xidx (xs, xd, len), and whether a fault of its own has stopped the entry that runs, or else the head of its queue (R188). -/
structure Engine where
  cur : Option Entry
  admitted : Bool
  unit : Nat
  rpt : Option Rpt
  xs : XStep
  xidx : Option (BitVec 3 × BitVec 3 × BitVec 8)
  halted : Bool
  agt : Agt
  deriving DecidableEq, Repr, Inhabited

/-- One mask slot (Table 11.1). -/
structure MaskSlot where
  prog : List Word
  mp : Vector (BitVec 24) 8
  runs : List Nat
  cnt : Vector W64 4
  deriving DecidableEq, Repr, Inhabited

/-! ## Segments -/

/-- STATE of a segment (Table 5.2), with what a moving one is doing (R103): a recall, a push out of the home store (to
the pool or straight to backing), a push out of the pool. A compaction move is one step. -/
inductive SegState where
  | resident
  | pool
  | backed
  | recalling (fromPool : Bool)
  | pushing (toPool : Bool)
  | spilling
  deriving DecidableEq, Repr, Inhabited

/-- A live segment (Table 5.2) with its contents (R99) and the time it was last touched (R98). -/
structure Segment where
  num : BitVec 12
  size : Nat
  span : BitVec 3
  check : Bool
  pin : Bool
  shared : Bool
  state : SegState
  frame : Nat
  backing : BitVec 48
  touch : Nat
  store : Store
  deriving DecidableEq, Repr, Inhabited

/-- What an admitted, unretired entry has booked (R110): engine, issue, segments. -/
structure Booking where
  eng : Eng
  issue : BitVec 16
  segs : List (BitVec 12)
  deriving DecidableEq, Repr, Inhabited

/-- Race detection of one context on one tile (R192, Table 10.3): CLK, VIEW, the 16 latest snapshots, each with what its release gives
to order held words and TSTAT (R136, R144), SUPP, WIDEN, WRAPPED, EN. -/
structure Race where
  clk : Nat
  view : List (Nat × Nat)
  hist : List (Nat × List (Nat × Nat) × Knows)
  supp : BitVec 24
  widen : BitVec 24
  wrapped : Bool
  en : Bool
  deriving DecidableEq, Repr, Inhabited

/-! ## Slots and tiles -/

/-- The command queues and FIFOs of a slot (Table 2.4). -/
structure Queues where
  vec : Queue Entry
  mat : Queue Entry
  xfr : Queue Entry
  vecSeq : Queue (Item W64)
  matSeq : Queue (Item W64)
  xfrSeq : Queue (Item W64)
  vecMat : Queue (Item Row)
  matVec : Queue (Item Row)
  ev : Queue (Item (BitVec 128))
  deriving DecidableEq, Repr, Inhabited

/-- Sequencer side of a slot: its bank, whether it holds an iteration and at which point, whether that iteration has yet
to start (R42), iterations started (R43, R44), the CMD count (R30), the sequencer's agent state. -/
structure SeqSide where
  bank : Bank
  hasIter : Bool
  point : Nat
  pending : Bool
  iters : BitVec 8
  issue : BitVec 16
  agt : Agt
  deriving DecidableEq, Repr, Inhabited

/-- Porter side of a slot (R52, R97, R107, R110, R188). `asking` are the requests of other chips that wait for a recall (R100). -/
structure MemSide where
  segs : List Segment
  stkLimit : BitVec 23
  quota : BitVec 24
  spare : Bool
  porter : Vector W64 6
  bookings : List Booking
  asking : List (BitVec 12 × RemoteReq)
  layerOut : Nat
  layerWho : Who
  deriving DecidableEq, Repr, Inhabited

/-- Semaphores of a slot (R32): counts, the signallers not yet consumed (oldest first), the waiters in the order they began to wait, with
the TICK of that (R390), and what the signals so far have released (R182). -/
structure Sems where
  count : Vector (BitVec 16) 8
  signals : List (BitVec 3 × Who)
  waiters : List (BitVec 3 × Agent × W64)
  known : List (Nat × Knows)
  deriving DecidableEq, Repr, Inhabited

/-- Who last did what a wait may end with: the last retirement and the last porter or booking release (R300). -/
structure Setters where
  retire : Who
  room : Who
  deriving DecidableEq, Repr, Inhabited

/-- A pending entry at TVEC that is not a fault (CAUSE 0x00): slice end, landed stop, ring record, launch completion,
and cycles since it began (R245, R296, R258, R44). -/
structure Stopping where
  landed : Bool := false
  ring : Bool := false
  done : Bool := false
  cycles : Nat := 0
  deriving DecidableEq, Repr, Inhabited

/-- An effect of an agent's entry on TSTAT that the sequencer need not have seen (R144, R397): the agent, the issue number, its turn, the
TICK at which the entry retired; the bits it sets, the fold code, whether FCHG and THRCNT count it, the tile of a NaN. -/
structure TstatEff where
  agent : Agent := .mat
  issue : BitVec 16 := 0
  stamp : Nat := 0
  since : Option W64 := none
  flags : W64 := 0
  fold : Option Nat := none
  fchg : Bool := false
  thr : Bool := false
  nan : Option (BitVec 8) := none
  deriving DecidableEq, Repr, Inhabited

/-- A context slot of a tile (R26, Table 13.6). `faults` are raised and not yet delivered, in order (R236); `held` is an entry
with CAUSE 0x00 that waits for its delivery (R249). `effs` are the effects on TSTAT that a read may not see yet, in order, and `seen` is
TSTAT without them (R144); `knows` is, for each agent by number, what happens before its present point (R182). -/
structure Slot where
  ctx : Option (BitVec 8)
  sq : SeqSide
  mem : MemSide
  sems : Sems
  q : Queues
  vec : Engine
  mat : Engine
  xfr : Engine
  vs : VecState
  ps : PressState
  tstat : W64
  xs : XferState
  masks : Vector MaskSlot 8
  race : Race
  ranges : List (BitVec 16)
  vtime : W64
  setters : Setters
  faults : List FaultRec
  held : Option Stopping
  effs : List TstatEff
  seen : W64
  knows : List (Nat × Knows)
  deriving DecidableEq, Repr, Inhabited

/-- An event recorder (R288, R291, R292): written frames oldest first, the frame being written, TICK of the last record in a
frame, frames written, frozen, and the records of the present cycle in the order in which they are written: their TICK, and
for each its place in the order of R292, its kind and its payload. -/
structure Recorder where
  frames : List (List Byte)
  cur : List Byte
  last : W64
  count : Word
  frozen : Bool
  nowTick : W64
  now : List (Nat × BitVec 8 × List Byte)
  deriving DecidableEq, Repr, Inhabited

/-- A row with its sideband before the last write of an engine that has not released since (R62, R159). -/
structure Prior where
  writer : Agent
  row : Row
  side : Word
  deriving DecidableEq, Repr, Inhabited

/-- One accumulator tile (R59, R145, R149): owner, 32 rows, 32 sideband words, poisoned rows, and what an unsynchronised
engine may still read of a row. -/
structure AccTile where
  owner : BitVec 8
  rows : Vector Row 32
  side : Vector Word 32
  poison : BitVec 32
  prior : List (Nat × Prior)
  deriving DecidableEq, Repr, Inhabited

/-- Column state (R277 to R279): throttled layers, stretch and its remaining cycles, the thirds of a cycle that have passed
in it, the two counters. -/
structure Column where
  throttled : BitVec 4
  stretching : Bool
  stretchLeft : Nat
  thirds : Nat
  events : Word
  cycles : Word
  deriving DecidableEq, Repr, Inhabited

/-- A tile (R15). `running` is the running slot; `inRuntime` says that the sequencer runs the runtime bank (R238).
`acc` lists the accumulator tiles that are not in reset state, by number. -/
structure Tile where
  up : Bool
  priv : Level
  inRuntime : Bool
  running : Option (BitVec 2)
  rt : Bank
  rtAgt : Agt
  tr : TrapRegs
  sliceLeft : Nat
  stopping : Option Stopping
  scrub : List (BitVec 2 × W64 × W64)
  trctl : W64
  recorder : Recorder
  slots : Vector Slot 4
  acc : List (Nat × AccTile)
  col : Column
  wdog : Nat
  deriving DecidableEq, Repr, Inhabited

/-! ## Towers -/

/-- What a started DEC entry copied (R209, R224): its slot entry (64 B) and its mask slot. -/
structure DecRun where
  slot : BitVec 512
  mask : MaskSlot
  deriving DecidableEq, Repr, Inhabited

/-- A DEC entry: its copies once it has started, the word of its block it stands at, whether the walk of that word has
written its start values (R230), and what it keeps while it is parked of its agent state (R246, R248). -/
structure DecEntry where
  e : Entry
  run : Option DecRun := none
  unit : Nat := 0
  begun : Bool := false
  agt : Option Agt := none
  deriving DecidableEq, Repr, Inhabited

/-- The decode engine (R228): queue, running entry, parked entries, its agent state. -/
structure Decode where
  q : Queue DecEntry
  cur : Option DecEntry
  token : Bool
  parked : List DecEntry
  agt : Agt
  deriving DecidableEq, Repr, Inhabited

/-- Per-context state of the decode engine (R199, R232). -/
structure DecCtx where
  ctx : BitVec 8
  masks : Vector MaskSlot 8
  cnt : Vector W64 8
  deriving DecidableEq, Repr, Inhabited

/-- A block that a drop freed while DEC entries that had started may still read it (R227): its entry of the inverted table,
whether its name stood in the overflow list, and the entries awaited, by context, tile and issue. -/
structure Dropped where
  entry : W64
  ovf : Bool
  await : List (BitVec 8 × BitVec 8 × BitVec 16)
  deriving DecidableEq, Repr, Inhabited

/-- The reserved area of the pool (Table 12.7): slot table bytes by offset from 4 MiB + 64 KiB, inverted table entries,
overflow records, and the blocks that drops have freed and that are not reallocated yet (R227), by number. -/
structure KvTables where
  slots : List Host.Cell
  inv : List (Nat × W64)
  ovf : List (Nat × BitVec 128)
  quarantine : List (Nat × Dropped)
  deriving DecidableEq, Repr, Inhabited

/-- A stage-1 translation kept by the TLB (R257): 64 KiB page of OFF, IPA page, permissions, attributes, whether the entry maps
2 MiB (R255). -/
structure TlbEntry where
  page : Nat
  w : Bool
  r : Bool
  chk : Bool
  rpl : Bool
  ipa : Nat
  big : Bool
  deriving DecidableEq, Repr, Inhabited

/-- A fault-ring record posted in the current generation (R258): 64 KiB page of OFF, ring slot while no later record has taken it,
record address. -/
structure Posted where
  page : Nat
  slot : Option Nat
  va : BitVec 54
  deriving DecidableEq, Repr, Inhabited

/-- A page move and its 1 ms hold (R263): 64 KiB page of OFF, where it went (the host, or a tower), cycles since. -/
structure PageHold where
  page : Nat
  host : Bool
  tower : BitVec 3
  cycles : Nat
  deriving DecidableEq, Repr, Inhabited

/-- Who makes a store: an agent of a tile, with its slot (none for the runtime's own code), a request of another chip, a command; one that has
had its answer (R189). -/
inductive Writer where
  | agent (tile : BitVec 8) (slot : Option (BitVec 2)) (a : Agent)
  | chip (r : RemoteReq)
  | host (c : HostCmd)
  | answered
  deriving DecidableEq, Repr, Inhabited

/-- A store to a replicated page in progress (R189): page, replicas (tower, page) still locked, offset, bytes, and the writer. -/
structure RepStore where
  page : Nat
  locked : List (BitVec 3 × Nat)
  off : Nat
  bytes : List Byte
  writer : Writer
  cycles : Nat
  deriving DecidableEq, Repr, Inhabited

/-- Translation side of a tower (R255 to R263). Several stage-2 entries of one IPA page are replicas of it (R189);
`unrep` are the IPA pages that the owner marked not replicated. -/
structure Mmu where
  root : Option (BitVec 48)
  s2 : List (Nat × PhysPage)
  tlb : List TlbEntry
  posted : List Posted
  stalledReqs : List RemoteReq
  holds : List PageHold
  unrep : List Nat
  repStores : List RepStore
  deriving DecidableEq, Repr, Inhabited

/-- One channel of the vertical bus (R283, R284): path, channel, spare lanes mapped, in order (the failing lane), beat
waiting for a lane test. -/
structure Lane where
  asynch : Bool
  chan : BitVec 6
  spares : List (BitVec 8)
  testing : Option BusBeat
  deriving DecidableEq, Repr, Inhabited

/-- An error log ring (R286): records oldest first, count of records ever written. -/
structure ErrLog where
  recs : List (BitVec 128)
  count : Word
  deriving DecidableEq, Repr, Inhabited

/-- A tower (R16). `biterrs` are DRAM layer words with one wrong bit (word, bit); `zeroed` are the lines whose pending
bit is clear (R268): layer?, line; `badReads` are layer words whose next read the bus delivers as poisoned (R284). -/
structure Tower where
  dec : Decode
  dctx : List DecCtx
  kv : KvTables
  layer : Store
  biterrs : List (Nat × BitVec 8)
  gddr : Store
  zeroed : List (Bool × Nat)
  mmu : Mmu
  poolCap : Nat
  fuse : BitVec 128
  lanes : List Lane
  badReads : List Nat
  arrayLog : ErrLog
  vbusLog : ErrLog
  recorder : Recorder
  wrr : List (BitVec 8 × Nat)
  deriving DecidableEq, Repr, Inhabited

/-! ## Contexts, partitions, the host -/

/-- One block record (R83): start, length, operands. -/
structure Block where
  start : Nat
  len : Nat
  ops : List (BitVec 16)
  deriving DecidableEq, Repr, Inhabited

/-- A loop level (R84): kind (0 D, 1 S, 2 T), loop id, extent after parameters. -/
structure Level3 where
  kind : BitVec 8
  id : BitVec 2
  extent : Nat
  deriving DecidableEq, Repr, Inhabited

/-- A context's own copy of its code, PARAM fields patched (R92), and the tables the device reads at run time. -/
structure Code where
  seq : List Word
  vec : List Word
  mat : List Word
  xfr : List Word
  msk : List Word
  dec : List Word
  blkVec : List Block
  blkMat : List Block
  blkXfr : List Block
  blkMsk : List Block
  blkDec : List Block
  levels : List Level3
  fmt : List Word
  entry : Nat
  spareB : Nat
  deriving DecidableEq, Repr, Inhabited

/-- A context (R25, R40 to R45, R92). `handed` counts points handed out per tower; `started` iterations handed out;
`done` iterations that retired iter.done; `complete` says that the launch has completed (R44); `session` and `seq` name
the LAUNCH. -/
structure Context where
  id : BitVec 8
  part : BitVec 8
  slot : BitVec 2
  tiles : List (BitVec 8)
  code : Code
  weight : Nat
  caps : List Cap
  handed : List (Nat × Nat)
  started : Nat
  done : Nat
  sweeping : Bool
  complete : Bool
  session : W64
  seq : W64
  deriving DecidableEq, Repr, Inhabited

/-- A loaded object (R274 LOAD): handle, partition, kind, image. -/
structure Obj where
  handle : Word
  part : BitVec 8
  kind : BitVec 8
  image : List Byte
  deriving DecidableEq, Repr, Inhabited

/-- Pre-copy log of a partition (R264): active, final round, ring entries, pages logged in the round, granules, overflow. -/
structure PreCopy where
  active : Bool
  final : Bool
  ring : List W64
  round : List (BitVec 3 × Nat)
  granules : List (BitVec 3 × Nat)
  overflow : Bool
  deriving DecidableEq, Repr, Inhabited

/-- A partition on this chip (R265), with the tiles that it contains (R138, R281). `fatal` is FATAL, TICK and FCAUSE of the dump header, and `logDump` the error logs as a fatal
error found them (Table 13.7). -/
structure Partition where
  setup : PartSetup
  tiles : List (BitVec 8)
  key : Bool
  runtime : Option (List Word × Nat)
  digest : List Byte
  digests : List (List Byte)
  fatal : Option (BitVec 8 × W64 × W64)
  logDump : List Byte
  faultRing : Option (BitVec 54)
  cmdRing : Option (BitVec 54)
  service : Option (BitVec 8)
  gen : Word
  timeoutUs : Nat
  down : List (BitVec 3)
  pre : PreCopy
  statuses : List (BitVec 8 × BitVec 8)
  stalledCmds : List (BitVec 8 × HostCmd)
  awaiting : List (BitVec 3 × Nat)
  deriving DecidableEq, Repr, Inhabited

/-- A session (R275, R276): id, partition, next expected SEQ, commands held ahead (OP and command). -/
structure Session where
  id : W64
  part : BitVec 8
  next : W64
  held : List (BitVec 8 × HostCmd)
  deriving DecidableEq, Repr, Inhabited

/-- A message of the device to the host (Table 14.6). -/
structure Msg where
  op : BitVec 8
  part : BitVec 16
  seq : W64
  session : W64
  status : Word
  body : List Byte
  deriving DecidableEq, Repr, Inhabited

/-- A request of this chip to another chip of the partition (R254), with the TICK at which it was made (R261). -/
structure OutReq where
  id : Nat
  part : BitVec 8
  toChip : BitVec 3
  tile : BitVec 8
  ctx : BitVec 8
  va : W64
  op : RemoteOp
  eng : BitVec 8
  issue : BitVec 16
  rel : Option Nat
  sent : W64 := 0
  deriving DecidableEq, Repr, Inhabited

/-- Bring-up (R287): step reached, whether it failed, the digest of rejected firmware (step 2), channels with too few spares and the
towers left out of partitions for them (step 4), columns that the self-test excludes, by tile (step 5); the step at which it will
end, and what its steps will find. -/
structure Bring where
  step : Nat := 0
  failed : Bool := false
  digest : List Byte := []
  short : List (BitVec 3 × Bool × BitVec 6) := []
  leftOut : BitVec 8 := 0
  excluded : List (BitVec 8) := []
  goal : Nat := 0
  found : Training := default
  deriving DecidableEq, Repr, Inhabited

/-- Module-wide host side; `answers` are what this chip has answered to other chips, in order. -/
structure HostSide where
  objs : List Obj
  nextHandle : Word
  sessions : List Session
  authDrops : Nat
  authDue : Bool
  outbox : List Msg
  outReqs : List OutReq
  nextReq : Nat
  answers : List RemoteReply
  deriving DecidableEq, Repr, Inhabited

/-- The machine. `cur` is the tile whose agent moves; `agenda`, `moves` and `fresh` are the model's own fields (DESIGN CHOICE, log 2,
DESIGN CHOICE, log 3). -/
structure State where
  tick : W64
  bring : Bring
  tiles : Vector Tile 256
  towers : Vector Tower 8
  parts : List Partition
  ctxs : List Context
  host : HostSide
  cur : BitVec 8
  agenda : List Turn
  moves : Nat
  fresh : Nat
  deriving DecidableEq, Repr, Inhabited

/-! ## Reset -/

/-- A bank with every register zero and p0 one (R46, R270). -/
def Bank.zero : Bank where
  g := Vector.replicate 32 0
  f := Vector.replicate 32 0
  p := 1
  cap := Vector.replicate 16 {}
  lc := Vector.replicate 4 0
  rrb := 0
  lstat := 0
  fpmode := 0
  pc := 0
  loopStart := Vector.replicate 4 0
  loopEnd := Vector.replicate 4 0
  loopOrder := []
  rpt := none

/-- An idle engine. -/
def Engine.idle : Engine where
  cur := none
  admitted := false
  unit := 0
  rpt := none
  xs := {}
  xidx := none
  halted := false
  agt := {}

/-- Table 11.1. -/
def MaskSlot.reset : MaskSlot where
  prog := []
  mp := Vector.replicate 8 0
  runs := []
  cnt := Vector.replicate 4 0

/-- Tables 3.10 and 8.2. -/
def VecState.reset : VecState where
  shape := 0
  vp := (Vector.replicate 8 0).set 0 (ones 128)
  vs := Vector.replicate 8 0
  ad := Vector.replicate 8 0
  vrm := 0
  guard := 16

/-- Press state at launch: zero, adaptive, SCALE 1.0, AMT unset (R134, R137, R139, R141, R142, R210). -/
def PressState.reset : PressState where
  od := Vector.replicate 16 0
  asl := Vector.replicate 16 0
  fmtBase := 0
  fmtLoop := 0
  policy := .adaptive
  scale := 0x3F800000
  amt := .unset
  mslot := 0
  carry := false
  kadv := 0
  mqPos := 0
  mkPos := 0
  held := []
  drain := none

/-- R161. -/
def XferState.reset : XferState where
  xd := Vector.replicate 8 {}
  bo := Vector.replicate 32 {}

/-- R192, Table 10.3. -/
def Race.reset : Race where
  clk := 1
  view := []
  hist := []
  supp := 0
  widen := 0
  wrapped := false
  en := true

/-- Every queue empty. -/
def Queues.empty : Queues := ⟨{}, {}, {}, {}, {}, {}, {}, {}, {}⟩

/-- A sequencer side that holds no iteration. -/
def SeqSide.reset : SeqSide where
  bank := Bank.zero
  hasIter := false
  point := 0
  pending := false
  iters := 0
  issue := 0
  agt := {}

/-- QUOTA resets to 0x2_0000 units of 64 B (Table 5.3). -/
def MemSide.reset : MemSide where
  segs := []
  stkLimit := 0
  quota := 0x800000
  spare := false
  porter := Vector.replicate 6 0
  bookings := []
  asking := []
  layerOut := 0
  layerWho := {}

/-- R32. -/
def Sems.reset : Sems := ⟨Vector.replicate 8 0, [], [], []⟩

/-- An empty slot. -/
def Slot.reset : Slot where
  ctx := none
  sq := SeqSide.reset
  mem := MemSide.reset
  sems := Sems.reset
  q := Queues.empty
  vec := Engine.idle
  mat := Engine.idle
  xfr := Engine.idle
  vs := VecState.reset
  ps := PressState.reset
  tstat := 0
  xs := XferState.reset
  masks := Vector.replicate 8 MaskSlot.reset
  race := Race.reset
  ranges := []
  vtime := 0
  setters := ⟨{}, {}⟩
  faults := []
  held := none
  effs := []
  seen := 0
  knows := []

/-- A cleared recorder (R288). -/
def Recorder.reset : Recorder := ⟨[], [], 0, 0, false, 0, []⟩

/-- A free, zero accumulator tile (R145, R146, R149). -/
def AccTile.reset : AccTile := ⟨0xFF, Vector.replicate 32 0, Vector.replicate 32 0, 0, []⟩

/-- TRCTL resets to EN 1, CLASS 0b1_1111 (Table 16.1); the watchdog period to 2^28 c (R39). -/
def Tile.reset : Tile where
  up := false
  priv := .s
  inRuntime := true
  running := none
  rt := Bank.zero
  rtAgt := {}
  tr := ⟨0, 0, 0, 0, 0, 0, 0, 0⟩
  sliceLeft := 0
  stopping := none
  scrub := []
  trctl := 0x7D
  recorder := Recorder.reset
  slots := Vector.replicate 4 Slot.reset
  acc := []
  col := ⟨0, false, 0, 0, 0, 0⟩
  wdog := 2 ^ 28

/-- A tower with empty tables and every line pending-zero (R268). -/
def Tower.reset : Tower where
  dec := ⟨{}, none, false, [], {}⟩
  dctx := []
  kv := ⟨[], [], [], []⟩
  layer := {}
  biterrs := []
  gddr := {}
  zeroed := []
  mmu := ⟨none, [], [], [], [], [], [], []⟩
  poolCap := 128 * 2 ^ 20
  fuse := 0
  lanes := []
  badReads := []
  arrayLog := ⟨[], 0⟩
  vbusLog := ⟨[], 0⟩
  recorder := Recorder.reset
  wrr := []

/-- The module right after module reset: no bring-up step has run (R287). -/
def State.reset : State where
  tick := 0
  bring := {}
  tiles := Vector.replicate 256 Tile.reset
  towers := Vector.replicate 8 Tower.reset
  parts := []
  ctxs := []
  host := ⟨[], 0, [], 0, false, [], [], 1, []⟩
  cur := 0
  agenda := []
  moves := 0
  fresh := 0

/-! ## The canonical form of memory -/

/-- Keys strictly rise from `lo`, and no entry equals the default. -/
def canonFrom [BEq α] (d : α) : Nat → List (Nat × α) → Bool
  | _, [] => true
  | lo, (k, v) :: r => decide (lo ≤ k) && !(v == d) && canonFrom d (k + 1) r

/-- A list of cells is in canonical form: an unlisted byte reads 0 (R85, R96, R268). -/
def Memory.wf (m : List Host.Cell) : Bool := canonFrom (0 : Byte) 0 m

/-- Numbers strictly rise. -/
def risingFrom : Nat → List Nat → Bool
  | _, [] => true
  | lo, k :: r => decide (lo ≤ k) && risingFrom (k + 1) r

/-- A store is in canonical form. -/
def Store.wf (m : Store) : Bool := Memory.wf m.bytes && risingFrom 0 m.tags && risingFrom 0 m.poison

/-- Every byte store of the machine is in canonical form. -/
def State.memWf (s : State) : Bool :=
  s.tiles.toList.all (fun t => t.slots.toList.all fun k => k.mem.segs.all fun g => g.store.wf) &&
  s.towers.toList.all (fun t => t.layer.wf && t.gddr.wf && Memory.wf t.kv.slots)

end Sys2Proof.Machine
end

