-- ==== Sys2Proof/Machine/Ops.lean ====
section
/-! DEFINITION. The named operations that every meaning is made of: sparse memory, accessors, registers, the recorder,
raising a fault, taking an exception and the return from one. -/

namespace Sys2Proof.Machine

/-! ## Lists keyed by numbers -/

/-- The value at a key, the default where none is listed. -/
def look (d : α) : List (Nat × α) → Nat → α
  | [], _ => d
  | (k, v) :: r, n => if n = k then v else look d r n

/-- Write a key, keeping keys rising and no default value listed. -/
def put [BEq α] (d : α) : List (Nat × α) → Nat → α → List (Nat × α)
  | [], n, x => if x == d then [] else [(n, x)]
  | (k, v) :: r, n, x =>
    if n < k then (if x == d then (k, v) :: r else (n, x) :: (k, v) :: r)
    else if n = k then (if x == d then r else (n, x) :: r)
    else (k, v) :: put d r n x

/-- Remove a key. -/
def drop1 : List (Nat × α) → Nat → List (Nat × α)
  | [], _ => []
  | (k, v) :: r, n => if n = k then r else (k, v) :: drop1 r n

/-- Write a key where every value may be listed. -/
def put1 : List (Nat × α) → Nat → α → List (Nat × α)
  | [], n, x => [(n, x)]
  | (k, v) :: r, n, x =>
    if n < k then (n, x) :: (k, v) :: r else if n = k then (n, x) :: r else (k, v) :: put1 r n x

/-- Insert a number into a rising list. -/
def insertN : List Nat → Nat → List Nat
  | [], n => [n]
  | k :: r, n => if n < k then n :: k :: r else if n = k then k :: r else k :: insertN r n

/-- Remove a number. -/
def eraseN : List Nat → Nat → List Nat
  | [], _ => []
  | k :: r, n => if n = k then r else k :: eraseN r n

/-- The element at an index of a vector of 2^w places. -/
def vget (i : BitVec w) (v : Vector α (2 ^ w)) : α := v[i.toNat]'i.isLt

/-- Replace the element at an index. -/
def vset (i : BitVec w) (x : α) (v : Vector α (2 ^ w)) : Vector α (2 ^ w) := v.set i.toNat x i.isLt

/-! ## Bytes (R2) -/

/-- The little-endian value of bytes. -/
def leNat : List Byte → Nat
  | [] => 0
  | b :: r => b.toNat + 256 * leNat r

/-- The n low bytes of a value, low first. -/
def leBytes : Nat → Nat → List Byte
  | 0, _ => []
  | n + 1, v => BitVec.ofNat 8 v :: leBytes n (v / 256)

/-- The n bytes from an address. -/
def readBytes (m : List Host.Cell) (a : Nat) : Nat → List Byte
  | 0 => []
  | n + 1 => look 0 m a :: readBytes m (a + 1) n

/-- Write bytes from an address, keeping the canonical form. -/
def writeBytes (m : List Host.Cell) (a : Nat) : List Byte → List Host.Cell
  | [] => m
  | b :: r => writeBytes (put 0 m a b) (a + 1) r

/-- Bits hi down to lo as a number (R7). -/
def bits (x : BitVec w) (hi lo : Nat) : Nat := x.toNat / 2 ^ lo % 2 ^ (hi + 1 - lo)

/-- Replace bits hi down to lo (R6). -/
def setBits (x : BitVec w) (hi lo : Nat) (v : Nat) : BitVec w :=
  let m : BitVec w := BitVec.ofNat w ((2 ^ (hi + 1 - lo) - 1) * 2 ^ lo)
  (x &&& ~~~m) ||| (BitVec.ofNat w (v % 2 ^ (hi + 1 - lo) * 2 ^ lo))

/-- One bit. -/
def bit (x : BitVec w) (n : Nat) : Bool := x.getLsbD n

/-- Set or clear one bit. -/
def setBit (x : BitVec w) (n : Nat) (b : Bool) : BitVec w := setBits x n n (if b then 1 else 0)

/-- 0 or 1. -/
def b2n (b : Bool) : Nat := if b then 1 else 0

/-- 16 B unit numbers that a range touches. -/
def unitsOf (sz a n : Nat) : List Nat :=
  if n = 0 then [] else (List.range ((a + n - 1) / sz + 1 - a / sz)).map (· + a / sz)

/-! ## Stores -/

/-- Read n bytes. -/
def Store.read (m : Store) (a n : Nat) : List Byte := readBytes m.bytes a n

/-- The poisoned 16 B words that a range touches (R251). -/
def Store.poisoned (m : Store) (a n : Nat) : List Nat := (unitsOf 16 a n).filter m.poison.contains

/-- Release tags that a plain store stands over: no acquire observes them until an `amo` writes, or a phase flips (R182). -/
def Tag.unseen (t : Tag) : Tag := { t with seen := false }

/-- Write bytes: tags of the granules fall (R68), a word that is covered whole loses its poison (R251), the release tags of
the 4 B words are not observed any more (R182), and the writer of each 16 B unit is kept (R136), as is who made PHASE, bit 0 of a unit,
change (R300). (DEDUCED, log 42) -/
def Store.write (m : Store) (a : Nat) (bs : List Byte) (w : Who) : Store :=
  let n := bs.length
  let us := unitsOf 16 a n
  { m with
    bytes := writeBytes m.bytes a bs
    tags := us.foldl eraseN m.tags
    poison := (us.filter fun u => a ≤ 16 * u ∧ 16 * u + 16 ≤ a + n).foldl eraseN m.poison
    sync := m.sync.map fun e => if (unitsOf 4 a n).contains e.1 then (e.1, e.2.map Tag.unseen) else e
    flips := (us.filter fun u => a ≤ 16 * u ∧ bit (look 0 m.bytes (16 * u)) 0 ≠ bit (bs.getD (16 * u - a) 0) 0).foldl
      (fun l u => put1 l u w) m.flips
    writer := us.foldl (fun l u => put1 l u w) m.writer }

/-! ## Tiles, towers, slots -/

def State.tile (s : State) (t : BitVec 8) : Tile := vget t s.tiles

def State.setTile (s : State) (t : BitVec 8) (x : Tile) : State := { s with tiles := vset t x s.tiles }

def State.modTile (s : State) (t : BitVec 8) (f : Tile → Tile) : State := s.setTile t (f (s.tile t))

def State.tower (s : State) (t : BitVec 3) : Tower := vget t s.towers

def State.setTower (s : State) (t : BitVec 3) (x : Tower) : State := { s with towers := vset t x s.towers }

def State.modTower (s : State) (t : BitVec 3) (f : Tower → Tower) : State := s.setTower t (f (s.tower t))

/-- The tower of a tile (R14). -/
def towerOf (t : BitVec 8) : BitVec 3 := BitVec.ofNat 3 (t.toNat / 32)

/-- The column of a tile (R14). -/
def columnOf (t : BitVec 8) : BitVec 5 := BitVec.ofNat 5 (t.toNat % 32)

def Tile.slot (t : Tile) (k : BitVec 2) : Slot := vget k t.slots

def Tile.setSlot (t : Tile) (k : BitVec 2) (x : Slot) : Tile := { t with slots := vset k x t.slots }

def State.slot (s : State) (t : BitVec 8) (k : BitVec 2) : Slot := (s.tile t).slot k

def State.setSlot (s : State) (t : BitVec 8) (k : BitVec 2) (x : Slot) : State := s.modTile t (·.setSlot k x)

def State.modSlot (s : State) (t : BitVec 8) (k : BitVec 2) (f : Slot → Slot) : State :=
  s.setSlot t k (f (s.slot t k))

/-- The slot that runs on the moving tile; slot 0 where none does. -/
def State.curSlot (s : State) : BitVec 2 := ((s.tile s.cur).running).getD 0

/-- The slot whose per-slot state the moving sequencer reaches: the running slot, or in the runtime bank the one that
SLOTSEL names (R395, R396; for segments DEDUCED, log 13). -/
def State.seqSlot (s : State) : BitVec 2 :=
  if (s.tile s.cur).inRuntime then (s.tile s.cur).tr.slotsel else s.curSlot

/-- Whether the moving sequencer runs the runtime bank. -/
def State.inRt (s : State) : Bool := (s.tile s.cur).inRuntime

/-- The bank that the moving sequencer runs (R238, R243). -/
def State.bank (s : State) : Bank := if s.inRt then (s.tile s.cur).rt else (s.slot s.cur s.curSlot).sq.bank

def State.setBank (s : State) (b : Bank) : State :=
  if s.inRt then s.modTile s.cur fun t => { t with rt := b }
  else s.modSlot s.cur s.curSlot fun k => { k with sq := { k.sq with bank := b } }

def State.modBank (s : State) (f : Bank → Bank) : State := s.setBank (f s.bank)

/-- The agent state of the moving sequencer. -/
def State.seqAgt (s : State) : Agt := if s.inRt then (s.tile s.cur).rtAgt else (s.slot s.cur s.curSlot).sq.agt

def State.setSeqAgt (s : State) (a : Agt) : State :=
  if s.inRt then s.modTile s.cur fun t => { t with rtAgt := a }
  else s.modSlot s.cur s.curSlot fun k => { k with sq := { k.sq with agt := a } }

/-- The context of a slot. -/
def State.ctxOf (s : State) (t : BitVec 8) (k : BitVec 2) : Option Context :=
  (s.slot t k).ctx.bind fun c => s.ctxs.find? (·.id == c)

def State.ctxById (s : State) (c : BitVec 8) : Option Context := s.ctxs.find? (·.id == c)

def State.modCtx (s : State) (c : BitVec 8) (f : Context → Context) : State :=
  { s with ctxs := s.ctxs.map fun x => if x.id == c then f x else x }

/-- The slot of a tile that holds a context. -/
def Tile.slotOfCtx (t : Tile) (c : BitVec 8) : Option (BitVec 2) :=
  [0, 1, 2, 3].find? fun k => (t.slot k).ctx == some c

/-- The partition that holds a tower on this chip. -/
def State.partOfTower (s : State) (t : BitVec 3) : Option Partition :=
  s.parts.find? fun p => p.setup.towers.getLsbD t.toNat

def State.partOf (s : State) (t : BitVec 8) : Option Partition := s.partOfTower (towerOf t)

def State.partByNum (s : State) (n : BitVec 8) : Option Partition := s.parts.find? (·.setup.num == n)

def State.modPart (s : State) (n : BitVec 8) (f : Partition → Partition) : State :=
  { s with parts := s.parts.map fun p => if p.setup.num == n then f p else p }

/-- A fresh value that nothing constrains. -/
def State.draw (s : State) : BitVec 64 × State := (Config.fresh s.fresh, { s with fresh := s.fresh + 1 })

/-- The tiles of a tower. -/
def tilesOf (t : BitVec 3) : List (BitVec 8) := (List.range 32).map fun k => BitVec.ofNat 8 (32 * t.toNat + k)

def allTiles : List (BitVec 8) := (List.range 256).map (BitVec.ofNat 8)

def allTowers : List (BitVec 3) := (List.range 8).map (BitVec.ofNat 3)

def allSlots : List (BitVec 2) := [0, 1, 2, 3]

/-- Whether a tile can be used: not every layer of its column is fused off (R138), and its self-test has passed (R287). -/
def State.usable (s : State) (t : BitVec 8) : Bool :=
  let c := (columnOf t).toNat
  bits (s.tower (towerOf t)).fuse (4 * c + 3) (4 * c) != 15 && !s.bring.excluded.contains t

/-! ## Sequencer registers (R46, R53) -/

/-- Physical number of logical g or f register n (R53). -/
def physG (rrb : BitVec 6) (n : BitVec 5) : BitVec 5 :=
  if n.toNat < 24 then n else BitVec.ofNat 5 (24 + (n.toNat - 24 + 8 - rrb.toNat % 8) % 8)

/-- Physical number of logical predicate n (R53). -/
def physP (rrb : BitVec 6) (n : BitVec 3) : BitVec 3 :=
  if n = 0 then 0 else BitVec.ofNat 3 (1 + (n.toNat - 1 + 7 - rrb.toNat / 8) % 7)

/-- g[n]; g0 reads zero. -/
def Bank.gr (b : Bank) (n : BitVec 5) : W64 := if n = 0 then 0 else vget (physG b.rrb n) b.g

/-- g[n] ← v; a write to g0 is discarded. -/
def Bank.setG (b : Bank) (n : BitVec 5) (v : W64) : Bank :=
  if n = 0 then b else { b with g := vset (physG b.rrb n) v b.g }

/-- f[n] ← v and f[n]. -/
def Bank.fr (b : Bank) (n : BitVec 5) : Word := vget (physG b.rrb n) b.f

def Bank.setF (b : Bank) (n : BitVec 5) (v : Word) : Bank := { b with f := vset (physG b.rrb n) v b.f }

/-- p[n]; p0 reads one. -/
def Bank.pr (b : Bank) (n : BitVec 3) : Bool := if n = 0 then true else b.p.getLsbD (physP b.rrb n).toNat

/-- p[n] ← v; a write to p0 is discarded. -/
def Bank.setP (b : Bank) (n : BitVec 3) (v : Bool) : Bank :=
  if n = 0 then b else { b with p := setBit b.p (physP b.rrb n).toNat v }

def Bank.capr (b : Bank) (n : BitVec 4) : Cap := vget n b.cap

def Bank.setCap (b : Bank) (n : BitVec 4) (c : Cap) : Bank := { b with cap := vset n c b.cap }

/-! ## LSTAT (Table 3.6) -/

def lsAct (l : W64) (n : BitVec 2) : Bool := bit l (8 * n.toNat + 7)
def lsRot (l : W64) (n : BitVec 2) : Bool := bit l (8 * n.toNat + 6)
def lsHi (l : W64) (n : BitVec 2) : Nat := bits l (8 * n.toNat + 5) (8 * n.toNat + 3)
def lsLo (l : W64) (n : BitVec 2) : Nat := bits l (8 * n.toNat + 2) (8 * n.toNat)
def lsSt (l : W64) (n : BitVec 2) : Nat := bits l (48 + 3 * n.toNat + 2) (48 + 3 * n.toNat)
def lsRptv (l : W64) : Bool := bit l 32
def lsRpti (l : W64) : Nat := bits l 45 40

def lsSetAct (l : W64) (n : BitVec 2) (b : Bool) : W64 := setBit l (8 * n.toNat + 7) b
def lsSetHi (l : W64) (n : BitVec 2) (v : Nat) : W64 := setBits l (8 * n.toNat + 5) (8 * n.toNat + 3) v
def lsSetLo (l : W64) (n : BitVec 2) (v : Nat) : W64 := setBits l (8 * n.toNat + 2) (8 * n.toNat) v

/-- The loops whose ACT is 1, ids ascending. -/
def activeLoops (l : W64) : List (BitVec 2) := [0, 1, 2, 3].filter (lsAct l)

/-! ## Agents -/

/-- Agent numbers in the order of R36 and R236. -/
def agentOrd : Agent → Nat
  | .seq => 0 | .vec => 1 | .mat => 2 | .xfr => 3 | .dec => 4

/-- FCAUSE.ENG codes (Table 13.2). -/
def agentCode : Agent → BitVec 3
  | .seq => 0 | .vec => 1 | .xfr => 2 | .dec => 3 | .mat => 4

def Eng.agent : Eng → Agent
  | .vec => .vec | .mat => .mat | .xfr => .xfr | .dec => .dec

/-- The CMD eng field (R30). -/
def engOf (e : BitVec 2) : Eng :=
  if e = 0 then .vec else if e = 1 then .mat else if e = 2 then .xfr else .dec

def Slot.engine (k : Slot) : Eng → Engine
  | .vec => k.vec | .mat => k.mat | .xfr => k.xfr | .dec => Engine.idle

def Slot.setEngine (k : Slot) : Eng → Engine → Slot
  | .vec, e => { k with vec := e }
  | .mat, e => { k with mat := e }
  | .xfr, e => { k with xfr := e }
  | .dec, _ => k

def Slot.cmdQ (k : Slot) : Eng → Queue Entry
  | .vec => k.q.vec | .mat => k.q.mat | .xfr => k.q.xfr | .dec => {}

def Slot.setCmdQ (k : Slot) : Eng → Queue Entry → Slot
  | .vec, q => { k with q := { k.q with vec := q } }
  | .mat, q => { k with q := { k.q with mat := q } }
  | .xfr, q => { k with q := { k.q with xfr := q } }
  | .dec, _ => k

/-- The agent state of an agent of a slot. -/
def State.agt (s : State) (t : BitVec 8) (k : BitVec 2) : Agent → Agt
  | .seq => (s.slot t k).sq.agt
  | .vec => (s.slot t k).vec.agt
  | .mat => (s.slot t k).mat.agt
  | .xfr => (s.slot t k).xfr.agt
  | .dec => (s.tower (towerOf t)).dec.agt

def State.setAgt (s : State) (t : BitVec 8) (k : BitVec 2) (a : Agent) (g : Agt) : State :=
  match a with
  | .seq => s.modSlot t k fun x => { x with sq := { x.sq with agt := g } }
  | .vec => s.modSlot t k fun x => { x with vec := { x.vec with agt := g } }
  | .mat => s.modSlot t k fun x => { x with mat := { x.mat with agt := g } }
  | .xfr => s.modSlot t k fun x => { x with xfr := { x.xfr with agt := g } }
  | .dec => s.modTower (towerOf t) fun x => { x with dec := { x.dec with agt := g } }

/-- The entry an agent runs, or else the head of its queue (R36). -/
def State.entryOf (s : State) (t : BitVec 8) (k : BitVec 2) : Agent → Option Entry
  | .seq => none
  | .vec => (s.slot t k).vec.cur.or (s.slot t k).q.vec.items.head?
  | .mat => (s.slot t k).mat.cur.or (s.slot t k).q.mat.items.head?
  | .xfr => (s.slot t k).xfr.cur.or (s.slot t k).q.xfr.items.head?
  | .dec => ((s.tower (towerOf t)).dec.cur.or (s.tower (towerOf t)).dec.q.items.head?).map (·.e)

/-- How a setter is named (R300): chip index, tile, engine code, issue of its entry; and the present turn (R182). -/
def State.whoIs (s : State) (t : BitVec 8) (k : BitVec 2) (a : Agent) : Who where
  chip := ((s.partOf t).map (fun p => p.setup.chip.setWidth 8)).getD 0
  tile := t
  eng := (agentCode a).setWidth 8
  issue := ((s.entryOf t k a).map (·.issue)).getD 0
  stamp := s.moves

/-! ## Event recorders (R288 to R294, R298) -/

/-- A delta in bytes of 7 bits (R291). -/
def deltaBytes : Nat → Nat → List Byte
  | 0, _ => []
  | f + 1, d => if d < 128 then [BitVec.ofNat 8 d] else BitVec.ofNat 8 (d % 128 + 128) :: deltaBytes f (d / 128)

/-- A frame padded to 256 B (R291). -/
def padFrame (f : List Byte) : List Byte := f ++ List.replicate (256 - f.length) 0

/-- The 16 B header of a frame. -/
def frameHeader (tick : W64) (n : Word) (kind num : BitVec 8) : List Byte :=
  leBytes 8 tick.toNat ++ leBytes 4 n.toNat ++ [kind, num, 0, 0]

/-- Write one record (R291): a new frame where the delta reaches 2^28 or the record does not fit; the oldest of 256
frames is overwritten. The header of a frame that a saturated delta begins has the TICK of its first record (Table 16.7); of another
one it is no earlier than the last record, and less than 2^28 before the first of the frame. (DESIGN CHOICE, log 35) -/
def Recorder.lay (r : Recorder) (tick : W64) (src num kind : BitVec 8) (body : List Byte) : Recorder :=
  let d := (tick - r.last).toNat
  let full := kind :: (deltaBytes 4 d ++ body)
  if r.cur = [] ∨ 2 ^ 28 ≤ d ∨ 256 < r.cur.length + full.length then
    let done := if r.cur = [] then r.frames else r.frames ++ [padFrame r.cur]
    let lag := if r.cur ≠ [] ∧ 2 ^ 28 ≤ d then 0 else Config.headerLag r.count.toNat tick.toNat % min (2 ^ 28) (d + 1)
    { r with
      frames := if 256 ≤ done.length then done.drop (done.length - 255) else done
      cur := frameHeader (tick - BitVec.ofNat 64 lag) r.count src num ++ (kind :: (deltaBytes 4 lag ++ body))
      last := tick
      count := r.count + 1 }
  else { r with cur := r.cur ++ full, last := tick }

/-- The place of a record among those of its cycle (R292): sequencer, vector engine, press, transfer unit, decode engine,
porter, then what no agent writes; FREEZE is last (R298). WAIT and FAULT carry their agent in WHERE; a GRANT is its
producer's (Table 2.4). (DEDUCED, log 85) -/
def recOrder (kind : BitVec 8) (body : List Byte) : Nat :=
  let ofEng (e : Nat) : Nat := match e with
    | 0 => 0 | 1 => 1 | 4 => 2 | 2 => 3 | 3 => 4 | _ => 6
  if kind = 0x05 ∨ kind = 0x07 then ofEng ((body.getD 2 0).toNat % 8)
  else if kind = 0x06 then 5
  else if kind = 0x08 then
    match (body.getD 0 0).toNat with
    | 4 => 1 | 7 => 1 | 5 => 2 | 8 => 2 | 6 => 3 | 9 => 3 | _ => 0
  else if kind = 0x09 then 7
  else if kind = 0x12 then 4
  else if kind.toNat < 0x10 then 0
  else 6

/-- Place a record behind those of its cycle that come before it. -/
def insRec (x : Nat × BitVec 8 × List Byte) : List (Nat × BitVec 8 × List Byte) → List (Nat × BitVec 8 × List Byte)
  | [] => [x]
  | y :: r => if x.1 < y.1 then x :: y :: r else y :: insRec x r

/-- The records of the present cycle go into frames, in their order. -/
def Recorder.flush (r : Recorder) (src num : BitVec 8) : Recorder :=
  { r.now.foldl (fun (r : Recorder) x => r.lay r.nowTick src num x.2.1 x.2.2) r with now := [] }

/-- A record of the cycle `tick` (R292). -/
def Recorder.emit (r : Recorder) (tick : W64) (src num kind : BitVec 8) (body : List Byte) : Recorder :=
  if r.frozen then r
  else
    let r1 := if r.nowTick = tick then r else { r.flush src num with nowTick := tick }
    { r1 with now := insRec (recOrder kind body, kind, body) r1.now }

/-- The frames a reader gets, oldest first (R299). -/
def Recorder.all (r : Recorder) (src num : BitVec 8) : List (List Byte) :=
  let x := r.flush src num
  if x.cur = [] then x.frames else x.frames ++ [padFrame x.cur]

/-- FREEZE is written last; of two causes in one cycle the lower code is named (R298). -/
def Recorder.freeze (r : Recorder) (tick : W64) (src num : BitVec 8) (cause : BitVec 8) (value : Nat) : Recorder :=
  let body := cause :: leBytes 4 value
  if r.frozen then
    { r with now := r.now.map fun x =>
        if x.2.1 = 0x09 ∧ r.nowTick = tick ∧ cause.toNat < (x.2.2.getD 0 0).toNat then (x.1, x.2.1, body) else x }
  else { r.emit tick src num 0x09 body with frozen := true }

/-- WHERE (Table 16.2). -/
def State.whereOf (s : State) (t : BitVec 8) (k : BitVec 2) (a : Agent) : Nat :=
  let sl := s.slot t k
  let base := (sl.ctx.getD 0xFF).toNat + 2 ^ 8 * sl.sq.iters.toNat + 2 ^ 16 * (agentCode a).toNat
  match a with
  | .seq =>
    let b := if (s.tile t).inRuntime then (s.tile t).rt else sl.sq.bank
    let pred := (List.range 7).foldl (fun n i => n + 2 ^ i * b2n (b.pr (BitVec.ofNat 3 (i + 1)))) 0
    match (activeLoops b.lstat).getLast? with
    | none => base + 2 ^ 25 * pred
    | some n =>
      let lv := (((s.ctxOf t k).map (·.code.levels)).getD []).findIdx fun l => l.kind == 2 && l.id == n
      base + 2 ^ 19 + 2 ^ 20 * n.toNat + 2 ^ 22 * (lv % 8) + 2 ^ 25 * pred + 2 ^ 32 * (vget n b.lc).toNat
  | _ => base + 2 ^ 48 * (((s.entryOf t k a).map fun e : Entry => e.issue).getD 0).toNat

/-- Whether a record of a filtered class is written (R290). -/
def Tile.captures (t : Tile) (cls : Nat) : Bool :=
  bit t.trctl 0 && bit t.trctl cls &&
  (!bit t.trctl 10 ||
    match t.running with
    | none => false
    | some k => (t.slot k).ranges.any fun l =>
        l &&& BitVec.ofNat 16 (bits t.trctl 47 32) == BitVec.ofNat 16 (bits t.trctl 63 48) &&& BitVec.ofNat 16 (bits t.trctl 47 32))

/-- Write a record of a filtered class to a tile recorder. -/
def State.trace (s : State) (t : BitVec 8) (cls : Nat) (kind : BitVec 8) (body : List Byte) : State :=
  if (s.tile t).captures cls then
    s.modTile t fun x => { x with recorder := x.recorder.emit s.tick 0 t kind body }
  else s

/-- Write a record that is always captured. -/
def State.traceAlways (s : State) (t : BitVec 8) (kind : BitVec 8) (body : List Byte) : State :=
  s.modTile t fun x => { x with recorder := x.recorder.emit s.tick 0 t kind body }

/-- Write a tower record. -/
def State.traceTower (s : State) (t : BitVec 3) (kind : BitVec 8) (body : List Byte) : State :=
  s.modTower t fun x => { x with recorder := x.recorder.emit s.tick 1 (t.setWidth 8) kind body }

/-- Freeze a tile recorder, FROZEN reading 1 (Table 16.1). -/
def State.freezeTile (s : State) (t : BitVec 8) (c : BitVec 8) (v : Nat) : State :=
  s.modTile t fun x => { x with recorder := x.recorder.freeze s.tick 0 t c v }

/-- Freeze a tower recorder. -/
def State.freezeTower (s : State) (t : BitVec 3) (c : BitVec 8) (v : Nat) : State :=
  s.modTower t fun x => { x with recorder := x.recorder.freeze s.tick 1 (t.setWidth 8) c v }

/-- WAIT record kind and id (Table 16.6); none for the waits that write none (R35, R300). -/
def waitKind (o : WaitObj) (col : BitVec 5) : Option (Nat × Nat) :=
  match o with
  | .sem n => some (0, n.toNat)
  | .barrier a _ _ => some (1, bits a 31 0)
  | .pop q => some (2, q.toNat)
  | .push q => some (3, q.toNat)
  | .booking g => some (4, g.toNat)
  | .recall g _ => some (4, g.toNat)
  | .layerFence => some (5, 0)
  | .retire i _ => some (6, i.toNat)
  | .layer _ => some (7, col.toNat)
  | _ => none

/-- The setter of a wait that a fault, a stop or a slice end ended (R300). -/
def noWho : Who := { eng := 0xFF }

/-- The bytes of a setter. -/
def whoBytes (w : Who) : List Byte := [w.chip, w.tile, w.eng] ++ leBytes 2 w.issue.toNat

/-- Write the WAIT record of a wait of 16 c or longer (R300). -/
def State.waitRecord (s : State) (t : BitVec 8) (k : BitVec 2) (a : Agent) (w : Wait) (by_ : Who) : State :=
  match waitKind w.obj (columnOf t) with
  | none => s
  | some (kind, id) =>
    if w.since < 16 then s
    else s.trace t 5 0x05 (leBytes 8 (s.whereOf t k a) ++ leBytes 1 kind ++ leBytes 4 id ++
      leBytes 4 (min w.since (2 ^ 32 - 1)) ++ whoBytes by_)

/-- Whether the watchdog and the probe of an agent count a wait (R35, R39): a WAITI with a time limit and the wait of an
answer from another chip do not make an agent blocked. -/
def WaitObj.counts : WaitObj → Bool
  | .waiti m l => decide (l = 0 ∧ m ≠ 0)
  | .remote _ _ => false
  | .hostPage _ _ => false
  | .moving _ _ => false
  | .xremAck _ _ => false
  | .replica _ => false
  | .lane _ => false
  | .dropping _ => false
  | _ => true

/-- Whether an agent that waits so is blocked in the sense of R35. -/
def WaitObj.blocks : WaitObj → Bool
  | .layer _ => false
  | .pushd => false
  | .xlat _ => false
  | o => o.counts

/-- Whether a unit has begun to act and cannot stop before it ends: its request to another chip is out, or its store is (R236, R245). A
read of a barrier object on another chip has no effect (R330). -/
def Agt.inUnit (g : Agt) : Bool :=
  g.out.isSome || ((g.pend.isSome || !g.got.isEmpty) && !g.wait.any fun w => match w.obj with
    | .barrier _ _ _ => true
    | _ => false)

/-- An agent resumes: its WAIT record is written and its wait ends (R300). -/
def State.endWait (s : State) (t : BitVec 8) (k : BitVec 2) (a : Agent) (by_ : Who) : State :=
  match (s.agt t k a).wait with
  | none => s
  | some w => (s.waitRecord t k a w by_).setAgt t k a { s.agt t k a with wait := none }

/-- What a stopped agent keeps of its wait: what it awaits and its watchdog count. A recall that was waiting starts again (R246), and its
watchdog count with it: Table 13.6 says both that it starts again and that counts pause (DEDUCED, log 117). A barrier object is read
afresh (R330, R433). -/
def Wait.stopped (w : Wait) : Option Wait :=
  let kept : Wait := { w with since := 0, blocked := 0, probe := none }
  match w.obj with
  | .recall _ _ => none
  | .moving _ _ => none
  | .barrier a _ p => some { kept with obj := .barrier a none p }
  | _ => some kept

/-- A stopped agent forgets a read of a barrier object on another chip (R433). -/
def Agt.stopped (g : Agt) : Agt :=
  if g.inUnit then { g with wait := g.wait.bind Wait.stopped }
  else { g with wait := g.wait.bind Wait.stopped, got := [], pend := none, used := 0 }

/-- An agent is stopped: the record is written, probes end, blocked counts restart, the watchdog count pauses (R38,
R246). -/
def State.stopWait (s : State) (t : BitVec 8) (k : BitVec 2) (a : Agent) : State :=
  match (s.agt t k a).wait with
  | none => s
  | some w =>
    let s1 := s.waitRecord t k a w noWho
    s1.setAgt t k a (s1.agt t k a).stopped

/-- Whether the entry that a tower's decode engine runs, or would run next, is one of a tile's slot. -/
def State.decOwn (s : State) (t : BitVec 8) (k : BitVec 2) : Bool :=
  let d := (s.tower (towerOf t)).dec
  (d.cur.or d.q.items.head?).any fun h => h.e.tile == t && some h.e.ctx == (s.slot t k).ctx

/-- The agents of a slot, the decode engine among them where the entry at its front is the slot's. -/
def State.slotAgents (s : State) (t : BitVec 8) (k : BitVec 2) : List Agent :=
  [.seq, .vec, .mat, .xfr] ++ (if s.decOwn t k then [Agent.dec] else [])

/-- Every agent that waits on a tile is stopped: those of the running slot, or the runtime bank's sequencer, whose wait is recorded (R300). -/
def State.stopTile (s : State) (t : BitVec 8) : State :=
  let x := s.tile t
  if x.inRuntime then x.rtAgt.wait.elim s fun w => s.waitRecord t x.tr.slotsel .seq w noWho
  else
    let k := x.running.getD 0
    (s.slotAgents t k).foldl (fun s a => s.stopWait t k a) s

/-- Whether a waiting agent of a slot that stops has stopped where it stands: an engine that is blocked, a sequencer before any
effect (R236, R245). -/
def Agt.stopsAt (g : Agt) (a : Agent) : Bool :=
  !g.inUnit && g.wait.any fun w => a == .seq || w.obj.blocks

/-- The agents of a stopping slot that are blocked stop at once (R236, R245). -/
def State.stopBlocked (s : State) (t : BitVec 8) (k : BitVec 2) : State :=
  (s.slotAgents t k).foldl (fun s a => if (s.agt t k a).stopsAt a then s.stopWait t k a else s) s

/-! ## Causes and FCAUSE (Tables 13.1, 13.2) -/

/-- Cause codes (Table 13.1). -/
def causeCode : Cause → BitVec 8
  | .illegal => 0x01 | .fetchbound => 0x02 | .priv => 0x03 | .align => 0x04 | .segbound => 0x05 | .segname => 0x06
  | .booking => 0x07 | .stacklim => 0x08 | .cap => 0x09 | .xlat1 => 0x0A | .xlat2 => 0x0B | .race => 0x0C
  | .guard => 0x0D | .fold => 0x0E | .maskprog => 0x0F | .accown => 0x10 | .layout => 0x11 | .waitcycle => 0x12
  | .poison => 0x13 | .unreach => 0x14 | .watchdog => 0x15 | .semovf => 0x16 | .barrier => 0x17 | .trapsw => 0x18

/-- FCAUSE at a trap entry, TIP set (R234, R237). -/
def fcauseOf (f : FaultRec) (code : BitVec 8) (slot : BitVec 2) (pend : Bool) : W64 :=
  BitVec.ofNat 64 (2 ^ 63 + 2 ^ 62 * b2n f.rpv + 2 ^ 56 * f.rpi.toNat + 2 ^ 48 * slot.toNat + 2 ^ 32 * f.issue.toNat +
    2 ^ 16 * f.item.toNat + 2 ^ 11 * b2n pend + 2 ^ 8 * f.eng.toNat + code.toNat)

def TrapRegs.tip (r : TrapRegs) : Bool := bit r.fcause 63

/-- EPC: IDLE, SPACE, OFF (Table 13.3). -/
def epcOf (idle space : Bool) (pc : W64) : W64 :=
  BitVec.ofNat 64 (2 ^ 33 * b2n idle + 2 ^ 32 * b2n space + bits pc 31 0)

/-- The handler's address (Table 13.4). -/
def tvecPc (v : W64) : W64 := BitVec.ofNat 64 (4 * bits v 31 2)

/-! ## Fatal errors (R252) -/

/-- The dump header (Table 13.7). -/
def dumpHeader (code : BitVec 8) (p : Partition) (tick fcause : W64) : List Byte :=
  [0x46, 0x44, 0x4D, 0x50, 1, 0, code, p.setup.chip.setWidth 8] ++ leBytes 8 tick.toNat ++
  leBytes 4 (p.setup.tenant.toNat + 2 ^ 16 * p.setup.num.toNat) ++ leBytes 4 p.setup.towers.toNat ++
  leBytes 8 fcause.toNat

/-- Bytes up to a length, zeros behind them. -/
def padTo (n : Nat) (l : List Byte) : List Byte := l ++ List.replicate (n - l.length) 0

/-- The error logs and the fuse map of a tower as the dump holds them: ARRAY and VBUS, each 4 KiB, oldest record first, then the map,
the two counts and zeros (R252, R280, R286). (DESIGN CHOICE, log 18) -/
def Tower.logBytes (x : Tower) : List Byte :=
  let ring (l : ErrLog) : List Byte := padTo 4096 (l.recs.flatMap fun r => leBytes 16 r.toNat)
  ring x.arrayLog ++ ring x.vbusLog ++ leBytes 16 x.fuse.toNat ++ leBytes 4 x.arrayLog.count.toNat ++ leBytes 4 x.vbusLog.count.toNat ++
    leBytes 8 0

/-- The host command of an OP (Table 14.7). -/
def hostEvent (op : BitVec 8) (c : HostCmd) : Instr :=
  match op.toNat with
  | 1 => .load c
  | 2 => .launch c
  | 3 => .segput c
  | 4 => .segget c
  | 5 => .kvput c
  | 6 => .status c
  | 7 => if c.flags.getLsbD 1 then .attestOpen c else .attest c
  | _ => .resetpart c

/-- Stop the partition: every tile stops, its waits recorded (R300), every recorder freezes, the fatal cause is kept (R252), and the
commands that it had stalled are looked at again, which then answer STATE (R275). -/
def State.fatalStop (s : State) (p : Partition) (code : BitVec 8) (fcause : W64) : State :=
  if p.fatal.isSome then s else
  let s1 := p.tiles.foldl (fun s t => ((s.stopTile t).modTile t fun x => { x with up := false, running := none }).freezeTile t 5 code.toNat) s
  let s2 := (allTowers.filter fun t => p.setup.towers.getLsbD t.toNat).foldl (fun s t => s.freezeTower t 5 code.toNat) s1
  let logs := (allTowers.filter fun t => p.setup.towers.getLsbD t.toNat).flatMap fun t => (s.tower t).logBytes
  let s3 := s2.modPart p.setup.num fun q => { q with fatal := some (code, s.tick, fcause), logDump := logs, stalledCmds := [] }
  { s3 with agenda := s3.agenda ++ p.stalledCmds.map fun c => Turn.event (hostEvent c.1 c.2) }

def State.fatalTile (s : State) (t : BitVec 8) (code : BitVec 8) (fcause : W64) : State :=
  match s.partOf t with
  | some p => s.fatalStop p code fcause
  | none => s.modTile t fun x => { x with up := false }

/-! ## Taking an exception (R237) -/

/-- A bank that stops inside a repeat keeps RPTV and RPTI (R58, R245). -/
def Bank.stopRpt (b : Bank) : Bank :=
  match b.rpt with
  | none => b
  | some r => { b with rpt := none, lstat := setBits (setBit b.lstat 32 true) 45 40 r.i.toNat }

/-- Accumulator tiles without the earlier rows that a test picks (R62), in canonical form. -/
def dropPrior (p : Prior → Bool) (l : List (Nat × AccTile)) : List (Nat × AccTile) :=
  (l.map fun a => (a.1, { a.2 with prior := a.2.prior.filter fun x => !p x.2 })).filter fun a => a.2 ≠ AccTile.reset

/-- WHERE of a FAULT record (Table 16.2): the sequencer's, or the engine code and issue number that FCAUSE holds. -/
def State.whereFault (s : State) (t : BitVec 8) (k : BitVec 2) (f : FaultRec) : Nat :=
  if f.eng = 0 then s.whereOf t k .seq
  else
    let sl := s.slot t k
    (sl.ctx.getD 0xFF).toNat + 2 ^ 8 * sl.sq.iters.toNat + 2 ^ 16 * f.eng.toNat + 2 ^ 48 * f.issue.toNat

/-- Trap entry (R237) of tile t with the given CAUSE code, record and FCAUSE.SLOT. TIP = 1 makes it a double fault, which
is fatal (R252). Otherwise FCAUSE, FVAL, FINFO and EPC are written, TIP is set, SLOTSEL takes SLOT (R396), PRIV becomes S,
and the sequencer fetches from TVEC in the runtime bank. EPC.SPACE is 1 where the runtime's own code was running. A press step that was
blocked begins anew on resumption: it samples its layers again (R138, R246). -/
def State.trapEntry (s : State) (t : BitVec 8) (code : BitVec 8) (f : FaultRec) (slot : BitVec 2) (pend idle : Bool) :
    State :=
  let x := s.tile t
  let k := x.running.getD 0
  let pc := if x.inRuntime then x.rt.pc else (x.slot k).sq.bank.pc
  let fc := fcauseOf f code slot pend
  if x.tr.tip then s.fatalTile t 1 x.tr.fcause
  else
    let epc := epcOf idle x.inRuntime (if idle then 0 else pc)
    let s0 := s.traceAlways t 0x07 (leBytes 8 (s.whereFault t k f) ++ leBytes 8 fc.toNat ++
      leBytes 4 epc.toNat)
    let s1 := if x.inRuntime then s0.stopTile t
      else (s0.stopTile t).modSlot t k fun z => { z with
        sq := { z.sq with bank := z.sq.bank.stopRpt }
        ps := { z.ps with held := [], drain := none }
        mat := { z.mat with agt := { z.mat.agt with layers := none } }
        xfr := { z.xfr with xs := { z.xfr.xs with ahead := [], rows := [] } } }
    s1.modTile t fun y => { y with
      acc := dropPrior (fun _ => true) y.acc
      tr := { y.tr with fcause := fc, fval := f.fval, finfo := f.finfo, epc := epc, slotsel := slot }
      priv := .s
      inRuntime := true
      rt := { y.rt.stopRpt with pc := tvecPc y.tr.tvec }
      rtAgt := {} }

/-- Whether every agent of a slot stands at a boundary (R236): all do between turns, but for one whose request to another chip, row or
store is out and not acknowledged yet (R172, R189, R245, R254). -/
def Slot.atBoundary (k : Slot) : Bool :=
  k.xfr.xs.sent.isNone && !([k.sq.agt, k.vec.agt, k.mat.agt, k.xfr.agt].any Agt.inUnit)

/-- Two entries with CAUSE 0x00 that are due together are one (R297). -/
def Stopping.join (a b : Option Stopping) : Option Stopping :=
  match a, b with
  | none, y => y
  | x, none => x
  | some x, some y => some { landed := x.landed || y.landed, ring := x.ring || y.ring, done := x.done || y.done }

/-- FINFO of an entry with CAUSE 0x00 (Table 13.1). -/
def Stopping.finfo (p : Stopping) : W64 := BitVec.ofNat 64 (b2n p.done + 2 * b2n p.landed + 4 * b2n p.ring)

/-- What the running slot was stopping for is held (R249). -/
def State.holdStop (s : State) (t : BitVec 8) (k : BitVec 2) : State :=
  (s.modSlot t k fun y => { y with held := Stopping.join y.held (s.tile t).stopping }).modTile t fun y => { y with stopping := none }

/-- The running slot of a tile begins to stop, or has one more reason to (R245, R296, R258, R44): its blocked agents stop at once. -/
def State.beginStop (s : State) (t : BitVec 8) (f : Stopping → Stopping) : State :=
  let s1 := s.modTile t fun y => { y with stopping := some (f (y.stopping.getD {})) }
  match (s.tile t).running with
  | some k => if (s.tile t).stopping.isSome then s1 else s1.stopBlocked t k
  | none => s1

/-- Deliver the oldest fault of the running slot, once the slot has stopped (R236, R237); until then its blocked agents have stopped.
(DEDUCED, log 28) -/
def State.deliver (s : State) (t : BitVec 8) : State :=
  let x := s.tile t
  match x.running with
  | none => s
  | some k =>
    match (x.slot k).faults with
    | [] => s
    | f :: r =>
      if x.inRuntime then s
      else if !(x.slot k).atBoundary then s.stopBlocked t k
      else ((s.modSlot t k fun y => { y with faults := r }).holdStop t k).trapEntry t (causeCode f.cause) f k (!r.isEmpty)
        (!(x.slot k).sq.hasIter)

/-- The place of an agent among those that fault in one cycle, by FCAUSE.ENG: sequencer, vector engine, press, transfer unit, decode
engine (R236). -/
def engRank (e : BitVec 3) : Nat := [0, 1, 3, 4, 2].getD e.toNat 5

/-- Place a fault behind those raised before it: those of earlier cycles, and those of its own cycle that come first (R236). -/
def insFault (f : FaultRec) : List FaultRec → List FaultRec
  | [] => [f]
  | y :: r => if y.tick = f.tick ∧ engRank f.eng < engRank y.eng then f :: y :: r else y :: insFault f r

/-- A fault of an agent of a slot, kept in the order raised (R236); one of the transfer unit has stopped its entry (R188). -/
def State.keepFault (s : State) (t : BitVec 8) (k : BitVec 2) (f : FaultRec) : State :=
  s.modSlot t k fun y => { y with
    faults := insFault { f with tick := s.tick } y.faults
    xfr := { y.xfr with halted := y.xfr.halted || f.eng == 2 } }

/-- Raise a fault of an agent of a slot (R236): it is kept, and delivered at once where the slot has stopped. -/
def State.raise (s : State) (t : BitVec 8) (k : BitVec 2) (f : FaultRec) : State := (s.keepFault t k f).deliver t

/-- Raise a fault of the moving sequencer. In the runtime bank it is an entry from the runtime's own code (R237); in M-mode
firmware it is fatal (R252). -/
def State.raiseSeq (s : State) (c : Cause) (fval finfo : W64) : State :=
  let f : FaultRec := { eng := 0, cause := c, fval := fval, finfo := finfo }
  if (s.tile s.cur).priv = .m then s.fatalTile s.cur 3 0
  else if s.inRt then s.trapEntry s.cur (causeCode c) f s.curSlot (!(s.slot s.cur s.curSlot).faults.isEmpty) false
  else s.raise s.cur s.curSlot f

/-! ## What a unit of an agent can do -/

/-- How a unit ends without completing. -/
inductive Stop where
  /-- it faults: cause, FVAL, FINFO, and an item other than the unit's own (R178, R436) -/
  | fault (c : Cause) (fval finfo : W64) (item : Option (BitVec 16))
  /-- it waits, with no effect of its own -/
  | wait (o : WaitObj)
  /-- its context has ended meanwhile (R260); nothing more happens -/
  | gone
  deriving DecidableEq, Repr, Inhabited

/-- A unit's computation: a state change that can fault or wait. What it changed before that stays (R8). -/
abbrev M := EStateM Stop State

/-- Fault(cause) (R8). -/
def fault (c : Cause) (fval finfo : W64) : M α := throw (.fault c fval finfo none)

def waitFor (o : WaitObj) : M α := throw (.wait o)

/-- Fault where a condition holds. -/
def faultIf (p : Prop) [Decidable p] (c : Cause) (fval finfo : W64) : M Unit := if p then fault c fval finfo else pure ()

/-- Run over a list, left to right. -/
def forM' (l : List α) (f : α → M Unit) : M Unit :=
  match l with
  | [] => pure ()
  | a :: r => do f a; forM' r f

/-- Map over a list, left to right. -/
def mapM' (l : List α) (f : α → M β) : M (List β) :=
  match l with
  | [] => pure []
  | a :: r => do
    let b ← f a
    let bs ← mapM' r f
    pure (b :: bs)

def modS (f : State → State) : M Unit := modify f

/-! ## Return from an exception (R241, R246, R249) -/

/-- The parked DEC entries of a slot return to the tower decode queue, in order (R248). They return whatever the queue holds:
no rule asks for room. (DESIGN CHOICE, log 86) -/
def State.unpark (s : State) (t : BitVec 8) (k : BitVec 2) : State :=
  let c := (s.slot t k).ctx
  let mine (d : DecEntry) : Bool := d.e.tile == t && some d.e.ctx == c
  s.modTower (towerOf t) fun w => { w with dec := { w.dec with
    q := { w.dec.q with items := w.dec.q.items ++ w.dec.parked.filter mine }
    parked := w.dec.parked.filter fun d => !mine d } }

/-- Free a slot, keeping what belongs to the slot as such: QUOTA and STKLIM.LIMIT (R97, R395). -/
def Slot.freed (k : Slot) : Slot :=
  { Slot.reset with mem := { MemSide.reset with quota := k.mem.quota, stkLimit := k.mem.stkLimit }, vtime := k.vtime }

/-- ITER record (R294). -/
def State.iterRecord (s : State) (t : BitVec 8) (k : BitVec 2) : State :=
  let b := (s.slot t k).sq.bank
  s.trace t 3 0x03 (leBytes 8 (s.whereOf t k .seq) ++ leBytes 4 (bits (b.gr 8) 31 0) ++ leBytes 4 (bits (b.gr 9) 31 0))

/-- An iteration that was handed to the slot starts now (R42): it is counted, and its ITER record is written.
(DEDUCED, log 74) -/
def State.startIter (s : State) (t : BitVec 8) (k : BitVec 2) : State :=
  if (s.slot t k).sq.pending then
    (s.modSlot t k fun x => { x with sq := { x.sq with pending := false, iters := x.sq.iters + 1 } }).iterRecord t k
  else s

/-- The completion entry of a slot: the slot holds no context any more (R245). With its last slot the context goes. -/
def State.closeSlot (s : State) (t : BitVec 8) (k : BitVec 2) : State :=
  match (s.slot t k).ctx with
  | none => s
  | some c =>
    let s1 := s.modTile t fun x =>
      { (x.setSlot k (x.slot k).freed) with acc := x.acc.filter fun a => a.2.owner ≠ c }
    let left := (s.ctxById c).any fun cx => cx.tiles.any fun u => (s1.slot u cx.slot).ctx == some c
    if left then s1
    else
      let s2 := allTowers.foldl (fun s w => s.modTower w fun x => { x with
        dctx := x.dctx.filter fun d => d.ctx ≠ c
        wrr := x.wrr.filter fun p => p.1 ≠ c }) s1
      { s2 with ctxs := s2.ctxs.filter fun x => x.id ≠ c }

/-- The entry that the scrubber makes once TIP is 0: POISON, ENG 7, the slot whose context it ended (R249, R250). -/
def State.scrubEntry (s : State) (t : BitVec 8) (idle : Bool) : State :=
  match (s.tile t).scrub with
  | [] => s
  | (c, fval, finfo) :: r =>
    (s.modTile t fun x => { x with scrub := r }).trapEntry t (causeCode .poison)
      { eng := 7, cause := .poison, fval := fval, finfo := finfo } c false idle

/-- The scrubber's entry is made at once where TIP is 0 and the tile stands at a boundary, else when it next does (R249). What the
running slot was stopping for is held. -/
def State.scrubNow (s : State) (t : BitVec 8) : State :=
  let x := s.tile t
  let k := x.running.getD 0
  if x.up = false ∨ x.tr.tip = true ∨ x.scrub.isEmpty = true then s
  else if x.inRuntime then s.scrubEntry t false
  else if x.running.isSome && !(x.slot k).atBoundary then s.stopBlocked t k
  else (s.holdStop t k).scrubEntry t (!(x.slot k).sq.hasIter)

/-- Resume slot k of the moving tile from its saved state: PRIV ← U, TIP ← 0, the slice count loaded. A held fault is
delivered before anything runs (R236), then a held entry with CAUSE 0x00 (R249). -/
def State.resume (s : State) (k : BitVec 2) : State :=
  let t := s.cur
  let s1 := (s.unpark t k).modTile t fun x => { x with
    tr := { x.tr with fcause := setBit x.tr.fcause 63 false }
    priv := .u
    running := some k
    inRuntime := false
    sliceLeft := x.tr.slice.toNat
    stopping := none }
  let y := s1.slot t k
  if !y.faults.isEmpty then s1.deliver t
  else match y.held with
    | some p =>
      let s2 := (s1.modSlot t k fun z => { z with held := none }).trapEntry t 0 { eng := 0, cause := .illegal, finfo := p.finfo }
        k false (p.done || !y.sq.hasIter)
      if p.done then s2.closeSlot t k else s2
    | none =>
      if (s1.tile t).scrub.isEmpty then s1.startIter t k
      else s1.scrubEntry t (!y.sq.hasIter)

end Sys2Proof.Machine
end

