-- ==== Sys2Proof/Machine/Mem.lean ====
section
/-! DEFINITION. Segments: pointers and their checks (R93, R94), race detection (R191 to R194), the porter (R97 to R103),
reads and writes of segments by any agent (R323). -/

namespace Sys2Proof.Machine

/-- An agent in its slot. -/
structure Me where
  tile : BitVec 8
  slot : BitVec 2
  agent : Agent
  deriving DecidableEq, Repr, Inhabited

/-- The moving sequencer, and the moving tile's engines. -/
def State.seqMe (s : State) : Me := ⟨s.cur, s.seqSlot, .seq⟩

def State.engMe (s : State) (a : Agent) : Me := ⟨s.cur, s.curSlot, a⟩

def State.who (s : State) (me : Me) : Who := s.whoIs me.tile me.slot me.agent

/-- The agent state of an agent, the runtime bank's sequencer included. -/
def State.myAgt (s : State) (me : Me) : Agt :=
  if me.agent = .seq ∧ (s.tile me.tile).inRuntime = true then (s.tile me.tile).rtAgt else s.agt me.tile me.slot me.agent

def State.setMyAgt (s : State) (me : Me) (a : Agt) : State :=
  if me.agent = .seq ∧ (s.tile me.tile).inRuntime = true then s.modTile me.tile fun t => { t with rtAgt := a }
  else s.setAgt me.tile me.slot me.agent a

/-! ## Pointers (Table 5.1) -/

def ptrSeg (p : W64) : BitVec 12 := BitVec.ofNat 12 (p.toNat / 2 ^ 52)
def ptrOff (p : W64) : Nat := p.toNat % 2 ^ 23
def ptrMid (p : W64) : Nat := bits p 51 23

/-- The pointer to an offset of a segment. -/
def segPtr (n : BitVec 12) (off : Nat) : W64 := BitVec.ofNat 64 (n.toNat * 2 ^ 52 + off)

/-! ## Finding a segment (R94, R95) -/

def Slot.seg (k : Slot) (n : BitVec 12) : Option Segment := k.mem.segs.find? (·.num == n)

/-- Replace a segment of a list. -/
def modSegs (l : List Segment) (n : BitVec 12) (f : Segment → Segment) : List Segment :=
  l.map fun g => if g.num == n then f g else g

def State.modSeg (s : State) (t : BitVec 8) (k : BitVec 2) (n : BitVec 12) (f : Segment → Segment) : State :=
  s.modSlot t k fun x => { x with mem := { x.mem with segs := modSegs x.mem.segs n f } }

/-- The segment of a number as the agent's tile sees it: its own instance first, else the one homed on another tile of
the context (R94 check 2, R96). -/
def State.findSeg (s : State) (me : Me) (n : BitVec 12) : Option (BitVec 8 × BitVec 2 × Segment) :=
  match (s.slot me.tile me.slot).ctx with
  | none => none
  | some c =>
    match (s.slot me.tile me.slot).seg n with
    | some g => some (me.tile, me.slot, g)
    | none =>
      match s.ctxById c with
      | none => none
      | some cx => cx.tiles.findSome? fun t =>
          if t = me.tile then none
          else if towerOf t ≠ towerOf me.tile then none
          else match (s.slot t cx.slot).seg n with
            | some g => if g.shared then some (t, cx.slot, g) else none
            | none => none

/-- Checks 1 to 4 of R94 for n bytes; align = 0 asks no alignment. (DEDUCED, log 49) -/
def segCheck (me : Me) (p : W64) (n align : Nat) : M (SegRef × Segment) := do
  faultIf (ptrMid p ≠ 0) .segbound p 0
  match (← get).findSeg me (ptrSeg p) with
  | none => fault .segname p 0
  | some (t, k, g) =>
    faultIf (g.size < ptrOff p + n) .segbound p 0
    faultIf (align ≠ 0 ∧ ptrOff p % align ≠ 0) .align p 0
    pure (⟨t, k, g.num, ptrOff p⟩, g)

/-! ## Race detection (R192 to R194) -/

/-- VIEW entry of a tile. -/
def Race.viewOf (r : Race) (t : BitVec 8) : Nat := look 0 r.view t.toNat

/-- A record conflicts with an access by tile t (R193). -/
def Race.conflicts (r : Race) (t : BitVec 8) (x : Option Clk) : Option Clk :=
  match x with
  | none => none
  | some c => if c.tile ≠ t ∧ r.viewOf c.tile < c.clock then some c else none

def lookO (l : List (Nat × α)) (n : Nat) : Option α :=
  match l with
  | [] => none
  | (k, v) :: r => if n = k then some v else lookO r n

/-- The first conflict over the granules an access touches: the record, and whether it was a read. -/
def raceFind (r : Race) (m : Store) (t : BitVec 8) (write : Bool) : List Nat → Option (Clk × Bool)
  | [] => none
  | u :: us =>
    match r.conflicts t (lookO m.lw u) with
    | some c => some (c, false)
    | none =>
      match (if write then r.conflicts t (lookO m.lr u) else none) with
      | some c => some (c, true)
      | none => raceFind r m t write us

/-- Record an access at its granules (R193). -/
def raceRecord (r : Race) (m : Store) (t : BitVec 8) (write : Bool) (us : List Nat) : Store :=
  if write then { m with lw := us.foldl (fun l u => put1 l u ⟨t, r.clk⟩) m.lw, lr := us.foldl drop1 m.lr }
  else { m with lr := us.foldl (fun l u => put1 l u ⟨t, r.clk⟩) m.lr }

/-- Whether the agent's accesses are checked now: EN is set and no sweep runs (R194, Table 10.3). -/
def State.raceOn (s : State) (me : Me) : Bool :=
  (s.slot me.tile me.slot).race.en && !((s.ctxOf me.tile me.slot).any (·.sweeping))

/-- A saturating count. -/
def satInc (x : BitVec w) : BitVec w := if x = BitVec.allOnes w then x else x + 1

/-- During a sweep each checked access adds 1 to SUPP (R194). A unit that waits counts when it is run again (backSupp). -/
def State.raceSupp (s : State) (me : Me) : State :=
  if (s.ctxOf me.tile me.slot).any (·.sweeping) then
    s.modSlot me.tile me.slot fun x => { x with race := { x.race with supp := satInc x.race.supp } }
  else s

/-- FVAL of RACE (R193). -/
def raceFval (c : Clk) (read : Bool) : W64 := BitVec.ofNat 64 (c.tile.toNat + 2 ^ 8 * (c.clock % 2 ^ 24) + 2 ^ 32 * b2n read)

/-- FAULT RACE where a range of an access conflicts. -/
def raceRange (me : Me) (m : Store) (addr : W64) (a n : Nat) (write : Bool) : M Unit := do
  match raceFind ((← get).slot me.tile me.slot).race m me.tile write (unitsOf 64 a n) with
  | some (c, rd) => fault .race (raceFval c rd) addr
  | none => pure ()

/-- The race check of an access: RACE before it takes effect. -/
def raceCheck (me : Me) (m : Store) (addr : W64) (a n : Nat) (write : Bool) : M Unit := do
  let s ← get
  if s.raceOn me then raceRange me m addr a n write
  else set (s.raceSupp me)

/-- A clock that would pass 2^24 − 1 starts a sweep of the context: clocks, views and records are reset, and until it
ends accesses are neither checked nor recorded (R194). The snapshots stay. No rule says which granules of global memory are the
context's: the records of every tower of the partition are emptied, also those that its other contexts made (DESIGN CHOICE, log 111). -/
def State.raceSweep (s : State) (c : BitVec 8) : State :=
  match s.ctxById c with
  | none => s
  | some cx =>
    let clr (m : Store) : Store := { m with lw := [], lr := [] }
    let s1 := cx.tiles.foldl (fun s t => s.modSlot t cx.slot fun x => { x with
      race := { x.race with clk := 1, view := [] }
      mem := { x.mem with segs := x.mem.segs.map fun g => { g with store := clr g.store } } }) s
    let tw := allTowers.filter fun t => (s.partByNum cx.part).any fun p => p.setup.towers.getLsbD t.toNat
    (tw.foldl (fun s t => s.modTower t fun x => { x with gddr := clr x.gddr }) s1).modCtx c fun x => { x with sweeping := true }

/-- What an engine has written to the accumulator store is ordered before its release: no other engine may still read the
rows as they were (R62). -/
def State.settle (s : State) (me : Me) : State :=
  if me.agent = .seq then s
  else s.modTile me.tile fun t => { t with acc := dropPrior (fun p => p.writer == me.agent) t.acc }

/-- The key of an agent of a tile in what is known (R182). -/
def agentKey (t : BitVec 8) (a : Agent) : Nat := 256 * t.toNat + (agentCode a).toNat

/-- What happens before the present point of an agent (R182, R183). -/
def State.knowsOf (s : State) (me : Me) : Knows := look [] (s.slot me.tile me.slot).knows (agentOrd me.agent)

/-- What a release of an agent gives (R182): what it knows, and its own accesses up to this turn. -/
def State.snap (s : State) (me : Me) : Knows := put1 (s.knowsOf me) (agentKey me.tile me.agent) (s.moves + 1)

/-- Whether a write happens before the present point of an agent (R182, R183): it is its own, or known to it. The orders that fences make
(R186) and those that other chips make are not followed. (DEDUCED, log 29) -/
def State.ordered (s : State) (me : Me) (w : Who) : Bool :=
  let own := s.who me
  w.chip == own.chip && ((w.tile == own.tile && w.eng == own.eng) ||
    decide (w.stamp < look 0 (s.knowsOf me) (256 * w.tile.toNat + w.eng.toNat)))

/-- A release by an agent of a tile (R192): a snapshot tagged with the clock, then the clock advances. Answers the tag. -/
def State.release (s0 : State) (me : Me) : Clk × State :=
  let s := s0.settle me
  let r := (s.slot me.tile me.slot).race
  let snap := put1 r.view me.tile.toNat r.clk
  let s1 := s.modSlot me.tile me.slot fun x => { x with race := { x.race with
    hist := ((r.clk, snap, s.snap me) :: r.hist).take 16
    clk := r.clk + 1 } }
  let s2 := if r.clk + 1 ≤ 2 ^ 24 - 1 then s1
    else match (s.slot me.tile me.slot).ctx with
      | some c => s1.raceSweep c
      | none => s1
  (⟨me.tile, r.clk⟩, s2)

/-- The release of an agent where no other tile can observe the tag. -/
def State.releaseOnly (s : State) (me : Me) : State := (s.release me).2

/-- Element-wise maximum of views. -/
def joinView (a b : List (Nat × Nat)) : List (Nat × Nat) :=
  b.foldl (fun l x => put1 l x.1 (max (look 0 l x.1) x.2)) a

/-- An agent of a slot has acquired what a release gave (R182). -/
def Slot.learn (k : Slot) (a : Agent) (n : Knows) : Slot :=
  { k with knows := put1 k.knows (agentOrd a) (joinView (look [] k.knows (agentOrd a)) n) }

/-- An acquire of a tag (R192): the snapshot, or the oldest held with WIDEN + 1; a tile's own view is not widened by its own tags. The tag
names a tile and a clock and no context: its snapshot is looked up in the history of the acquirer's own context there, also where
another context of the partition released it (DESIGN CHOICE, log 112). -/
def State.acquire1 (s : State) (me : Me) (c : Clk) : State :=
  match (s.slot me.tile me.slot).ctx.bind fun x => (s.tile c.tile).slotOfCtx x with
  | none => s
  | some k =>
    let h := (s.slot c.tile k).race.hist
    let view (x : Slot) (v : List (Nat × Nat)) (w : BitVec 24) : Slot :=
      if c.tile = me.tile then x else { x with race := { x.race with view := joinView x.race.view v, widen := w } }
    match lookO h c.clock with
    | some v => s.modSlot me.tile me.slot fun x => (view x v.1 x.race.widen).learn me.agent v.2
    | none => s.modSlot me.tile me.slot fun x => view x ((h.getLast?.map (·.2.1)).getD []) (satInc x.race.widen)

def State.acquire (s : State) (me : Me) (cs : List Clk) : State := cs.foldl (fun s c => s.acquire1 me c) s

/-- Whether a later tag says all that an earlier one does: it is of the same tile and kind. -/
def Tag.over (t x : Tag) : Bool := t.chip == x.chip && t.clk.tile == x.clk.tile && t.amo == x.amo

/-- Add a release tag to a location: of one tile the latest stays, and of arrivals also the latest that is observed. -/
def addTag (l : List Tag) (c : Tag) : List Tag := c :: l.filter fun x => !(c.over x && (c.seen || !x.seen))

/-- The tags of a kind that an acquire observes from now on: those of `amo` operations once one writes, those of arrivals once PHASE
flips (R182). The latest come first. -/
def showTags (amo : Bool) (l : List Tag) : List Tag :=
  (l.map fun t => if t.amo = amo then { t with seen := true } else t).foldr (fun t r => t :: r.filter fun x => !(t.over x && t.seen && x.seen)) []

/-- The tags of a kind that an acquire by a tile of a chip observes: views have an entry for each tile of the chip (R191). -/
def seenTags (amo : Bool) (chip : BitVec 3) (l : List Tag) : List Clk := (l.filter fun t => t.amo == amo && t.seen && t.chip == chip).map (·.clk)

/-! ## Quota and frames (R97, R98, R101) -/

def Slot.isBooked (k : Slot) (n : BitVec 12) : Bool := k.mem.bookings.any fun b => b.segs.contains n

/-- Bytes of resident segments; STACK is never counted (R96). -/
def Slot.res (k : Slot) : Nat :=
  k.mem.segs.foldl (fun a g => if g.num ≠ 0 ∧ g.state = .resident then a + g.size else a) 0

/-- Bytes of resident segments that are booked or pinned (Table 5.4). -/
def Slot.fixed (k : Slot) : Nat :=
  k.mem.segs.foldl (fun a g =>
    if g.num ≠ 0 ∧ g.state = .resident ∧ (g.pin = true ∨ k.isBooked g.num = true) then a + g.size else a) 0

/-- Bytes on their way into the store. -/
def Slot.incoming (k : Slot) : Nat :=
  k.mem.segs.foldl (fun a g => match g.state with
    | .recalling _ => a + g.size
    | _ => a) 0

/-- Pushable (R98). -/
def Slot.pushable (k : Slot) (g : Segment) : Bool :=
  g.num != 0 && g.state == .resident && !g.pin && !k.isBooked g.num

/-- Frames of a segment. -/
def frames (size : Nat) : Nat := (size + 1023) / 1024

/-- The frame runs in use on a tile: start and length. -/
def Tile.usedRuns (t : Tile) : List (Nat × Nat) :=
  t.slots.toList.flatMap fun k => k.mem.segs.filterMap fun g => match g.state with
    | .resident => some (g.frame, frames g.size)
    | .pushing _ => some (g.frame, frames g.size)
    | _ => none

/-- The lowest frame that starts a free run of n frames (R101). -/
def firstFit (used : List (Nat × Nat)) (n : Nat) : Option Nat :=
  let ok (f : Nat) : Bool := f + n ≤ 8192 && used.all fun u => f + n ≤ u.1 || u.1 + u.2 ≤ f
  ((0 :: used.map fun u => u.1 + u.2).filter ok).foldl (fun m f => match m with
    | none => some f
    | some x => some (min x f)) none

/-- The least recently touched, lower numbers first (R98). -/
def leastTouched (l : List Segment) : Option Segment :=
  l.foldl (fun m g => match m with
    | none => some g
    | some x => if g.touch < x.touch ∨ (g.touch = x.touch ∧ g.num.toNat < x.num.toNat) then some g else some x) none

/-- PORTER record and counter (R107, R294). -/
def State.porterEvent (s : State) (t : BitVec 8) (k : BitVec 2) (n : BitVec 12) (size ev : Nat) (ctr : Fin 6) : State :=
  let s1 := s.modSlot t k fun x => { x with mem := { x.mem with
    porter := x.mem.porter.set ctr (x.mem.porter[ctr] + 1) } }
  s1.trace t 6 0x06 ([((s.slot t k).ctx).getD 0xFF] ++ leBytes 2 n.toNat ++ leBytes 1 ev ++ leBytes 4 size)

/-! ## The pool (R99) -/

/-- Bytes held in a tower's pool; those being pushed out of it count until they have left. -/
def State.poolUse (s : State) (w : BitVec 3) (leaving : Bool) : Nat :=
  (tilesOf w).foldl (fun a t => (s.tile t).slots.toList.foldl (fun a k => k.mem.segs.foldl (fun a g => match g.state with
    | .pool => a + g.size
    | .recalling true => a + g.size
    | .pushing true => a + g.size
    | .spilling => if leaving then a + g.size else a
    | _ => a) a) a) 0

/-- The least recently touched segment in the pool of a tower (R99). -/
def State.poolVictim (s : State) (w : BitVec 3) : Option (BitVec 8 × BitVec 2 × Segment) :=
  (tilesOf w).foldl (fun m t => allSlots.foldl (fun m k => (s.slot t k).mem.segs.foldl (fun m g =>
    if g.state = .pool then
      match m with
      | none => some (t, k, g)
      | some (t0, k0, g0) =>
        if g.touch < g0.touch ∨ (g.touch = g0.touch ∧ t0 = t ∧ k0 = k ∧ g.num.toNat < g0.num.toNat)
        then some (t, k, g) else m
    else m) m) m) none

/-- Make room for z bytes in the pool; `now` moves at once (launch creation), else a move begins. Answers whether the
segment can enter the pool. -/
def State.poolRoom (s : State) (w : BitVec 3) (z : Nat) (now : Bool) : Nat → Bool × State
  | 0 => (false, s)
  | f + 1 =>
    if s.poolUse w false + z ≤ (s.tower w).poolCap then (true, s)
    else match s.poolVictim w with
      | none => (false, s)
      | some (t, k, g) =>
        let s1 := s.modSeg t k g.num fun x => { x with state := if now then .backed else .spilling }
        (s1.porterEvent t k g.num g.size 2 2).poolRoom w z now f

/-- Push one segment one tier outward (R99). -/
def State.push1 (s : State) (t : BitVec 8) (k : BitVec 2) (g : Segment) (now : Bool) : State :=
  let (fits, s1) := s.poolRoom (towerOf t) g.size now 65536
  let st : SegState := if now then (if fits then .pool else .backed) else .pushing fits
  (s1.modSeg t k g.num fun x => { x with state := st, frame := if now then 0 else x.frame }).porterEvent t k g.num g.size 2 2

/-- Push pushable segments, the least recently touched first, until RES and what is coming in plus z fit QUOTA (R98). -/
def State.pushToFit (s : State) (t : BitVec 8) (k : BitVec 2) (z : Nat) (now : Bool) : Nat → State
  | 0 => s
  | f + 1 =>
    let x := s.slot t k
    if x.res + x.incoming + z ≤ x.mem.quota.toNat then s
    else match leastTouched (x.mem.segs.filter x.pushable) with
      | none => s
      | some g => (s.push1 t k g now).pushToFit t k z now f

/-- The least recently touched pushable segment of any context on a tile (R101). -/
def Tile.victim (t : Tile) : Option (BitVec 2 × Segment) :=
  allSlots.foldl (fun m k => (t.slot k).mem.segs.foldl (fun m g =>
    if (t.slot k).pushable g then
      match m with
      | none => some (k, g)
      | some (_, g0) =>
        if g.touch < g0.touch ∨ (g.touch = g0.touch ∧ g.num.toNat < g0.num.toNat) then some (k, g) else m
    else m) m) none

/-! ## Absent segments (R100) -/

/-- Whether some unretired entry holds a booked byte. -/
def Slot.anyBooked (k : Slot) : Bool := k.mem.bookings.any fun b => !b.segs.isEmpty

/-- SUPP of a slot as it was: a unit that waits has counted nothing (R194). -/
def State.backSupp (s : State) (t : BitVec 8) (k : BitVec 2) (n : BitVec 24) : State :=
  if (s.slot t k).race.supp = n then s else s.modSlot t k fun x => { x with race := { x.race with supp := n } }

/-- Begin the recall of an absent segment, pushing as R98 requires. -/
def State.startRecall (s : State) (t : BitVec 8) (k : BitVec 2) (g : Segment) : State :=
  let s1 := s.pushToFit t k g.size false 4096
  s1.modSeg t k g.num fun x => { x with state := .recalling (g.state == .pool) }

/-- The absence of a segment, counted once for an access however often it restarts before the segment has been recalled (R100, R107). -/
def State.countAbsent (s : State) (me : Option Me) (t : BitVec 8) (k : BitVec 2) (g : Segment) : State :=
  match me with
  | none => s.porterEvent t k g.num g.size 0 0
  | some m =>
    if (s.myAgt m).absent = some (t, g.num, true) then s
    else
      let s1 := s.porterEvent t k g.num g.size 0 0
      s1.setMyAgt m { s1.myAgt m with absent := some (t, g.num, true) }

/-- Residency of a segment that passed R94: proceed, or stall on a move, or take the restartable fault of R100. `me` is the
agent that makes the access, none for a request of another chip. -/
def resident (me : Option Me) (t : BitVec 8) (k : BitVec 2) (g : Segment) : M Unit := do
  match g.state with
  | .resident => pure ()
  | .recalling _ => waitFor (.moving g.num t)
  | .pushing _ => waitFor (.moving g.num t)
  | .spilling => waitFor (.moving g.num t)
  | _ =>
    let x := (← get).slot t k
    let fits := decide (x.fixed + g.size ≤ x.mem.quota.toNat)
    if fits || me.isSome || !x.anyBooked then modS fun s => s.countAbsent me t k g
    if fits then
      modS fun s => s.startRecall t k g
      waitFor (.moving g.num t)
    else if x.anyBooked then waitFor (.recall g.num t)
    else fault .booking (BitVec.ofNat 64 g.size) 0

/-- A touch (R98). Accesses of different turns are ordered by the count of turns, also within one TICK: only touches of one turn are ties for
R98, R99 and R101 (DESIGN CHOICE, log 110). -/
def State.touch (s : State) (r : SegRef) : State := s.modSeg r.tile r.slot r.num fun g => { g with touch := s.moves }

/-! ## Segment accesses (R323) -/

/-- The store of a segment reference. -/
def State.segStore (s : State) (r : SegRef) : Store := ((s.slot r.tile r.slot).seg r.num).elim {} (·.store)

def State.modSegStore (s : State) (r : SegRef) (f : Store → Store) : State :=
  s.modSeg r.tile r.slot r.num fun g => { g with store := f g.store }

/-- Race check and residency of an access that passed R94; race = false for AMO and barrier operations (R191). -/
def segUse (me : Me) (p : W64) (r : SegRef) (g : Segment) (n : Nat) (write race : Bool) : M Unit := do
  if g.check && race then raceCheck me g.store p r.off n write
  resident (some me) r.tile r.slot g
  modS fun s => s.touch r
  if g.check && race && (← get).raceOn me then
    modS fun s => s.modSegStore r fun m =>
      raceRecord (s.slot me.tile me.slot).race m me.tile write (unitsOf 64 r.off n)

/-- Checks, race check and residency of an access. -/
def segAccess (me : Me) (p : W64) (n align : Nat) (write race : Bool) : M SegRef := do
  let (r, g) ← segCheck me p n align
  segUse me p r g n write race
  pure r

/-- Whether a range holds poison (R251). -/
def State.segPoison (s : State) (r : SegRef) (n : Nat) : List Nat := (s.segStore r).poisoned r.off n

/-- An uncorrectable error consumed freezes the tile's and the tower's recorder (R298). (DEDUCED, log 62) -/
def State.freezePoison (s : State) (t : BitVec 8) (addr : Nat) : State :=
  (s.freezeTile t 1 addr).freezeTower (towerOf t) 1 addr

/-- The race records of a segment as they stood before an access that raises POISON: it has had no effect (R193, R235). -/
def State.unrecord (s s0 : State) (r : SegRef) : State :=
  s.modSegStore r fun m => { m with lw := (s0.segStore r).lw, lr := (s0.segStore r).lr }

/-- Read n bytes of a segment; poison raises POISON with FINFO[1:0] = 0. -/
def segRead (me : Me) (p : W64) (n align : Nat) : M (List Byte) := do
  let s0 ← get
  let r ← segAccess me p n align false true
  if !((← get).segPoison r n).isEmpty then
    modS fun s => s.unrecord s0 r
    modS fun s => s.freezePoison me.tile p.toNat
    fault .poison p 0
  pure (((← get).segStore r).read r.off n)

/-- Poisoned 16 B words that a write covers only in part (R251, R393). -/
def Store.partPoison (m : Store) (a n : Nat) : List Nat :=
  (m.poisoned a n).filter fun u => !(decide (a ≤ 16 * u) && decide (16 * u + 16 ≤ a + n))

/-- A write that covers a poisoned word in part raises POISON and writes nothing (R393); `s0` is the state before the access.
(DEDUCED, log 61) -/
def segPartPoison (me : Me) (s0 : State) (p : W64) (r : SegRef) (n : Nat) : M Unit := do
  if !(((← get).segStore r).partPoison r.off n).isEmpty then
    modS fun s => s.unrecord s0 r
    modS fun s => s.freezePoison me.tile p.toNat
    fault .poison p 0

/-- Write bytes to a segment. -/
def segWrite (me : Me) (p : W64) (bs : List Byte) (align : Nat) : M Unit := do
  let s0 ← get
  let r ← segAccess me p bs.length align true true
  segPartPoison me s0 p r bs.length
  modS fun s => s.modSegStore r fun m => m.write r.off bs (s.who me)

/-! ## The accesses of a unit as a whole (R323, R409) -/

/-- The references of ranges of n bytes, after every check but poison: bounds and alignment of all, then races of all, then
residency of all. Nothing is recorded yet. (DEDUCED, log 45) -/
def segAccesses (me : Me) (ps : List W64) (n align : Nat) (write : Bool) : M (List SegRef) := do
  let rs ← mapM' ps fun p => segCheck me p n align
  forM' (ps.zip rs) fun x => do
    if x.2.2.check then raceCheck me x.2.2.store x.1 x.2.1.off n write
  forM' rs fun x => resident (some me) x.1.tile x.1.slot x.2
  forM' rs fun x => modS fun s => s.touch x.1
  pure (rs.map (·.1))

/-- The bytes of a range; poison raises POISON. -/
def segTake (me : Me) (p : W64) (r : SegRef) (n : Nat) : M (List Byte) := do
  if !((← get).segPoison r n).isEmpty then
    modS fun s => s.freezePoison me.tile p.toNat
    fault .poison p 0
  pure (((← get).segStore r).read r.off n)

/-- The accesses of a unit are recorded once none of its checks can fail any more (R193). -/
def segRecords (me : Me) (rs : List SegRef) (n : Nat) (write : Bool) : M Unit :=
  forM' rs fun r => modS fun s =>
    if s.raceOn me && ((s.slot r.tile r.slot).seg r.num).any (·.check) then
      s.modSegStore r fun m => raceRecord (s.slot me.tile me.slot).race m me.tile write (unitsOf 64 r.off n)
    else s

/-- Whether byte a of a segment is written by some piece. -/
def covers (l : List (SegRef × List Byte)) (r : SegRef) (a : Nat) : Bool :=
  l.any fun x => x.1.tile == r.tile && x.1.slot == r.slot && x.1.num == r.num && decide (x.1.off ≤ a) &&
    decide (a < x.1.off + x.2.length)

def coversWord (l : List (SegRef × List Byte)) (r : SegRef) (u : Nat) : Bool :=
  (List.range 16).all fun i => covers l r (16 * u + i)

/-- A poisoned 16 B word that pieces cover only in part raises POISON before anything is written. -/
def segPiecesClean (me : Me) (l : List (SegRef × List Byte)) : M Unit := do
  let s ← get
  match l.find? fun x => (s.segPoison x.1 x.2.length).any fun u => !coversWord l x.1 u with
  | some x =>
    let p := segPtr x.1.num x.1.off
    modS fun s => s.freezePoison me.tile p.toNat
    fault .poison p 0
  | none => pure ()

/-- Write pieces in order, the later over the earlier where they overlap; a poisoned word that they cover loses its poison.
(DESIGN CHOICE, log 91) -/
def segPutPieces (me : Me) (l : List (SegRef × List Byte)) : M Unit := do
  let s ← get
  forM' l fun x => do
    let us := s.segPoison x.1 x.2.length
    modS fun s => s.modSegStore x.1 fun m =>
      let m1 := m.write x.1.off x.2 (s.who me)
      { m1 with poison := us.foldl eraseN m1.poison }

/-- Write pieces, if segPiecesClean allows it. -/
def segStorePieces (me : Me) (l : List (SegRef × List Byte)) : M Unit := do
  segPiecesClean me l
  segPutPieces me l

/-- Write bytes through a reference that an access has already checked. -/
def segWriteRef (me : Me) (r : SegRef) (bs : List Byte) : M Unit :=
  modS fun s => s.modSegStore r fun m => m.write r.off bs (s.who me)

end Sys2Proof.Machine
end

