-- ==== Sys2Proof/Machine/Clock.lean ====
section
/-! DEFINITION. Time (R4, R245, R277, R278): what cycles that pass change. Nothing else of the machine depends on how
many cycles a step takes (DESIGN CHOICE, log 5). -/

namespace Sys2Proof.Machine

/-! ## Probe edges (Table 2.5, R36) -/

/-- The agents whose queue or run holds an unretired entry that a test picks. -/
def State.holders (s : State) (t : BitVec 8) (k : BitVec 2) (f : Entry → Bool) : List Agent :=
  let x := s.slot t k
  let c := x.ctx
  let d := (s.tower (towerOf t)).dec
  let mine (e : Entry) : Bool := e.tile == t && some e.ctx == c
  (if (x.vec.cur.toList ++ x.q.vec.items).any f then [Agent.vec] else []) ++
  (if (x.mat.cur.toList ++ x.q.mat.items).any f then [Agent.mat] else []) ++
  (if (x.xfr.cur.toList ++ x.q.xfr.items).any f then [Agent.xfr] else []) ++
  (if (((d.cur.toList ++ d.parked ++ d.q.items).map (·.e)).filter mine).any f then [Agent.dec] else [])

/-- The consumer and the producers of a queue id (Table 2.4, R294). -/
def queueConsumer (q : BitVec 8) : Agent :=
  if q = 0 then .vec else if q = 1 then .mat else if q = 2 then .xfr else if q = 3 then .dec
  else if q = 7 then .mat else if q = 8 then .vec else .seq

def queueProducers (q : BitVec 8) : List Agent :=
  if q = 4 ∨ q = 7 then [.vec] else if q = 5 ∨ q = 8 then [.mat] else if q = 6 then [.xfr]
  else if q = 9 then [.xfr, .dec] else [.seq]

/-- The out-edges of an agent that waits for an object: destination, whether it is a queue edge, a booking edge. `and the
sequencer` of Table 2.5 is read as an edge to the sequencer from every semaphore wait, its own `sems.wait` included.
(DEDUCED, log 87.) A booking edge goes to the agents of the waiter's own tile, also where a recall waits at another tile's
porter: a probe follows no others (R38). (DEDUCED, log 98) -/
def State.edges (s : State) (t : BitVec 8) (k : BitVec 2) (o : WaitObj) : List (Agent × Bool × Bool) :=
  let x := s.slot t k
  let wait (l : List Agent) := l.map fun a => (a, false, false)
  let signals (p : BitVec 3 → Bool) : List Agent := s.holders t k fun e => e.stok.any p
  match o with
  | .push q => [(queueConsumer q, true, false)]
  | .pop q => wait (queueProducers q)
  | .booking _ => (s.holders t k fun e => x.mem.bookings.any fun b => b.issue == e.issue && !b.segs.isEmpty).map fun a => (a, false, true)
  | .recall _ _ => (s.holders t k fun e => x.mem.bookings.any fun b => b.issue == e.issue && !b.segs.isEmpty).map fun a => (a, false, true)
  | .sem n => wait (Agent.seq :: signals (· == n))
  | .retire i es =>
    wait ((s.holders t k fun e => (i - e.issue).toNat ≠ 0 ∧ (i - e.issue).toNat < 2 ^ 15).filter fun a => match a with
      | .vec => bit es 0
      | .mat => bit es 1
      | .xfr => bit es 2
      | .dec => bit es 3
      | .seq => false)
  | .layerFence => wait [.xfr]
  | .waiti m _ =>
    let ps := (if bit m 0 then [Agent.xfr, .dec] else []) ++ (if bit m 1 then [Agent.vec] else []) ++
      (if bit m 2 then [Agent.mat] else []) ++ (if bit m 3 then [Agent.xfr] else []) ++
      (if bit m 4 then signals fun _ => true else [])
    wait ([Agent.vec, .mat, .xfr, .dec].filter ps.contains)
  | _ => []

/-- The out-edges of an agent that a probe reaches. A decode engine that runs another slot's entry has none that the probe
follows: their far ends are not agents of the running slot (R38). -/
def State.edgesOf (s : State) (t : BitVec 8) (k : BitVec 2) (a : Agent) (o : WaitObj) : List (Agent × Bool × Bool) :=
  if a = .dec ∧ s.decOwn t k = false then [] else s.edges t k o

/-- The edges that go on from the far end of an edge, none where its branch ends there. -/
def State.nextEdges (s : State) (t : BitVec 8) (k : BitVec 2) (origin : Agent) (e : ProbeEdge) : List ProbeEdge :=
  if e.dest = origin ∨ e.path.contains e.dest = true then []
  else match (s.agt t k e.dest).wait with
    | none => []
    | some w =>
      if w.obj.blocks then (s.edgesOf t k e.dest w.obj).map fun x =>
        ProbeEdge.mk x.1 (e.dest :: e.path) (e.queue || x.2.1) (e.booking || x.2.2)
      else []

/-- Follow the next edge of a probe: 2 c each, and every branch ends with the eighth (R36). (DEDUCED, log 32) -/
def State.probeEdge (s : State) (t : BitVec 8) (k : BitVec 2) (origin : Agent) (p : Probe) : Probe :=
  match p.todo with
  | [] => p
  | e :: r => { p with
    edges := p.edges + 1
    todo := if 8 ≤ p.edges + 1 then [] else s.nextEdges t k origin e ++ r
    found := if e.dest = origin then p.found ++ [(e.queue, e.booking)] else p.found }

/-- A probe over n cycles. -/
def State.probeRun (s : State) (t : BitVec 8) (k : BitVec 2) (origin : Agent) (p : Probe) (n : Nat) : Probe :=
  let c := p.half + n
  (List.range (min (c / 2) 8)).foldl (fun p _ => s.probeEdge t k origin p) { p with half := c % 2 }

/-! ## Elapsing -/

/-- Cycles of a column in n cycles of the reference clock: a stretched cycle lasts 1.5 c (R277), and what has passed of the
next one counts. -/
def Column.cycles1 (c : Column) (n : Nat) : Nat := if c.stretching then (2 * n + c.thirds) / 3 else n

def satAdd (x : Word) (n : Nat) : Word := BitVec.ofNat 32 (min (x.toNat + n) (2 ^ 32 - 1))

/-- A column over n cycles of the reference clock (R277, R278). -/
def Column.run (c : Column) (n : Nat) : Column :=
  if c.stretching then
    { c with
      cycles := satAdd c.cycles (c.cycles1 n)
      stretchLeft := c.stretchLeft - c.cycles1 n
      thirds := (2 * n + c.thirds) % 3 }
  else c

/-- Whether a slot stands for an entry at TVEC that is due: one of its faults (R236), or the scrubber's (R249). -/
def Tile.stands (x : Tile) (k : Slot) : Bool := !k.faults.isEmpty || !x.scrub.isEmpty

/-- The wait of an agent over n cycles; it pauses once the agent has stopped (R236, R245, R246). -/
def State.waitRun (s : State) (t : BitVec 8) (k : BitVec 2) (a : Agent) (n : Nat) (g : Agt) : Agt :=
  let x := s.tile t
  match g.wait with
  | none => g
  | some w => if (x.stopping.isSome || x.stands (x.slot k)) && g.stopsAt a then g else { g with wait := some { w with
      cycles := if w.obj.counts then w.cycles + n else w.cycles
      since := w.since + n
      blocked := w.blocked + n
      probe := w.probe.map fun p => s.probeRun t k a p n } }

/-- n cycles of one tile. The sequencer in the runtime bank belongs to no context, and no watchdog counts its waits
(DEDUCED, log 99). -/
def State.tileRun (s : State) (t : BitVec 8) (n0 : Nat) : State :=
  let x := s.tile t
  if x.up = false then s.modTile t fun y => { y with col := y.col.run n0 }
  else
    let n := x.col.cycles1 n0
    let s1 := s.modTile t fun y => { y with
      col := y.col.run n0
      rtAgt := if y.inRuntime then { y.rtAgt with wait := y.rtAgt.wait.map fun w => { w with since := w.since + n } }
        else y.rtAgt }
    match x.running with
    | none => s1
    | some k =>
      if x.inRuntime then s1
      else
        let s2 := s1.modTile t fun y => { y with
          sliceLeft := y.sliceLeft - n
          stopping := y.stopping.map fun p => { p with cycles := p.cycles + n } }
        s2.modSlot t k fun z => { z with
          vtime := z.vtime + BitVec.ofNat 64 n
          sq := { z.sq with agt := s.waitRun t k .seq n z.sq.agt }
          vec := { z.vec with agt := s.waitRun t k .vec n z.vec.agt }
          mat := { z.mat with agt := s.waitRun t k .mat n z.mat.agt }
          xfr := { z.xfr with agt := s.waitRun t k .xfr n z.xfr.agt } }

/-- n cycles of one tower: the decode engine's wait where the slot of its entry runs (R38, R246), the replica locks, the page
holds. -/
def State.towerRun (s : State) (w : BitVec 3) (n : Nat) : State :=
  let d := (s.tower w).dec
  let e := (d.cur.or d.q.items.head?).map (·.e)
  let agt := match e with
    | none => d.agt
    | some e =>
      let x := s.tile e.tile
      match x.slotOfCtx e.ctx with
      | none => d.agt
      | some k => if x.up && !x.inRuntime && x.running == some k then s.waitRun e.tile k .dec n d.agt else d.agt
  s.modTower w fun x => { x with
    dec := { x.dec with agt := agt }
    mmu := { x.mmu with
      repStores := x.mmu.repStores.map fun q => { q with cycles := q.cycles + n }
      holds := x.mmu.holds.map fun h => { h with cycles := h.cycles + n } } }

/-- n cycles pass. -/
def State.elapse (s : State) (n : Nat) : State :=
  let s1 := allTowers.foldl (fun s w => s.towerRun w n) s
  { (allTiles.foldl (fun s t => s.tileRun t n) s1) with tick := s.tick + BitVec.ofNat 64 n }

/-! ## Errors of memories (R251, R282) -/

/-- A memory error arises. A second wrong bit makes a word of the DRAM layer uncorrectable, the same bit again makes it right; an
uncorrectable word or row is poisoned (DESIGN CHOICE, log 109). -/
def State.upset (s : State) (u : Upset) : State :=
  match u with
  | .layerBit w word b =>
    let n := word.toNat
    s.modTower w fun x =>
      let rest := x.biterrs.filter fun e => e.1 ≠ n
      if 144 ≤ b.toNat ∨ x.layer.poison.contains n = true then x
      else match x.biterrs.find? fun e => e.1 = n with
        | none => { x with biterrs := (n, b) :: x.biterrs }
        | some e => if e.2 = b then { x with biterrs := rest }
          else { x with biterrs := rest, layer := { x.layer with poison := insertN x.layer.poison n } }
  | .gddr w word => s.modTower w fun x => if 24 * 2 ^ 26 ≤ word then x else { x with gddr := { x.gddr with poison := insertN x.gddr.poison word } }
  | .segment t k n word => s.modSeg t k n fun g =>
      if g.size ≤ 16 * word then g else { g with store := { g.store with poison := insertN g.store.poison word } }
  | .accum t n r => s.modTile t fun x => { x with
      acc := put AccTile.reset x.acc n.toNat (let a := look AccTile.reset x.acc n.toNat; { a with poison := setBit a.poison r.toNat true }) }

/-! ## Bring-up (R287) -/

/-- Bring-up begins, with what it will find: one that passes ends at step 6, one that fails at a step of Table 15.4 that names a failure,
which one `v` says (DESIGN CHOICE, log 84). -/
def State.bringStart (s : State) (pass : Bool) (v : W64) (tr : Training) : State :=
  let goal := if pass then 6 else [1, 2, 4, 5].getD (v.toNat % 4) 1
  { s with bring := { step := 1, failed := goal = 1, goal := goal, found := tr } }

/-- Bring-up reaches the step that follows, where it has not failed (Table 15.4). Fuse bits, once set, are never cleared (R280). -/
def State.bringNext (s : State) : State :=
  let b := s.bring
  let tr := b.found
  let n := b.step + 1
  if b.step = 0 then
    let (v, s1) := s.draw
    s1.bringStart (bit v 8) v (Config.training s.fresh)
  else if b.goal ≤ b.step then s
  else
    let s1 : State := { s with bring := { b with step := n, failed := n = b.goal && n ≠ 6, digest := if n = 2 ∧ b.goal = 2 then tr.rejected else b.digest } }
    if n = 4 then
      let short := (tr.lanes.filter fun l => 8 < l.2.2.2.length).map fun l => (l.1, l.2.1, l.2.2.1)
      let s2 := allTowers.foldl (fun s w => s.modTower w fun x => { x with
        lanes := (tr.lanes.filter fun l => l.1 = w).map fun l => ⟨l.2.1, l.2.2.1, l.2.2.2.take 8, none⟩ }) s1
      { s2 with bring := { s2.bring with short := short, leftOut := short.foldl (fun m c => setBit m c.1.toNat true) 0 } }
    else if n = 5 then
      let s2 := allTowers.foldl (fun s w => s.modTower w fun x => { x with
        fuse := (tr.retired.filter fun r => r.1 = w).foldl (fun f r => f ||| r.2) x.fuse }) s1
      { s2 with bring := { s2.bring with excluded := tr.badTiles } }
    else if n = 6 then
      -- recorders are cleared, every region is pending-zero, and no partition exists
      let s2 := allTowers.foldl (fun s w => s.modTower w fun x => { x with
        recorder := Recorder.reset, layer := {}, biterrs := [], badReads := [], gddr := {}, zeroed := [] }) s1
      { (allTiles.foldl (fun s t => s.modTile t fun x => { x with recorder := Recorder.reset }) s2) with parts := [] }
    else s1

end Sys2Proof.Machine
end

