-- ==== Sys2Proof/Machine/HostSide.lean ====
section
/-! DEFINITION. The device's side of the command protocol (R274, R275): statuses, replies, the order of a session. -/

namespace Sys2Proof.Machine

/-! ## Statuses (Table 14.6) -/

def stOK : Nat := 0
def stBADSEQ : Nat := 1
def stAUTH : Nat := 2
def stSTATE : Nat := 3
def stRANGE : Nat := 4
def stBUSY : Nat := 5
def stUNREACH : Nat := 6
def stMOVED : Nat := 7
def stHELD : Nat := 8
def stPOISON : Nat := 9

/-- A message to the host. -/
def State.send (s : State) (m : Msg) : State := { s with host := { s.host with outbox := s.host.outbox ++ [m] } }

/-- The host's reply to a command (Table 14.6). -/
def State.replyTo (s : State) (op part : Nat) (seq session : W64) (status : Nat) (body : List Byte) : State :=
  s.send (Msg.mk (BitVec.ofNat 8 (op + 0x80)) (BitVec.ofNat 16 part) seq session (BitVec.ofNat 32 status) body)

/-- The host as a setter (R300). -/
def hostWho : Who := { eng := 6 }

/-! ## Sessions (R275) -/

def State.sessionOf (s : State) (id : W64) : Option Session := s.host.sessions.find? (·.id == id)

def State.modSession (s : State) (id : W64) (f : Session → Session) : State :=
  { s with host := { s.host with sessions := s.host.sessions.map fun x => if x.id = id then f x else x } }

/-- The command of a session's next SEQ has been acted on: a command held with the SEQ that follows is acted on next. -/
def State.seqDone (s : State) (c : HostCmd) : State :=
  match s.sessionOf c.session with
  | none => s
  | some x =>
    let n := x.next + 1
    let s1 := s.modSession x.id fun y => { y with next := n, held := y.held.filter fun h => h.2.seq ≠ n }
    match x.held.find? fun h => h.2.seq = n with
    | none => s1
    | some h => { s1 with agenda := .event (hostEvent h.1 h.2) :: s1.agenda }

/-- A command is answered and done. -/
def State.finishCmd (s : State) (op : BitVec 8) (c : HostCmd) (status : Nat) (body : List Byte) : State :=
  (s.replyTo op.toNat c.part.toNat c.seq c.session status body).seqDone c

/-- The target of a SEGPUT or SEGGET. -/
def cmdTarget (op : BitVec 8) (c : HostCmd) : HostTarget :=
  if op = 3 then (Config.putTarget c.body).1 else (Config.getTarget c.body).1

/-- The bytes of a target that a command covers. -/
def cmdLen (op : BitVec 8) (c : HostCmd) : Nat :=
  if op = 3 then (Config.putTarget c.body).2.length else (Config.getTarget c.body).2

end Sys2Proof.Machine
end

