-- ==== Sys2Proof/Machine/Glob.lean ====
section
/-! DEFINITION. Global memory: virtual addresses (R253, R254), capabilities (R68, R69), two-stage translation at the owner
(R255 to R260), fault and command rings (R258, R259), replicas (R189), pending-zero lines (R268), pre-copy logging (R264),
requests to other chips (R254, R261), ending a context (R242). -/

namespace Sys2Proof.Machine

/-! ## Addresses and capabilities -/

def vaChip (v : W64) : BitVec 3 := BitVec.ofNat 3 (bits v 53 51)
def vaTower (v : W64) : BitVec 3 := BitVec.ofNat 3 (bits v 50 48)
def vaOff (v : W64) : Nat := bits v 47 0

/-- Capability fields (Table 3.13). -/
def Cap.base (c : Cap) : Nat := bits c.raw 53 0
def Cap.mant (c : Cap) : Nat := bits c.raw 73 54
def Cap.exp (c : Cap) : Nat := bits c.raw 79 74
def Cap.len (c : Cap) : Nat := c.mant * 2 ^ c.exp
def Cap.perms (c : Cap) : Nat := bits c.raw 87 80
def Cap.tenant (c : Cap) : Nat := bits c.raw 103 88

/-- Malformed: EXP above 34, or an end above 2^54 (R68). -/
def Cap.malformed (c : Cap) : Bool := decide (34 < c.exp) || decide (2 ^ 54 < c.base + c.len)

/-- Permission bits as bits of `perms`. -/
def pREAD : Nat := 0
def pWRITE : Nat := 1
def pXNONE : Nat := 2
def pATOMIC : Nat := 3
def pREMOTE : Nat := 4
def pCHECKED : Nat := 5
def pCSTORE : Nat := 6
def pDERIVE : Nat := 7

def Cap.has (c : Cap) (p : Nat) : Bool := c.perms / 2 ^ p % 2 == 1

/-- PARTID (Table 3.2): tenant id and partition number. -/
def State.partid (s : State) (t : BitVec 8) : Nat :=
  ((s.partOf t).map fun p => p.setup.tenant.toNat + 2 ^ 16 * p.setup.num.toNat).getD 0

/-- The chip index of this chip in the partition of a tile. -/
def State.chipOf (s : State) (t : BitVec 8) : BitVec 3 := ((s.partOf t).map (·.setup.chip)).getD 0

/-- Checks 1 to 3 of R69. -/
def capCheck3 (me : Me) (c : Cap) (va : W64) : M Unit := do
  faultIf (c.tag = false) .cap va 1
  faultIf (c.malformed = true) .cap va 2
  faultIf (c.tenant ≠ (← get).partid me.tile % 2 ^ 16) .cap va 3

/-- The checks of R69 for n bytes at va with the permissions needed, REMOTE among them for another chip (R254), and the
refusal of R191 for a CHECKED capability that names another chip. -/
def capCheck (me : Me) (c : Cap) (va : W64) (n : Nat) (need : List Nat) : M Unit := do
  capCheck3 me c va
  faultIf (va.toNat < c.base ∨ c.base + c.len < va.toNat + n) .cap va 4
  let here := (← get).chipOf me.tile
  let far := vaChip va ≠ here ∨ vaChip (va + BitVec.ofNat 64 (n - 1)) ≠ here
  faultIf (¬ need.all c.has) .cap va 5
  faultIf (far ∧ ¬ c.has pREMOTE) .cap va 5
  faultIf (far ∧ c.has pCHECKED) .cap va 5

/-- The towers that a partition holds on one of its chips (R254). -/
def setupTowers (p : PartSetup) (c : BitVec 3) : BitVec 8 :=
  if c = p.chip then p.towers else (lookO (p.farTowers.map fun x => (x.1.toNat, x.2)) c.toNat).getD 0

/-- Whether a partition's virtual address space has the chip and the tower of an address (R254). -/
def setupReaches (p : PartSetup) (va : W64) : Bool :=
  decide ((vaChip va).toNat < p.chips.toNat) && (setupTowers p (vaChip va)).getLsbD (vaTower va).toNat

/-- The issuer checks of R254 for n bytes: XLAT1 at once, with no ring record. -/
def issuerCheck (me : Me) (va : W64) (n : Nat) : M Unit := do
  match (← get).partOf me.tile with
  | none => fault .xlat1 va 0
  | some p => faultIf ((setupReaches p.setup va && setupReaches p.setup (va + BitVec.ofNat 64 (n - 1))) = false) .xlat1 va 0

/-! ## Translation (R255 to R257) -/

/-- What a translation answers: a page, a stage-1 failure with the REASON of R259, or a stage-2 failure at an IPA page. -/
inductive XlRes where
  | ok (x : Xl)
  | s1 (reason : Nat)
  | s2 (ipa : Nat)
  deriving DecidableEq, Repr, Inhabited

/-- Stage 2 (R255): the first mapping of an IPA page. -/
def Mmu.stage2 (m : Mmu) (page : Nat) : Option PhysPage := lookO m.s2 page

/-- Read 8 bytes at an IPA of a tower; none on a stage-2 failure. -/
def State.ipaRead8 (s : State) (w : BitVec 3) (ipa : Nat) : Option Nat :=
  match (s.tower w).mmu.stage2 (ipa / 65536) with
  | some (.gddr t pg) => some (leNat ((s.tower t).gddr.read (pg.val * 65536 + ipa % 65536) 8))
  | _ => none

/-- A stage-1 entry is malformed (R256). `lvl` is its level, `leaf` whether it maps a page. -/
def s1Malformed (e lvl : Nat) (leaf : Bool) : Bool :=
  e / 2 ^ 48 != 0 || e / 2 ^ 6 % 4 != 0 ||
  (leaf && e / 2 ^ 8 % 2 ^ (if lvl = 2 then 13 else 8) != 0) ||
  (decide (lvl < 2) && e / 2 % 2 == 1) ||
  (e / 2 ^ 5 % 2 == 1 && e / 2 ^ 4 % 2 == 1)

/-- The stage-1 walk from a level (R256). -/
def State.walk (s : State) (w : BitVec 3) (off : Nat) : Nat → Nat → Nat → Sum XlRes TlbEntry
  | 0, _, _ => .inl (.s1 0)
  | f + 1, lvl, table =>
    let idx := if lvl = 0 then off / 2 ^ 39 % 512 else if lvl = 1 then off / 2 ^ 30 % 512
      else if lvl = 2 then off / 2 ^ 21 % 512 else off / 2 ^ 16 % 32
    match s.ipaRead8 w (table + 8 * idx) with
    | none => .inl (.s2 ((table + 8 * idx) / 65536))
    | some e =>
      if e % 2 = 0 then .inl (.s1 0)
      else
        let leaf := decide (lvl = 3) || (decide (lvl = 2) && e / 2 % 2 == 1)
        if s1Malformed e lvl leaf then .inl (.s1 3)
        else
          let next := e / 2 ^ 8 % 2 ^ 40 * 2 ^ 8
          if leaf then
            .inr { page := off / 65536, w := e / 8 % 2 == 1, r := e / 4 % 2 == 1, chk := e / 32 % 2 == 1,
                   rpl := e / 16 % 2 == 1, ipa := (if lvl = 2 then next / 65536 + off / 65536 % 32 else next / 65536),
                   big := lvl == 2 }
          else s.walk w off f (lvl + 1) next

/-- The 64 KiB pages of one page of stage 1, each as page of OFF and IPA page: 32 where the entry maps 2 MiB (R255). -/
def pageSet (off : Nat) (e : TlbEntry) : List (Nat × Nat) :=
  if e.big then (List.range 32).map fun i => (off / 65536 / 32 * 32 + i, e.ipa - off / 65536 % 32 + i) else [(off / 65536, e.ipa)]

/-- The current stage-1 translation of an offset. -/
def State.stage1 (s : State) (w : BitVec 3) (off : Nat) : Sum XlRes TlbEntry :=
  match (s.tower w).mmu.root with
  | none => .inl (.s1 0)
  | some r => s.walk w off 4 0 r.toNat

/-- Permission check and stage 2 of a stage-1 translation; acc: 0 read, 1 write, 2 atomic, 3 the return of a page, which needs no
permission (R262). -/
def State.finishXl (s : State) (w : BitVec 3) (e : TlbEntry) (acc : Nat) : XlRes :=
  if (acc = 1 ∨ acc = 2) ∧ e.w = false then .s1 1
  else if (acc = 0 ∨ acc = 2) ∧ e.r = false then .s1 2
  else match (s.tower w).mmu.stage2 e.ipa with
    | some p => .ok ⟨p, e.ipa, e.chk, e.rpl && !(s.tower w).mmu.unrep.contains e.ipa⟩
    | none => .s2 e.ipa

/-- Translate an offset at its owner. Where the TLB keeps a translation that differs from the tables, either is used
(R257), as a fresh value says. (DEDUCED, log 33) -/
def State.translate (s : State) (w : BitVec 3) (off acc : Nat) : XlRes × State :=
  let cur := s.stage1 w off
  let kept := (s.tower w).mmu.tlb.find? (·.page == off / 65536)
  match kept with
  | some e =>
    if cur = .inr e then (s.finishXl w e acc, s)
    else
      let (r, s1) := s.draw
      if bit r 0 then (s1.finishXl w e acc, s1)
      else match cur with
        | .inl x => (x, s1)
        | .inr c => (s1.finishXl w c acc, s1)
  | none =>
    match cur with
    | .inl x => (x, s)
    | .inr c =>
      let s1 := s.modTower w fun x => { x with mmu := { x.mmu with tlb := c :: x.mmu.tlb } }
      (s1.finishXl w c acc, s1)

/-! ## Physical reads and writes -/

/-- Split a range at 64 KiB boundaries. -/
def pagePieces : Nat → Nat → Nat → List (Nat × Nat)
  | 0, _, _ => []
  | f + 1, a, n =>
    if n = 0 then []
    else
      let k := min n (65536 - a % 65536)
      (a, k) :: pagePieces f (a + k) (n - k)

/-- A write clears the pending bit of its lines (R268). -/
def State.physWrite (s : State) (t : BitVec 3) (a : Nat) (bs : List Byte) (w : Who) : State :=
  s.modTower t fun x => { x with
    gddr := x.gddr.write a bs w
    zeroed := (unitsOf 64 a bs.length).foldl (fun l u => if l.contains (false, u) then l else (false, u) :: l) x.zeroed }

/-- Pre-copy logging of a write (R264): one entry for the first write to a page in a round, the granule bit always. A ring
that fills in the final round sets the overflow flag; in an earlier round the entry has no place, and the page is found by
the bitmap or written again later. (DEDUCED, log 88) -/
def State.preLog (s : State) (w : BitVec 3) (ipa : Nat) : State :=
  match s.partOfTower w with
  | none => s
  | some p => s.modPart p.setup.num fun q =>
    let pre := q.pre
    let g := (w, ipa / 32)
    let pre1 := { pre with granules := if pre.granules.contains g then pre.granules else g :: pre.granules }
    { q with pre :=
      if pre.active = false ∨ pre.round.contains (w, ipa) then pre1
      else if 65536 ≤ pre.ring.length then { pre1 with overflow := pre.overflow || pre.final }
      else { pre1 with
        round := (w, ipa) :: pre.round
        ring := pre.ring ++ [BitVec.ofNat 64 (ipa % 2 ^ 32 * 2 ^ 16 + q.setup.chip.toNat * 8 + w.toNat)] } }

/-- Write one piece of a page at its owner, replicas and all (R189). -/
def State.pieceWrite (s : State) (w : BitVec 3) (x : Xl) (inPage : Nat) (bs : List Byte) (who : Who) : State :=
  let places := if x.rpl then (s.tower w).mmu.s2.filterMap fun e => if e.1 = x.ipa then some e.2 else none else [x.phys]
  let s1 := places.foldl (fun s p => match p with
    | .gddr t pg => s.physWrite t (pg.val * 65536 + inPage) bs who
    | .host => s) s
  s1.preLog w x.ipa

/-! ## Device reads and writes by virtual address, as the SMC and the fault buffer make them -/

/-- Read n bytes at a virtual address of this chip; none where it does not translate. -/
def State.devRead (s : State) (va : W64) (n : Nat) : Option (List Byte) :=
  (pagePieces (n / 65536 + 2) (vaOff va) n).foldl (fun acc p => match acc with
    | none => none
    | some bs => match s.stage1 (vaTower va) p.1 with
      | .inl _ => none
      | .inr e => match s.finishXl (vaTower va) e 0 with
        | .ok x => match x.phys with
          | .gddr t pg => some (bs ++ (s.tower t).gddr.read (pg.val * 65536 + p.1 % 65536) p.2)
          | .host => none
        | _ => none) (some [])

/-- Write bytes at a virtual address of this chip; none where some page does not translate. -/
def State.devWrite (s : State) (va : W64) (bs : List Byte) (who : Who) : Option State :=
  ((pagePieces (bs.length / 65536 + 2) (vaOff va) bs.length).foldl (fun acc p => match acc with
    | none => none
    | some (st, rest) => match st.stage1 (vaTower va) p.1 with
      | .inl _ => none
      | .inr e => match st.finishXl (vaTower va) e 1 with
        | .ok x => match x.phys with
          | .gddr _ _ => some (st.pieceWrite (vaTower va) x (p.1 % 65536) (rest.take p.2) who, rest.drop p.2)
          | .host => none
        | _ => none) (some (s, bs))).map (·.1)

/-- The SMC as a setter (R300). -/
def smcWho : Who := { eng := 0xFE }

/-! ## Ending a context (R242) -/

/-- Take items out of a queue; its spare room is re-armed when the occupancy is back at the depth or below (R37). -/
def Queue.keep (q : Queue α) (depth : Nat) (f : α → Bool) : Queue α :=
  { q with items := q.items.filter f, spare := q.spare && decide (depth < (q.items.filter f).length) }

/-- Remove a context from a queue of entries. -/
def Queue.dropCtx (q : Queue DecEntry) (c : BitVec 8) : Queue DecEntry := q.keep 64 fun d => d.e.ctx ≠ c

/-- A DEC entry that has retired or is discarded no longer holds back freed blocks (R227). -/
def KvTables.release (k : KvTables) (p : BitVec 8 × BitVec 8 × BitVec 16 → Bool) : KvTables :=
  { k with quarantine := (k.quarantine.map fun q => (q.1, { q.2 with await := q.2.await.filter fun x => !p x })).filter fun q =>
      !q.2.await.isEmpty }

/-- End a context on every tile (R242): entries, FIFOs and records are discarded, accumulator tiles zeroed and freed,
segments dropped, mask slots cleared, decode entries discarded, slots freed, and its agents' waits end (R300). `cause` is its
completion status. -/
def State.endCtx (s : State) (c : BitVec 8) (cause : BitVec 8) : State :=
  match s.ctxById c with
  | none => s
  | some cx =>
    let s0 := cx.tiles.foldl (fun s t => (s.slotAgents t cx.slot).foldl (fun s a => s.stopWait t cx.slot a) s) s
    let s1 := cx.tiles.foldl (fun s t => s.modTile t fun x =>
      { (x.setSlot cx.slot (x.slot cx.slot).freed) with acc := x.acc.filter fun a => a.2.owner ≠ c }) s0
    let tw := allTowers.filter fun w => cx.tiles.any fun t => towerOf t = w
    let s2 := tw.foldl (fun s w => s.modTower w fun x => { x with
      dec := { x.dec with
        q := x.dec.q.dropCtx c
        cur := if (x.dec.cur.any fun d => d.e.ctx = c) then none else x.dec.cur
        token := if (x.dec.cur.or x.dec.q.items.head?).any (fun d => d.e.ctx = c) then false else x.dec.token
        parked := x.dec.parked.filter fun d => d.e.ctx ≠ c
        agt := if (x.dec.cur.or x.dec.q.items.head?).any (fun d => d.e.ctx = c) then {} else x.dec.agt }
      kv := x.kv.release fun p => p.1 == c
      dctx := x.dctx.filter fun d => d.ctx ≠ c
      wrr := x.wrr.filter fun p => p.1 ≠ c }) s1
    { (s2.modPart cx.part fun p => { p with statuses := p.statuses ++ [(c, cause)] }) with
      ctxs := s2.ctxs.filter fun x => x.id ≠ c }

/-! ## Rings (R258, R259, R271) -/

/-- Post a record to a ring at va: header HEAD, TAIL, CAP; the record is written before TAIL advances. None where the
ring is full or cannot be reached. Answers the slot. -/
def State.ringPost (s : State) (va : W64) (recLen : Nat) (bs : List Byte) : Option (Nat × State) :=
  match s.devRead va 24 with
  | none => none
  | some h =>
    let head := leNat (h.take 8)
    let tail := leNat ((h.drop 8).take 8)
    let cap := leNat ((h.drop 16).take 4)
    if cap = 0 ∨ cap ≤ tail - head then none
    else
      let slot := tail % cap
      (s.devWrite (va + BitVec.ofNat 64 (64 + recLen * slot)) bs smcWho).bind fun s1 =>
        (s1.devWrite (va + 8) (leBytes 8 (tail + 1)) smcWho).map fun s2 => (slot, s2)

/-- A ring record ends the running slice of the service tile at once, with FINFO[2] = 1 (R258, R271). -/
def State.ringNotice (s : State) (p : Partition) : State :=
  match p.service with
  | none => s
  | some t =>
    let x := s.tile t
    if x.running.isSome ∧ x.inRuntime = false then s.beginStop t ({ · with ring := true }) else s

/-- A slot of a partition's fault ring is about to hold another record. -/
def State.retake (s : State) (p : Partition) (slot : Nat) : State :=
  (allTowers.filter fun w => p.setup.towers.getLsbD w.toNat).foldl (fun s w => s.modTower w fun x => { x with mmu := { x.mmu with
    posted := x.mmu.posted.map fun r => if r.slot = some slot then { r with slot := none } else r } }) s

/-- A stage-1 failure (R258): merge into the record of its page in this generation, or post one. None where the ring is
full, or none is registered: the access raises XLAT1. `tile` is 0xFF for a host command; `here` says that it is a tile of
this chip. -/
def State.stage1Fail (s : State) (va : W64) (reason acc : Nat) (ctx tile : BitVec 8) (here : Bool) : Option State :=
  let w := vaTower va
  match s.partOfTower w with
  | none => none
  | some p =>
    match p.faultRing with
    | none => none
    | some ring =>
      let page := vaOff va / 65536
      let rv (slot : Nat) : W64 := ring.setWidth 64 + BitVec.ofNat 64 (64 + 32 * slot)
      match (s.tower w).mmu.posted.find? (·.page == page) with
      | some r => match r.slot with
        | none => some s
        | some n => (s.devRead (rv n + 16) 2).bind fun m =>
            s.devWrite (rv n + 16) (leBytes 2 (min 65535 (leNat m + 1))) smcWho
      | none =>
        let body := leBytes 8 (va.toNat % 2 ^ 54) ++ leBytes 4 p.gen.toNat ++ leBytes 1 reason ++ leBytes 1 acc ++
          [ctx, tile] ++ List.replicate 16 0
        (s.ringPost (ring.setWidth 64) 32 body).map fun (slot, s1) =>
          let s2 := (s1.retake p slot).modTower w fun x => { x with mmu := { x.mmu with
            posted := ⟨page, some slot, va.setWidth 54⟩ :: x.mmu.posted } }
          let s3 := if here then s2.freezeTile tile 2 (bits va 31 0) else s2
          (s3.freezeTower w 2 (bits va 31 0)).ringNotice p

/-! ## Accesses of agents -/

/-- The wait of an agent that looked again ends, with its record (R300). -/
def State.endMyWait (s : State) (me : Me) (by_ : Who) : State :=
  match (s.myAgt me).wait with
  | none => s
  | some w => (s.waitRecord me.tile me.slot me.agent w by_).setMyAgt me { s.myAgt me with wait := none }

/-- A unit that has ended forgets the answers it used, and waits for nothing. -/
def State.clearRemote (s : State) (me : Me) : State :=
  let s1 := s.endMyWait me noWho
  s1.setMyAgt me { s1.myAgt me with got := [], pend := none, used := 0, absent := none, tested := false, out := none, layers := none }

/-- The cause with a code of Table 13.1, as another chip answers it. -/
def codeCause (c : BitVec 8) : Cause :=
  ([.illegal, .fetchbound, .priv, .align, .segbound, .segname, .booking, .stacklim, .cap, .xlat1, .xlat2, .race, .guard, .fold,
    .maskprog, .accown, .layout, .waitcycle, .poison, .unreach, .watchdog, .semovf, .barrier, .trapsw].find? fun x =>
    causeCode x == c).getD .unreach

/-- The SMC ends the context of an access that it does not map (R260). -/
def endFor (me : Me) : M α := do
  match ((← get).slot me.tile me.slot).ctx with
  | some c => modS fun s => s.endCtx c 0x0B
  | none => pure ()
  throw .gone

/-- Ask another chip (R254). An answer already received is used; a chip that is down raises UNREACH at once (R261). The SMC of
the owner that does not map a page ends the context (R260), which the recorder of the issuing tile sees, as it does POISON and the
translation faults that the request met (R298).
`rel` says that the request releases, which it does as it is sent (R192). (DEDUCED, log 105) -/
def remoteAsk (me : Me) (va : W64) (chip : BitVec 3) (op : RemoteOp) (rel : Bool) (w : Nat → WaitObj) : M RemoteReply := do
  let s ← get
  let a := s.myAgt me
  match a.got.drop a.used with
  | r :: _ =>
    set (s.setMyAgt me { a with used := a.used + 1 })
    if r.met then modS fun s => s.freezeTile me.tile 2 (bits va 31 0)
    if r.cause = 0 then pure r
    else if r.cause = 0x0B then
      modS fun s => s.freezeTile me.tile 2 (bits va 31 0)
      endFor me
    else
      if r.cause = 0x13 then modS fun s => s.freezeTile me.tile 1 va.toNat
      if r.cause = 0x15 then
        modS fun s => (s.freezeTile me.tile 3 r.finfo.toNat).freezeTower (towerOf me.tile) 3 r.finfo.toNat
        fault .watchdog r.finfo 0
      fault (codeCause r.cause) va r.finfo
  | [] =>
    match a.pend with
    | some id => waitFor (w id)
    | none =>
      match s.partOf me.tile with
      | none => fault .unreach va 0
      | some p =>
        faultIf (p.down.contains chip = true) .unreach va 0
        let id := s.host.nextReq
        let me' := s.who me
        let (tag, s0) := if rel then (some (s.release me).1.clock, s.releaseOnly me) else (none, s)
        let s1 := s0.setMyAgt me { a with pend := some id }
        let req : OutReq := {
          id := id, part := p.setup.num, toChip := chip, tile := me.tile, ctx := ((s.slot me.tile me.slot).ctx).getD 0xFF,
          va := va, op := op, eng := me'.eng, issue := me'.issue, rel := tag, sent := s.tick }
        set { s1 with host := { s1.host with nextReq := id + 1, outReqs := s1.host.outReqs ++ [req] } }
        waitFor (w id)

/-- The bytes that another chip answers. -/
def remoteCall (me : Me) (va : W64) (chip : BitVec 3) (op : RemoteOp) (w : Nat → WaitObj) : M (List Byte) := do
  pure (← remoteAsk me va chip op false w).bs

/-- Whether the dump region of a partition, 512 MiB, is at the top of a tower: its lowest one (R252). -/
def dumpIn (p : PartSetup) (t : BitVec 3) : Bool := (allTowers.find? fun w => p.towers.getLsbD w.toNat) == some t

/-- Whether a page of this chip is one that a partition may have in its stage-2 map: one of its own towers (R265), and not of the
dump region. -/
def mayMap (p : PartSetup) (t : BitVec 3) (page : Nat) : Bool :=
  p.towers.getLsbD t.toNat && !(dumpIn p t && decide (393216 - 8192 ≤ page))

/-! ## The GDDR 7 of a tower (R9, R18) -/

/-- Bytes of backing that live segments of a tower hold. -/
def State.backingUse (s : State) (w : BitVec 3) : Nat :=
  (tilesOf w).foldl (fun a t => (s.tile t).slots.toList.foldl (fun a k => k.mem.segs.foldl (fun a g => a + g.size) a) a) 0

/-- The physical pages of a tower that some stage-2 mapping names. -/
def State.usedPages (s : State) (t : BitVec 3) : List Nat :=
  allTowers.flatMap fun w => (s.tower w).mmu.s2.filterMap fun e => match e.2 with
    | .gddr x pg => if x = t then some pg.val else none
    | .host => none

/-- Whether z more bytes of a tower's 24 GiB can be had beside the backing of segments, mapped pages and the dump region.
(DESIGN CHOICE, log 10) -/
def State.gddrRoom (s : State) (w : BitVec 3) (z : Nat) : Bool :=
  decide (s.backingUse w + 65536 * (s.usedPages w).eraseDups.length +
    (if (s.partOfTower w).any fun p => dumpIn p.setup w then 2 ^ 29 else 0) + z ≤ 24 * 2 ^ 30)

/-- The page that the SMC of this chip maps for a tower where stage 2 fails (R260), if it maps one. -/
def State.smcPage (s : State) (w : BitVec 3) : Option PhysPage :=
  match Config.smcMap s.fresh with
  | some (.gddr t pg) =>
    if (s.partOfTower w).any (fun p => mayMap p.setup t pg.val) && ((s.usedPages t).contains pg.val || s.gddrRoom t 65536)
    then some (.gddr t pg) else none
  | some .host => none
  | none => none

/-- What becomes of a stage-2 failure (R260): the SMC maps the page, or ends the context with XLAT2. -/
def stage2Fail (me : Me) (va : W64) (ipa : Nat) : M Unit := do
  modS fun s => (s.freezeTile me.tile 2 (bits va 31 0)).freezeTower (vaTower va) 2 (bits va 31 0)
  let s ← get
  match s.smcPage (vaTower va) with
  | some p => set { (s.modTower (vaTower va) fun x => { x with mmu := { x.mmu with s2 := put1 x.mmu.s2 ipa p } }) with
      fresh := s.fresh + 1 }
  | none =>
    set { s with fresh := s.fresh + 1 }
    endFor me

/-- Ask the host for an IPA page it holds, once (R262); the message names the address that was accessed. -/
def State.askHost (s : State) (w : BitVec 3) (page ipa : Nat) : State :=
  match s.partOfTower w with
  | none => s
  | some p =>
    if p.awaiting.contains (w, ipa) then s
    else
      let s1 := s.modPart p.setup.num fun q => { q with awaiting := (w, ipa) :: q.awaiting }
      { s1 with host := { s1.host with outbox := s1.host.outbox ++
          [Msg.mk 0x86 (p.setup.num.setWidth 16) 0 0 0 (leBytes 1 w.toNat ++ leBytes 8 (page * 65536))] } }

/-- Whether a replica that an access uses is still locked by a store (R189): the one that is read, or any of them where the
access is a store or an atomic. -/
def RepStore.stalls (q : RepStore) (x : Xl) (acc : Nat) : Bool :=
  q.page == x.ipa && (match x.phys with
    | .gddr t pg => if acc = 0 then q.locked.contains (t, pg.val) else !q.locked.isEmpty
    | .host => false)

/-- The slot of an agent; none for the runtime bank's sequencer. -/
def State.homeSlot (s : State) (me : Me) : Option (BitVec 2) :=
  if me.agent = .seq ∧ (s.tile me.tile).inRuntime = true then none else some me.slot

/-- An agent as the writer of a store. -/
def State.writerOf (s : State) (me : Me) : Writer := .agent me.tile (s.homeSlot me) me.agent

/-- An access to a page that the host holds takes XLAT2 (R262): the recorders of the issuing tile, if it is of this chip, and of the owner
freeze (R298), and the page is asked for. -/
def State.hostHeld (s : State) (tile : Option (BitVec 8)) (va : W64) (ipa : Nat) : State :=
  let s1 := tile.elim s fun t => s.freezeTile t 2 (bits va 31 0)
  (s1.freezeTower (vaTower va) 2 (bits va 31 0)).askHost (vaTower va) (vaOff va / 65536) ipa

/-- Translate one piece at its owner (R255 to R260), with one retry after the SMC has mapped a page. -/
def translate1 (me : Me) (va : W64) (acc n : Nat) : Nat → M Piece
  | 0 => throw .gone
  | f + 1 => do
    let w := vaTower va
    let (r, s1) := (← get).translate w (vaOff va) acc
    set s1
    match r with
    | .ok x =>
      match x.phys with
      | .gddr _ _ =>
        if (s1.tower w).mmu.repStores.any (fun q => q.stalls x acc) then waitFor (.replica (va.setWidth 54))
        pure ⟨w, x, vaOff va % 65536, n⟩
      | .host =>
        modS fun s => s.hostHeld (some me.tile) va x.ipa
        waitFor (.hostPage (va.setWidth 54) x.ipa)
    | .s1 reason =>
      let c := ((s1.slot me.tile me.slot).ctx).getD 0xFF
      match s1.stage1Fail va reason acc c me.tile true with
      | some s2 => set s2; waitFor (.xlat (va.setWidth 54))
      | none => fault .xlat1 va 0
    | .s2 ipa =>
      if (s1.tower w).mmu.stage2 ipa = some .host then
        modS fun s => s.hostHeld (some me.tile) va ipa
        waitFor (.hostPage (va.setWidth 54) ipa)
      stage2Fail me va ipa
      translate1 me va acc n f

/-- Make whole the stores to replicated pages that a writer has begun (R189); `by_` names it (R300). -/
def State.finishStores (s : State) (w : Writer) (by_ : Who) : State :=
  allTowers.foldl (fun s t =>
    let mine := (s.tower t).mmu.repStores.filter (·.writer == w)
    let s1 := mine.foldl (fun s q =>
      (q.locked.foldl (fun s l => s.physWrite l.1 (l.2 * 65536 + q.off) q.bytes by_) s).preLog t q.page) s
    s1.modTower t fun x => { x with mmu := { x.mmu with repStores := x.mmu.repStores.filter fun q => !(q.writer == w) } }) s

/-- An agent goes on with its stores on its own turn. -/
def State.finishStore (s : State) (me : Me) : State := s.finishStores (s.writerOf me) (s.who me)

/-- Translate a whole range before any part of it is used, each page at its own tower (R253, R324). -/
def translateAll (me : Me) (va : W64) (n acc : Nat) : M (List Piece) :=
  mapM' (pagePieces (n / 65536 + 2) va.toNat n) fun p => translate1 me (BitVec.ofNat 64 p.1) acc p.2 8

/-- The physical place of a piece. -/
def Piece.loc (p : Piece) : BitVec 3 × Nat :=
  match p.x.phys with
  | .gddr t pg => (t, pg.val * 65536 + p.inPage)
  | .host => (0, 0)

/-- Race check of a global access on a CHECKED capability or a checked page (R193, R324); during a sweep it counts once (R194). -/
def gRace (me : Me) (ps : List Piece) (va : W64) (checked write : Bool) : M Unit := do
  let qs := ps.filter fun p => checked || p.x.chk
  if (← get).raceOn me then forM' qs fun p => do raceRange me ((← get).tower p.loc.1).gddr va p.loc.2 p.len write
  else if !qs.isEmpty then modS fun s => s.raceSupp me

def gRaceRecord (me : Me) (ps : List Piece) (checked write : Bool) : M Unit :=
  forM' ps fun p => do
    if (checked || p.x.chk) && (← get).raceOn me then
      modS fun s => s.modTower p.loc.1 fun x => { x with
        gddr := raceRecord (s.slot me.tile me.slot).race x.gddr me.tile write (unitsOf 64 p.loc.2 p.len) }

/-- Read n bytes of one chip at a virtual address whose capability has been checked: the bytes, and whether some are poisoned,
for which `bad` runs before the read takes effect. -/
def gReadHere (me : Me) (c : Cap) (va : W64) (n acc : Nat) (bad : M Unit) : M (List Byte × Bool) := do
  if vaChip va ≠ (← get).chipOf me.tile then
    let bs ← remoteCall me va (vaChip va) (.read n) fun id => .remote id va
    pure (bs, false)
  else
    let ps ← translateAll me va n acc
    gRace me ps va (c.has pCHECKED) false
    let s ← get
    let p := ps.any fun p => !((s.tower p.loc.1).gddr.poisoned p.loc.2 p.len).isEmpty
    if p then bad
    gRaceRecord me ps (c.has pCHECKED) false
    pure (ps.flatMap fun p => (s.tower p.loc.1).gddr.read p.loc.2 p.len, p)

/-- The first n bytes of a range of the chip of its first address, and the rest. -/
def chipSplit (va : W64) (n : Nat) : Nat × Nat :=
  let m := min n (2 ^ 51 - va.toNat % 2 ^ 51)
  (m, n - m)

/-- Read n bytes at a virtual address whose capability has been checked (R253, R254). -/
def gReadRaw (me : Me) (c : Cap) (va : W64) (n acc : Nat) (bad : M Unit) : M (List Byte × Bool) := do
  issuerCheck me va n
  let (m, r) := chipSplit va n
  let (x, p) ← gReadHere me c va m acc bad
  if r = 0 then pure (x, p)
  else
    let (y, q) ← gReadHere me c (va + BitVec.ofNat 64 m) r acc bad
    pure (x ++ y, p || q)

/-- Write pieces of a range. -/
def writePieces (me : Me) (ps : List Piece) (bs : List Byte) : M Unit :=
  match ps with
  | [] => pure ()
  | p :: r => do
    modS fun s => s.pieceWrite p.owner p.x p.inPage (bs.take p.len) (s.who me)
    writePieces me r (bs.drop p.len)

/-- The replicas of a page (R189). (DEDUCED, log 34) -/
def State.replicasOf (s : State) (w : BitVec 3) (ipa : Nat) : List (BitVec 3 × Nat) :=
  (s.tower w).mmu.s2.filterMap fun e => if e.1 = ipa then (match e.2 with
    | .gddr t pg => some (t, pg.val)
    | .host => none) else none

/-- Store over a piece. A store to a replicated page locks every replica, and one may stay locked (R189): a fresh value says whether the
store is made whole now or stands with replicas locked (DESIGN CHOICE, log 3). -/
def State.storePiece (s : State) (p : Piece) (bs : List Byte) (w : Writer) (by_ : Who) : State :=
  if p.x.rpl = false then s.pieceWrite p.owner p.x p.inPage bs by_
  else
    let (r, s1) := s.draw
    if bit r 0 = false then s1.pieceWrite p.owner p.x p.inPage bs by_
    else
      let reps := s1.replicasOf p.owner p.x.ipa
      let done := bits r 16 1 % (reps.length + 1)
      let s2 := (reps.take done).foldl (fun s q => s.physWrite q.1 (q.2 * 65536 + p.inPage) bs by_) s1
      let s3 := if done = 0 then s2 else s2.preLog p.owner p.x.ipa
      s3.modTower p.owner fun x => { x with mmu := { x.mmu with
        repStores := ⟨p.x.ipa, reps.drop done, p.inPage, bs, w, 0⟩ :: x.mmu.repStores } }

/-- Whether a store of a writer stands with replicas locked. -/
def State.storesOf (s : State) (w : Writer) : Bool := allTowers.any fun t => (s.tower t).mmu.repStores.any (·.writer == w)

/-- What is left of a store is `l`. -/
def State.leave (s : State) (me : Me) (l : Option (List OutPart)) : State :=
  s.setMyAgt me { s.myAgt me with got := [], used := 0, out := l }

/-- A store that has passed its checks is made, the parts on other chips first; it completes once those are answered and its last replica
is unlocked (R189, R254). -/
def runOut (me : Me) (va : W64) : List OutPart → M Unit
  | [] => do
    let s ← get
    if s.storesOf (s.writerOf me) then waitFor (.replica (va.setWidth 54))
    modS fun s => s.leave me none
  | .far v bs taken :: r => do
    let _ ← remoteCall me v (vaChip v) (.write bs taken) fun id => .remote id v
    modS fun s => s.leave me (some r)
    runOut me va r
  | .here p bs :: r => do
    modS fun s => (s.storePiece p bs (s.writerOf me) (s.who me)).leave me (some r)
    runOut me va r

/-- Split bytes over pieces. -/
def outPieces : List Piece → List Byte → List OutPart
  | [], _ => []
  | p :: r, bs => .here p (bs.take p.len) :: outPieces r (bs.drop p.len)

/-- The checks of a store to one chip, whose capability has been checked. `taken` is a store over data already taken as zeros for its
poison (R173): a word that it covers in part stays poisoned. `last` is a check that comes after those of memory (R326). -/
def gWriteHere (me : Me) (c : Cap) (va : W64) (bs : List Byte) (taken : Bool) (last : M Unit) : M (List Piece) := do
  let ps ← translateAll me va bs.length 1
  gRace me ps va (c.has pCHECKED) true
  let s ← get
  if !taken && ps.any fun p => !((s.tower p.loc.1).gddr.partPoison p.loc.2 p.len).isEmpty then
    modS fun s => s.freezePoison me.tile va.toNat
    fault .poison va 2
  last
  gRaceRecord me ps (c.has pCHECKED) true
  pure ps

/-- A store that reaches another chip: each of its parts is translated at its owner, and tested for poison that it covers in part, before
any is written (R165, R324). -/
def farParts (me : Me) (c : Cap) (va : W64) (bs : List Byte) (taken : Bool) (last : M Unit) : M (List OutPart) := do
  let (m, r) := chipSplit va bs.length
  if r = 0 then pure [.far va bs taken]
  else
    let ends := [(va, bs.take m), (va + BitVec.ofNat 64 m, bs.drop m)]
    let here := (← get).chipOf me.tile
    forM' ends fun x => do
      if vaChip x.1 ≠ here then
        let _ ← remoteCall me x.1 (vaChip x.1) (.check x.2.length taken) fun id => .remote id x.1
    let own ← mapM' (ends.filter fun x => vaChip x.1 = here) fun x => do
      pure (outPieces (← gWriteHere me c x.1 x.2 taken last) x.2)
    pure (((ends.filter fun x => vaChip x.1 ≠ here).map fun x => OutPart.far x.1 x.2 taken) ++ own.flatten)

/-- Write bytes at a virtual address whose capability has been checked (R253, R254). A store that waits once its checks have passed is
left as what is still to be done, and its checks are not made again. -/
def gWriteAs (me : Me) (c : Cap) (va : W64) (bs : List Byte) (taken : Bool) (last : M Unit) : M Unit := do
  match ((← get).myAgt me).out with
  | some l => runOut me va l
  | none =>
    issuerCheck me va bs.length
    let (_, r) := chipSplit va bs.length
    if r ≠ 0 ∨ vaChip va ≠ (← get).chipOf me.tile then
      let l ← farParts me c va bs taken last
      modS fun s => s.leave me (some l)
      runOut me va l
    else
      let ps ← gWriteHere me c va bs taken last
      if ps.any (·.x.rpl) then
        let l := outPieces ps bs
        modS fun s => s.leave me (some l)
        runOut me va l
      else writePieces me ps bs

def gWriteRaw (me : Me) (c : Cap) (va : W64) (bs : List Byte) : M Unit := gWriteAs me c va bs false (pure ())

/-- Read through a capability (R324); poison raises POISON with FINFO[1:0] = 2. -/
def gRead (me : Me) (c : Cap) (va : W64) (n : Nat) : M (List Byte) := do
  let (bs, _) ← gReadRaw me c va n 0 (do
    modS fun s => s.freezePoison me.tile va.toNat
    fault .poison va 2)
  pure bs

/-! ## One place for 16 B objects, in a segment or in global memory (R176, R328) -/

def State.placeStore (s : State) : Place → Store
  | .seg r => s.segStore r
  | .glob t _ _ => (s.tower t).gddr

def Place.addr : Place → Nat
  | .seg r => r.off
  | .glob _ a _ => a

def State.modPlace (s : State) (p : Place) (f : Store → Store) : State :=
  match p with
  | .seg r => s.modSegStore r f
  | .glob t _ _ => s.modTower t fun x => { x with gddr := f x.gddr }

/-- Write bytes at a place as an atomic does, keeping the release tags of the location (R182). (DEDUCED, log 41) -/
def State.placeWrite (s : State) (p : Place) (bs : List Byte) (w : Who) : State :=
  let s1 := match p with
    | .glob _ _ q => s.pieceWrite q.owner q.x q.inPage bs w
    | .seg _ => s.modPlace p fun m => m.write p.addr bs w
  s1.modPlace p fun m => { m with sync := (s.placeStore p).sync }

/-- Tags of either list, each once. -/
def joinTags (a b : List Tag) : List Tag := b.foldl (fun l c => if l.contains c then l else l ++ [c]) a

/-- The release tags of the n bytes of a location, by its 4 B words. -/
def State.placeTags (s : State) (p : Place) (n : Nat) : List Tag :=
  (unitsOf 4 p.addr n).foldl (fun l u => joinTags l (look [] (s.placeStore p).sync u)) []

def State.setPlaceTags (s : State) (p : Place) (n : Nat) (l : List Tag) : State :=
  s.modPlace p fun m => { m with sync := (unitsOf 4 p.addr n).foldl (fun y u => put1 y u l) m.sync }

/-- The bytes at a place. -/
def State.placeRead (s : State) (p : Place) (n : Nat) : List Byte := (s.placeStore p).read p.addr n

/-- An `amo` stores the n bytes of its new value: earlier releases at the location are observed through it, and its own, if it makes
one (R182). -/
def State.amoPut (s : State) (p : Place) (bs : List Byte) (tag : Option Tag) (w : Who) : State :=
  let l := showTags true (s.placeTags p bs.length)
  (s.placeWrite p bs w).setPlaceTags p bs.length (tag.elim l (addTag l))

/-- An arrival stores an object (R177): it carries the tag, and where PHASE flips the tags of the phase are observed (R182). -/
def State.arrivePut (s : State) (p : Place) (o : Nat) (tag : Option Clk) (chip : BitVec 3) (w : Who) : State :=
  let old := leNat (s.placeRead p 16)
  let l0 := s.placeTags p 16
  let l := tag.elim l0 fun c => addTag l0 ⟨chip, c, false, false⟩
  (s.placeWrite p (leBytes 16 o) w).setPlaceTags p 16 (if old % 2 = o % 2 then l else showTags false l)

end Sys2Proof.Machine
end

