-- ==== Sys2Proof/Machine/Flags.lean ====
section
/-! DEFINITION. Numbers and flags: formats (R112), special values (R113), rounding (R114), sticky flags (R115),
conversions (R116), exact sums (R124), BX blocks (R119 to R121), special functions (R128, R129). -/

namespace Sys2Proof.Machine

/-! ## Formats and values -/

/-- A binary floating-point format: exponent and fraction widths (Table 6.1). -/
structure Fmt where
  ew : Nat
  fw : Nat
  deriving DecidableEq, Repr, Inhabited

def fp32 : Fmt := ⟨8, 23⟩
def fp16 : Fmt := ⟨5, 10⟩
def bf16 : Fmt := ⟨8, 7⟩

def Fmt.bias (f : Fmt) : Nat := 2 ^ (f.ew - 1) - 1
def Fmt.width (f : Fmt) : Nat := f.ew + f.fw + 1

/-- The bit pattern of +∞. -/
def Fmt.inf (f : Fmt) : Nat := (2 ^ f.ew - 1) * 2 ^ f.fw

/-- The canonical quiet NaN (R113). -/
def Fmt.nan (f : Fmt) : Nat := f.inf + 2 ^ (f.fw - 1)

def Fmt.sign (f : Fmt) (s : Bool) : Nat := if s then 2 ^ (f.ew + f.fw) else 0

/-- A value: a NaN (signalling or not), the product 0 × ∞, an infinity, or ±m × 2^e exactly. -/
inductive Fx where
  | nan (sig : Bool)
  | bad
  | inf (s : Bool)
  | fin (s : Bool) (m : Nat) (e : Int)
  deriving DecidableEq, Repr, Inhabited

/-- Read a bit pattern (R112). -/
def Fmt.read (f : Fmt) (x : Nat) : Fx :=
  let s := x / 2 ^ (f.ew + f.fw) % 2 == 1
  let ex := x / 2 ^ f.fw % 2 ^ f.ew
  let fr := x % 2 ^ f.fw
  if ex = 2 ^ f.ew - 1 then (if fr = 0 then .inf s else .nan (fr < 2 ^ (f.fw - 1)))
  else if ex = 0 then .fin s fr (1 - (f.bias : Int) - f.fw)
  else .fin s (2 ^ f.fw + fr) ((ex : Int) - f.bias - f.fw)

def Fx.isNan : Fx → Bool
  | .nan _ => true
  | _ => false

def Fx.isSig : Fx → Bool
  | .nan b => b
  | _ => false

def Fx.neg : Fx → Fx
  | .nan b => .nan b
  | .bad => .bad
  | .inf s => .inf (!s)
  | .fin s m e => .fin (!s) m e

/-- Exact product. -/
def Fx.mul (a b : Fx) : Fx :=
  match a, b with
  | .nan x, .nan y => .nan (x || y)
  | .nan x, _ => .nan x
  | _, .nan y => .nan y
  | .bad, _ => .bad
  | _, .bad => .bad
  | .inf s, .inf t => .inf (s != t)
  | .inf s, .fin t m _ => if m = 0 then .bad else .inf (s != t)
  | .fin s m _, .inf t => if m = 0 then .bad else .inf (s != t)
  | .fin s m e, .fin t n g => .fin (s != t) (m * n) (e + g)

/-! ## Rounding (R114, Table 6.2) -/

/-- Rounding modes, in the encoding of FPMODE.RM (Table 3.3): RNE, RTZ, RDN, RUP. -/
abbrev Rm := BitVec 2

def rne : Rm := 0

/-- Flags DZ UF OF NV from bit 3 down, as FPMODE[7:4]. -/
abbrev Flg := BitVec 4

def fNV : Flg := 1
def fOF : Flg := 2
def fUF : Flg := 4
def fDZ : Flg := 8

/-- Whether q + (r/2^k, sticky) goes to q + 1. -/
def roundsUp (rm : Rm) (s : Bool) (q r half : Nat) (sticky : Bool) : Bool :=
  let inexact := r != 0 || sticky
  if rm = 0 then decide (half < r) || (decide (r = half) && (decide (half ≠ 0)) && (sticky || q % 2 == 1))
  else if rm = 1 then false
  else if rm = 2 then s && inexact
  else !s && inexact

/-- Number of bits of a natural number. -/
def bitlen (n : Nat) : Nat := if n = 0 then 0 else Nat.log2 n + 1

/-- Round ±(m + sticky) × 2^e, not zero, to a format: the bit pattern and the flags OF, UF. Where sticky is set, m has
more bits than the format. -/
def Fmt.round (f : Fmt) (rm : Rm) (s : Bool) (m : Nat) (e : Int) (sticky : Bool) : Nat × Flg :=
  let top : Int := (bitlen m : Int) - 1 + e
  let emin : Int := 1 - (f.bias : Int)
  let ex := max top emin
  let sh : Int := ex - f.fw - e
  let q := if sh ≤ 0 then m * 2 ^ (-sh).toNat else m / 2 ^ sh.toNat
  let r := if sh ≤ 0 then 0 else m % 2 ^ sh.toNat
  let half := if sh ≤ 0 then 0 else 2 ^ (sh.toNat - 1)
  let inexact := r != 0 || sticky
  let q1 := if roundsUp rm s q r half sticky then q + 1 else q
  let bits := (ex + f.bias).toNat * 2 ^ f.fw + q1 - 2 ^ f.fw
  if f.inf ≤ bits then
    let toInf := rm = 0 ∨ (rm = 2 ∧ s = true) ∨ (rm = 3 ∧ s = false)
    (f.sign s + (if toInf then f.inf else f.inf - 1), fOF)
  else (f.sign s + bits, if bits < 2 ^ f.fw ∧ inexact then fUF else 0)

/-- Round ±n/d × 2^e, d not zero. -/
def Fmt.roundQ (f : Fmt) (rm : Rm) (s : Bool) (n d : Nat) (e : Int) : Nat × Flg :=
  if n = 0 then (f.sign s, 0)
  else
    let k := bitlen d + f.fw + 3
    let q := n * 2 ^ k / d
    f.round rm s q (e - k) (n * 2 ^ k % d != 0)

/-! ## Exact sums (R113, R124) -/

/-- A dyadic number m × 2^e. -/
structure Dy where
  m : Int
  e : Int
  deriving DecidableEq, Repr, Inhabited

def Dy.add (a b : Dy) : Dy :=
  let e := min a.e b.e
  ⟨a.m * 2 ^ (a.e - e).toNat + b.m * 2 ^ (b.e - e).toNat, e⟩

def Fx.dy : Fx → Dy
  | .fin s m e => ⟨if s then -(m : Int) else m, e⟩
  | _ => ⟨0, 0⟩

def Fx.isNegZero : Fx → Bool
  | .fin s m _ => s && m == 0
  | _ => false

/-- The exact sum of addends rounded once (RoundPass, R124): NaN rules, infinities, zero signs, overflow. -/
def Fmt.sum (f : Fmt) (rm : Rm) (xs : List Fx) : Nat × Flg :=
  let anyNan := xs.any Fx.isNan
  let pos := xs.contains (.inf false)
  let neg := xs.contains (.inf true)
  if anyNan || xs.contains .bad || (pos && neg) then
    (f.nan, if xs.any Fx.isSig || !anyNan then fNV else 0)
  else if pos then (f.inf, 0)
  else if neg then (f.sign true + f.inf, 0)
  else
    let d : Dy := xs.foldl (fun (a : Dy) (x : Fx) => a.add x.dy) ⟨0, 0⟩
    if d.m = 0 then (f.sign (!xs.isEmpty && xs.all Fx.isNegZero), 0)
    else f.round rm (decide (d.m < 0)) d.m.natAbs d.e false

/-! ## Operations (Table 17.9, R348, R349) -/

def Fmt.add (f : Fmt) (rm : Rm) (a b : Nat) : Nat × Flg := f.sum rm [f.read a, f.read b]

def Fmt.sub (f : Fmt) (rm : Rm) (a b : Nat) : Nat × Flg := f.sum rm [f.read a, (f.read b).neg]

def Fmt.mul (f : Fmt) (rm : Rm) (a b : Nat) : Nat × Flg := f.sum rm [(f.read a).mul (f.read b)]

/-- ±(a × b) ± c, rounded once. -/
def Fmt.fma (f : Fmt) (rm : Rm) (a b c : Nat) (negP negC : Bool) : Nat × Flg :=
  let p := (f.read a).mul (f.read b)
  let c' := f.read c
  f.sum rm [if negP then p.neg else p, if negC then c'.neg else c']

def Fmt.div (f : Fmt) (rm : Rm) (a b : Nat) : Nat × Flg :=
  match f.read a, f.read b with
  | .nan x, .nan y => (f.nan, if x || y then fNV else 0)
  | .nan x, _ => (f.nan, if x then fNV else 0)
  | _, .nan y => (f.nan, if y then fNV else 0)
  | .inf s, .fin t _ _ => (f.sign (s != t) + f.inf, 0)
  | .fin s _ _, .inf t => (f.sign (s != t), 0)
  | .fin s m e, .fin t n g =>
    if n = 0 then (if m = 0 then (f.nan, fNV) else (f.sign (s != t) + f.inf, fDZ))
    else f.roundQ rm (s != t) m n (e - g)
  | _, _ => (f.nan, fNV)

/-- Order of two values that are not NaN, −0 below +0. -/
def Fmt.key (f : Fmt) (x : Nat) : Int :=
  if x / 2 ^ (f.ew + f.fw) % 2 = 1 then -((x % 2 ^ (f.ew + f.fw) : Nat) : Int) - 1 else (x : Int)

def Fmt.minmax (f : Fmt) (isMax : Bool) (a b : Nat) : Nat × Flg :=
  let x := f.read a
  let y := f.read b
  if x.isNan || y.isNan then (f.nan, if x.isSig || y.isSig then fNV else 0)
  else if (decide (f.key a ≤ f.key b)) != isMax then (a, 0) else (b, 0)

/-- |a − b| rounded once. -/
def Fmt.absd (f : Fmt) (rm : Rm) (a b : Nat) : Nat × Flg :=
  let x := f.read a
  let y := (f.read b).neg
  let d := x.dy.add y.dy
  match x, y with
  | .fin _ _ _, .fin _ _ _ => if d.m = 0 then (0, 0) else f.round rm false d.m.natAbs d.e false
  | _, _ =>
    let (r, g) := f.sum rm [x, y]
    (if r = f.nan then r else f.inf, g)

/-- The float column of Table 17.9; none for a code it does not have. -/
def Fmt.arith (f : Fmt) (rm : Rm) (code a b : Nat) : Option (Nat × Flg) :=
  match code with
  | 1 => some (f.add rm a b)
  | 2 => some (f.sub rm a b)
  | 3 => some (f.mul rm a b)
  | 4 => some (f.div rm a b)
  | 5 => some (f.minmax false a b)
  | 6 => some (f.minmax true a b)
  | 0x15 => some (f.absd rm a b)
  | _ => none

/-- Float conditions (Table 17.11) and the invalid flag of a signalling operand (R314). -/
def Fmt.cond (f : Fmt) (c : Nat) (a b : Nat) : Bool × Flg :=
  let x := f.read a
  let y := f.read b
  let un := x.isNan || y.isNan
  let g : Flg := if x.isSig || y.isSig then fNV else 0
  let zero := a % 2 ^ (f.ew + f.fw) = 0 ∧ b % 2 ^ (f.ew + f.fw) = 0
  let eq := decide (a = b) || decide zero
  let lt := !eq && decide (f.key a < f.key b)
  let r := match c with
    | 0 => !un && eq
    | 1 => un || !eq
    | 2 => !un && lt
    | 3 => !un && !lt
    | 4 => un
    | 5 => !un
    | 6 => !un && (lt || eq)
    | _ => !un && !(lt || eq)
  (r, g)

/-! ## Conversions (R116) -/

/-- Round ±m × 2^e to an integer. -/
def roundInt (rm : Rm) (s : Bool) (m : Nat) (e : Int) : Int :=
  let sh := (-e).toNat
  let q := if 0 ≤ e then m * 2 ^ e.toNat else m / 2 ^ sh
  let r := if 0 ≤ e then 0 else m % 2 ^ sh
  let half := if 0 ≤ e then 0 else 2 ^ (sh - 1)
  let q1 := if roundsUp rm s q r half false then q + 1 else q
  if s then -(q1 : Int) else q1

/-- Sat(x, lo, hi) (R7). -/
def sat (x lo hi : Int) : Int := if x < lo then lo else if hi < x then hi else x

/-- Float to integer, saturating to [lo, hi]. -/
def Fx.toInt (x : Fx) (rm : Rm) (lo hi : Int) : Int × Flg :=
  match x with
  | .nan _ => (0, fNV)
  | .bad => (0, fNV)
  | .inf s => (if s then lo else hi, fNV)
  | .fin s m e =>
    let v := roundInt rm s m e
    (sat v lo hi, if v < lo ∨ hi < v then fNV else 0)

/-- Integer to float. -/
def Fmt.ofInt (f : Fmt) (rm : Rm) (v : Int) : Nat × Flg :=
  if v = 0 then (0, 0) else f.round rm (decide (v < 0)) v.natAbs 0 false

/-- Float to another float format. -/
def Fmt.conv (f g : Fmt) (rm : Rm) (x : Nat) : Nat × Flg :=
  match f.read x with
  | .nan b => (g.nan, if b then fNV else 0)
  | .bad => (g.nan, fNV)
  | .inf s => (g.sign s + g.inf, 0)
  | .fin s m e => if m = 0 then (g.sign s, 0) else g.round rm s m e false

/-! ## Special functions (R128, R129) -/

/-- ⌊√n⌋, bit by bit from bit k − 1 of the root. -/
def isqrtGo (n : Nat) : Nat → Nat → Nat
  | 0, r => r
  | k + 1, r =>
    let r1 := r + 2 ^ k
    isqrtGo n k (if r1 * r1 ≤ n then r1 else r)

def isqrt (n : Nat) : Nat := isqrtGo n (bitlen n / 2 + 1) 0

/-- 1/x, correctly rounded RNE (R128). -/
def Fmt.recip (f : Fmt) (x : Nat) : Nat × Flg :=
  match f.read x with
  | .nan b => (f.nan, if b then fNV else 0)
  | .bad => (f.nan, fNV)
  | .inf s => (f.sign s, 0)
  | .fin s m e => if m = 0 then (f.sign s + f.inf, fDZ) else f.roundQ rne s 1 m (-e)

/-- 1/√x, correctly rounded RNE (R128). -/
def Fmt.rsqrt (f : Fmt) (x : Nat) : Nat × Flg :=
  match f.read x with
  | .nan b => (f.nan, if b then fNV else 0)
  | .bad => (f.nan, fNV)
  | .inf s => if s then (f.nan, fNV) else (0, 0)
  | .fin s m e =>
    if m = 0 then (f.sign s + f.inf, fDZ)
    else if s then (f.nan, fNV)
    else
      let (m1, e1) := if e % 2 = 0 then (m, e) else (2 * m, e - 1)
      let k := 64 + bitlen m1
      let q := isqrt (2 ^ (2 * k) / m1)
      f.round rne false q (-(e1 / 2) - k) (decide (q * q * m1 ≠ 2 ^ (2 * k)))

/-- √x, rounded once. -/
def Fmt.sqrt (f : Fmt) (rm : Rm) (x : Nat) : Nat × Flg :=
  match f.read x with
  | .nan b => (f.nan, if b then fNV else 0)
  | .bad => (f.nan, fNV)
  | .inf s => if s then (f.nan, fNV) else (f.inf, 0)
  | .fin s m e =>
    if m = 0 then (f.sign s, 0)
    else if s then (f.nan, fNV)
    else
      let (m1, e1) := if e % 2 = 0 then (m, e) else (2 * m, e - 1)
      let q := isqrt (m1 * 2 ^ 64)
      f.round rm false q (e1 / 2 - 32) (decide (q * q ≠ m1 * 2 ^ 64))

/-- a × b + c rounded once RNE to FP32. -/
def fma32 (a b c : Nat) : Nat := (fp32.fma rne a b c false false).1

/-- exp2 (R129): the coefficients are the binary32 values nearest the decimals that the rule shows. -/
def exp2of (x : Nat) : Nat × Flg :=
  match fp32.read x with
  | .nan b => (fp32.nan, if b then fNV else 0)
  | .bad => (fp32.nan, fNV)
  | .inf s => (if s then 0 else fp32.inf, 0)
  | .fin s m e =>
    let n := roundInt rne s m e
    let v := (Fx.fin s m e).dy
    if (Dy.add v ⟨-128, 0⟩).m ≥ 0 then (fp32.inf, fOF)
    else if (Dy.add v ⟨150, 0⟩).m < 0 then (0, fUF)
    else
      let d := Dy.add v ⟨-n, 0⟩
      let f := if d.m = 0 then 0 else (fp32.round rne (decide (d.m < 0)) d.m.natAbs d.e false).1
      let p := [0x3AAEC3FF, 0x3C1D955B, 0x3D635847, 0x3E75FDF0, 0x3F317218, 0x3F800000].foldl
        (fun p c => fma32 p f c) 0x39218489
      match fp32.read p with
      | .fin t pm pe => if pm = 0 then (0, 0) else fp32.round rne t pm (pe + n) false
      | _ => (p, 0)

/-- log2 (R129). -/
def log2of (x : Nat) : Nat × Flg :=
  match fp32.read x with
  | .nan b => (fp32.nan, if b then fNV else 0)
  | .bad => (fp32.nan, fNV)
  | .inf s => if s then (fp32.nan, fNV) else (fp32.inf, 0)
  | .fin s m e =>
    if m = 0 then (fp32.sign true + fp32.inf, fDZ)
    else if s then (fp32.nan, fNV)
    else
      let k := bitlen m - 1
      let e0 : Int := e + k
      -- m / 2^k against 1.41421354, the binary32 value 0x3FB504F3 = 11863283 / 2^23
      let big := decide (11863283 * 2 ^ k < m * 2 ^ 23)
      let e1 := if big then e0 + 1 else e0
      let mk : Int := if big then -(k : Int) - 1 else -(k : Int)
      let mv : Dy := ⟨m, mk⟩
      let rd (d : Dy) : Nat := if d.m = 0 then 0 else (fp32.round rne (decide (d.m < 0)) d.m.natAbs d.e false).1
      let d := rd (mv.add ⟨1, 0⟩)
      let z := (fp32.div rne (rd (mv.add ⟨-1, 0⟩)) d).1
      let w := (fp32.mul rne z z).1
      let q := [0x3ED30BB1, 0x3F13BB63, 0x3F76384F, 0x4038AA3B].foldl (fun q c => fma32 q w c) 0x3EA4258A
      fp32.fma rne z q (fp32.ofInt rne e1).1 false false

/-- tanh (R129). -/
def tanhOf (x : Nat) : Nat × Flg :=
  match fp32.read x with
  | .nan b => (fp32.nan, if b then fNV else 0)
  | .bad => (fp32.nan, fNV)
  | .inf s => (fp32.sign s + 0x3F800000, 0)
  | .fin s m e =>
    let a := x % 2 ^ 31
    if 0x41100000 ≤ a then (fp32.sign s + 0x3F800000, 0)
    else if a < 0x39800000 then (x, 0)
    else
      let u := (fp32.mul rne a 0x4038AA3B).1
      let (ex, g1) := exp2of (fp32.sign true + u)
      let (n, _) := fp32.sub rne 0x3F800000 ex
      let (d, _) := fp32.add rne 0x3F800000 ex
      let (t, g) := fp32.div rne n d
      let _ := m
      let _ := e
      (fp32.sign s + t % 2 ^ 31, (g ||| g1) &&& fNV)

/-! ## BX blocks (R119 to R121) -/

/-- The exact value of a BX element of width w under a header (R120). -/
def bxValue (w elem header : Nat) : Fx :=
  let e0 := header % 256
  let d := header / 256 % 16
  let mb := w - 1
  if e0 = 0 then .fin false 0 0
  else if e0 = 255 then .nan false
  else
    let sel := elem / 2 ^ mb % 2
    let ex : Int := if sel = 1 then (e0 : Int) - 1 - d else e0
    let raw := elem % 2 ^ mb
    let neg := decide (2 ^ (mb - 1) ≤ raw)
    .fin neg (if neg then 2 ^ mb - raw else raw) (ex - 127 - ((mb : Int) - 2))

/-- Insert into a descending list. -/
def insDesc (x : Nat) : List Nat → List Nat
  | [] => [x]
  | y :: r => if y ≤ x then x :: y :: r else y :: insDesc x r

/-- Encode 32 FP32 values as a BX block of width w (R121): header, elements, invalid. -/
def bxEncode (w : Nat) (xs : List Nat) : Nat × List Nat × Flg :=
  let mag (x : Nat) := x % 2 ^ 31
  let be (a : Nat) : Nat := a / 2 ^ 23
  if xs.any fun x => decide (fp32.inf ≤ mag x) then (0x00FF, xs.map fun _ => 0, fNV)
  else if xs.all fun x => decide (mag x = 0) then (0, xs.map fun _ => 0, 0)
  else
    let a := xs.foldl (fun l x => insDesc (mag x) l) []
    let e0 : Nat := min 254 (1 + be (a.headD 0))
    let d : Nat := min 15 (e0 - 1 - be ((a.drop 16).headD 0))
    let e1 : Int := (e0 : Int) - 1 - d
    let mb : Nat := w - 1
    let enc (x : Nat) : Nat :=
      match fp32.read x with
      | .fin s m e =>
        -- |x| < 2^(E1 - 126)
        let small := decide ((Dy.add ⟨(m : Int), e⟩ ⟨-1, e1 - 126⟩).m < 0)
        let ex : Int := if small then e1 else e0
        let v := sat (roundInt rne s m (e - (ex - 127 - ((mb : Int) - 2)))) (-((2 ^ (mb - 1) : Nat) : Int)) (((2 ^ (mb - 1) : Nat) : Int) - 1)
        (if small then 2 ^ mb else 0) + (v % ((2 ^ mb : Nat) : Int)).toNat
      | _ => 0
    (d * 256 + e0, xs.map enc, 0)

/-! ## Where flags collect -/

/-- FPMODE with sticky flags added (Table 3.3). -/
def Bank.addFlags (b : Bank) (g : Flg) : Bank := { b with fpmode := b.fpmode ||| (g.setWidth 64 <<< 4) }

/-- TSTAT vector flags VNV VOF VUF VDZ in bits 7 to 4 (Table 7.5). -/
def vecFlags (g : Flg) : W64 :=
  BitVec.ofNat 64 (128 * b2n (bit g 0) + 64 * b2n (bit g 1) + 32 * b2n (bit g 2) + 16 * b2n (bit g 3))

/-- TSTAT press flags MNV MOF MUF in bits 3 to 1. -/
def matFlags (g : Flg) : W64 := BitVec.ofNat 64 (8 * b2n (bit g 0) + 4 * b2n (bit g 1) + 2 * b2n (bit g 2))

/-- FPMODE.RM. -/
def Bank.rm (b : Bank) : Rm := BitVec.ofNat 2 b.fpmode.toNat

end Sys2Proof.Machine
end

