-- ==== Sys2Proof/Machine/Operands.lean ====
section
/-! DEFINITION. Operand forms and integer functions: Table 17.9 (integer column), Tables 17.10 to 17.12, the SM address
(R315), branch targets (R304), packed predicates (R48), amo operations (Table 18.6). -/

namespace Sys2Proof.Machine

/-! ## Integer functions (Table 17.9) -/

/-- A signed integer saturated to w bits. -/
def satS (w : Nat) (x : Int) : BitVec w := BitVec.ofInt w (sat x (-(2 ^ (w - 1) : Nat)) ((2 ^ (w - 1) : Nat) - 1))

/-- An integer saturated to unsigned w bits. -/
def satU (w : Nat) (x : Int) : BitVec w := BitVec.ofInt w (sat x 0 ((2 ^ w : Nat) - 1))

/-- The integer column; none for a reserved code. Codes 0x11 to 0x14 are VOP's alone. -/
def intFn (code : Nat) (a b : BitVec w) : Option (BitVec w) :=
  match code with
  | 0x01 => some (a + b)
  | 0x02 => some (a - b)
  | 0x03 => some (a * b)
  | 0x04 => some (a.sdiv b)
  | 0x05 => some (if a.toInt ≤ b.toInt then a else b)
  | 0x06 => some (if a.toInt ≤ b.toInt then b else a)
  | 0x07 => some (a &&& b)
  | 0x08 => some (a ||| b)
  | 0x09 => some (a ^^^ b)
  | 0x0A => some (a <<< (b.toNat % w))
  | 0x0B => some (a >>> (b.toNat % w))
  | 0x0C => some (a.sshiftRight (b.toNat % w))
  | 0x0D => some (BitVec.ofInt w (a.toInt * b.toInt / (2 ^ w : Nat)))
  | 0x0E => some (a.udiv b)
  | 0x0F => some (a.srem b)
  | 0x10 => some (if b = 0 then a else a.umod b)
  | 0x11 => some (satS w (a.toInt + b.toInt))
  | 0x12 => some (satS w (a.toInt - b.toInt))
  | 0x13 => some (satU w (a.toNat + b.toNat))
  | 0x14 => some (satU w (a.toNat - b.toNat))
  | 0x15 => some (BitVec.ofNat w (a.toInt - b.toInt).natAbs)
  | _ => none

/-- The function code that an IOPI function takes from Table 17.9 (Table 17.10). -/
def iopiCode (f : BitVec 3) : Nat :=
  match f.toNat with
  | 0 => 0x01 | 1 => 0x07 | 2 => 0x08 | 3 => 0x09 | 4 => 0x0A | 5 => 0x0B | 6 => 0x0C | _ => 0x03

/-- The second operand of IOPI (Table 17.10). -/
def iopiImm (f : BitVec 3) (i : BitVec 10) : W64 :=
  if f = 0 ∨ f = 7 then i.signExtend 64 else i.setWidth 64

/-- Integer conditions (Table 17.11). -/
def condI (c : BitVec 3) (a b : BitVec w) : Bool :=
  match c.toNat with
  | 0 => a == b
  | 1 => a != b
  | 2 => a.slt b
  | 3 => !a.slt b
  | 4 => a.ult b
  | 5 => !a.ult b
  | 6 => !b.slt a
  | _ => b.slt a

/-! ## Addresses and sizes (R315) -/

/-- Bytes of a size code (Table 17.12). -/
def sizeOf2 (z : BitVec 2) : Nat := 2 ^ z.toNat

/-- The SM effective address. -/
def Bank.sm (b : Bank) (base : BitVec 5) (i : BitVec 10) : W64 := b.gr base + i.signExtend 64

/-- The value of n loaded bytes, zero- or sign-extended to 64 bits. -/
def extend (n : Nat) (sx : Bool) (bs : List Byte) : W64 :=
  let v := leNat bs
  if sx = true ∧ 2 ^ (8 * n - 1) ≤ v then BitVec.ofNat 64 (2 ^ 64 - 2 ^ (8 * n) + v) else BitVec.ofNat 64 v

/-! ## Branches -/

/-- The offset of the instruction: an instruction that an rpt repeats stands after it (R56, R322). -/
def Bank.ipc (b : Bank) : W64 := if b.rpt.isSome then b.pc + 4 else b.pc

/-- The SB target (R304, R331). -/
def Bank.target (b : Bank) (n : BitVec 1) (f : BitVec 22) : W64 :=
  if n = 0 then b.ipc + f.setWidth 64 * 4 else b.ipc - f.setWidth 64 * 4

/-! ## Predicates -/

/-- The packed predicate byte (R48). -/
def Bank.packP (b : Bank) : Nat :=
  1 + (List.range 7).foldl (fun a i => a + 2 ^ (i + 1) * b2n (b.pr (BitVec.ofNat 3 (i + 1)))) 0

/-- Write p1 to p7 from bits 7 to 1 (R48). -/
def Bank.unpackP (b : Bank) (v : W64) : Bank :=
  (List.range 7).foldl (fun b i => b.setP (BitVec.ofNat 3 (i + 1)) (bit v (i + 1))) b

/-- PLOG (R383). -/
def plogFn (f : BitVec 3) (a b : Bool) : Bool :=
  match f.toNat with
  | 1 => a && b
  | 2 => a || b
  | 3 => a != b
  | 4 => a && !b
  | 5 => a || !b
  | _ => !a

/-! ## Atomics (Table 18.6) -/

/-- The new value of an amo that is not a cas, on w-bit values. -/
def amoNew (op : BitVec 4) (old b : BitVec w) : BitVec w :=
  match op.toNat with
  | 0 => b
  | 1 => old + b
  | 2 => old &&& b
  | 3 => old ||| b
  | 4 => old ^^^ b
  | 5 => if old.slt b then b else old
  | 6 => if old.slt b then old else b
  | 7 => if old.ult b then b else old
  | _ => if old.ult b then old else b

/-- What an amo of n bytes stores, none where a cas fails. -/
def amoStore (op : BitVec 4) (n : Nat) (old b c : W64) : Option W64 :=
  let lo (x : W64) : W64 := if n = 8 then x else (x.setWidth 32).setWidth 64
  if op = 9 then (if lo old = lo b then some (lo c) else none)
  else if n = 8 then some (amoNew op old b)
  else some ((amoNew op (old.setWidth 32) (b.setWidth 32) : BitVec 32).setWidth 64)

/-! ## Repeats (R56) -/

/-- The increment of a code. -/
def incOf (c : BitVec 3) : Int := (c.toNat : Int) - 2

/-- A field stepped i times, modulo m. -/
def stepField (f : Nat) (c : BitVec 3) (i m : Nat) : Nat := (((f : Int) + i * incOf c) % (m : Int)).toNat

/-- Whether the format of an opcode has an rs (or base) field, and an rt field (Tables 17.2, 17.3). -/
def hasRs (op : Nat) : Bool := !([0x02, 0x03, 0x1A, 0x1B, 0x1E, 0x1F, 0x2D].contains op)
def hasRt (op : Nat) : Bool :=
  hasRs op && !([0x01, 0x05, 0x0E, 0x0F, 0x10, 0x11, 0x14, 0x15, 0x17, 0x18, 0x1C, 0x1D, 0x22, 0x28, 0x29, 0x2A, 0x2C,
    0x32].contains op)

/-- A sequencer word stepped for repeat i: the rd, rs and rt fields that its format has (R56; DEDUCED, log 14). -/
def stepSeq (w : Word) (r : Rpt) : Word :=
  let op := bits w 31 26
  let d := stepField (bits w 22 18) r.a r.i.toNat 32
  let w1 := setBits w 22 18 d
  let w2 := if hasRs op then setBits w1 17 13 (stepField (bits w 17 13) r.b r.i.toNat 32) else w1
  if hasRt op then setBits w2 12 8 (stepField (bits w 12 8) r.c r.i.toNat 32) else w2

/-- Opcodes that may not follow an rpt: BR, JAL, JALR, LOOP, RPT, CMD, ITER, TRAP, RETS, WAITI (R57). -/
def rptForbids (w : Word) : Bool := [0x1A, 0x1B, 0x1C, 0x1D, 0x1E, 0x1F, 0x27, 0x2A, 0x2B, 0x2C].contains (bits w 31 26)

/-- A word that no section admits: what a repeat leaves of a word one of whose fields has left its register file (R56, R318). -/
def reservedVec : Word := 0xFFFFFFFF

/-- The field hi to lo stepped i times modulo 64; none where it leaves the register file that it names (R56). -/
def stepFile (w : Word) (hi lo : Nat) (c : BitVec 3) (i : Nat) : Option Word :=
  let f := stepField (bits w hi lo) c i 64
  if f < 2 ^ (hi + 1 - lo) then some (setBits w hi lo f) else none

/-- A vector word stepped for repeat i (R56, Tables 17.4, 17.5): by the first increment vd, in VX vsd; by the second va, in VM ad,
in VX vsa; by the third vb, in VGATH and VSCAT the index row. (DEDUCED, log 14) -/
def stepVec (w : Word) (r : Rpt) : Word :=
  let op := bits w 31 26
  let i := r.i.toNat
  let vx := [0x0B, 0x0C, 0x11, 0x12, 0x13, 0x19, 0x1D].contains op
  let vm := [0x09, 0x0A, 0x0D, 0x0E, 0x15, 0x16].contains op
  let vi := [0x17, 0x18].contains op
  let row := !(vx || vi || (vm && op != 0x0D && op != 0x0E))
  let w1 := if vx then stepFile w 25 23 r.a i else stepFile w 25 20 r.a i
  let w2 := w1.bind fun w => if vx then stepFile w 22 20 r.b i else if vm then stepFile w 19 17 r.b i else stepFile w 19 14 r.b i
  let w3 := w2.bind fun w => if row then stepFile w 13 8 r.c i else some w
  w3.getD reservedVec

/-- A press word stepped for repeat i (R376): acc, a and b, and for MWMUL and MWMAC the Y row 16 T + fsel with a. -/
def stepMat (w : Word) (r : Rpt) : Word :=
  let op := bits w 31 27
  let w1 := setBits w 26 19 (stepField (bits w 26 19) r.a r.i.toNat 256)
  let w2 := setBits w1 18 14 (stepField (bits w 18 14) r.b r.i.toNat 32)
  let w3 := setBits w2 13 10 (stepField (bits w 13 10) r.c r.i.toNat 16)
  if op = 5 ∨ op = 6 then
    let y := stepField (16 * bits w 4 4 + bits w 9 6) r.b r.i.toNat 32
    setBits (setBits w3 4 4 (y / 16)) 9 6 (y % 16)
  else w3

end Sys2Proof.Machine
end

