-- ==== Sys2Proof/Machine/Seq.lean ====
section
/-! DEFINITION. How a sequencer instruction retires, waits or faults: the next program counter, repeats (R56, R58), pass
ends (R55, R363), stops (R296). -/

namespace Sys2Proof.Machine

/-- Answer of an instruction. -/
abbrev Ans := Host.Outcome State Fault Refusal

/-! ## Pass ends (R55, R363) -/

/-- Stage predicates of a rotating loop: logical pk for k up to its stage count (R55). -/
def Bank.stages (b : Bank) (n : BitVec 2) : Bank :=
  let l := b.lstat
  (List.range (lsSt l n + 1)).foldl (fun b i => b.setP (BitVec.ofNat 3 (i + 1))
    (decide (lsLo l n ≤ i + 1) && decide (i + 1 ≤ lsHi l n))) b

/-- One rotation of RRB (R55). -/
def rotate (r : BitVec 6) : BitVec 6 := setBits (setBits r 2 0 ((r.toNat % 8 + 1) % 8)) 5 3 ((r.toNat / 8 + 1) % 7)

/-- The end of a pass of loop n (R55): the bank after it, and whether it branches back to the loop start. -/
def Bank.passEnd (b : Bank) (n : BitVec 2) : Bank × Bool :=
  let l := b.lstat
  let lc := vget n b.lc
  let back (b : Bank) : Bank := { b with pc := vget n b.loopStart }
  if lsRot l n = false then
    if lc ≠ 0 then (back { b with lc := vset n (lc - 1) b.lc }, true) else ({ b with lstat := lsSetAct l n false }, false)
  else if lc = 0 ∧ lsLo l n = lsHi l n ∧ lsHi l n = lsSt l n + 1 then ({ b with lstat := lsSetAct l n false }, false)
  else
    let b1 := if lc ≠ 0 then { b with lc := vset n (lc - 1) b.lc } else { b with lstat := lsSetLo l n (lsLo l n + 1) }
    let l1 := b1.lstat
    let l2 := if lsHi l1 n < lsSt l1 n + 1 then lsSetHi l1 n (lsHi l1 n + 1) else l1
    (back ({ b1 with lstat := l2, rrb := rotate b1.rrb }.stages n), true)

/-- LOOP record (R294). -/
def State.loopRecord (s : State) (ev : Nat) : State :=
  s.trace s.cur 3 0x02 (leBytes 8 (s.whereOf s.cur s.curSlot .seq) ++ leBytes 1 ev)

/-- Whether the pass end of loop n lands a stop of the running slot (R296, R297). -/
def State.stopHits (s : State) (n : BitVec 2) : Bool :=
  let c := (s.tile s.cur).trctl
  let m := bits c 13 12
  !s.inRt && (s.slot s.cur s.curSlot).faults.isEmpty &&
    (m == 1 || (m == 2 && bits c 15 14 == n.toNat && (vget n s.bank.lc).toNat % 2 ^ 16 == bits c 31 16))

/-- A stop lands (R296): STOP reads 00, a LOOP record is written, the slot begins to stop. -/
def State.landStop (s : State) : State :=
  ((s.modTile s.cur fun t => { t with trctl := setBits t.trctl 13 12 0 }).beginStop s.cur ({ · with landed := true })).loopRecord 2

/-- The pass ends where a word before one of the addresses `at_` has retired, the loop entered most recently first (R363): whether
a stop lands with them. -/
def State.loopEnds (s : State) (at_ : List W64) (land : Bool) : List (BitVec 2) → State
  | [] => if land then s.landStop else s
  | n :: r =>
    let b := s.bank
    if lsAct b.lstat n = false ∨ at_.contains (vget n b.loopEnd) = false then s.loopEnds at_ land r
    else
      let (b1, back) := b.passEnd n
      let s1 := s.setBank b1
      let land1 := land || s1.stopHits n
      if back then (if land1 then s1.landStop else s1) else (s1.loopRecord 1).loopEnds at_ land1 r

/-- Go on to the next word, past any pass end there. -/
def State.advance (s : State) : State :=
  let b := s.bank
  (s.setBank { b with pc := b.pc + 4 }).loopEnds [b.pc + 4] false b.loopOrder

/-- An rpt is done: the rpt and its successor have retired, and a pass may end with either (R363). (DEDUCED, log 104) -/
def State.rptDone (s : State) : State :=
  let b := s.bank
  (s.setBank { b with pc := b.pc + 8, rpt := none }).loopEnds [b.pc + 4, b.pc + 8] false b.loopOrder

/-- An instruction retires without a branch: the next repeat, or the next word (R56, R363). -/
def State.retire (s : State) : State :=
  let b := s.bank
  match b.rpt with
  | none => s.advance
  | some r => if r.i + 1 < r.cnt then s.setBank { b with rpt := some { r with i := r.i + 1 } } else s.rptDone

/-- A taken branch. -/
def State.jump (s : State) (t : W64) : State := s.modBank fun b => { b with pc := t, rpt := none }

/-! ## Shapes of meanings -/

/-- A register instruction under its predicate (R47): it changes the bank and retires. -/
def seqReg (q : BitVec 3) (s : State) (f : Bank → Bank) : Ans :=
  if s.bank.pr q then .next (s.modBank f).retire else .next s.retire

/-- Whether a wait for a barrier object goes on as the agent looks again at it, its checks made anew or not (R246, R330). -/
def WaitObj.goesOn (a b : WaitObj) : Bool :=
  match a, b with
  | .barrier x _ _, .barrier y _ _ => x == y
  | _, _ => false

/-- The moving sequencer begins to wait for an object, or goes on waiting for it. -/
def State.seqWait (s : State) (o : WaitObj) : State :=
  let a := s.seqAgt
  match a.wait with
  | some w =>
    if w.obj = o then s
    else if w.obj.goesOn o then s.setSeqAgt { a with wait := some { w with obj := o } }
    else
      let s1 := s.endMyWait s.seqMe noWho
      s1.setSeqAgt { s1.seqAgt with wait := some { obj := o } }
  | none => s.setSeqAgt { a with wait := some { obj := o } }

/-- How a sequencer computation ends. A wait keeps the program counter (R8); SUPP then stands as it did before, `supp`. -/
def seqEnd (supp : BitVec 24) (r : EStateM.Result Stop State Unit) : Ans :=
  match r with
  | .ok _ s => .next (s.clearRemote s.seqMe).retire
  | .error (.fault c v i _) s => .next ((s.clearRemote s.seqMe).raiseSeq c v i)
  | .error (.wait o) s => .next ((s.backSupp s.cur s.seqSlot supp).seqWait o)
  | .error .gone s => .next s

/-- SUPP of the slot that the moving sequencer reaches. -/
def State.suppNow (s : State) : BitVec 24 := (s.slot s.cur s.seqSlot).race.supp

/-- The moving sequencer's unit starts: it uses the answers of other chips from the first one on. -/
def State.startSeq (s : State) : State := s.setSeqAgt { s.seqAgt with used := 0 }

/-- A sequencer instruction under its predicate, as a computation. -/
def seqM (q : BitVec 3) (s : State) (m : M Unit) : Ans :=
  if s.bank.pr q then seqEnd s.suppNow (m s.startSeq) else .next s.retire

/-- The same, where the computation sets the program counter itself. -/
def seqJ (q : BitVec 3) (s : State) (m : M Unit) : Ans :=
  if s.bank.pr q then
    match m s.startSeq with
    | .ok _ t => .next t
    | r => seqEnd s.suppNow r
  else .next s.retire

/-- The word at the program counter, as ILLEGAL and PRIV report it (Table 13.1). (DEDUCED, log 77) -/
def State.wordAt (s : State) : Word :=
  let b := s.bank
  let code := if s.inRt then ((s.partOf s.cur).bind (·.runtime)).map (·.1)
    else (s.ctxOf s.cur s.curSlot).map (·.code.seq)
  let w (a : W64) : Word := ((code.getD []).getD (a.toNat / 4) 0)
  match b.rpt with
  | none => w b.pc
  | some r => stepSeq (w (b.pc + 4)) r

/-- ILLEGAL at the moving sequencer. -/
def illegal : M α := do fault .illegal ((← get).wordAt.setWidth 64) 0

def illegalIf (p : Prop) [Decidable p] : M Unit := if p then illegal else pure ()

/-- PRIV in U mode (R27). -/
def needS : M Unit := do
  let s ← get
  if (s.tile s.cur).priv = .u then fault .priv (s.wordAt.setWidth 64) 0

/-- Forms that the runtime bank does not have. -/
def noRuntime : M Unit := do illegalIf ((← get).inRt = true)

def readG (n : BitVec 5) : M W64 := do pure ((← get).bank.gr n)
def writeG (n : BitVec 5) (v : W64) : M Unit := modS fun s => s.modBank (·.setG n v)

/-- The moving sequencer as the agent of accesses. -/
def me : M Me := do pure (← get).seqMe

end Sys2Proof.Machine
end

