-- ==== Sys2Proof/Machine/Fetch.lean ====
section
/-! DEFINITION. What the next turn of an agent runs: the sequencer's fetch (R243, R244, R319), the stages and units of an
engine's entry (R31), and the words of a program placed for a single step. -/

namespace Sys2Proof.Machine

/-- What a turn amounts to: an instruction or event at a state, a state and no more, or an engine word that is none. -/
inductive Act where
  | run (i : Instr) (s : State)
  | rest (s : State)
  | stuck
  deriving DecidableEq, Repr

/-! ## The sequencer -/

/-- The code that the moving sequencer fetches from (R243). -/
def State.seqCode (s : State) : List Word :=
  if s.inRt then (((s.partOf s.cur).bind (·.runtime)).map (·.1)).getD []
  else ((s.ctxOf s.cur s.curSlot).map (·.code.seq)).getD []

/-- The word at an offset; none outside the section (R244). -/
def wordIn (code : List Word) (pc : W64) : Option Word :=
  if pc.toNat % 4 = 0 then code[pc.toNat / 4]? else none

/-- Whether a wait lets the agent run again on its own turn: a full deferral queue or a barrier object is read again (R385,
R433), an admission is tried again (R110), a store to a replicated page goes on (R189), a channel is tried again (R285),
a drop looks again (R106). -/
def WaitObj.retries : WaitObj → Bool
  | .pushd => true
  | .replica _ => true
  | .lane _ => true
  | .dropping _ => true
  | .barrier _ _ _ => true
  | .booking _ => true
  | _ => false

/-- Whether an agent's own turn leaves it waiting. -/
def Agt.stays (g : Agt) : Bool := g.got.isEmpty && g.wait.any fun w => !w.obj.retries

/-- The turn of a sequencer: a fault of the fetch, a reserved word, or its instruction (R319). It stands where its slot has
an entry due or stops, but for an instruction whose request or store is out (R236, R245). -/
def State.seqAct (s0 : State) (t : BitVec 8) : Act :=
  let s := { s0 with cur := t }
  let x := s.tile t
  let k := s.slot t s.curSlot
  let idle := !x.up || (!x.inRuntime && (x.running.isNone || ((x.stopping.isSome || x.stands k) && !k.sq.agt.inUnit) || !k.sq.hasIter))
  let blocked := s.seqAgt.stays
  if idle || blocked then .rest s
  else
    let s := match s.seqAgt.wait with
      | some w => match w.obj with
        | .replica _ => (s.finishStore s.seqMe).setSeqAgt { s.seqAgt with wait := none }
        | _ => s
      | none => s
    let b := s.bank
    let at_ := match b.rpt with
      | none => b.pc
      | some _ => b.pc + 4
    match wordIn s.seqCode at_ with
    | none => .rest (s.raiseSeq .fetchbound at_ 0)
    | some w0 =>
      let w := match b.rpt with
        | none => w0
        | some r => stepSeq w0 r
      match decodeWord .seq w with
      | .ok i => .run i s
      | .error _ => .run (.reservedWord w) s

/-! ## Engines -/

def Eng.section : Eng → Section
  | .vec => .vec | .mat => .mat | .xfr => .xfr | .dec => .dec

def Code.words (c : Code) : Eng → List Word
  | .vec => c.vec | .mat => c.mat | .xfr => c.xfr | .dec => c.dec

def Code.blocks (c : Code) : Eng → List Block
  | .vec => c.blkVec | .mat => c.blkMat | .xfr => c.blkXfr | .dec => c.blkDec

/-- The words of a block (R29, R83). -/
def Code.block (c : Code) (e : Eng) (b : BitVec 6) : List Word :=
  match (c.blocks e)[b.toNat]? with
  | none => []
  | some k => ((c.words e).drop k.start).take k.len

/-- The word that an engine runs next: the one at its unit, stepped where a repeat runs. -/
def unitWord (e : Eng) (ws : List Word) (unit : Nat) (rpt : Option Rpt) : Option Word :=
  (ws[unit]?).map fun w => match e, rpt with
    | .vec, some r => stepVec w r
    | .mat, some r => stepMat w r
    | _, _ => w

/-- Whether a slot runs on the tile. -/
def Tile.slotRuns (x : Tile) : Bool := x.up && !x.inRuntime && x.running.isSome

/-- Whether a stop has used up its budget (R245). -/
def Tile.late (x : Tile) : Bool := x.stopping.any fun p => decide (4096 ≤ p.cycles)

/-- Whether the engines of a slot may move: the slot runs, its tile is up, and no stop has used up its budget (R245). -/
def Tile.enginesRun (x : Tile) : Bool := x.slotRuns && !x.late

/-- Whether an engine of a slot that stops stands: for a fault at its unit boundary (R236); for a slice end where its time is
over, or at once where it is blocked (R245). -/
def Tile.halts (x : Tile) (k : Slot) (g : Agt) : Bool :=
  x.stands k || x.late || (x.stopping.isSome && g.wait.any fun w => w.obj.blocks)

/-- The turn of an engine of a tile (R31). A unit whose request, row or store is out is finished first (R236, R245). -/
def State.engAct (s0 : State) (t : BitVec 8) (e : Eng) : Act :=
  let s := { s0 with cur := t }
  let x := s.tile t
  let k := s.curSlot
  let g := (s.slot t k).engine e
  if !x.slotRuns || e == .dec || g.agt.stays || (x.halts (s.slot t k) g.agt && g.xs.sent.isNone && !g.agt.inUnit) then .rest s
  else
    let s := match g.agt.wait with
      | some w => match w.obj with
        | .replica _ => (s.finishStore ⟨t, k, (Eng.agent e)⟩).setAgt t k (Eng.agent e) { g.agt with wait := none }
        | _ => s
      | none => s
    match g.cur with
    | some c =>
      match s.ctxOf t k with
      | none => .rest s
      | some cx =>
        let ws := cx.code.block e c.blk
        if ws.length ≤ g.unit then .run (.entryRetire t e) s
        else match unitWord e ws g.unit g.rpt with
          | none => .rest s
          | some w => match decodeWord (Eng.section e) w with
            | .ok i => .run i s
            | .error _ => .stuck
    | none =>
      if x.stopping.isSome then .rest s
      else if ((s.slot t k).cmdQ e).items.isEmpty then .rest s
      else if g.admitted then .run (.entryWaitToken t e) s
      else .run (.entryAdmission t e) s

/-- Whether the slot that issued an entry runs (R228, R248). -/
def State.decRuns (s : State) (e : Entry) : Bool :=
  let x := s.tile e.tile
  x.enginesRun && (x.running.bind fun k => (x.slot k).ctx) == some e.ctx

/-- The entry at the front goes on from the agent state with which it was parked (R246). -/
def State.decResume (s : State) (w : BitVec 3) (g : Agt) : State :=
  s.modTower w fun t => { t with dec := { t.dec with
    agt := g
    q := { t.dec.q with items := match t.dec.q.items with
      | h :: r => { h with agt := none } :: r
      | [] => [] } } }

/-- The turn of a tower's decode engine (R228). -/
def State.decAct (s0 : State) (w : BitVec 3) : Act :=
  let d := (s0.tower w).dec
  match d.cur with
  | some c =>
    let s := { s0 with cur := c.e.tile }
    if !s.decRuns c.e then .run (.decEntryPark w) s
    else if d.agt.stays || (s.tile s.cur).halts (s.slot s.cur s.curSlot) d.agt then .rest s
    else match s.ctxById c.e.ctx with
      | none => .rest s
      | some cx =>
        match (cx.code.block .dec c.e.blk)[c.unit]? with
        | none => .run (.entryRetire c.e.tile .dec) s
        | some v => match decodeWord .dec v with
          | .ok i => .run i s
          | .error _ => .stuck
  | none =>
    match d.q.items.head? with
    | none => .rest s0
    | some h =>
      let e := h.e
      let s := { s0 with cur := e.tile }
      if !s.decRuns e then .run (.decEntryPark w) s
      else if d.agt.stays || (s.tile s.cur).stands (s.slot s.cur s.curSlot) then .rest s
      else if (s.tile e.tile).stopping.isSome then .run (.decEntryPark w) s
      else if h.agt.isSome then .rest (h.agt.elim s (s.decResume w))
      else if d.token then .run (.entryWaitToken e.tile .dec) s
      else .run (.entryAdmission e.tile .dec) s

/-! ## Turns -/

/-- The answer of another chip reaches the agent that asked (R254, R261): only an outstanding request is answered, and
only once. -/
def State.takeReply (s : State) (r : RemoteReply) : State :=
  match s.host.outReqs.find? (·.id == r.id) with
  | none => s
  | some q =>
    let s1 := { s with host := { s.host with outReqs := s.host.outReqs.filter fun x => x.id ≠ r.id } }
    let keep (w : Wait) : Option Wait := match w.obj with
      | .barrier _ _ _ => some w
      | _ => none
    let give (g : Agt) : Agt :=
      if g.pend = some r.id then { g with got := g.got ++ [r], pend := none, wait := g.wait.bind keep } else g
    let s2 := allSlots.foldl (fun s k => [Agent.seq, .vec, .mat, .xfr].foldl (fun s a =>
      s.setAgt q.tile k a (give (s.agt q.tile k a))) s) s1
    s2.modTile q.tile fun t => { t with rtAgt := give t.rtAgt }

/-- Rows of the opcode table that happen by themselves: those without an encoding. A reserved word only happens at a
fetch. -/
def isEvent (i : Instr) : Bool :=
  (encode i).isNone && match i with
    | .reservedWord _ => false
    | _ => true

/-- The store of a SEGPUT to a replicated page is made whole, and the command answered (R189). -/
def State.hostStore (s : State) (c : HostCmd) : State :=
  if s.storesOf (.host c) then (s.finishStores (.host c) hostWho).finishCmd 3 c stOK [] else s

/-- What a turn amounts to. (DEDUCED, log 27) -/
def State.act (s : State) : Turn → Act
  | .seq t => s.seqAct t
  | .eng t e => s.engAct t e
  | .dec w => s.decAct w
  | .event i => if isEvent i then .run i s else .rest s
  | .elapse n => .rest (s.elapse n)
  | .reply r => .rest (s.takeReply r)
  | .upset u => .rest (s.upset u)
  | .bringUp => .rest s.bringNext
  | .hostStore c => .rest (s.hostStore c)

/-- The turn that comes next: the agenda's first, else the one that Config.turn names (DESIGN CHOICE, log 2). -/
def State.nextTurn (s : State) : Turn × State :=
  match s.agenda with
  | [] => (Config.turn s.moves, { s with moves := s.moves + 1 })
  | t :: r => (t, { s with agenda := r, moves := s.moves + 1 })

/-! ## Placing one instruction (DESIGN CHOICE, log 7) -/

/-- A context that holds one word in each section, and one block in each table. -/
def oneWord (w : Word) : Context where
  id := 0
  part := 0
  slot := 0
  tiles := [0]
  code := { seq := [w], vec := [w], mat := [w], xfr := [w], msk := [], dec := [w], blkVec := [⟨0, 1, []⟩],
            blkMat := [⟨0, 1, []⟩], blkXfr := [⟨0, 1, []⟩], blkMsk := [], blkDec := [⟨0, 1, []⟩], levels := [],
            fmt := [], entry := 0, spareB := 0 }
  weight := 1
  caps := []
  handed := []
  started := 1
  done := 0
  sweeping := false
  complete := false
  session := 0
  seq := 0

/-- An entry of block 0 without tokens. -/
def oneEntry : Entry := ⟨0, 0, 0, none, none, Vector.replicate 4 0, 0, 0, 0, []⟩

/-- Whether a word is one that only the runtime bank gives a meaning of its own: firmware calls and RETS. -/
def ofRuntime (i : Instr) : Bool :=
  match i with
  | .setroot _ | .rings _ | .flush _ | .refuse _ | .tlbinv _ | .firmwareLaunch _ | .timeout _ | .migrate _ | .recread _
  | .rets _ | .retsSlot _ _ | .retsEnd _ _ => true
  | _ => false

/-- A running context of one word in slot 0 of tile 0, or a partition whose runtime is the word, and the turn of the
agent that reads its section. -/
def State.place (s : State) (i : Instr) (w : Word) : State :=
  if ofRuntime i then
    let p : Partition := {
      setup := { (default : PartSetup) with towers := 1, chips := 1 }, tiles := tilesOf 0, key := true, runtime := some ([w], 0), digest := [],
      digests := [], fatal := none, logDump := [], faultRing := none, cmdRing := none, service := none, gen := 0, timeoutUs := 200,
      down := [], pre := ⟨false, false, [], [], [], false⟩, statuses := [], stalledCmds := [], awaiting := [] }
    { (s.modTile 0 fun t => { t with up := true, inRuntime := true, priv := .s, rt := { t.rt with pc := 0, rpt := none } }) with
      parts := [p], agenda := [.seq 0] }
  else
    let s1 := { (s.modTile 0 fun t => { t with up := true, inRuntime := false, priv := .u, running := some 0 }) with
      ctxs := [oneWord w] }
    let live (k : Slot) : Slot := { k with ctx := some 0 }
    match Instr.sect i with
    | some .vec => { (s1.modSlot 0 0 fun k => { live k with vec := { k.vec with cur := some oneEntry, unit := 0 } }) with agenda := [.eng 0 .vec] }
    | some .mat => { (s1.modSlot 0 0 fun k => { live k with mat := { k.mat with cur := some oneEntry, unit := 0 } }) with agenda := [.eng 0 .mat] }
    | some .xfr => { (s1.modSlot 0 0 fun k => { live k with xfr := { k.xfr with cur := some oneEntry, unit := 0 } }) with agenda := [.eng 0 .xfr] }
    | some .dec => { ((s1.modSlot 0 0 live).modTower 0 fun t => { t with
        dec := { t.dec with cur := some { e := oneEntry } } }) with agenda := [.dec 0] }
    | _ => { (s1.modSlot 0 0 fun k => { live k with sq := { k.sq with
        hasIter := true, bank := { k.sq.bank with pc := 0, rpt := none } } }) with agenda := [.seq 0] }

end Sys2Proof.Machine
end

