-- ==== Sys2Proof/Machine/SeqInt.lean ====
section
/-! DEFINITION. Sequencer integer and predicate instructions: IOP, IOPI, LUI, ADDPC, CMP, CMPI, PLOG, PSAVE, PLOAD, SEL. -/

namespace Sys2Proof.Machine

/-- The functions that IOP admits (R312). -/
def iopFn (f : BitVec 5) (a b : W64) : Option W64 :=
  if 0x11 ≤ f.toNat ∧ f.toNat ≤ 0x14 then none else intFn f.toNat a b

/-- Where the word is none that its instruction admits (R318): ILLEGAL. -/
def State.illegalNow (s : State) : Ans := .next (s.raiseSeq .illegal (s.wordAt.setWidth 64) 0)

/-- R351. -/
def execIop (q : BitVec 3) (d s t f : BitVec 5) (st : State) : Ans :=
  match iopFn f (st.bank.gr s) (st.bank.gr t) with
  | some v => seqReg q st (·.setG d v)
  | none => st.illegalNow

/-- Size of the STACK segment of the slot that STKLIM names (R52, R395). -/
def State.stackSize (s : State) : Nat := (((s.slot s.cur s.seqSlot).seg 0).map (·.size)).getD 0

/-- The stack check of R52: segment 0 is STACK (R96). -/
def State.stackOk (s : State) (v : W64) : Bool :=
  ptrSeg v == 0 && decide ((s.slot s.cur s.seqSlot).mem.stkLimit.toNat ≤ ptrOff v) && decide (ptrOff v ≤ s.stackSize)

/-- R352; iopi.add into g2 is checked by R52. -/
def execIopi (q : BitVec 3) (d s : BitVec 5) (f : BitVec 3) (i : BitVec 10) (st : State) : Ans :=
  match intFn (iopiCode f) (st.bank.gr s) (iopiImm f i) with
  | none => st.illegalNow
  | some v =>
    if f = 0 ∧ d = 2 ∧ st.stackOk v = false ∧ st.bank.pr q = true then .next (st.raiseSeq .stacklim v 0)
    else seqReg q st (·.setG d v)

/-- R364. -/
def execLui (q : BitVec 3) (d : BitVec 5) (i : BitVec 18) (st : State) : Ans :=
  seqReg q st (·.setG d (i.setWidth 64 <<< 46))

/-- R327. -/
def execAddpc (q : BitVec 3) (d : BitVec 5) (i : BitVec 18) (st : State) : Ans :=
  seqReg q st fun b => b.setG d (b.ipc + 4 * i.signExtend 64)

/-- R336. -/
def execCmp (q d : BitVec 3) (s t : BitVec 5) (c : BitVec 3) (st : State) : Ans :=
  seqReg q st fun b => b.setP d (condI c (b.gr s) (b.gr t))

/-- R337. -/
def execCmpi (q d : BitVec 3) (s : BitVec 5) (c : BitVec 3) (i : BitVec 10) (st : State) : Ans :=
  seqReg q st fun b => b.setP d (condI c (b.gr s) (i.signExtend 64))

/-- R383. -/
def execPlog (q d s t f : BitVec 3) (st : State) : Ans :=
  seqReg q st fun b => b.setP d (plogFn f (b.pr s) (b.pr t))

/-- R382. -/
def execPsave (q : BitVec 3) (d : BitVec 5) (st : State) : Ans :=
  seqReg q st fun b => b.setG d (BitVec.ofNat 64 b.packP)

/-- R382. -/
def execPload (q : BitVec 3) (s : BitVec 5) (st : State) : Ans := seqReg q st fun b => b.unpackP (b.gr s)

/-- R388. -/
def execSel (q : BitVec 3) (d s t : BitVec 5) (c : BitVec 3) (st : State) : Ans :=
  seqReg q st fun b => b.setG d (if b.pr c then b.gr s else b.gr t)

/-- R388. -/
def execSelF (q : BitVec 3) (d s t : BitVec 5) (c : BitVec 3) (st : State) : Ans :=
  seqReg q st fun b => b.setF d (if b.pr c then b.fr s else b.fr t)

end Sys2Proof.Machine
end

