-- ==== Sys2Proof/Machine/SeqFloat.lean ====
section
/-! DEFINITION. Sequencer floating point: FOP, FMA, FCMP, FCVT. -/

namespace Sys2Proof.Machine

/-- Write an FP32 result and its flags. -/
def Bank.putF (b : Bank) (d : BitVec 5) (r : Nat × Flg) : Bank := (b.setF d (BitVec.ofNat 32 r.1)).addFlags r.2

/-- R349. -/
def execFop (q : BitVec 3) (d s t f : BitVec 5) (st : State) : Ans :=
  let b := st.bank
  match fp32.arith b.rm f.toNat (b.fr s).toNat (b.fr t).toNat with
  | some r => seqReg q st (·.putF d r)
  | none => st.illegalNow

/-- R348. -/
def execFma (q : BitVec 3) (d s t : BitVec 5) (f : BitVec 3) (st : State) : Ans :=
  seqReg q st fun b =>
    b.putF d (fp32.fma b.rm (b.fr s).toNat (b.fr t).toNat (b.fr d).toNat (decide (f = 3 ∨ f = 4)) (decide (f = 2 ∨ f = 4)))

/-- R344. -/
def execFcmp (q d : BitVec 3) (s t : BitVec 5) (c : BitVec 3) (st : State) : Ans :=
  seqReg q st fun b =>
    let r := fp32.cond c.toNat (b.fr s).toNat (b.fr t).toNat
    (b.setP d r.1).addFlags r.2

/-- The functions of Table 18.15. -/
def Bank.cvt (b : Bank) (d s : BitVec 5) (f : BitVec 4) : Bank :=
  let x := (b.fr s).toNat
  let toI (lo hi : Int) : Bank :=
    let r := (fp32.read x).toInt b.rm lo hi
    (b.setG d (BitVec.ofInt 64 r.1)).addFlags r.2
  let narrow (g : Fmt) : Bank :=
    let r := fp32.conv g b.rm x
    (b.setG d (BitVec.ofNat 64 r.1)).addFlags r.2
  match f.toNat with
  | 1 => toI (-(2 ^ 63)) (2 ^ 63 - 1)
  | 2 => toI 0 (2 ^ 64 - 1)
  | 3 => b.putF d (fp32.ofInt b.rm (b.gr s).toInt)
  | 4 => b.putF d (fp32.ofInt b.rm (b.gr s).toNat)
  | 5 => narrow fp16
  | 6 => narrow bf16
  | 7 => b.putF d (fp16.conv fp32 b.rm ((b.gr s).toNat % 2 ^ 16))
  | 8 => b.putF d (bf16.conv fp32 b.rm ((b.gr s).toNat % 2 ^ 16))
  | 9 => b.setG d ((b.fr s).setWidth 64)
  | _ => b.setF d ((b.gr s).setWidth 32)

/-- R345. -/
def execFcvt (q : BitVec 3) (d s : BitVec 5) (f : BitVec 4) (st : State) : Ans := seqReg q st fun b => b.cvt d s f

end Sys2Proof.Machine
end

