-- ==== Sys2Proof/Machine/SeqMem.lean ====
section
/-! DEFINITION. Sequencer loads, stores and atomics: LDS, STS, FLDS, FSTS, LDG, STG, LDQ, STQ, AMO. -/

namespace Sys2Proof.Machine

/-- The low n bytes of a register. -/
def lowBytes (n : Nat) (v : W64) : List Byte := leBytes n v.toNat

/-- R361. -/
def execLds (q : BitVec 3) (d b : BitVec 5) (z : BitVec 2) (x : BitVec 1) (i : BitVec 10) (s : State) : Ans :=
  seqM q s do
    let n := sizeOf2 z
    let bs ← segRead s.seqMe (s.bank.sm b i) n n
    writeG d (extend n (x == 1) bs)

/-- R393. -/
def execSts (q : BitVec 3) (d b : BitVec 5) (z : BitVec 2) (i : BitVec 10) (s : State) : Ans :=
  seqM q s do
    let n := sizeOf2 z
    segWrite s.seqMe (s.bank.sm b i) (lowBytes n (s.bank.gr d)) n

/-- R347. -/
def execFlds (q : BitVec 3) (d b : BitVec 5) (i : BitVec 10) (s : State) : Ans :=
  seqM q s do
    let bs ← segRead s.seqMe (s.bank.sm b i) 4 4
    modS fun s => s.modBank (·.setF d (BitVec.ofNat 32 (leNat bs)))

/-- R350. -/
def execFsts (q : BitVec 3) (d b : BitVec 5) (i : BitVec 10) (s : State) : Ans :=
  seqM q s do
    segWrite s.seqMe (s.bank.sm b i) (leBytes 4 (s.bank.fr d).toNat) 4

/-- R359: the checks of R324, natural alignment after the first. -/
def execLdg (q : BitVec 3) (d s : BitVec 5) (t : BitVec 4) (x : BitVec 1) (z : BitVec 2) (st : State) : Ans :=
  seqM q st do
    let n := sizeOf2 z
    let va := st.bank.gr s
    let c := st.bank.capr t
    capCheck st.seqMe c va n [pREAD]
    faultIf (va.toNat % n ≠ 0) .align va 0
    let bs ← gRead st.seqMe c va n
    writeG d (extend n (x == 1) bs)

/-- R393. -/
def execStg (q : BitVec 3) (d s : BitVec 5) (t : BitVec 4) (z : BitVec 2) (st : State) : Ans :=
  seqM q st do
    let n := sizeOf2 z
    let va := st.bank.gr s
    let c := st.bank.capr t
    capCheck st.seqMe c va n [pWRITE]
    faultIf (va.toNat % n ≠ 0) .align va 0
    gWriteRaw st.seqMe c va (lowBytes n (st.bank.gr d))

/-- R360. -/
def execLdq (q : BitVec 3) (d b : BitVec 5) (i : BitVec 10) (s : State) : Ans :=
  seqM q s do
    let bs ← segRead s.seqMe (s.bank.sm b i) 16 16
    writeG d (BitVec.ofNat 64 (leNat (bs.take 8)))
    writeG (d + 1) (BitVec.ofNat 64 (leNat (bs.drop 8)))

/-- R393. -/
def execStq (q : BitVec 3) (d b : BitVec 5) (i : BitVec 10) (s : State) : Ans :=
  seqM q s do
    segWrite s.seqMe (s.bank.sm b i) (lowBytes 8 (s.bank.gr d) ++ lowBytes 8 (s.bank.gr (d + 1))) 16

/-- The place of an atomic in a segment, checked as R323, without race detection (R191). -/
def segPlace (me : Me) (p : W64) (n align : Nat) (write : Bool) : M Place := do
  let r ← segAccess me p n align write false
  if !((← get).segPoison r n).isEmpty then
    modS fun s => s.freezePoison me.tile p.toNat
    fault .poison p 0
  pure (.seg r)

/-- The place of an aligned range of at most 16 B in global memory on this chip, whose capability has been checked. -/
def globPlace (me : Me) (va : W64) (n acc : Nat) : M Place := do
  let ps ← translateAll me va n acc
  match ps with
  | p :: _ =>
    if !(((← get).tower p.loc.1).gddr.poisoned p.loc.2 n).isEmpty then
      modS fun s => s.freezePoison me.tile va.toNat
      fault .poison va 2
    pure (.glob p.loc.1 p.loc.2 p)
  | [] => fault .xlat1 va 0

/-- The atomic at a place (R328, R182): acquire, then release, then the new value. Answers the old value. -/
def amoAt (me : Me) (p : Place) (op : BitVec 4) (n : Nat) (b c : W64) (acq rel : Bool) : M W64 := do
  let old := BitVec.ofNat 64 (leNat ((← get).placeRead p n))
  if acq then modS fun s => s.acquire me (seenTags true (s.chipOf me.tile) (s.placeTags p n))
  match amoStore op n old b c with
  | some v => modS fun s =>
      if rel then
        let (tag, s1) := s.release me
        s1.amoPut p (leBytes n v.toNat) (some ⟨s.chipOf me.tile, tag, true, true⟩) (s.who me)
      else s.amoPut p (leBytes n v.toNat) none (s.who me)
  | none => if rel then modS fun s => s.releaseOnly me
  pure old

/-- R328. -/
def execAmo (q : BitVec 3) (d s t : BitVec 5) (w c l a : BitVec 1) (o : BitVec 4) (st : State) : Ans :=
  seqM q st do
    let n := if w = 1 then 8 else 4
    let p := st.bank.gr s
    let x := st.bank.gr d
    let y := st.bank.gr (d + 1)
    if c = 0 then
      let pl ← segPlace st.seqMe p n n true
      writeG d (← amoAt st.seqMe pl o n x y (a == 1) (l == 1))
    else
      let cp := st.bank.capr (t.setWidth 4)
      capCheck st.seqMe cp p n [pREAD, pWRITE, pATOMIC]
      faultIf (p.toNat % n ≠ 0) .align p 0
      issuerCheck st.seqMe p n
      if vaChip p ≠ st.chipOf st.cur then
        let r ← remoteAsk st.seqMe p (vaChip p) (.amo o (w == 1) x y) (l == 1) fun id => .remote id p
        if a = 1 then modS fun s => s.acquire st.seqMe r.tags
        writeG d (BitVec.ofNat 64 (leNat r.bs))
      else
        let pl ← globPlace st.seqMe p n 2
        writeG d (← amoAt st.seqMe pl o n x y (a == 1) (l == 1))

end Sys2Proof.Machine
end

