-- ==== Sys2Proof/Machine/Sync.lean ====
section
/-! DEFINITION. Synchronisation shared by the agents: queues and their spare room (R33, R34, R37), semaphores (R32, R390),
barrier objects (R176 to R179), completion records (R174). -/

namespace Sys2Proof.Machine

/-! ## Queues -/

/-- Depth of a queue id (Table 2.4). -/
def depthOf (q : BitVec 8) : Nat :=
  if q = 0 ∨ q = 1 ∨ q = 2 then 16 else if q = 3 ∨ q = 9 then 64 else 8

/-- Whether a push may complete now: an ordinary one below the depth, or one into the granted spare room (R33, R36). -/
def Queue.canPush (q : Queue α) (depth : Nat) (grant : Bool) : Bool :=
  decide (q.items.length < depth) || (grant && decide (q.items.length = depth))

def Queue.push (q : Queue α) (x : α) : Queue α := { q with items := q.items ++ [x] }

/-- Remove the oldest item; the spare room is re-armed when the occupancy is back at the depth or below (R37). -/
def Queue.pop (q : Queue α) (depth : Nat) (w : Who) : Queue α :=
  let r := q.items.drop 1
  { items := r, spare := q.spare && decide (depth < r.length), popper := w }

/-- The FIFO of 64-bit elements of an id. -/
def Queues.fifo (q : Queues) (n : BitVec 8) : Queue (Item W64) :=
  if n = 4 then q.vecSeq else if n = 5 then q.matSeq else q.xfrSeq

def Queues.setFifo (q : Queues) (n : BitVec 8) (f : Queue (Item W64)) : Queues :=
  if n = 4 then { q with vecSeq := f } else if n = 5 then { q with matSeq := f } else { q with xfrSeq := f }

/-- Whether a grant lets an agent push into the spare room, and the grant used up. -/
def State.granted (s : State) (m : Me) : Bool := (s.myAgt m).grant
def State.useGrant (s : State) (m : Me) : State := s.setMyAgt m { s.myAgt m with grant := false }

/-- An element of an agent, with what its push releases (R182). -/
def State.item (s : State) (m : Me) (v : α) : Item α := { val := v, src := s.who m, knows := s.snap m }

/-- Push an element to a FIFO of the slot, or wait. The push releases (R182). -/
def pushFifo (m : Me) (q : BitVec 8) (v : W64) : M Unit := do
  let s ← get
  let f := (s.slot m.tile m.slot).q.fifo q
  if f.canPush 8 (s.granted m) then
    modS fun s => ((s.modSlot m.tile m.slot fun k => { k with
      q := k.q.setFifo q (f.push (s.item m v)) }).useGrant m).releaseOnly m
  else waitFor (.push q)

/-- Push a completion record to the event queue of a tile's slot, or wait (R34, R174). -/
def pushEvent (m : Me) (r : BitVec 128) : M Unit := do
  let s ← get
  let f := (s.slot m.tile m.slot).q.ev
  if f.canPush 64 (s.granted m) then
    modS fun s => ((s.modSlot m.tile m.slot fun k => { k with
      q := { k.q with ev := f.push (s.item m r) } }).useGrant m).releaseOnly m
  else waitFor (.push 9)

/-- A completion record (Table 9.7): context, engine, issue, step, status, item, value. -/
def eventRecord (ctx eng : BitVec 8) (issue : BitVec 16) (step status : BitVec 8) (item : BitVec 16) (value : W64) :
    BitVec 128 :=
  BitVec.ofNat 128 (ctx.toNat + 2 ^ 8 * eng.toNat + 2 ^ 16 * issue.toNat + 2 ^ 32 * item.toNat + 2 ^ 48 * status.toNat +
    2 ^ 56 * step.toNat + 2 ^ 64 * value.toNat)

/-! ## Semaphores -/

/-- What is left of a count for an agent that is not waiting yet: waiters are served first (R390).
(DEDUCED, log 38) -/
def Sems.free (k : Sems) (n : BitVec 3) : Nat := (vget n k.count).toNat - (k.waiters.filter (·.1 == n)).length

/-- Add 1, remembering the signaller and what the signal releases (R182); none at 65,535 (R32). -/
def Sems.signal (k : Sems) (n : BitVec 3) (w : Who) (r : Knows) : Option Sems :=
  if vget n k.count = ones 16 then none
  else some { k with
    count := vset n (vget n k.count + 1) k.count
    signals := k.signals ++ [(n, w)]
    known := put1 k.known n.toNat (joinView (look [] k.known n.toNat) r) }

/-- Remove the first entry of a semaphore. -/
def dropFirst [BEq α] (a : α) : List (α × β) → List (α × β)
  | [] => []
  | x :: r => if x.1 == a then r else x :: dropFirst a r

/-- Subtract 1, consuming the oldest signal. -/
def Sems.take (k : Sems) (n : BitVec 3) : Sems :=
  { k with count := vset n (vget n k.count - 1) k.count, signals := dropFirst n k.signals }

/-- The signaller that the next decrement consumes. -/
def Sems.setter (k : Sems) (n : BitVec 3) : Who := ((k.signals.find? (·.1 == n)).map (·.2)).getD {}

/-- An agent takes one from a count: every signal so far comes before it in the order of the semaphore, and is acquired (R182). -/
def Slot.takeSem (k : Slot) (n : BitVec 3) (a : Agent) : Slot :=
  { (k.learn a (look [] k.sems.known n.toNat)) with sems := k.sems.take n }

/-- Insert a waiter of a semaphore before the waiters that a test picks. -/
def insWaiter (late : BitVec 3 × Agent × W64 → Bool) (x : BitVec 3 × Agent × W64) :
    List (BitVec 3 × Agent × W64) → List (BitVec 3 × Agent × W64)
  | [] => [x]
  | y :: r => if late y then x :: y :: r else y :: insWaiter late x r

/-- An agent joins the waiters of a semaphore, behind those that began in an earlier cycle; among those of one cycle the order is that of
agentOrd (R390). -/
def State.joinSem (s : State) (t : BitVec 8) (k : BitVec 2) (n : BitVec 3) (a : Agent) : State :=
  let late (x : BitVec 3 × Agent × W64) : Bool := x.1 == n && decide (agentOrd a < agentOrd x.2.1) && x.2.2 == s.tick
  if (s.slot t k).sems.waiters.any fun x => x.1 == n && x.2.1 == a then s
  else s.modSlot t k fun x => { x with sems := { x.sems with waiters := insWaiter late (n, a, s.tick) x.sems.waiters } }

/-! ## TSTAT (Table 7.5, R144, R397) -/

/-- TSTAT after an effect: bits, counts, fold code, tile of a NaN (R139, R143). -/
def TstatEff.on (e : TstatEff) (t : W64) : W64 :=
  let t1 := t ||| e.flags
  let t2 := if e.fchg then setBits t1 55 40 (min 0xFFFF (bits t1 55 40 + 1)) else t1
  let t3 := if e.thr then setBits t2 31 16 (min 0xFFFF (bits t2 31 16 + 1)) else t2
  let t4 := e.fold.elim t3 fun f => setBits t3 63 56 f
  e.nan.elim t4 fun c => setBits t4 39 32 c.toNat

/-- Whether an effect only sets bits. -/
def TstatEff.plain (e : TstatEff) : Bool := e.fold.isNone && !e.fchg && !e.thr && e.nan.isNone

/-- TSTAT after effects. -/
def tstatOn (l : List TstatEff) (t : W64) : W64 := l.foldl (fun t e => e.on t) t

/-- Whether the sequencer of a tile sees an effect by now (R144): its entry retired 64 c ago or more, or it happens before (R182, R379). -/
def Slot.sees (k : Slot) (t : BitVec 8) (tick : W64) (e : TstatEff) : Bool :=
  e.since.any (fun n => decide (64 ≤ (tick - n).toNat)) || decide (e.stamp < look 0 (look [] k.knows (agentOrd .seq)) (agentKey t e.agent))

/-- A slot whose effects on TSTAT are those that its sequencer need not see. -/
def Slot.tstatSync (k : Slot) (t : BitVec 8) (tick : W64) : Slot :=
  let l := k.effs.filter fun e => !k.sees t tick e
  { k with effs := l, seen := if l.isEmpty then k.tstat else tstatOn (k.effs.filter (k.sees t tick)) k.seen }

/-- An agent's entry changes TSTAT (R143). -/
def State.modTstat (s : State) (m : Me) (e : TstatEff) : State :=
  if e.plain = true ∧ e.flags = 0 then s
  else
    let f : TstatEff := { e with agent := m.agent, issue := (s.who m).issue, stamp := s.moves }
    s.modSlot m.tile m.slot fun k =>
      let k1 := k.tstatSync m.tile s.tick
      { k1 with tstat := f.on k1.tstat, effs := k1.effs ++ [f] }

/-- The effects of an agent that a number picks to come first, and the others. -/
def Slot.effSplit (k : Slot) (a : Agent) (r : W64) : List TstatEff × List TstatEff :=
  let l := k.effs.filter fun e => e.agent == a
  let n := bits r (12 * agentOrd a + 11) (12 * agentOrd a) % (l.length + 1)
  (l.take n, l.drop n)

/-- Whether an effect belongs to an entry that has retired, and none of whose effects stand in a list. -/
def TstatEff.whole (e : TstatEff) (rest : List TstatEff) : Bool := e.since.isSome && !(rest.any fun x => x.issue == e.issue)

/-- The agents, in their order. -/
def allAgents : List Agent := [.seq, .vec, .mat, .xfr, .dec]

/-- The fields of TSTAT (Table 7.5), high and low bit: LASTFOLD, FCHG, NANACC and THRCNT, then the flags. -/
def tstatFields : List (Nat × Nat) :=
  [(63, 56), (55, 40), (39, 32), (31, 16), (12, 12), (11, 11), (10, 10), (7, 7), (6, 6), (5, 5), (4, 4), (3, 3), (2, 2), (1, 1)]

/-- A field of TSTAT as an unsynchronised read sees it (R144): of the effects that it need not see, those that a number picks; a count, a
fold code or a tile number is that before or after an entry. -/
def Slot.tstatField (k : Slot) (j : Nat) (r : W64) : W64 :=
  tstatOn (allAgents.flatMap fun a =>
    let p := k.effSplit a r
    if j < 4 then p.1.filter fun e => e.whole p.2 else p.1) k.seen

/-- What a clear comes after (R397): of each agent the effects that a number picks, whole, and no count, fold code or tile number of an
entry that goes on; and the effects that come after it. -/
def Slot.clearSplit (k : Slot) (r : W64) : List TstatEff × List TstatEff :=
  let ps := allAgents.map fun a =>
    let p := k.effSplit a r
    let q := p.1.takeWhile fun e => e.plain || e.whole p.2
    (q, p.1.drop q.length ++ p.2)
  (ps.flatMap (·.1), ps.flatMap (·.2))

/-! ## Barrier objects -/

/-- EXPECTED, PHASE, ARRIVED of an object (Table 9.9). -/
def objExpected (o : Nat) : Nat := o / 2 ^ 32 % 2 ^ 32
def objPhase (o : Nat) : Nat := o % 2
def objArrived (o : Nat) : Nat := o / 2 ^ 64 % 2 ^ 64

/-- The object after an arrival of n bytes; none on overshoot (R177). -/
def objArrive (o n : Nat) : Option Nat :=
  let a := objArrived o + n
  let low := o % 2 ^ 64
  if objExpected o < a then none
  else if a = objExpected o then some (if objPhase o = 0 then low + 1 else low - 1)
  else some (low + 2 ^ 64 * a)

/-- An arrival at an object that has been checked (R177): it releases, and the object carries the tag. -/
def arriveAt (m : Me) (p : Place) (addr : W64) (n : Nat) (finfo : W64) : M Unit := do
  if n = 0 then pure ()
  else
    let s ← get
    match objArrive (leNat (s.placeRead p 16)) n with
    | none => fault .barrier addr finfo
    | some o =>
      let (tag, s1) := s.release m
      set (s1.arrivePut p o (some tag) (s1.chipOf m.tile) (s1.who m))

/-- The PHASE of an object. -/
def State.phaseAt (s : State) (p : Place) : Nat := objPhase (leNat (s.placeRead p 16))

/-- A place as it stands now: a page may have moved since it was translated (R262). None while its object cannot be read. -/
def State.placeNow (s : State) (p : Place) : Option Place :=
  match p with
  | .seg r => some (.seg r)
  | .glob _ _ q => match (s.tower q.owner).mmu.stage2 q.x.ipa with
    | some (.gddr t pg) =>
      let x : Xl := { q.x with phys := .gddr t pg }
      if (s.tower q.owner).mmu.repStores.any fun z => z.stalls x 0 then none
      else some (.glob t (pg.val * 65536 + q.inPage) { q with x := x })
    | _ => none

/-- The place of a barrier object whose checks an agent has made: they are made once (R330). -/
def State.barrierPlace (s : State) (m : Me) (addr : W64) : Option Place :=
  (s.myAgt m).wait.bind fun w => match w.obj with
    | .barrier a p _ => if a = addr then p else none
    | _ => none

/-- Where an object's PHASE differs from a phase, its place. -/
def State.flipped (s : State) (p : Place) (ph : Nat) : Option Place := (s.placeNow p).filter fun q => s.phaseAt q != ph

/-- The wait for a barrier object ends: it acquires from the arrivals of the phase that flipped and of earlier ones (R179, R182), and the
agent that made PHASE differ ended it (R300). -/
def State.endBarrier (s : State) (m : Me) (q : Place) : State :=
  (s.acquire m (seenTags false (s.chipOf m.tile) (s.placeTags q 16))).endMyWait m
    ((lookO (s.placeStore q).flips (q.addr / 16)).getD noWho)

/-- Wait until the PHASE of an object differs (R179); `check` makes its checks, at the first look. -/
def waitPhase (m : Me) (addr : W64) (ph : Nat) (check : M Place) : M Unit := do
  let p ← match (← get).barrierPlace m addr with
    | some p => pure p
    | none => check
  match (← get).flipped p ph with
  | some q => modS fun s => s.endBarrier m q
  | none => waitFor (.barrier addr (some p) ph)

/-- Whether an agent has a read of an object on another chip under way, whose checks have passed (R330). -/
def State.readsFar (s : State) (m : Me) : Bool := (s.myAgt m).pend.isSome || !(s.myAgt m).got.isEmpty

/-- The phase of an object on another chip is read again and again (R330, R433), checked by its first read only; the wait ends by the act of
the agent that made it differ (R300), and acquires what the read observed (R182). -/
def remotePhase (m : Me) (va : W64) (chip : BitVec 3) (op : RemoteOp) (again : RemoteReply → RemoteOp) (ph : Nat) : M Unit := do
  let r ← remoteAsk m va chip op false fun _ => .barrier va none ph
  if objPhase (leNat r.bs) = ph then
    modS fun s => s.setMyAgt m { s.myAgt m with got := [], pend := none, used := 0 }
    let _ ← remoteAsk m va chip (again r) false fun _ => .barrier va none ph
    pure ()
  else modS fun s => (s.acquire m r.tags).endMyWait m r.setter

end Sys2Proof.Machine
end

