-- ==== Sys2Proof/Machine/Unit.lean ====
section
/-! DEFINITION. How a unit of an engine completes, waits or faults (Table 13.5, R235, R436), and what wakes agents that
wait for the porter. -/

namespace Sys2Proof.Machine

/-- The engine of an agent. -/
def engineOf : Agent → Eng
  | .mat => .mat | .xfr => .xfr | .dec => .dec | _ => .vec

/-- Causes whose FINFO[7:0] a transfer step fills with its number (R165, Table 13.5), also CAP, RACE and POISON; not those that
name the blocked or signalling entry (R235). (DEDUCED, log 56) -/
def stepInFinfo : Cause → Bool
  | .watchdog | .waitcycle | .semovf => false
  | _ => true

/-- The logical block that a DEC entry stands at: the NEXT word of its work area (R231), at offset 776 (Table 12.4). -/
def State.decItem (s : State) (t : BitVec 8) (k : BitVec 2) (e : Entry) : BitVec 16 :=
  match s.findSeg ⟨t, k, .dec⟩ (ptrSeg e.x) with
  | some (_, _, g) => BitVec.ofNat 16 (leNat (g.store.read (ptrOff e.x + 776) 4))
  | none => 0

/-- The DEC entry whose unit a fault or a wait of a tower's decode engine stands at: the one that runs, or one that was parked blocked
inside a unit and waits there again (R246, R436); none at admission or at a token. -/
def State.decStarted (s : State) (w : BitVec 3) : Option DecEntry :=
  let d := (s.tower w).dec
  d.cur.or (d.q.items.head?.filter fun h => h.run.isSome && d.agt.wait.any fun x => match x.obj with
    | .booking _ => false
    | .sem _ => false
    | _ => true)

/-- The record of a fault of an agent: at its unit, or against its entry as a whole where none runs (R436). -/
def State.unitRec (s : State) (t : BitVec 8) (k : BitVec 2) (a : Agent) (c : Cause) (fval finfo : W64)
    (item : Option (BitVec 16)) : FaultRec :=
  let x := s.slot t k
  let issue := ((s.entryOf t k a).map (·.issue)).getD 0
  match a with
  | .seq => { eng := 0, cause := c, fval := fval, finfo := finfo }
  | .dec =>
    let it := match s.decStarted (towerOf t) with
      | some d => item.getD (if d.begun then s.decItem t k d.e else 0)
      | none => 0xFFFF
    { eng := 3, cause := c, fval := fval, finfo := finfo, item := it, issue := issue }
  | _ =>
    let g := x.engine (engineOf a)
    match g.cur with
    | none => { eng := agentCode a, cause := c, fval := fval, finfo := finfo, item := item.getD 0xFFFF, issue := issue }
    | some _ =>
      let own : BitVec 16 := if a = .xfr then BitVec.ofNat 16 g.xs.item else BitVec.ofNat 16 g.unit
      let fin := if a = .xfr ∧ stepInFinfo c = true then setBits finfo 7 0 g.unit else finfo
      { eng := agentCode a, cause := c, fval := fval, finfo := fin, item := item.getD own, issue := issue,
        rpv := g.rpt.isSome, rpi := (g.rpt.map fun r => r.i.setWidth 6).getD 0 }

/-- Change an engine of the moving tile's running slot. -/
def State.modEng (s : State) (e : Eng) (f : Engine → Engine) : State :=
  s.modSlot s.cur s.curSlot fun k => k.setEngine e (f (k.engine e))

/-- The engine of the moving tile's running slot. -/
def State.eng (s : State) (e : Eng) : Engine := (s.slot s.cur s.curSlot).engine e

/-- The transfer step that follows: an xidx hands it the row indices that the address queue has formed (R170). -/
def Engine.nextX (g : Engine) : XStep := { ahead := if g.xidx.isSome then g.xs.ahead else [] }

/-- A unit is complete: the next repeat, or the next word of the block (R56, R376). -/
def Engine.unitDone (g : Engine) : Engine :=
  match g.rpt with
  | none => { g with unit := g.unit + 1, xs := g.nextX }
  | some r =>
    if r.i + 1 < r.cnt then { g with rpt := some { r with i := r.i + 1 } }
    else { g with unit := g.unit + 1, rpt := none, xs := g.nextX }

/-- An engine begins to wait, or goes on waiting. -/
def State.engWait (s : State) (m : Me) (o : WaitObj) : State :=
  let a := s.myAgt m
  match a.wait with
  | some w =>
    if w.obj = o then s
    else if w.obj.goesOn o then s.setMyAgt m { a with wait := some { w with obj := o } }
    else
      -- an admission that had room made for it goes on to its recall (R300)
      let by_ := match w.obj, o with
        | .booking _, .moving _ _ => (s.slot m.tile m.slot).setters.room
        | _, _ => noWho
      let s1 := s.endMyWait m by_
      s1.setMyAgt m { s1.myAgt m with wait := some { obj := o } }
  | none => s.setMyAgt m { a with wait := some { obj := o } }

/-- The moving engine as an agent. -/
def State.meOf (s : State) (e : Eng) : Me := ⟨s.cur, s.curSlot, Eng.agent e⟩

/-- The accumulator tiles of the moving tile as they were: a unit that faults or waits has had no effect on them (R235),
the ownership it took included. (DEDUCED, log 55) -/
def State.backAcc (s : State) (acc : List (Nat × AccTile)) : State := s.modTile s.cur fun t => { t with acc := acc }

/-- How a unit of an engine of a tile ends; `acc` are the accumulator tiles and `supp` is SUPP at its start. -/
def engEnd (e : Eng) (acc : List (Nat × AccTile)) (supp : BitVec 24) (r : EStateM.Result Stop State Unit) : Ans :=
  match r with
  | .ok _ s => .next ((s.clearRemote (s.meOf e)).modEng e Engine.unitDone)
  | .error (.fault c v i it) s0 =>
    let s := s0.backAcc acc
    .next ((s.clearRemote (s.meOf e)).raise s.cur s.curSlot (s.unitRec s.cur s.curSlot (Eng.agent e) c v i it))
  | .error (.wait o) s => .next (((s.backAcc acc).backSupp s.cur s.curSlot supp).engWait (s.meOf e) o)
  | .error .gone s => .next s

/-- A unit of an engine. -/
def engM (e : Eng) (s : State) (m : M Unit) : Ans :=
  let g := s.eng e
  engEnd e (s.tile s.cur).acc (s.slot s.cur s.curSlot).race.supp (m (s.modEng e fun _ => { g with agt := { g.agt with used := 0 } }))

/-- The entry that an engine of the moving tile runs. -/
def State.curEntry (s : State) (e : Eng) : Entry := ((s.eng e).cur).getD default

/-! ## Waits for the porter (R98, R100, R110) -/

/-- Whether a recall or an admission that waits for booked bytes may be tried again. (DEDUCED, log 31) -/
def Slot.recallFits (k : Slot) (n : BitVec 12) : Bool :=
  match k.seg n with
  | none => true
  | some g => decide (k.fixed + g.size ≤ k.mem.quota.toNat) || !k.anyBooked

/-- The agents of a context: those of its slots, the decode engine where its entry is the slot's, and the runtime bank's
sequencer where SLOTSEL names the slot. -/
def State.ctxAgents (s : State) (c : Context) : List Me :=
  c.tiles.flatMap fun t =>
    let x := s.tile t
    (if x.inRuntime && x.tr.slotsel != c.slot then [] else [⟨t, c.slot, .seq⟩]) ++
      (s.slotAgents t c.slot).filterMap fun a => if a = .seq then none else some ⟨t, c.slot, a⟩

/-- The agents of the context of a slot. -/
def State.peers (s : State) (t : BitVec 8) (k : BitVec 2) : List Me :=
  (s.ctxOf t k).elim [] s.ctxAgents

/-- Bookings or the quota of a tile have changed: the spare room is re-armed (R110), and waits for its porter are looked at
again, those of SHARED accesses from other tiles among them; a wait that can end does, with the setter of the room (R300). -/
def State.porterWake (s : State) (t : BitVec 8) (k : BitVec 2) (who : Who) (spareB : Nat) : State :=
  let s1 := s.modSlot t k fun x => { x with
    setters := { x.setters with room := who }
    mem := { x.mem with spare := x.mem.spare && !decide (x.fixed + spareB ≤ x.mem.quota.toNat) } }
  (s1.peers t k).foldl (fun s m => match (s.myAgt m).wait with
    | some w => match w.obj with
      | .recall n h => if h = t ∧ (s.slot t k).recallFits n = true then s.endMyWait m who else s
      | _ => s
    | none => s) s1

/-- B of the context of a slot (R108). -/
def State.spareOf (s : State) (t : BitVec 8) (k : BitVec 2) : Nat := ((s.ctxOf t k).map (·.code.spareB)).getD 0

end Sys2Proof.Machine
end

