-- ==== Sys2Proof/Machine/Acc.lean ====
section
/-! DEFINITION. The accumulator store: tiles, rows and sidebands (R59, R145 to R149), ownership, reads of poisoned rows. -/

namespace Sys2Proof.Machine

/-- Accumulator tile n of a tile; one that is not listed is free and zero. -/
def Tile.accOf (t : Tile) (n : BitVec 8) : AccTile := look AccTile.reset t.acc n.toNat

def Tile.setAcc (t : Tile) (n : BitVec 8) (a : AccTile) : Tile := { t with acc := put AccTile.reset t.acc n.toNat a }

def State.acc (s : State) (t n : BitVec 8) : AccTile := (s.tile t).accOf n

def State.modAcc (s : State) (t n : BitVec 8) (f : AccTile → AccTile) : State :=
  s.modTile t fun x => x.setAcc n (f (x.accOf n))

def AccTile.row (a : AccTile) (r : BitVec 5) : Row := vget r a.rows
def AccTile.sideOf (a : AccTile) (r : BitVec 5) : Word := vget r a.side

/-- Write a row and its sideband as one unit (R149); the row loses its poison. -/
def AccTile.put (a : AccTile) (r : BitVec 5) (v : Row) (sd : Word) : AccTile :=
  { a with rows := vset r v a.rows, side := vset r sd a.side, poison := setBit a.poison r.toNat false
           prior := drop1 a.prior r.toNat }

/-- A write of an engine: until it releases, another engine may still read the row as it was (R62, R159). -/
def AccTile.putBy (a : AccTile) (w : Agent) (r : BitVec 5) (v : Row) (sd : Word) : AccTile :=
  { a.put r v sd with prior := put1 a.prior r.toNat ⟨w, a.row r, a.sideOf r⟩ }

/-- A tile that is all zeros, of a new owner (R145, R146, R149). -/
def AccTile.cleared (owner : BitVec 8) : AccTile := { AccTile.reset with owner := owner }

/-- The CTXID of a slot. -/
def State.ctxId (s : State) (t : BitVec 8) (k : BitVec 2) : BitVec 8 := ((s.slot t k).ctx).getD 0xFF

/-- A touch of an accumulator tile (R145): a free one becomes the context's, and is seen as zeros. -/
def touchAcc (m : Me) (n : BitVec 8) : M Unit := do
  let s ← get
  let c := s.ctxId m.tile m.slot
  let o := (s.acc m.tile n).owner
  if o = c then pure ()
  else if o = 0xFF then modS fun s => s.modAcc m.tile n fun _ => AccTile.cleared c
  else fault .accown (o.setWidth 64) (n.setWidth 64)

/-- POISON of an accumulator row, with FINFO[1:0] = 1. No rule gives the store addresses, so FVAL is a fresh value (DESIGN CHOICE, log 3). -/
def accPoison (m : Me) : M Unit := do
  let (v, s1) := (← get).draw
  set (s1.freezePoison m.tile v.toNat)
  fault .poison v 1

/-- A row with its sideband, as one unit (R149). A row that another engine has written and not released since is seen wholly
before or wholly after that write, each unit of the reading engine seeing it in one way; after it from then on where it was
seen so (R62, R159) (DESIGN CHOICE, log 3). -/
def accUnit (m : Me) (n : BitVec 8) (r : BitVec 5) : M (Row × Word) := do
  let s ← get
  let a := s.acc m.tile n
  match (lookO a.prior r.toNat).filter fun p => p.writer ≠ m.agent with
  | none => pure (a.row r, a.sideOf r)
  | some p =>
    if Config.rowOld s.moves n r then pure (p.row, p.side)
    else
      modS fun s => s.modAcc m.tile n fun x => { x with prior := drop1 x.prior r.toNat }
      pure (a.row r, a.sideOf r)

/-- POISON where a row is poisoned. -/
def accClean (m : Me) (n : BitVec 8) (r : BitVec 5) : M Unit := do
  if bit ((← get).acc m.tile n).poison r.toNat then accPoison m

/-- Read a row with its sideband. -/
def readUnit (m : Me) (n : BitVec 8) (r : BitVec 5) : M (Row × Word) := do
  accClean m n r
  accUnit m n r

/-- Read a row. -/
def readAcc (m : Me) (n : BitVec 8) (r : BitVec 5) : M Row := do pure (← readUnit m n r).1

/-- Write a row with its sideband. -/
def writeAcc (m : Me) (n : BitVec 8) (r : BitVec 5) (v : Row) (sd : Word) : M Unit :=
  modS fun s => s.modAcc m.tile n (·.putBy m.agent r v sd)

/-- The rows of a tile as bytes. -/
def AccTile.bytes (a : AccTile) : List Byte := a.rows.toList.flatMap fun r => leBytes 128 r.toNat

/-- Split bytes into pieces of n. -/
def chunksOf (n : Nat) : Nat → List Byte → List (List Byte)
  | 0, _ => []
  | k + 1, l => l.take n :: chunksOf n k (l.drop n)

/-! ## Sidebands (Table 8.1) -/

def sbN (w : Word) : Nat := bits w 31 24
def sbBW (w : Word) : Nat := bits w 23 17
def sbG (w : Word) : Nat := bits w 16 11
def sbP (w : Word) : Bool := bit w 10
def sbF (w : Word) : Bool := bit w 9
def sbTerms (w : Word) : Nat := bits w 8 0

def sideband (n bw g : Nat) (p f : Bool) (terms : Nat) : Word :=
  BitVec.ofNat 32 (n % 256 * 2 ^ 24 + bw % 128 * 2 ^ 17 + g % 64 * 2 ^ 11 + b2n p * 2 ^ 10 + b2n f * 2 ^ 9 + terms % 512)

/-! ## Waits for earlier entries (Table 2.5) -/

/-- The engine mask of agents, as a retirement wait holds it: vec, mat, xfr, dec. -/
def engMask (l : List Agent) : BitVec 4 :=
  BitVec.ofNat 4 (b2n (l.contains .vec) + 2 * b2n (l.contains .mat) + 4 * b2n (l.contains .xfr) + 8 * b2n (l.contains .dec))

/-- The sequencer waits while one of the named agents holds an unretired entry of the context on this tile. -/
def waitRetired (st : State) (l : List Agent) : M Unit := do
  let h := (st.holders st.cur st.curSlot fun _ => true).filter l.contains
  if !h.isEmpty then waitFor (.retire (st.slot st.cur st.curSlot).sq.issue (engMask l))

end Sys2Proof.Machine
end

