-- ==== Sys2Proof/Machine/Mask.lean ====
section
/-! DEFINITION. Mask programs: words (R201, R202, R356), their rules (R208), classes of tile pairs (R204 to R206) and
truth values (R203). -/

namespace Sys2Proof.Machine

/-- The class of a tile pair. -/
inductive Cls where
  | full | partly | empty
  deriving DecidableEq, Repr, Inhabited

def Cls.neg : Cls → Cls
  | .full => .empty
  | .empty => .full
  | .partly => .partly

/-- R205. -/
def Cls.and (a b : Cls) : Cls :=
  if a = .empty ∨ b = .empty then .empty else if a = .full ∧ b = .full then .full else .partly

def Cls.or (a b : Cls) : Cls :=
  if a = .full ∨ b = .full then .full else if a = .empty ∧ b = .empty then .empty else .partly

/-- The value of an OF11 field; none where it is unbounded (Table 11.2). -/
def of11 (mp : Vector (BitVec 24) 8) (f : Nat) : Option Int :=
  match f / 512 with
  | 0 => some ((BitVec.ofNat 9 f).toInt)
  | 1 => some ((vget (BitVec.ofNat 3 f) mp).toInt)
  | _ => none

/-- doc(pos) (R200). -/
def docOf (runs : List Nat) (pos : Int) : Int := ((runs.filter fun (r : Nat) => decide ((r : Int) ≤ pos)).length : Int) - 1

/-- A set of values [v0, v1] against allowed bounds (R204). -/
def boundCls (lo hi : Option Int) (v0 v1 : Int) : Cls :=
  let below := lo.any fun l => v1 < l
  let above := hi.any fun h => h < v0
  let crossed := match lo, hi with
    | some l, some h => decide (h < l)
    | _, _ => false
  if below || above || crossed then .empty
  else if (lo.all fun l => l ≤ v0) && (hi.all fun h => v1 ≤ h) then .full else .partly

/-- Two intervals under REL (R204). -/
def relCls (rel : Nat) (x0 x1 y0 y1 : Int) : Cls :=
  match rel with
  | 0 => if x0 = x1 ∧ y0 = y1 ∧ x0 = y0 then .full else if x1 < y0 ∨ y1 < x0 then .empty else .partly
  | 1 => if x1 ≤ y0 then .full else if y1 < x0 then .empty else .partly
  | _ => if y1 ≤ x0 then .full else if x1 < y0 then .empty else .partly

/-- What a mask word tests, over a query range and a key range; none for a kchunk whose c is below 1 (R203). -/
def testCls (m : MaskSlot) (q0 q1 k0 k1 : Int) (w : Word) : Option Cls :=
  let lo := of11 m.mp (bits w 21 11)
  let hi := of11 m.mp (bits w 10 0)
  match bits w 31 28 with
  | 0 => some (boundCls lo hi (q0 - k1) (q1 - k0))
  | 1 =>
    let x0 := docOf m.runs q0
    let x1 := docOf m.runs q1
    let y0 := docOf m.runs k0
    let y1 := docOf m.runs k1
    if 64 < (x1 - x0 + 1) + (y1 - y0 + 1) then some .partly else some (relCls (bits w 1 0) x0 x1 y0 y1)
  | 2 => some (if bits w 23 22 = 0 then boundCls lo hi q0 q1 else boundCls lo hi k0 k1)
  | 3 =>
    match lo with
    | some c => if c < 1 then none else some (relCls (bits w 1 0) (q0 / c) (q1 / c) (k0 / c) (k1 / c))
    | none => none
  | 4 => some (boundCls none (lo.map (· - 1)) k0 k1)
  | _ => some (if bits w 0 0 = 1 then .full else .empty)

/-- Run a program: tests and combinations in order, up to KEND. -/
def maskRun (test : Word → Option α) (comb : Nat → α → α → α) : List Word → Vector α 4 → Option α
  | [], _ => none
  | w :: r, m =>
    let at_ (n : Nat) : α := vget (BitVec.ofNat 2 n) m
    match bits w 31 28 with
    | 7 => some (at_ (bits w 25 24))
    | 5 => maskRun test comb r (vset (BitVec.ofNat 2 (bits w 27 26)) (comb (bits w 1 0) (at_ (bits w 25 24)) (at_ (bits w 23 22))) m)
    | _ => match test w with
      | none => none
      | some v => maskRun test comb r (vset (BitVec.ofNat 2 (bits w 27 26)) v m)

/-- The class of a tile pair; none raises MASKPROG. -/
def MaskSlot.classOf (m : MaskSlot) (q0 q1 k0 k1 : Int) : Option Cls :=
  maskRun (testCls m q0 q1 k0 k1)
    (fun op a b => if op = 0 then a.and b else if op = 1 then a.or b else if op = 2 then a.and b.neg else a.neg)
    m.prog (Vector.replicate 4 .empty)

/-- The truth value at one (q, k): a pair of one element is never PARTIAL for a single word (R206). -/
def MaskSlot.truth (m : MaskSlot) (q k : Int) : Option Bool :=
  maskRun (fun w => (testCls m q q k k w).map (· == .full))
    (fun op a b => if op = 0 then a && b else if op = 1 then a || b else if op = 2 then a && !b else !a)
    m.prog (Vector.replicate 4 false)

/-! ## Rules of words and programs (R208) -/

/-- An OF11 field that is an instruction's: code not 11, a parameter index up to 7. -/
def of11Ok (f : Nat) : Bool :=
  match f / 512 with
  | 0 => true
  | 1 => decide (f % 512 < 8)
  | 2 => f % 512 == 0
  | _ => false

/-- The rules that concern one word alone (R320). -/
def maskWordOk (w : Word) : Bool :=
  let d := bits w 27 26
  let a := bits w 25 24
  let b := bits w 23 22
  let hi := bits w 21 11
  let lo := bits w 10 0
  match bits w 31 28 with
  | 0 => a == 0 && b == 0 && of11Ok hi && of11Ok lo
  | 1 => a == 0 && b == 0 && bits w 21 2 == 0 && bits w 1 0 != 3
  | 2 => a == 0 && decide (b < 2) && of11Ok hi && of11Ok lo
  | 3 => a == 0 && b == 0 && of11Ok hi && bits w 10 2 == 0 && bits w 1 0 != 3 && hi / 512 != 2 &&
      (hi / 512 != 0 || decide (0 < (BitVec.ofNat 9 hi).toInt))
  | 4 => a == 0 && b == 0 && of11Ok hi && lo == 0
  | 5 => bits w 21 2 == 0 && (bits w 1 0 != 3 || b == 0)
  | 6 => a == 0 && b == 0 && bits w 21 1 == 0
  | 7 => d == 0 && b == 0 && bits w 21 0 == 0
  | _ => false

/-- The index of the first failing word of a program, none for a valid one; `wr` are the registers written so far. -/
def maskCheck (n : Nat) (wr : List Nat) : List Word → Option Nat
  | [] => some n
  | w :: r =>
    let a := bits w 25 24
    let b := bits w 23 22
    let d := bits w 27 26
    if n = 16 then some 16
    else if !maskWordOk w then some n
    else match bits w 31 28 with
      | 7 => if wr.contains a && r.isEmpty then none else some n
      | 5 => if wr.contains a && (bits w 1 0 == 3 || wr.contains b) then maskCheck (n + 1) (d :: wr) r else some n
      | _ => maskCheck (n + 1) (d :: wr) r

end Sys2Proof.Machine
end

