-- ==== Sys2Proof/Machine/Kv.lean ====
section
/-! DEFINITION. The KV block store: names, lookup, allocation and REF (R218 to R221, R227), slot tables (R223), forks
(R225), redirects (R226), counters (R232). -/

namespace Sys2Proof.Machine

/-! ## Names and entries (Tables 12.1, 12.2) -/

/-- The name of a block: bits [50:0] of its entry. -/
def kvName (seq layer head lblk kv : Nat) : Nat :=
  kv * 2 ^ 50 + lblk % 2 ^ 16 * 2 ^ 34 + head % 64 * 2 ^ 28 + layer % 256 * 2 ^ 20 + seq % 2 ^ 20

def invEntry (name ref : Nat) : W64 := BitVec.ofNat 64 (2 ^ 63 + ref % 4096 * 2 ^ 51 + name % 2 ^ 51)

def invName (e : W64) : Nat := bits e 50 0
def invRef (e : W64) : Nat := bits e 62 51
def invValid (e : W64) : Bool := bit e 63

/-- A slot entry as one number, byte 0 least significant. -/
abbrev SlotEnt := BitVec 512

def seSeq (e : SlotEnt) : Nat := bits e 19 0
def seLen (e : SlotEnt) : Nat := bits e 63 32
def seValid (e : SlotEnt) : Bool := bit e 64
def seBucket (e : SlotEnt) : Nat := bits e 66 65
def seForked (e : SlotEnt) : Bool := bit e 67
def seMask (e : SlotEnt) (n : Nat) : Bool := bit e (72 + n)
def seParent (e : SlotEnt) : Nat := bits e 115 96
def seFork (e : SlotEnt) : Nat := bits e 159 128
def seMp (e : SlotEnt) (n : Nat) : BitVec 24 := BitVec.ofNat 24 (bits e (183 + 24 * n) (160 + 24 * n))
def seCap (e : SlotEnt) : Nat := 2048 * 4 ^ seBucket e

/-- FORKED, PARENT and FORK of an entry. -/
def withFork (e : SlotEnt) (forked : Bool) (parent fork : Nat) : SlotEnt :=
  setBits (setBits (setBit e 67 forked) 127 96 parent) 159 128 fork

/-- A mask slot with the replacement parameters of a slot entry (R209, R223). -/
def MaskSlot.withMp (m : MaskSlot) (e : SlotEnt) : MaskSlot :=
  { m with mp := (List.range 8).foldl (fun v n => if seMask e n then vset (BitVec.ofNat 3 n) (seMp e n) v else v) m.mp }

/-! ## Slot tables (Table 12.7) -/

/-- The place of a context's slot table in a tower: its lowest tile there and its context slot. -/
def Context.place (c : Context) (w : BitVec 3) : Nat :=
  match c.tiles.filter fun t => towerOf t = w with
  | [] => 0
  | t :: r => 4 * (r.foldl (fun m x => min m x.toNat) t.toNat % 32) + c.slot.toNat

/-- The offset of a slot entry from 4 MiB + 64 KiB. -/
def Context.slotOff (c : Context) (w : BitVec 3) (n : Nat) : Nat := 16384 * c.place w + 64 * (n % 256)

def State.slotEnt (s : State) (w : BitVec 3) (c : Context) (n : Nat) : SlotEnt :=
  BitVec.ofNat 512 (leNat (readBytes (s.tower w).kv.slots (c.slotOff w n) 64))

def State.setSlotEnt (s : State) (w : BitVec 3) (c : Context) (n : Nat) (e : SlotEnt) : State :=
  s.modTower w fun x => { x with kv := { x.kv with slots := writeBytes x.kv.slots (c.slotOff w n) (leBytes 64 e.toNat) } }

/-- Launch zeroes a context's table in each of its towers. -/
def State.clearSlots (s : State) (w : BitVec 3) (c : Context) : State :=
  let a := 16384 * c.place w
  s.modTower w fun x => { x with kv := { x.kv with slots := x.kv.slots.filter fun e => e.1 < a || a + 16384 ≤ e.1 } }

/-! ## Lookup and allocation (R221) -/

/-- h of a name. -/
def kvHash (name : Nat) : Nat := name * 0x9E3779B97F4A7C15 % 2 ^ 64 / 2 ^ 45

/-- A name in the inverted table or the overflow list: the block, and whether the list was reached. -/
def KvTables.find (k : KvTables) (name : Nat) : Option Nat × Bool :=
  let h := kvHash name
  let e (n : Nat) : W64 := look 0 k.inv n
  match ((List.range 8).map fun i => (h + i) % 2 ^ 19).find? fun n => invValid (e n) && invName (e n) == name with
  | some n => (some n, false)
  | none =>
    ((k.ovf.find? fun r => bit r.2 63 && bits r.2 50 0 == name).map fun r => bits r.2 82 64, true)

/-- A DEC entry, by context, tile and issue. -/
abbrev DecKey := BitVec 8 × BitVec 8 × BitVec 16

def Entry.key (e : Entry) : DecKey := (e.ctx, e.tile, e.issue)

/-- What a lookup by a DEC entry finds: a block that was dropped after the entry started stands for it as it stood (R227). -/
def KvTables.findFor (k : KvTables) (who : Option DecKey) (name : Nat) : Option Nat × Bool :=
  match k.quarantine.find? fun q => who.any q.2.await.contains && bits q.2.entry 50 0 == name with
  | some q => (some q.1, q.2.ovf)
  | none => k.find name

/-- Whether a block is free for allocation (R220, R227). One that a drop holds back is not, and an allocation that finds no other fails with
NOBLOCK at once: R227 does not say that it waits (DESIGN CHOICE, log 114). -/
def KvTables.isFree (k : KvTables) (n : Nat) : Bool :=
  !invValid (look 0 k.inv n) && (lookO k.quarantine n).isNone

/-- The lowest free block. -/
def KvTables.lowest (k : KvTables) : Option Nat :=
  ((List.range (min (2 ^ 19) (k.inv.length + k.quarantine.length + 1))).find? k.isFree)

/-- The lowest overflow record that is free. -/
def KvTables.freeOvf (k : KvTables) : Option Nat :=
  (List.range (min 4096 (k.ovf.length + 1))).find? fun n => (lookO k.ovf n).isNone

/-- Allocate a block for a name with a REF, or the status of Table 12.5. -/
def KvTables.alloc (k : KvTables) (name ref : Nat) : Except Nat (Nat × KvTables) :=
  let h := kvHash name
  match ((List.range 8).map fun i => (h + i) % 2 ^ 19).find? k.isFree with
  | some n => .ok (n, { k with inv := put 0 k.inv n (invEntry name ref) })
  | none => match k.lowest with
    | none => .error 0x11
    | some n => match k.freeOvf with
      | none => .error 0x12
      | some r => .ok (n, { k with
          inv := put 0 k.inv n (invEntry name ref)
          ovf := put1 k.ovf r (BitVec.ofNat 128 (2 ^ 63 + name + 2 ^ 64 * n)) })

/-- The entries of a block list with their numbers, valid ones of a sequence. -/
def KvTables.named (k : KvTables) (seq : Nat) : List (Nat × W64) :=
  k.inv.filter fun e => invValid e.2 && bits e.2 19 0 == seq

/-- Lower the REF of a block; at 0 it becomes free, with its overflow record, and waits for the entries that have started
(R227). -/
def KvTables.lower (k : KvTables) (n : Nat) (started : List DecKey) : KvTables :=
  let e := look 0 k.inv n
  let rec_ (r : Nat × BitVec 128) : Bool := bit r.2 63 && bits r.2 50 0 == invName e && bits r.2 82 64 == n
  if 1 < invRef e then { k with inv := put 0 k.inv n (invEntry (invName e) (invRef e - 1)) }
  else { k with
    inv := put 0 k.inv n 0
    ovf := k.ovf.filter fun r => !rec_ r
    quarantine := if started.isEmpty then k.quarantine else put1 k.quarantine n ⟨e, k.ovf.any rec_, started⟩ }

/-- The DEC entries of a tower that have started and not retired. -/
def Tower.started (t : Tower) : List DecKey :=
  ((t.dec.cur.toList ++ t.dec.parked ++ t.dec.q.items).filter fun d => d.run.isSome).map fun d => d.e.key

/-! ## Counters and the layer -/

/-- Change a context's decode state in a tower. -/
def State.modDctx (s : State) (w : BitVec 3) (c : BitVec 8) (f : DecCtx → DecCtx) : State :=
  s.modTower w fun x => { x with dctx := x.dctx.map fun d => if d.ctx = c then f d else d }

def State.dctxOf (s : State) (w : BitVec 3) (c : BitVec 8) : DecCtx :=
  ((s.tower w).dctx.find? (·.ctx == c)).getD ⟨c, Vector.replicate 8 MaskSlot.reset, Vector.replicate 8 0⟩

/-- Add to a counter of Table R232. -/
def State.count (s : State) (w : BitVec 3) (c : BitVec 8) (n : BitVec 3) (v : Nat) : State :=
  s.modDctx w c fun d => { d with cnt := vset n (vget n d.cnt + BitVec.ofNat 64 v) d.cnt }

/-- The lines of the layer that a write covers are no longer pending (R268). -/
def State.layerWrite (s : State) (w : BitVec 3) (a : Nat) (bs : List Byte) (who : Who) : State :=
  s.modTower w fun x => { x with
    layer := x.layer.write a bs who
    biterrs := x.biterrs.filter fun e => !(unitsOf 16 a bs.length).contains e.1
    zeroed := (unitsOf 64 a bs.length).foldl (fun l u => if l.contains (true, u) then l else (true, u) :: l) x.zeroed }

/-! ## Reads of the layer (R282, R284, R286) -/

/-- Write a record to an error log; the oldest of 256 is overwritten. -/
def ErrLog.add (l : ErrLog) (r : BitVec 128) : ErrLog :=
  let rs := l.recs ++ [r]
  ⟨rs.drop (rs.length - 256), satInc l.count⟩

/-- An ARRAY record (Table 15.2). -/
def State.logArray (s : State) (w : BitVec 3) (kind bitNo word ctx : Nat) : State :=
  let r := BitVec.ofNat 128 (kind * 2 ^ 120 + bitNo * 2 ^ 112 + word % 2 ^ 29 * 2 ^ 64 + ctx * 2 ^ 56 + bits s.tick 47 0)
  (s.modTower w fun x => { x with arrayLog := x.arrayLog.add r }).traceTower w 0x10 (0 :: leBytes 16 r.toNat)

/-- The words of a range that a read delivers as poisoned, and the state after it: single errors are corrected in place and
logged, uncorrectable words are logged; a beat that the bus lost is delivered once (R284). -/
def State.layerScan (s : State) (w : BitVec 3) (a n : Nat) (ctx : BitVec 8) : List Nat × State :=
  let x := s.tower w
  let us := unitsOf 16 a n
  let fix := x.biterrs.filter fun e => us.contains e.1
  let bad := us.filter x.layer.poison.contains
  let s1 := fix.foldl (fun s e => s.logArray w 1 e.2.toNat e.1 ctx.toNat) s
  let s2 := bad.foldl (fun s u => s.logArray w 2 0xFF u ctx.toNat) s1
  (us.filter fun u => x.layer.poison.contains u || x.badReads.contains u,
   s2.modTower w fun x => { x with
     biterrs := x.biterrs.filter fun e => !us.contains e.1
     badReads := x.badReads.filter fun u => !us.contains u })

/-- Read n bytes of the layer for a context: the bytes, and whether a word was uncorrectable. -/
def State.layerRead (s : State) (w : BitVec 3) (a n : Nat) (ctx : BitVec 8) : (List Byte × Bool) × State :=
  let (bad, s1) := s.layerScan w a n ctx
  (((s.tower w).layer.read a n, !bad.isEmpty), s1)

/-- The channel of the main bus that carries a word (R283). -/
def busChan (word : Nat) : BitVec 6 := BitVec.ofNat 6 (word % 64)

/-- The channel of the main bus, among those that carry a range, that runs a lane test (R284). -/
def State.laneTest (s : State) (w : BitVec 3) (a n : Nat) : Option Lane :=
  (s.tower w).lanes.find? fun l => !l.asynch && l.testing.isSome && ((unitsOf 16 a n).map busChan).contains l.chan

/-- A request for a channel of the main bus that runs a lane test waits (R284, R285). -/
def laneFree (w : BitVec 3) (a n : Nat) : M Unit := do
  match (← get).laneTest w a n with
  | some l => waitFor (.lane l.chan)
  | none => pure ()

/-- Copy the first n bytes of a block to another for a context, the rest zero; a word that is read as poisoned stays poisoned
(DEDUCED, log 16). -/
def State.copyBlock (s : State) (w : BitVec 3) (src dst n : Nat) (ctx : BitVec 8) (who : Who) : State :=
  let (bad, s1) := s.layerScan w (16384 * src) n ctx
  let bs := (s.tower w).layer.read (16384 * src) n ++ List.replicate (16384 - n) 0
  (s1.layerWrite w (16384 * dst) bs who).modTower w fun x => { x with
    layer := { x.layer with poison := (bad.map fun u => u - 1024 * src + 1024 * dst).foldl insertN x.layer.poison } }

/-- A lookup by sequence entry (R226), `who` being the DEC entry that makes it: the block, and the state with OVERFLOW counted
where the lookup reached the list. -/
def State.kvLook (s : State) (w : BitVec 3) (c : BitVec 8) (who : Option DecKey) (e : SlotEnt) (layer head lblk kv : Nat) :
    Option Nat × State :=
  let k := (s.tower w).kv
  let own := k.findFor who (kvName (seSeq e) layer head lblk kv)
  let (r, o) := if own.1.isNone && seForked e && decide (lblk < seFork e / 64) then
      let par := k.findFor who (kvName (seParent e) layer head lblk kv)
      (par.1, own.2 || par.2)
    else own
  (r, if o then s.count w c 6 1 else s)

/-! ## Forks (R225, R358) -/

/-- Copy a block under a child's name unless the name exists: the state, or the logical block that failed. -/
def State.forkCopy (s : State) (w : BitVec 3) (c : BitVec 8) (child blk n : Nat) (who : Who) : Except Nat State :=
  let e := look 0 (s.tower w).kv.inv blk
  let name := invName e / 2 ^ 20 * 2 ^ 20 + child % 2 ^ 20
  let k := (s.tower w).kv
  if (k.find name).1.isSome then .ok s
  else match k.alloc name 1 with
    | .error _ => .error (bits e 49 34)
    | .ok (d, k1) =>
      let s1 := (s.modTower w fun x => { x with kv := k1 }).copyBlock w blk d n c who
      .ok ((s1.count w c 5 1).count w c 4 1)

/-- The blocks below the fork point gain a reference; one whose REF is full is copied. (DEDUCED, log 21) -/
def forkShare (w : BitVec 3) (c : BitVec 8) (child f : Nat) (who : Who) : List (Nat × W64) → State → Except Nat State
  | [], s => .ok s
  | (n, e) :: r, s =>
    if f / 64 ≤ bits e 49 34 then forkShare w c child f who r s
    else if invRef e = 4095 then
      match s.forkCopy w c child n 16384 who with
      | .error b => .error b
      | .ok s1 => forkShare w c child f who r s1
    else forkShare w c child f who r (s.modTower w fun x => { x with
      kv := { x.kv with inv := put 0 x.kv.inv n (invEntry (invName e) (invRef e + 1)) } })

/-- The layers, heads and K/V under which a sequence names blocks, each once, as name bits. -/
def kvGroups (l : List (Nat × W64)) : List (Nat × Nat × Nat) :=
  l.foldl (fun g e =>
    let x := (bits e.2 27 20, bits e.2 33 28, bits e.2 50 50)
    if g.contains x then g else g ++ [x]) []

/-- The block at a fork point that is not a block boundary is copied for each layer, head and K/V. -/
def forkEdge (w : BitVec 3) (c : BitVec 8) (par : SlotEnt) (child f : Nat) (who : Who) :
    List (Nat × Nat × Nat) → State → Except Nat State
  | [], s => .ok s
  | (ly, hd, kv) :: r, s =>
    let (b, s1) := s.kvLook w c none par ly hd (f / 64) kv
    match b with
    | none => forkEdge w c par child f who r s1
    | some n =>
      match s1.forkCopy w c child n (256 * (f % 64)) who with
      | .error x => .error x
      | .ok s2 => forkEdge w c par child f who r s2

/-- The blocks of a sequence: those under its own name, and where it is forked those of its parent below the fork point that a lookup
reaches through the redirect (R226). -/
def KvTables.blocksOf (k : KvTables) (e : SlotEnt) : List (Nat × W64) :=
  let own := k.named (seSeq e)
  own ++ (if seForked e then (k.named (seParent e)).filter fun x =>
    decide (bits x.2 49 34 < seFork e / 64) && !(own.any fun y => bits y.2 50 20 == bits x.2 50 20) else [])

/-- Fork a child from a parent at f: the logical block that failed, or the state. -/
def State.forkAll (s : State) (w : BitVec 3) (c : BitVec 8) (par : SlotEnt) (child f : Nat) (who : Who) : Except Nat State :=
  let l := (s.tower w).kv.blocksOf par
  match forkShare w c child f who l s with
  | .error b => .error b
  | .ok s1 => if f % 64 = 0 then .ok s1 else forkEdge w c par child f who (kvGroups l) s1

end Sys2Proof.Machine
end

