-- ==== Sys2Proof/Machine/SeqKv.lean ====
section
/-! DEFINITION. SLOT, KVOP and MSKLD of the sequencer (R391, R392, R357, R358, R207 to R209, R378). -/

namespace Sys2Proof.Machine

/-! ## SLOT -/

/-- The running context, its tower and its entry number n. -/
def slotCtx (st : State) : M Context := do
  match st.ctxOf st.cur st.curSlot with
  | some c => pure c
  | none => illegal

/-- The rules of R392 for an image. -/
def imageOk (e : SlotEnt) : Bool :=
  bits e 31 20 == 0 && bits e 71 68 == 0 && bits e 95 80 == 0 && bits e 511 352 == 0 && !seForked e &&
    (!seValid e || decide (seLen e < seCap e))

/-- R391. An image that is refused has not been read: ILLEGAL leaves no record of it (R193, R235). -/
def execSlotSet (q : BitVec 3) (s t : BitVec 5) (st : State) : Ans :=
  seqM q st do
    noRuntime
    let p := st.bank.gr s
    let n := (st.bank.gr t).toNat
    illegalIf (256 ≤ n)
    let c ← slotCtx st
    let w := towerOf st.cur
    waitRetired st [.dec]
    let s0 ← get
    let img := BitVec.ofNat 512 (leNat (← segRead st.seqMe p 64 64))
    let old := st.slotEnt w c n
    let keeps := seValid old && seSeq old == seSeq img
    if imageOk img = false ∨ (keeps = true ∧ seBucket old ≠ seBucket img) then
      set s0
      illegal
    let e := if !seValid img then 0
      else if keeps then withFork img (seForked old) (bits old 127 96) (seFork old)
      else withFork img false 0 0
    modS fun s => s.setSlotEnt w c n e

/-- R391. -/
def execSlotLen (q : BitVec 3) (s t : BitVec 5) (st : State) : Ans :=
  seqM q st do
    noRuntime
    let n := (st.bank.gr s).toNat
    illegalIf (256 ≤ n)
    let c ← slotCtx st
    let w := towerOf st.cur
    waitRetired st [.dec]
    let e := st.slotEnt w c n
    illegalIf (seValid e = false ∨ seCap e ≤ (st.bank.gr t).toNat)
    modS fun s => s.setSlotEnt w c n (setBits e 63 32 (st.bank.gr t).toNat)

/-- R391. -/
def execSlotGet (q : BitVec 3) (d s t : BitVec 5) (st : State) : Ans :=
  seqM q st do
    noRuntime
    let n := (st.bank.gr s).toNat
    let i := (st.bank.gr t).toNat
    illegalIf (256 ≤ n ∨ 8 ≤ i)
    let c ← slotCtx st
    writeG d (BitVec.ofNat 64 (bits (st.slotEnt (towerOf st.cur) c n) (64 * i + 63) (64 * i)))

/-! ## KVOP -/

/-- R358: fork. A copy of a block uses every channel of the main bus (R283). -/
def execKvopFork (q : BitVec 3) (d s t : BitVec 5) (st : State) : Ans :=
  seqM q st do
    noRuntime
    let v := st.bank.gr s
    let f := (st.bank.gr t).toNat
    illegalIf (bits v 63 16 ≠ 0)
    let c ← slotCtx st
    let w := towerOf st.cur
    waitRetired st [.dec]
    let pn := bits v 7 0
    let cn := bits v 15 8
    let pe := st.slotEnt w c pn
    let ce := st.slotEnt w c cn
    illegalIf (seValid pe = false ∨ seValid ce = false ∨ pn = cn ∨ seForked ce = true ∨ seLen ce ≠ 0 ∨ seLen pe < f)
    if seForked pe && decide (seFork pe < f) then writeG d 0x16
    else
      match (← get).forkAll w c.id pe (seSeq ce) f (st.who st.seqMe) with
      | .error b => writeG d (BitVec.ofNat 64 (0x13 + 256 * b))
      | .ok s1 =>
        if vget (5 : BitVec 3) (s1.dctxOf w c.id).cnt ≠ vget (5 : BitVec 3) (st.dctxOf w c.id).cnt then laneFree w 0 16384
        set (s1.setSlotEnt w c cn (withFork ce true (if seForked pe then seParent pe else seSeq pe) f))
        writeG d 0

/-- R358: drop. -/
def execKvopDrop (q : BitVec 3) (s : BitVec 5) (st : State) : Ans :=
  seqM q st do
    noRuntime
    let v := (st.bank.gr s).toNat
    illegalIf (256 ≤ v)
    let c ← slotCtx st
    let w := towerOf st.cur
    waitRetired st [.dec]
    let e := st.slotEnt w c v
    illegalIf (seValid e = false)
    modS fun s => s.modTower w fun x =>
      { x with kv := (x.kv.named (seSeq e)).foldl (fun k b => k.lower b.1 x.started) x.kv }

/-- R358: look. -/
def execKvopLook (q : BitVec 3) (d s t : BitVec 5) (st : State) : Ans :=
  seqM q st do
    noRuntime
    let v := st.bank.gr s
    let b := (st.bank.gr t).toNat
    illegalIf (bits v 63 23 ≠ 0 ∨ 65535 < b)
    let c ← slotCtx st
    let w := towerOf st.cur
    waitRetired st [.dec]
    let e := st.slotEnt w c (bits v 7 0)
    illegalIf (seValid e = false)
    let (r, s1) := (← get).kvLook w c.id none e (bits v 15 8) (bits v 21 16) b (bits v 22 22)
    set s1
    writeG d (match r with
      | some n => BitVec.ofNat 64 (16384 * n)
      | none => ones 64)

/-! ## MSKLD -/

/-- The mask slot that an MSKLD names: the tile's, or with `.dec` the tower decode engine's. -/
def State.mskSlot (s : State) (e : BitVec 1) (l : BitVec 3) : MaskSlot :=
  if e = 0 then vget l (s.slot s.cur s.curSlot).masks
  else vget l (s.dctxOf (towerOf s.cur) (s.ctxId s.cur s.curSlot)).masks

def State.setMskSlot (s : State) (e : BitVec 1) (l : BitVec 3) (m : MaskSlot) : State :=
  if e = 0 then s.modSlot s.cur s.curSlot fun k => { k with masks := vset l m k.masks }
  else s.modDctx (towerOf s.cur) (s.ctxId s.cur s.curSlot) fun d => { d with masks := vset l m d.masks }

/-- MSKLD: the wait of R209, then the function. -/
def mskldM (q : BitVec 3) (e : BitVec 1) (st : State) (m : M Unit) : Ans :=
  seqM q st do
    noRuntime
    waitRetired st (if e = 0 then [.mat] else [.dec])
    m

/-- The words of an MSK block. -/
def Code.mskBlock (c : Code) (b : Nat) : Option (List Word) := (c.blkMsk[b]?).map fun k => (c.msk.drop k.start).take k.len

/-- R208. -/
def execMskldProg (q : BitVec 3) (e : BitVec 1) (l b : BitVec 3) (st : State) : Ans :=
  mskldM q e st do
    match (st.ctxOf st.cur st.curSlot).bind fun c => c.code.mskBlock b.toNat with
    | none => fault .maskprog 0 0
    | some ws =>
      match maskCheck 0 [] ws with
      | some i => fault .maskprog 0 (BitVec.ofNat 64 i)
      | none => modS fun s => s.setMskSlot e l { s.mskSlot e l with prog := ws }

/-- R207. -/
def execMskldParam (q : BitVec 3) (s : BitVec 5) (e : BitVec 1) (l n : BitVec 3) (st : State) : Ans :=
  mskldM q e st do
    let v := (st.bank.gr s).toInt
    faultIf (v < -(2 ^ 23 : Int) ∨ (2 ^ 23 : Int) ≤ v) .maskprog 0 0
    modS fun s => s.setMskSlot e l { s.mskSlot e l with mp := vset n (BitVec.ofInt 24 v) (s.mskSlot e l).mp }

/-- The index, counted from 1, of the first start word that R207 refuses. -/
def badStart (n : Nat) (prev : Option Nat) : List Nat → Option Nat
  | [] => none
  | w :: r => if 2 ^ 24 ≤ w ∨ prev.any (fun p => w ≤ p) then some n else badStart (n + 1) (some w) r

/-- Read n words, each an aligned access of its own (R207). -/
def readWords (m : Me) (p : W64) : Nat → M (List Nat)
  | 0 => pure []
  | n + 1 => do
    let b ← segRead m p 4 4
    let r ← readWords m (p + 4) n
    pure (leNat b :: r)

/-- R207. Every start word is read before check 4 looks at the first: POISON or RACE of a later word comes before MASKPROG of an earlier one,
for which the spec gives no order (DESIGN CHOICE, log 113). -/
def execMskldRuns (q : BitVec 3) (s : BitVec 5) (e : BitVec 1) (l : BitVec 3) (st : State) : Ans :=
  mskldM q e st do
    let p := st.bank.gr s
    let n := leNat (← segRead st.seqMe p 4 4)
    faultIf (1024 < n) .maskprog 0 0
    let _ ← segCheck st.seqMe p (4 + 4 * n) 0
    let ws ← readWords st.seqMe (p + 4) n
    match badStart 1 none ws with
    | some i => fault .maskprog 0 (BitVec.ofNat 64 i)
    | none => modS fun s => s.setMskSlot e l { s.mskSlot e l with runs := ws }

/-- R207. -/
def execMskldStat (q : BitVec 3) (d : BitVec 5) (e : BitVec 1) (l : BitVec 3) (n : BitVec 2) (st : State) : Ans :=
  mskldM q e st do writeG d (vget n (st.mskSlot e l).cnt)

/-- R207. -/
def execMskldClear (q : BitVec 3) (e : BitVec 1) (l : BitVec 3) (st : State) : Ans :=
  mskldM q e st do modS fun s => s.setMskSlot e l { s.mskSlot e l with cnt := Vector.replicate 4 0 }

end Sys2Proof.Machine
end

