-- ==== Sys2Proof/Machine/Dec.lean ====
section
/-! DEFINITION. The decode engine: DATTN, DAPPEND, DSTAT, DBAR (R228 to R232, R338 to R342), parking (R248). -/

namespace Sys2Proof.Machine

/-! ## Entries of the decode engine -/

/-- The running entry of the tower whose engine moves: the moving tile is its issuing tile. -/
def State.decTower (s : State) : BitVec 3 := towerOf s.cur

def State.decCur (s : State) : DecEntry := ((s.tower s.decTower).dec.cur).getD default

/-- The decode engine as an agent of the issuing slot. -/
def State.decMe (s : State) : Me := ⟨s.cur, s.curSlot, .dec⟩

def State.modDecCur (s : State) (f : DecEntry → DecEntry) : State :=
  s.modTower s.decTower fun x => { x with dec := { x.dec with cur := x.dec.cur.map f } }

/-- DECODE record (R294). (DEDUCED, log 73) -/
def State.decRecord (s : State) (w : BitVec 3) (e : Entry) (ev : Nat) : State :=
  s.traceTower w 0x12 ([e.ctx, e.tile] ++ leBytes 2 e.issue.toNat ++ leBytes 1 ev)

/-- Park the entry that runs, or stands at the head, and the later entries of its slot, in order (R248). Its wait is recorded,
and it keeps what a stopped agent keeps (R246, R300). -/
def State.parkDec (s : State) (w : BitVec 3) : State :=
  let d := (s.tower w).dec
  match d.cur.or d.q.items.head? with
  | none => s
  | some h =>
    let mine (x : DecEntry) : Bool := x.e.tile == h.e.tile && x.e.ctx == h.e.ctx
    let s0 := ((s.tile h.e.tile).slotOfCtx h.e.ctx).elim s fun k => s.stopWait h.e.tile k .dec
    let out := match d.cur.toList ++ d.q.items.filter mine with
      | x :: r => { x with agt := x.agt.or (some (s0.tower w).dec.agt) } :: r
      | [] => []
    let s1 := out.foldl (fun s x => s.decRecord w x.e 2) s0
    s1.modTower w fun t => { t with dec := { t.dec with
      cur := none
      token := false
      q := t.dec.q.keep 64 fun x => !mine x
      parked := t.dec.parked ++ out
      agt := {} } }

/-- R248: an entry whose slot does not run is parked with the later entries of that slot. -/
def execDecEntryPark (w : BitVec 3) (s : State) : Ans :=
  let d := (s.tower w).dec
  match d.cur.or d.q.items.head? with
  | none => .next s
  | some h => if s.decRuns h.e then .next s else .next (s.parkDec w)

/-- How a unit of the decode engine ends: `last` says that its word is complete; `supp` is SUPP at its start. A fault parks the
entry (R248). -/
def decEnd (supp : BitVec 24) (r : EStateM.Result Stop State Bool) : Ans :=
  match r with
  | .ok last s0 =>
    let s := s0.clearRemote s0.decMe
    .next (if last then s.modDecCur fun d => { d with unit := d.unit + 1, begun := false } else s)
  | .error (.fault c v i it) s0 =>
    let f := s0.unitRec s0.decMe.tile s0.decMe.slot .dec c v i it
    let s := s0.clearRemote s0.decMe
    .next ((s.parkDec s.decTower).raise s.decMe.tile s.decMe.slot f)
  | .error (.wait o) s => .next ((s.backSupp s.cur s.curSlot supp).engWait s.decMe o)
  | .error .gone s => .next s

/-- A unit of the decode engine. -/
def decM (st : State) (m : M Bool) : Ans := decEnd (st.slot st.cur st.curSlot).race.supp (m st)

/-- A fault with an item of its own. -/
def faultAt (c : Cause) (fval finfo : W64) (item : Nat) : M α := throw (.fault c fval finfo (some (BitVec.ofNat 16 item)))

/-- Give a fault of a computation an item, where it has none. -/
def withItem (item : Nat) (m : M α) : M α := fun s =>
  match m s with
  | .error (.fault c v i none) t => .error (.fault c v i (some (BitVec.ofNat 16 item))) t
  | r => r

/-- The context that issued the running entry. -/
def decCtx (st : State) : M Context := do
  match st.ctxById st.decCur.e.ctx with
  | some c => pure c
  | none => throw .gone

/-- A decode record of the running entry (Table 9.7). -/
def postDec (st : State) (item : Nat) (status : BitVec 8) (value : Nat) : M Unit :=
  let e := st.decCur.e
  pushEvent st.decMe (eventRecord e.ctx 3 e.issue (BitVec.ofNat 8 st.decCur.unit) status (BitVec.ofNat 16 item)
    (BitVec.ofNat 64 value))

/-! ## DATTN -/

/-- The FP32 values of a range of the work area. -/
def f32s (bs : List Byte) (off : Nat) : Nat → List Nat
  | 0 => []
  | n + 1 => leNat ((bs.drop off).take 4) :: f32s bs (off + 4) n

/-- The BF16 values of bytes. -/
def bf16s (bs : List Byte) : Nat → List Nat
  | 0 => []
  | n + 1 => leNat (bs.take 2) :: bf16s (bs.drop 2) n

/-- Running state of a walk: m, l, o (FP32) and the flags. -/
structure Walk where
  m : Nat
  l : Nat
  o : List Nat
  g : Flg
  deriving DecidableEq, Repr, Inhabited

def negInf : Nat := 0xFF800000

/-- The work area's bytes from offset 256: o, m, l, NEXT. -/
def Walk.bytes (k : Walk) (next : Nat) : List Byte :=
  k.o.flatMap (leBytes 4) ++ leBytes 4 k.m ++ leBytes 4 k.l ++ leBytes 4 next

/-- Scores of the keys of a block (R230): FP32 values and flags. -/
def scores (q : List Nat) (scale : Nat) (ks : List (List Nat)) (allow : List Bool) : List Nat × Flg :=
  (ks.zip allow).foldl (fun (a : List Nat × Flg) ka =>
    let (d, g1) := fp32.sum rne ((q.zip ka.1).map fun x => (bf16.read x.1).mul (bf16.read x.2))
    let (r, g2) := fp32.mul rne d scale
    (a.1 ++ [if ka.2 then r else negInf], a.2 ||| g1 ||| g2)) ([], 0)

/-- One block of a walk (R230). (DEDUCED, log 22) -/
def Walk.block (k : Walk) (q : List Nat) (scale : Nat) (ks vs : List (List Nat)) (allow : List Bool) : Walk :=
  let (ss, g0) := scores q scale ks allow
  let (m2, g1) := ss.foldl (fun (a : Nat × Flg) x => let (r, g) := fp32.minmax true a.1 x; (r, a.2 ||| g)) (k.m, g0)
  if m2 = negInf then { k with g := k.g ||| g1 }
  else
    let ex (x : Nat) : Nat × Flg :=
      let (d, ga) := fp32.sub rne x m2
      let (r, gb) := exp2of d
      (r, ga ||| gb)
    let (a, g2) := ex k.m
    let ps := ss.map ex
    let g3 := ps.foldl (fun g x => g ||| x.2) g2
    let rd (x : Nat) : Fx := fp32.read x
    let (l, g4) := fp32.sum rne ((rd a).mul (rd k.l) :: ps.map fun p => rd p.1)
    let os := (List.range 128).map fun d => fp32.sum rne ((rd a).mul (rd (k.o.getD d 0)) ::
      (ps.zip vs).map fun x => (rd x.1.1).mul (bf16.read (x.2.getD d 0)))
    { m := m2, l := l, o := os.map (·.1), g := os.foldl (fun g x => g ||| x.2) (k.g ||| g1 ||| g3 ||| g4) }

/-- The end of a walk: o / l where l > 0. -/
def Walk.finish (k : Walk) : Walk :=
  if (fp32.cond 7 k.l 0).1 then
    let os := k.o.map fun x => fp32.div rne x k.l
    { k with o := os.map (·.1), g := os.foldl (fun g x => g ||| x.2) k.g }
  else k

/-- Rows of a block as lists of BF16 values. -/
def blockRows (bs : List Byte) (n : Nat) : List (List Nat) := (chunksOf 256 n bs).map fun r => bf16s r 128

/-- The class counter of a walk's mask slot, and the bytes not fetched (R230). (DEDUCED, log 23) -/
def State.countClass (s : State) (w : BitVec 3) (c : BitVec 8) (l : BitVec 3) (x : Cls) : State :=
  s.modDctx w c fun d =>
    let m := vget l d.masks
    let up (n : BitVec 2) (v : Nat) (k : Vector W64 4) : Vector W64 4 := vset n (vget n k + BitVec.ofNat 64 v) k
    let cnt := match x with
      | .full => up 0 1 m.cnt
      | .partly => up 1 1 m.cnt
      | .empty => up 2 1 (up 3 32768 m.cnt)
    { d with masks := vset l { m with cnt := cnt } d.masks }

/-- The checks of a turn of a walk on its work area (R94, R338): its place; q, which a turn with `q` reads, and the bytes from o to the end
of NEXT, which every turn writes (R193, R230). (DEDUCED, log 24) A SHARED segment homed on another tile of the tower is accepted, as R94
allows and R229 does not name (DEDUCED, log 115). -/
def workArea (st : State) (q : Bool) : M SegRef := do
  let me := st.decMe
  let p := st.decCur.e.x
  let (r, g) ← segCheck me p 1024 64
  if g.check && q then raceCheck me g.store p r.off 256 false
  if g.check then raceCheck me g.store (p + 256) (r.off + 256) 524 true
  resident (some me) r.tile r.slot g
  modS fun s => s.touch r
  pure r

/-- Write o, m, l and NEXT. -/
def putWalk (st : State) (r : SegRef) (q : Bool) (k : Walk) (next : Nat) : M Unit := do
  if q then segRecords st.decMe [r] 256 false
  segRecords st.decMe [{ r with off := r.off + 256 }] 524 true
  segWriteRef st.decMe { r with off := r.off + 256 } (k.bytes next)

/-- What a walk finds of a block: its K and V blocks, and where both are there what their rows read as and whether a word was
uncorrectable; and the state after the lookups and the reads. -/
structure KvFetch where
  k : Option Nat
  v : Option Nat
  ks : List Byte × Bool
  vs : List Byte × Bool
  st : State
  deriving DecidableEq, Repr, Inhabited

/-- Look up the K and V blocks of logical block b, and read n rows of each (R226, R230). -/
def State.fetchBlock (s : State) (w : BitVec 3) (c : BitVec 8) (who : DecKey) (e : SlotEnt) (lay head b n : Nat) : KvFetch :=
  let (kb, s1) := s.kvLook w c (some who) e lay head b 0
  let (vb, s2) := s1.kvLook w c (some who) e lay head b 1
  match kb, vb with
  | some kn, some vn =>
    let (k, s3) := s2.layerRead w (16384 * kn) (256 * n) c
    let (v, s4) := s3.layerRead w (16384 * vn) (256 * n) c
    ⟨kb, vb, k, v, s4⟩
  | _, _ => ⟨kb, vb, ([], false), ([], false), s2⟩

/-- Commit a block (R230, R232). -/
def commitBlock (st : State) (r : SegRef) (c : Context) (k : Walk) (b bytes : Nat) (useMask : Bool) (l : BitVec 3)
    (x : Cls) : M Unit := do
  putWalk st r true k (b + 1)
  let w := st.decTower
  modS fun s =>
    let s1 := (s.count w c.id 0 1).count w c.id 2 bytes
    let s2 := if x = .empty then s1.count w c.id 1 1 else s1
    let s3 := if useMask then s2.countClass w c.id l x else s2
    s3.modTstat s3.decMe { flags := vecFlags k.g }

/-- R229, R230, R340: one turn writes the start values, or runs one block, or ends the walk. (DEDUCED, log 24) -/
def execDattn (st : State) : Ans :=
  decM st do
    let d := st.decCur
    let y := d.e.y
    let c ← decCtx st
    let w := st.decTower
    let run : DecRun := d.run.getD ⟨0, MaskSlot.reset⟩
    let e := run.slot
    let lay := bits y 15 8
    let head := bits y 21 16
    let ml := BitVec.ofNat 3 (bits y 24 22)
    let useMask := bit y 25
    if bits y 31 26 ≠ 0 ∨ seValid e = false then faultAt .layout 0 0 0
    if useMask && run.mask.prog.isEmpty then faultAt .maskprog 0 0 0
    let here := if d.begun then (st.decItem st.cur st.curSlot d.e).toNat else 0
    let r ← withItem here (workArea st d.begun)
    if d.begun = false then
      let s0 ← get
      withItem 0 (segPartPoison st.decMe s0 (d.e.x + 256) { r with off := r.off + 256 } 524)
      putWalk st r false (Walk.mk negInf 0 (List.replicate 128 0) 0) 0
      modS fun s => s.modDecCur fun x => { x with begun := true }
      pure false
    else
      let wa ← withItem here (segTake st.decMe d.e.x r 780)
      let k : Walk := ⟨leNat ((wa.drop 768).take 4), leNat ((wa.drop 772).take 4), f32s wa 256 128, 0⟩
      let b := leNat ((wa.drop 776).take 4)
      let p := seLen e
      if p / 64 < b then
        let k1 := k.finish
        putWalk st r true k1 b
        modS fun s => s.modTstat s.decMe { flags := vecFlags k1.g }
        pure true
      else
        let last := min (64 * b + 63) p
        let n := last + 1 - 64 * b
        let ms := run.mask.withMp e
        let cls : Option Cls := if useMask then ms.classOf p p (64 * b) last else some .full
        match cls with
        | none => faultAt .maskprog 0 0 b
        | some .empty =>
          commitBlock st r c k b 0 useMask ml .empty
          pure false
        | some x =>
          let look (s : State) : KvFetch := s.fetchBlock w c.id d.e.key e lay head b n
          let s0 ← get
          let f := look s0
          match f.k, f.v with
          | some kn, some vn =>
            laneFree w (16384 * kn) (256 * n)
            laneFree w (16384 * vn) (256 * n)
            if f.ks.2 || f.vs.2 then
              let addr := 16384 * (if f.ks.2 then kn else vn)
              postDec st b 0x15 addr
              modS fun s => (look s).st.freezePoison s.cur addr
              commitBlock st r c k b (2 * 256 * n) useMask ml x
              pure false
            else
              set f.st
              let allow : List (Option Bool) := (List.range n).map fun (i : Nat) =>
                if x = Cls.partly then ms.truth p ((64 * b + i : Nat) : Int) else some true
              let k1 := k.block (bf16s wa 128) (bits y 63 32) (blockRows f.ks.1 n) (blockRows f.vs.1 n)
                (allow.map fun o => o.getD false)
              commitBlock st r c k1 b (2 * 256 * n) useMask ml x
              pure false
          | _, _ =>
            let kv := if f.k.isNone then 0 else 1
            postDec st b 0x10 (kvName (seSeq e) lay head b kv)
            modS fun s => (look s).st.count w c.id 7 1
            commitBlock st r c k b 0 useMask ml x
            pure false

/-! ## DAPPEND -/

/-- What a stored token changes, or the record that it posts instead (R339): status and value. -/
def State.appendPlan (s : State) (w : BitVec 3) (c : BitVec 8) (e : SlotEnt) (lay head : Nat) :
    Except (BitVec 8 × Nat) (Nat × Nat × Nat × State) :=
  let p := seLen e
  let nk := kvName (seSeq e) lay head (p / 64) 0
  let nv := kvName (seSeq e) lay head (p / 64) 1
  if seCap e ≤ p then .error (0x14, p)
  else if p % 64 = 0 then
    let kv := (s.tower w).kv
    match kv.alloc nk 1 with
    | .error x => .error (BitVec.ofNat 8 x, nk)
    | .ok (a, kv1) => match kv1.alloc nv 1 with
      | .error x => .error (BitVec.ofNat 8 x, nv)
      | .ok (b, kv2) => .ok (a, b, 2, s.modTower w fun x => { x with kv := kv2 })
  else
    let (a, oa) := (s.tower w).kv.find nk
    let (b, ob) := (s.tower w).kv.find nv
    match a, b with
    | some a, some b => .ok (a, b, 0, s.count w c 6 (b2n oa + b2n ob))
    | _, _ => .error (0x10, if a.isNone then nk else nv)

/-- Store the rows of a token (R229, R339). -/
def State.appendStore (s : State) (w : BitVec 3) (c : BitVec 8) (p a b n : Nat) (k v : List Byte) (who : Who) : State :=
  let s1 := (s.layerWrite w (16384 * a + 256 * (p % 64)) k who).layerWrite w (16384 * b + 256 * (p % 64)) v who
  (s1.count w c 3 1).count w c 4 n

/-- The lookups of an append that posts KVMISS: each that reached the overflow list counts (R232). -/
def State.missCount (s : State) (w : BitVec 3) (c : BitVec 8) (e : SlotEnt) (lay head : Nat) : State :=
  let k := (s.tower w).kv
  let f (kv : Nat) := b2n (k.find (kvName (seSeq e) lay head (seLen e / 64) kv)).2
  (s.count w c 6 (f 0 + f 1)).count w c 7 1

/-- R339. -/
def execDappend (st : State) : Ans :=
  decM st do
    let d := st.decCur
    let y := d.e.y
    let c ← decCtx st
    let w := st.decTower
    let e := (d.run.getD ⟨0, MaskSlot.reset⟩).slot
    let lay := bits y 15 8
    let head := bits y 21 16
    if bits y 63 22 ≠ 0 ∨ seValid e = false then faultAt .layout 0 0 0
    let r ← withItem 0 (do
      match ← segAccesses st.decMe [d.e.x] 512 16 false with
      | r :: _ => pure r
      | [] => throw .gone)
    let bs ← withItem 0 (segTake st.decMe d.e.x r 512)
    match (← get).appendPlan w c.id e lay head with
    | .error (code, v) =>
      postDec st 0 code v
      segRecords st.decMe [r] 512 false
      if code = 0x10 then modS fun s => s.missCount w c.id e lay head
      pure true
    | .ok (a, b, n, s1) =>
      laneFree w (16384 * a + 256 * (seLen e % 64)) 256
      laneFree w (16384 * b + 256 * (seLen e % 64)) 256
      set (s1.appendStore w c.id (seLen e) a b n (bs.take 256) (bs.drop 256) (st.who st.decMe))
      segRecords st.decMe [r] 512 false
      pure true

/-! ## DSTAT and DBAR -/

/-- R342: entries of the context that are ahead in the tower queue have retired when this one runs (R228).
(DEDUCED, log 25) -/
def execDstat (st : State) : Ans :=
  decM st do
    let d := st.decCur
    let c ← decCtx st
    if d.e.y ≠ 0 then faultAt .layout 0 0 0
    let dc := st.dctxOf st.decTower c.id
    withItem 0 (segWrite st.decMe d.e.x (dc.cnt.toList.flatMap fun (v : W64) => leBytes 8 v.toNat) 64)
    pure true

/-- R341. (DEDUCED, log 25) -/
def execDbar (st : State) : Ans :=
  decM st do
    let d := st.decCur
    if bits d.e.y 63 32 ≠ 0 then faultAt .layout 0 0 0
    withItem 0 (do
      let p ← segPlace st.decMe d.e.x 16 16 true
      arriveAt st.decMe p d.e.x (bits d.e.y 31 0) 0)
    pure true

end Sys2Proof.Machine
end

