-- ==== Sys2Proof/Machine/Vec.lean ====
section
/-! DEFINITION. What vector instructions share: lanes (R60), the row window (R59), predicates (R61), row reads and writes
(R398), the address slot (R63, R64). -/

namespace Sys2Proof.Machine

/-! ## Element types (Table 3.9) -/

/-- Lane width in bytes of an ETYPE. -/
def laneBytes (t : Nat) : Nat := if t < 2 then 4 else if t < 5 then 2 else if t = 5 then 1 else 128

def laneCount (t : Nat) : Nat := 128 / laneBytes t

/-- The float format of an ETYPE. -/
def laneFmt (t : Nat) : Option Fmt :=
  if t = 0 then some fp32 else if t = 2 then some bf16 else if t = 3 then some fp16 else none

def laneInt (t : Nat) : Bool := t == 1 || t == 4 || t == 5

/-- The lanes of a row, each of b bytes. -/
def rowLanes (b : Nat) (r : Row) : List Nat := (List.range (128 / b)).map fun i => r.toNat / 2 ^ (8 * b * i) % 2 ^ (8 * b)

/-- The row of lanes. -/
def lanesRow (b : Nat) (l : List Nat) : Row :=
  BitVec.ofNat 1024 (l.foldr (fun x a => x % 2 ^ (8 * b) + 2 ^ (8 * b) * a) 0)

/-- A lane as a signed number. -/
def sgn (w x : Nat) : Int := (BitVec.ofNat w x).toInt

/-! ## The instruction's view -/

/-- What a vector instruction reads first: the agent, its vector state, ETYPE, the predicate of its lanes. -/
structure Vu where
  me : Me
  v : VecState
  et : Nat
  pred : BitVec 128
  deriving DecidableEq, Repr, Inhabited

def Vu.b (u : Vu) : Nat := laneBytes u.et
def Vu.n (u : Vu) : Nat := laneCount u.et
def Vu.act (u : Vu) (i : Nat) : Bool := bit u.pred i

/-- The vector state of the moving engine. -/
def State.vecSt (s : State) : VecState := (s.slot s.cur s.curSlot).vs

def VecState.etype (v : VecState) : Nat := bits v.shape 11 8

/-- vp n: vp0 holds all ones, since writes to it are discarded. -/
def VecState.pred (v : VecState) (n : BitVec 3) : BitVec 128 := vget n v.vp

def VecState.setPred (v : VecState) (n : BitVec 3) (x : BitVec 128) : VecState :=
  if n = 0 then v else { v with vp := vset n x v.vp }

def VecState.scalar (v : VecState) (n : BitVec 3) : W64 := vget n v.vs

def VecState.setScalar (v : VecState) (n : BitVec 3) (x : W64) : VecState := { v with vs := vset n x v.vs }

def VecState.setAd (v : VecState) (n : BitVec 3) (x : AdReg) : VecState := { v with ad := vset n x v.ad }

/-- The view of an instruction whose lanes predicate p picks. -/
def State.vu (s : State) (p : BitVec 3) : Vu := ⟨s.meOf .vec, s.vecSt, s.vecSt.etype, s.vecSt.pred p⟩

def modVec (f : VecState → VecState) : M Unit := modS fun s => s.modSlot s.cur s.curSlot fun k => { k with vs := f k.vs }

/-- Flags to TSTAT (R115). -/
def vFlags (g : Flg) : M Unit := modS fun s => s.modTstat (s.meOf .vec) { flags := vecFlags g }

def layoutIf (p : Prop) [Decidable p] : M Unit := faultIf p .layout 0 0

/-- The rounding mode of a rounding field (R317). -/
def Vu.rm (u : Vu) (r : BitVec 3) : Rm := if r = 0 then u.v.vrm else r.setWidth 2

/-! ## Rows (R59, R398) -/

/-- The accumulator tile of row n. -/
def Vu.tile (u : Vu) (n : BitVec 6) : BitVec 8 := u.v.shape.setWidth 8 + (if n.toNat < 32 then 0 else 1)

/-- Ownership of the tiles of rows, sources before destinations; a tile touched twice is the same touch. -/
def vOwn (u : Vu) (l : List (BitVec 6)) : M Unit := forM' l fun n => touchAcc u.me (u.tile n)

def vRow (u : Vu) (n : BitVec 6) : M Row := readAcc u.me (u.tile n) (n.setWidth 5)

/-- The lanes of a row in an element width. -/
def vLanes (u : Vu) (n : BitVec 6) (b : Nat) : M (List Nat) := do pure (rowLanes b (← vRow u n))

/-- A row and its sideband, as one unit (R149). -/
def vUnit (u : Vu) (n : BitVec 6) : M (Row × Word) := readUnit u.me (u.tile n) (n.setWidth 5)

/-- Write a whole row with a zero sideband. -/
def vPut (u : Vu) (n : BitVec 6) (r : Row) : M Unit := writeAcc u.me (u.tile n) (n.setWidth 5) r 0

/-- The old lanes of a destination; not read where every lane is replaced. -/
def vOld (u : Vu) (n : BitVec 6) (b : Nat) (sel : Nat → Bool) : M (List Nat) := do
  if (List.range (128 / b)).all sel then pure (List.replicate (128 / b) 0) else vLanes u n b

/-- Write the selected lanes of a row, the others keeping their contents. -/
def vMerge (u : Vu) (n : BitVec 6) (b : Nat) (new : List Nat) (sel : Nat → Bool) : M Unit := do
  let old ← vOld u n b sel
  vPut u n (lanesRow b ((List.range (128 / b)).map fun i => if sel i then new.getD i 0 else old.getD i 0))

/-- A lane function over the active lanes, with their flags. -/
def lanesWith (u : Vu) (f : Nat → Nat × Flg) : List Nat × Flg :=
  (List.range u.n).foldl (fun (a : List Nat × Flg) i =>
    if u.act i then
      let (x, g) := f i
      (a.1 ++ [x], a.2 ||| g)
    else (a.1 ++ [0], a.2)) ([], 0)

/-- Write the result of a lane function to the active lanes of a row, flags to TSTAT. -/
def vWrite (u : Vu) (d : BitVec 6) (f : Nat → Nat × Flg) : M Unit := do
  let (l, g) := lanesWith u f
  vMerge u d u.b l u.act
  vFlags g

/-- A predicate from lane bits: lanes that `sel` picks take the value, other bits keep theirs. (DEDUCED, log 43) -/
def predWith (n : Nat) (old : BitVec 128) (sel val : Nat → Bool) : BitVec 128 :=
  (List.range n).foldl (fun p i => if sel i then setBit p i (val i) else p) old

/-! ## The address slot (Table 3.11, R64) -/

def adPos (a : AdReg) : Nat := bits a 127 104
def adLen (a : AdReg) : Nat := bits a 103 81
def adStep (a : AdReg) : Int := sgn 24 (bits a 80 57)
def adMode (a : AdReg) : Nat := bits a 56 55
def adSeg (a : AdReg) : BitVec 12 := BitVec.ofNat 12 (bits a 51 40)
def adOff (a : AdReg) : Nat := bits a 22 0

def adSetPos (a : AdReg) (n : Nat) : AdReg := setBits a 127 104 n

/-- The low k bits of x reversed. -/
def bitRev : Nat → Nat → Nat
  | 0, _ => 0
  | k + 1, x => x % 2 * 2 ^ k + bitRev k (x / 2)

/-- The address offset. -/
def adAddr (a : AdReg) : Int :=
  match adMode a with
  | 2 => adOff a + adStep a * bitRev (Nat.log2 (adLen a)) (adPos a)
  | 3 => adOff a + (adPos a % adLen a : Nat)
  | _ => adOff a + adPos a

/-- The register after the post-increment. -/
def adNext (a : AdReg) : AdReg :=
  let p : Int := match adMode a with
    | 0 => (adPos a + adStep a) % 2 ^ 24
    | 1 => (adPos a + adStep a) % adLen a
    | 2 => (adPos a + 1) % adLen a
    | _ => (adPos a + adStep a) % (2 * adLen a)
  adSetPos a p.toNat

/-- The register after n post-increments. -/
def adAfter (a : AdReg) : Nat → AdReg
  | 0 => a
  | n + 1 => adAfter (adNext a) n

/-- The rule of R64 for a length, a position and a mode. -/
def adLegal (mode len pos : Nat) : Bool :=
  match mode with
  | 0 => true
  | 1 => decide (pos < len)
  | 2 => decide (2 ≤ len) && decide (len ≤ 2 ^ 22) && len == 2 ^ Nat.log2 len && decide (pos < len)
  | _ => decide (pos < 2 * len)

/-- The segment pointer at an offset of a segment; SEGBOUND where it is no 23-bit offset. -/
def adPtr (n : BitVec 12) (off : Int) : M W64 := do
  let p : W64 := BitVec.ofInt 64 ((n.toNat * 2 ^ 52 : Nat) + off)
  faultIf (off < 0 ∨ 2 ^ 23 ≤ off) .segbound p 0
  pure p

/-! ## Units -/

/-- A vector instruction. -/
def vecM (s : State) (m : M Unit) : Ans := engM .vec s m

/-- The word that an engine of the moving tile runs, as ILLEGAL reports it. -/
def State.engWord (s : State) (e : Eng) : Word :=
  let g := s.eng e
  match s.ctxOf s.cur s.curSlot, g.cur with
  | some c, some x => (unitWord e (c.code.block e x.blk) g.unit g.rpt).getD 0
  | _, _ => 0

def vIllegalIf (p : Prop) [Decidable p] : M Unit := do
  let w := (← get).engWord .vec
  faultIf p .illegal (w.setWidth 64) 0

end Sys2Proof.Machine
end

