-- ==== Sys2Proof/Machine/VecArith.lean ====
section
/-! DEFINITION. Vector arithmetic: VOP, VFMA, VUN, VCMP, VSEL, VCVT, VRED, VSCAN, VSHUF, VDOT, VAMAX, VCLASS, VSOFT, VBXENC,
VBXDEC. Ownership comes first, then the entry's own checks (R398). -/

namespace Sys2Proof.Machine

/-! ## Lane functions -/

/-- The lane function of two operands that an ETYPE selects (Table 17.9); none where its column has no such code. -/
def laneFn (t : Nat) (rm : Rm) (code : Nat) : Option (Nat → Nat → Nat × Flg) :=
  match laneFmt t with
  | some f => if (f.arith rm code 0 0).isNone then none else some fun a b => (f.arith rm code a b).getD (0, 0)
  | none =>
    if laneInt t = false then none
    else
      let w := 8 * laneBytes t
      if (intFn code (0 : BitVec w) 0).isNone then none
      else some fun a b => (((intFn code (BitVec.ofNat w a) (BitVec.ofNat w b)).getD 0).toNat, 0)

/-- R418. -/
def execVop (d a b : BitVec 6) (f : BitVec 5) (p : BitVec 3) (st : State) : Ans :=
  vecM st do
    let u := st.vu p
    vOwn u [a, b, d]
    match laneFn u.et u.v.vrm f.toNat with
    | none => fault .layout 0 0
    | some g =>
      let x ← vLanes u a u.b
      let y ← vLanes u b u.b
      vWrite u d fun i => g (x.getD i 0) (y.getD i 0)

/-- R411. -/
def execVfma (d a b : BitVec 6) (v : BitVec 2) (r p : BitVec 3) (st : State) : Ans :=
  vecM st do
    let u := st.vu p
    vOwn u [a, b, d]
    layoutIf (u.et = 6)
    let x ← vLanes u a u.b
    let y ← vLanes u b u.b
    let z ← vLanes u d u.b
    let negP := decide (2 ≤ v.toNat)
    let negC := v.toNat % 2 == 1
    vWrite u d fun i =>
      let (a, b, c) := (x.getD i 0, y.getD i 0, z.getD i 0)
      match laneFmt u.et with
      | some f => f.fma (u.rm r) a b c negP negC
      | none =>
        let w := 8 * u.b
        let ab := BitVec.ofNat w a * BitVec.ofNat w b
        let c1 := BitVec.ofNat w c
        (((if negP then -ab else ab) + (if negC then -c1 else c1)).toNat, 0)

/-- A special function on a lane: FP32 directly, a narrower format through the exact FP32 value (R427). -/
def viaFp32 (f : Fmt) (fn : Nat → Nat × Flg) (x : Nat) : Nat × Flg :=
  if f = fp32 then fn x
  else
    let (a, g0) := f.conv fp32 rne x
    let (r, g1) := fn a
    let (y, g2) := fp32.conv f rne r
    (y, g0 ||| g1 ||| g2)

/-- Set bits of a number. -/
def popCount (w x : Nat) : Nat := (List.range w).foldl (fun n i => n + x / 2 ^ i % 2) 0

/-- Table 21.10; none where the ETYPE does not admit the function. -/
def laneUn (t : Nat) (rm : Rm) (code : Nat) : Option (Nat → Nat × Flg) :=
  match laneFmt t with
  | some f =>
    let top := 2 ^ (f.width - 1)
    match code with
    | 1 => some fun x => (if x < top then x + top else x - top, 0)
    | 2 => some fun x => (x % top, 0)
    | 3 => some (viaFp32 f fp32.recip)
    | 4 => some (viaFp32 f fp32.rsqrt)
    | 5 => some (viaFp32 f exp2of)
    | 6 => some (viaFp32 f log2of)
    | 7 => some (viaFp32 f tanhOf)
    | 8 => some (f.sqrt rm)
    | _ => none
  | none =>
    if laneInt t = false then none
    else
      let w := 8 * laneBytes t
      match code with
      | 1 => some fun x => ((2 ^ w - x) % 2 ^ w, 0)
      | 2 => some fun x => ((sgn w x).natAbs % 2 ^ w, 0)
      | 9 => some fun x => (2 ^ w - 1 - x, 0)
      | 0xA => some fun x => (w - bitlen x, 0)
      | 0xB => some fun x => (popCount w x, 0)
      | _ => none

/-- R427. -/
def execVun (d a : BitVec 6) (f : BitVec 5) (p : BitVec 3) (st : State) : Ans :=
  vecM st do
    let u := st.vu p
    vOwn u [a, d]
    match laneUn u.et u.v.vrm f.toNat with
    | none => fault .layout 0 0
    | some g =>
      let x ← vLanes u a u.b
      vWrite u d fun i => g (x.getD i 0)

/-- R404: bits of inactive lanes are cleared; bits at and above the lane count keep their values. -/
def execVcmp (d : BitVec 3) (a b : BitVec 6) (c p : BitVec 3) (st : State) : Ans :=
  vecM st do
    let u := st.vu p
    vOwn u [a, b]
    layoutIf (u.et = 6)
    let x ← vLanes u a u.b
    let y ← vLanes u b u.b
    let f (i : Nat) : Bool × Flg := match laneFmt u.et with
      | some f => f.cond c.toNat (x.getD i 0) (y.getD i 0)
      | none => (condI c (BitVec.ofNat (8 * u.b) (x.getD i 0)) (BitVec.ofNat (8 * u.b) (y.getD i 0)), 0)
    modVec fun v => v.setPred d (predWith u.n (v.pred d) (fun _ => true) fun i => u.act i && (f i).1)
    vFlags ((List.range u.n).foldl (fun g i => if u.act i then g ||| (f i).2 else g) 0)

/-- R422. -/
def execVsel (d a b : BitVec 6) (c p : BitVec 3) (st : State) : Ans :=
  vecM st do
    let u := st.vu p
    vOwn u [a, b, d]
    let x ← vLanes u a u.b
    let y ← vLanes u b u.b
    vWrite u d fun i => (if bit (u.v.pred c) i then x.getD i 0 else y.getD i 0, 0)

/-! ## Conversions (R116, R406) -/

/-- One lane converted between ETYPEs. -/
def convLane (rm : Rm) (se de x : Nat) : Nat × Flg :=
  let w := 8 * laneBytes de
  let lo : Int := -((2 ^ (w - 1) : Nat) : Int)
  let hi : Int := ((2 ^ (w - 1) : Nat) : Int) - 1
  let put (v : Int) : Nat := (BitVec.ofInt w v).toNat
  match laneFmt se, laneFmt de with
  | some f, some g => f.conv g rm x
  | some f, none =>
    let (v, g) := (f.read x).toInt rm lo hi
    (put v, g)
  | none, some g => g.ofInt rm (sgn (8 * laneBytes se) x)
  | none, none =>
    let v := sgn (8 * laneBytes se) x
    (put (sat v lo hi), if sat v lo hi = v then 0 else fOF)

/-- R406. -/
def execVcvt (d a : BitVec 6) (r : BitVec 3) (k : BitVec 2) (t p : BitVec 3) (st : State) : Ans :=
  vecM st do
    let u := st.vu p
    vOwn u [a, d]
    let ls := u.n
    let ld := laneCount t.toNat
    let part := k.toNat
    layoutIf (u.et = 6 ∨ max (ls / ld) (ld / ls) ≤ part)
    let x ← vLanes u a u.b
    let src (j : Nat) : Option Nat :=
      if ld < ls then some (part * ld + j)
      else if ls < ld then (if part * ls ≤ j ∧ j < part * ls + ls then some (j - part * ls) else none)
      else some j
    let sel (j : Nat) : Bool := u.act j && (src j).isSome
    let out := (List.range ld).map fun j => match src j with
      | some i => if u.act j then convLane (u.rm r) u.et t.toNat (x.getD i 0) else (0, 0)
      | none => (0, 0)
    vMerge u d (laneBytes t.toNat) (out.map (·.1)) sel
    vFlags (out.foldl (fun g y => g ||| y.2) 0)

/-! ## Reductions (R130, R131) -/

/-- Combine two lanes that may be absent. -/
def comb (f : Nat → Nat → Nat × Flg) (a b : Option Nat) : Option Nat × Flg :=
  match a, b with
  | some x, some y =>
    let (r, g) := f x y
    (some r, g)
  | some x, none => (some x, 0)
  | none, y => (y, 0)

/-- One level of the pairwise tree: neighbours combine. -/
def treeLevel (f : Nat → Nat → Nat × Flg) : List (Option Nat) → List (Option Nat) × Flg
  | a :: b :: r =>
    let (x, g) := comb f a b
    let (l, h) := treeLevel f r
    (x :: l, g ||| h)
  | l => (l, 0)

/-- The tree over 2^k lanes. -/
def treeRed (f : Nat → Nat → Nat × Flg) : Nat → List (Option Nat) → List (Option Nat) × Flg
  | 0, l => (l, 0)
  | k + 1, l =>
    let (l1, g) := treeLevel f l
    let (l2, h) := treeRed f k l1
    (l2, g ||| h)

/-- One level of the prefix: lanes from d on combine with the lane d below, as it was. A lane that no active lane
precedes passes its value, a NaN with its payload and no flag (R130's Combine; R113 and R420 are read as of results).
(DEDUCED, log 44) -/
def scanLevel (f : Nat → Nat → Nat × Flg) (d : Nat) (t : List (Option Nat)) : List (Option Nat) × Flg :=
  let z : List (Option Nat × Flg) := ((List.replicate d none ++ t).zip t).map fun (x : Option Nat × Option Nat) => comb f x.1 x.2
  (z.map (·.1), z.foldl (fun g x => g ||| x.2) 0)

def scanAll (f : Nat → Nat → Nat × Flg) : List Nat → List (Option Nat) → List (Option Nat) × Flg
  | [], t => (t, 0)
  | j :: r, t =>
    let (t1, g) := scanLevel f (2 ^ j) t
    let (t2, h) := scanAll f r t1
    (t2, g ||| h)

/-- The function of a reduction; none where it is not admitted (R420). -/
def redFn (t : Nat) (rm : Rm) (code : Nat) : Option (Nat → Nat → Nat × Flg) :=
  if [1, 5, 6].contains code || (laneInt t && [7, 8, 9, 0x11, 0x13].contains code) then laneFn t rm code else none

/-- The identity of a reduction (R130). -/
def redId (t code : Nat) : Nat :=
  match laneFmt t with
  | some f => if code = 5 then f.inf else if code = 6 then f.sign true + f.inf else 0
  | none => 0

/-- The active lanes of a row. -/
def Vu.opts (u : Vu) (x : List Nat) : List (Option Nat) := (List.range u.n).map fun i => if u.act i then some (x.getD i 0) else none

/-- R420. (DEDUCED, log 44) -/
def execVred (d a : BitVec 6) (f : BitVec 5) (p : BitVec 3) (st : State) : Ans :=
  vecM st do
    let u := st.vu p
    vOwn u [a, d]
    match redFn u.et u.v.vrm f.toNat with
    | none => fault .layout 0 0
    | some g =>
      let x ← vLanes u a u.b
      let (t, fl) := treeRed g (Nat.log2 u.n) (u.opts x)
      vPut u d (lanesRow u.b [((t.headD none).getD (redId u.et f.toNat))])
      vFlags fl

/-- R420. -/
def execVscan (d a : BitVec 6) (f : BitVec 5) (p : BitVec 3) (st : State) : Ans :=
  vecM st do
    let u := st.vu p
    vOwn u [a, d]
    match redFn u.et u.v.vrm f.toNat with
    | none => fault .layout 0 0
    | some g =>
      let x ← vLanes u a u.b
      let (t, fl) := scanAll g (List.range (Nat.log2 u.n)) (u.opts x)
      vMerge u d u.b (t.map fun o => o.getD 0) u.act
      vFlags fl

/-- R424. -/
def execVshuf (d a b : BitVec 6) (f : BitVec 5) (p : BitVec 3) (st : State) : Ans :=
  vecM st do
    let u := st.vu p
    let two := decide (f = 0 ∨ f = 3 ∨ f = 4)
    vOwn u (if two then [a, b, d] else [a, d])
    layoutIf (u.et = 6)
    let l := u.n
    let x ← vLanes u a u.b
    let y ← if two then vLanes u b u.b else pure []
    vWrite u d fun i =>
      let v := match f.toNat with
        | 0 => x.getD (y.getD i 0 % l) 0
        | 1 => x.getD (l - 1 - i) 0
        | 2 => x.getD ((i + b.toNat) % l) 0
        | 3 => if i % 2 = 0 then x.getD (i / 2) 0 else y.getD (i / 2) 0
        | _ => if i % 2 = 0 then x.getD (l / 2 + i / 2) 0 else y.getD (l / 2 + i / 2) 0
      (v, 0)

/-! ## Dot product, magnitude, class -/

/-- R408. -/
def execVdot (d a b : BitVec 6) (c : BitVec 1) (r p : BitVec 3) (st : State) : Ans :=
  vecM st do
    let u := st.vu p
    vOwn u [a, b, d]
    layoutIf (u.et = 6)
    let x ← vLanes u a u.b
    let y ← vLanes u b u.b
    let acc ← if c = 1 then vLanes u d 4 else pure []
    let act := (List.range u.n).filter u.act
    let (v, g) : Nat × Flg := match laneFmt u.et with
      | some f =>
        fp32.sum (u.rm r) ((act.map fun i => (f.read (x.getD i 0)).mul (f.read (y.getD i 0))) ++
          (if c = 1 then [fp32.read (acc.getD 0 0)] else []))
      | none =>
        let w := 8 * u.b
        let s := act.foldl (fun s i => s + sgn w (x.getD i 0) * sgn w (y.getD i 0)) (if c = 1 then sgn 32 (acc.getD 0 0) else 0)
        let t := sat s (-(2 ^ 31)) (2 ^ 31 - 1)
        ((BitVec.ofInt 32 t).toNat, if t = s then 0 else fOF)
    vPut u d (lanesRow 4 [v])
    vFlags g

/-- The magnitude of a lane; none for a NaN. -/
def laneMag (t x : Nat) : Option Nat :=
  match laneFmt t with
  | some f =>
    let m := x % 2 ^ (f.width - 1)
    if f.inf < m then none else some m
  | none => some (sgn (8 * laneBytes t) x).natAbs

/-- R400. -/
def execVamax (d a : BitVec 6) (c : BitVec 1) (p : BitVec 3) (st : State) : Ans :=
  vecM st do
    let u := st.vu p
    vOwn u [a, d]
    layoutIf (u.et = 6)
    let x ← vLanes u a u.b
    let o ← if c = 1 then vLanes u d u.b else pure []
    let m := (((List.range u.n).filter u.act).map fun i => x.getD i 0) ++ o.take 1
    vPut u d (lanesRow u.b [m.foldl (fun k v => max k ((laneMag u.et v).getD 0)) 0])

/-- The class bit of a float (R403). -/
def Fmt.classOf (f : Fmt) (x : Nat) : Nat :=
  let s := x / 2 ^ (f.width - 1) % 2 == 1
  match f.read x with
  | .nan true => 8
  | .nan false => 9
  | .bad => 9
  | .inf t => if t then 0 else 7
  | .fin _ m _ => if m = 0 then (if s then 3 else 4) else if m < 2 ^ f.fw then (if s then 2 else 5) else if s then 1 else 6

/-- R403. -/
def execVclass (d a : BitVec 6) (p : BitVec 3) (st : State) : Ans :=
  vecM st do
    let u := st.vu p
    vOwn u [a, d]
    match laneFmt u.et with
    | none => fault .layout 0 0
    | some f =>
      let x ← vLanes u a u.b
      vWrite u d fun i => (2 ^ f.classOf (x.getD i 0), 0)

/-! ## Online softmax (R425) -/

def one32 : Nat := 0x3F800000

/-- R425. -/
def execVsoft (d a b : BitVec 6) (p : BitVec 3) (st : State) : Ans :=
  vecM st do
    let u := st.vu p
    vOwn u [a, b, d]
    layoutIf (u.et ≠ 0)
    let x ← vLanes u a 4
    let z ← vLanes u b 4
    let act := (List.range 32).filter u.act
    let (m1, g0) := act.foldl (fun (k : Nat × Flg) i =>
      let (r, g) := fp32.minmax true k.1 (x.getD i 0)
      (r, k.2 ||| g)) (z.getD 0 0, 0)
    -- with no active lane too, a NaN that is written is the canonical one (R113)
    let m2 := if (fp32.read m1).isNan then fp32.nan else m1
    if m2 = 0xFF800000 then
      vMerge u d 4 [] u.act
      vPut u b (lanesRow 4 (z.set 2 one32))
      vFlags g0
    else
      let ex (v : Nat) : Nat × Flg :=
        let (r, g) := fp32.sub rne v m2
        let (e, h) := exp2of r
        (e, g ||| h)
      let (al, g1) := ex (z.getD 0 0)
      let (ps, g2) := lanesWith u fun i => ex (x.getD i 0)
      let (l, g3) := fp32.sum rne ((fp32.read al).mul (fp32.read (z.getD 1 0)) ::
        act.map fun i => fp32.read (ps.getD i 0))
      vMerge u d 4 ps u.act
      vPut u b (lanesRow 4 (((z.set 0 m2).set 1 l).set 2 al))
      vFlags (g0 ||| g1 ||| g2 ||| g3)

/-! ## BX blocks (R402) -/

/-- Element width of a WIDTH code. -/
def bxWidth (w : BitVec 2) : Nat := if w = 0 then 8 else if w = 1 then 6 else 4

/-- The n elements of width w in a number, low first. -/
def bxElems (w x : Nat) : Nat → List Nat
  | 0 => []
  | n + 1 => x % 2 ^ w :: bxElems w (x / 2 ^ w) n

/-- A number from elements of width w. -/
def bxPack (w : Nat) (l : List Nat) : Nat := l.foldr (fun x a => x % 2 ^ w + 2 ^ w * a) 0

/-- R402. -/
def execVbxenc (d a b : BitVec 6) (w : BitVec 2) (st : State) : Ans :=
  vecM st do
    let u := st.vu 0
    let src := [a, a + 1, a + 2, a + 3]
    vOwn u (src ++ [d, b])
    let xs ← mapM' src fun r => vLanes u r 4
    let es := xs.map fun x => bxEncode (bxWidth w) x
    vPut u d (BitVec.ofNat 1024 (bxPack (bxWidth w) (es.flatMap fun e => e.2.1)))
    vPut u b (BitVec.ofNat 1024 (bxPack 16 (es.map fun e => e.1)))
    vFlags (es.foldl (fun g e => g ||| e.2.2) 0)

/-- R402. -/
def execVbxdec (d a b : BitVec 6) (w : BitVec 2) (st : State) : Ans :=
  vecM st do
    let u := st.vu 0
    let dst := [d, d + 1, d + 2, d + 3]
    vOwn u (a :: b :: dst)
    let x := (← vRow u a).toNat
    let h := (← vRow u b).toNat
    let out := (List.range 4).map fun j =>
      (bxElems (bxWidth w) (x / 2 ^ (32 * bxWidth w * j)) 32).map fun e =>
        fp32.sum u.v.vrm [bxValue (bxWidth w) e (h / 2 ^ (16 * j) % 2 ^ 16)]
    forM' (dst.zip out) fun y => vPut u y.1 (lanesRow 4 (y.2.map (·.1)))
    vFlags (out.foldl (fun g l => l.foldl (fun g v => g ||| v.2) g) 0)

end Sys2Proof.Machine
end

