-- ==== Sys2Proof/Machine/VecMem.lean ====
section
/-! DEFINITION. Vector accesses: VLD, VST, VLDS, VSTS, VGATH, VSCAT, VDEFER, VUNDEF (R66, R407, R409 to R415, R428), and the
row and element FIFOs (R410). -/

namespace Sys2Proof.Machine

/-- Rows v(d + j) for j below n. -/
def rowsFrom (d : BitVec 6) (n : Nat) : List (BitVec 6) := (List.range n).map fun j => d + BitVec.ofNat 6 j

/-- The pointers of n accesses through an address register. -/
def adPtrs (a : AdReg) (n : Nat) : M (List W64) :=
  mapM' (List.range n) fun j => adPtr (adSeg a) (adAddr (adAfter a j))

/-- The lanes of b bytes in 128 bytes of memory. -/
def memLanes (b : Nat) (bs : List Byte) : List Nat := (chunksOf b (128 / b) bs).map leNat

/-- R414. -/
def execVld (d : BitVec 6) (a : BitVec 3) (c : BitVec 6) (p : BitVec 3) (st : State) : Ans :=
  vecM st do
    let u := st.vu p
    let n := c.toNat + 1
    let rows := rowsFrom d n
    vOwn u rows
    let ad := vget a u.v.ad
    let ps ← adPtrs ad n
    let rs ← segAccesses u.me ps 128 16 false
    let bs ← mapM' (ps.zip rs) fun x => segTake u.me x.1 x.2 128
    -- no row is written before the rows that are kept in part have been read
    forM' rows fun r => do
      let _ ← vOld u r u.b u.act
    segRecords u.me rs 128 false
    forM' (rows.zip bs) fun x => vMerge u x.1 u.b (memLanes u.b x.2) u.act
    modVec fun v => v.setAd a (adAfter ad n)

/-- The runs of bytes of active lanes of a row that is stored at a reference. -/
def activePieces (u : Vu) (r : SegRef) (l : List Nat) : List (SegRef × List Byte) :=
  ((List.range u.n).filter u.act).map fun i => ({ r with off := r.off + u.b * i }, leBytes u.b (l.getD i 0))

/-- R414. -/
def execVst (d : BitVec 6) (a : BitVec 3) (c : BitVec 6) (p : BitVec 3) (st : State) : Ans :=
  vecM st do
    let u := st.vu p
    let n := c.toNat + 1
    let rows := rowsFrom d n
    vOwn u rows
    let ad := vget a u.v.ad
    let ps ← adPtrs ad n
    let rs ← segAccesses u.me ps 128 16 true
    let ls ← mapM' rows fun r => vLanes u r u.b
    segStorePieces u.me ((rs.zip ls).flatMap fun x => activePieces u x.1 x.2)
    segRecords u.me rs 128 true
    modVec fun v => v.setAd a (adAfter ad n)

/-- The address of VLDS and VSTS. -/
def VecState.at17 (v : VecState) (a : BitVec 3) (i : BitVec 17) : W64 := v.scalar a + i.signExtend 64

/-- R415. -/
def execVlds (d a : BitVec 3) (z : BitVec 2) (x : BitVec 1) (i : BitVec 17) (st : State) : Ans :=
  vecM st do
    let n := sizeOf2 z
    let p := st.vecSt.at17 a i
    let bs ← segRead (st.meOf .vec) p n n
    modVec fun v => v.setScalar d (extend n (x == 1) bs)

/-- R415. -/
def execVsts (d a : BitVec 3) (z : BitVec 2) (i : BitVec 17) (st : State) : Ans :=
  vecM st do
    let n := sizeOf2 z
    segWrite (st.meOf .vec) (st.vecSt.at17 a i) (leBytes n (st.vecSt.scalar d).toNat) n

/-- The pointers of the active lanes of a gather or scatter. -/
def lanePtrs (ad : AdReg) (s : BitVec 3) (idx : List Nat) (act : List Nat) : M (List W64) :=
  mapM' act fun i => adPtr (adSeg ad) (adAddr ad + (idx.getD i 0 * 2 ^ s.toNat : Nat))

/-- R412. -/
def execVgath (d : BitVec 6) (a s : BitVec 3) (i : BitVec 6) (p : BitVec 3) (st : State) : Ans :=
  vecM st do
    let u := st.vu p
    vOwn u [i, d]
    layoutIf (u.et = 6)
    let idx ← vLanes u i u.b
    let ad := vget a u.v.ad
    let act := (List.range u.n).filter u.act
    let ps ← lanePtrs ad s idx act
    let rs ← segAccesses u.me ps u.b u.b false
    let bs ← mapM' (ps.zip rs) fun x => segTake u.me x.1 x.2 u.b
    let got := act.zip (bs.map leNat)
    let _ ← vOld u d u.b u.act
    segRecords u.me rs u.b false
    vWrite u d fun i => (((got.find? fun x => x.1 == i).map (·.2)).getD 0, 0)
    modVec fun v => v.setAd a (adNext ad)

/-- R412. -/
def execVscat (d : BitVec 6) (a s : BitVec 3) (i : BitVec 6) (p : BitVec 3) (st : State) : Ans :=
  vecM st do
    let u := st.vu p
    vOwn u [d, i]
    layoutIf (u.et = 6)
    let idx ← vLanes u i u.b
    let x ← vLanes u d u.b
    let ad := vget a u.v.ad
    let act := (List.range u.n).filter u.act
    let ps ← lanePtrs ad s idx act
    let rs ← segAccesses u.me ps u.b u.b true
    segStorePieces u.me ((act.zip rs).map fun y => (y.2, leBytes u.b (x.getD y.1 0)))
    segRecords u.me rs u.b true
    modVec fun v => v.setAd a (adNext ad)

/-! ## Deferral queues (Table 3.12) -/

/-- A deferral queue: its pointer, where its header stands, and its header. -/
structure DeferQ where
  p : W64
  at_ : List SegRef
  head : Nat
  tail : Nat
  cap : Nat
  deriving DecidableEq, Repr, Inhabited

/-- The queue that an address register names: ALIGN unless at a multiple of 64. -/
def deferOpen (u : Vu) (ad : AdReg) : M DeferQ := do
  let p ← adPtr (adSeg ad) (adAddr ad)
  let rs ← segAccesses u.me [p] 20 64 false
  let bs ← mapM' rs fun r => segTake u.me p r 20
  let h := bs.flatten
  pure ⟨p, rs, leNat (h.take 8), leNat ((h.drop 8).take 8), leNat (h.drop 16)⟩

/-- TAIL − HEAD over integers (R6); none are held where HEAD stands above TAIL. -/
def DeferQ.used (q : DeferQ) : Nat := q.tail - q.head

/-- Records that the queue has room for: none for ever where CAP is 0 (R385). -/
def DeferQ.room (q : DeferQ) : Nat := if q.cap = 0 then 0 else q.head + q.cap - q.tail

/-- The pointer of the record of count n; `free` stands for the slot where CAP is 0, which Table 3.12 does not admit.
(DEDUCED, log 76) -/
def DeferQ.slotAt (q : DeferQ) (free : Nat) (n : Nat) : M W64 :=
  adPtr (ptrSeg q.p) (ptrOff q.p + 64 + 32 * ((if q.cap = 0 then free + n else n) % q.cap) : Nat)

/-- R66, R407. -/
def execVdefer (d : BitVec 6) (a o : BitVec 3) (k : BitVec 6) (t p : BitVec 3) (st : State) : Ans :=
  vecM st do
    let u := st.vu p
    let n := k.toNat + 1
    let rows := rowsFrom d n
    vOwn u rows
    layoutIf (u.et = 6)
    let ad := vget a u.v.ad
    let q ← deferOpen u ad
    let xs ← mapM' rows fun r => vLanes u r u.b
    let act := (List.range u.n).filter u.act
    let fit := act.take q.room
    let ps ← mapM' ((List.range fit.length).map (q.tail + ·)) (q.slotAt 0)
    let rs ← segAccesses u.me ps 32 0 true
    let h ← segAccesses u.me [q.p + 8] 8 8 true
    let recs := fit.map fun i => leBytes 2 i ++ leBytes 1 n ++ List.replicate 5 0 ++
      ((List.range 4).flatMap fun j => leBytes 4 ((xs.getD j []).getD i 0)) ++ leBytes 8 (u.v.scalar t).toNat
    segStorePieces u.me (rs.zip recs ++ h.map fun r => (r, leBytes 8 (q.tail + fit.length)))
    segRecords u.me q.at_ 20 false
    segRecords u.me rs 32 true
    segRecords u.me h 8 true
    modVec fun v => (v.setPred o ((act.drop fit.length).foldl (fun m i => setBit m i true) 0)).setAd a (adNext ad)

/-- R66, R428. -/
def execVundef (d : BitVec 6) (a o : BitVec 3) (k : BitVec 6) (st : State) : Ans :=
  vecM st do
    let u := st.vu 0
    let n := k.toNat + 1
    let rows := rowsFrom d n
    vOwn u rows
    layoutIf (u.et = 6)
    let ad := vget a u.v.ad
    let q ← deferOpen u ad
    let m := min u.n q.used
    let (f, s1) := (← get).draw
    if q.cap = 0 then set s1
    let ps ← mapM' ((List.range m).map (q.head + ·)) (q.slotAt f.toNat)
    let rs ← segAccesses u.me ps 32 0 false
    let bs ← mapM' (ps.zip rs) fun x => segTake u.me x.1 x.2 32
    let held (i : Nat) : Nat := leNat (((bs.getD i []).drop 2).take 1)
    let val (i j : Nat) : Nat := leNat (((bs.getD i []).drop (8 + 4 * j)).take 4) % 2 ^ (8 * u.b)
    let h ← if m = 0 then pure [] else segAccesses u.me [q.p] 8 8 true
    let sel (j i : Nat) : Bool := decide (i < m) && decide (j < held i)
    forM' (List.range n) fun j => do
      let _ ← vOld u (d + BitVec.ofNat 6 j) u.b (sel j)
    segStorePieces u.me (h.map fun r => (r, leBytes 8 (q.head + m)))
    segRecords u.me q.at_ 20 false
    segRecords u.me rs 32 false
    segRecords u.me h 8 true
    if m ≠ 0 then
      forM' (List.range n) fun j =>
        vMerge u (d + BitVec.ofNat 6 j) u.b ((List.range u.n).map fun i => val i j) (sel j)
    modVec fun v => (v.setPred o ((List.range m).foldl (fun w i => setBit w i true) 0)).setAd a (adNext ad)

/-! ## FIFOs (R410) -/

/-- R410: lane i zero-extended to 64 bits; under WIDE the low 64 bits. -/
def execVfifoSeq (a i : BitVec 6) (st : State) : Ans :=
  vecM st do
    let u := st.vu 0
    vOwn u [a]
    layoutIf (u.n ≤ i.toNat)
    let x ← vLanes u a u.b
    pushFifo u.me 4 (BitVec.ofNat 64 (x.getD i.toNat 0))

/-- Segment of an operand descriptor (Table 7.1). -/
def odSeg (d : BitVec 128) : BitVec 12 := BitVec.ofNat 12 (bits d 127 116)

/-- R410. -/
def execVfifoMat (a : BitVec 6) (st : State) : Ans :=
  vecM st do
    let u := st.vu 0
    vOwn u [a]
    let r ← vRow u a
    let s ← get
    let f := (s.slot u.me.tile u.me.slot).q.vecMat
    if f.canPush 8 (s.granted u.me) then
      modS fun s => ((s.modSlot u.me.tile u.me.slot fun k => { k with
        q := { k.q with vecMat := f.push (s.item u.me r) } }).useGrant u.me).releaseOnly u.me
    else waitFor (.push 7)

/-- R410. -/
def execVfifoPop (d : BitVec 6) (p : BitVec 3) (st : State) : Ans :=
  vecM st do
    let u := st.vu p
    vOwn u [d]
    let f := (st.slot u.me.tile u.me.slot).q.matVec
    match f.items with
    | [] => waitFor (.pop 8)
    | x :: _ =>
      vMerge u d u.b (rowLanes u.b x.val) u.act
      modS fun s => s.modSlot u.me.tile u.me.slot fun k => { (k.learn .vec x.knows) with
        q := { k.q with matVec := f.pop 8 (s.who u.me) } }

end Sys2Proof.Machine
end

