-- ==== Sys2Proof/Machine/Press.lean ====
section
/-! DEFINITION. What press steps share: descriptors (R134 to R136), formats (R127), layers and the fold policy (R138, R139),
fetching and holding operand rows, source slots (R137), TSTAT (R143). -/

namespace Sys2Proof.Machine

/-- A press step. -/
def matM (s : State) (m : M Unit) : Ans := engM .mat s m

/-- The press state of the moving engine. -/
def State.matSt (s : State) : PressState := (s.slot s.cur s.curSlot).ps

def modMat (f : PressState → PressState) : M Unit := modS fun s => s.modSlot s.cur s.curSlot fun k => { k with ps := f k.ps }

def modTstat (e : TstatEff) : M Unit := modS fun s => s.modTstat (s.meOf .mat) e

/-! ## Operand descriptors (Table 7.1) -/

abbrev Od := BitVec 128

def odOff (d : Od) : Nat := bits d 115 93
def odStride (d : Od) : Nat := bits d 92 76
def odSpan (d : Od) : Nat := bits d 75 73
def odFmt (d : Od) : Nat := bits d 72 69
def odHdr (d : Od) : Nat := bits d 68 46
def odAdv (d : Od) : Int := sgn 16 (bits d 45 30)

/-- The advance after a step or drain that names the descriptor (R135). -/
def odNext (d : Od) : Od :=
  let d1 := setBits d 115 93 (((odOff d : Int) + 16 * odAdv d) % 2 ^ 23).toNat
  if 3 ≤ odFmt d ∧ odFmt d ≤ 5 ∧ odAdv d ≠ 0 then setBits d1 68 46 ((odHdr d + 256) % 2 ^ 23) else d1

/-- Advance a descriptor; one that changes loses its hold (R136). -/
def PressState.advance (p : PressState) (n : BitVec 4) : PressState :=
  let d := vget n p.od
  { p with
    od := vset n (odNext d) p.od
    held := if odAdv d = 0 then p.held else p.held.filter fun h => h.1 ≠ n.toNat }

/-! ## Formats (R86, R127) -/

def isBx (f : Nat) : Bool := decide (3 ≤ f) && decide (f ≤ 5)

/-- Width of an element in bits. -/
def fmtBits (f : Nat) : Nat :=
  match f with
  | 0 => 32 | 1 => 16 | 2 => 16 | 3 => 8 | 4 => 6 | 5 => 4 | _ => 8

/-- The float format of a code. -/
def fmtFloat (f : Nat) : Fmt := if f = 0 then fp32 else if f = 1 then bf16 else fp16

/-- The format record that fsel selects; LAYOUT above 14. -/
def fmtEntry (st : State) (fsel : BitVec 4) : M Word := do
  let p := st.matSt
  let n := if fsel = 15 then p.fmtBase.toNat + (vget p.fmtLoop (st.curEntry .mat).lcs).toNat else fsel.toNat
  layoutIf (14 < n)
  pure ((((st.ctxOf st.cur st.curSlot).map (·.code.fmt)).getD []).getD n 0)

/-! ## Ranges -/

/-- A byte range of a descriptor's segment. -/
structure OdRange where
  off : Nat
  len : Nat
  deriving DecidableEq, Repr, Inhabited

/-- The rows of a descriptor. -/
def odRows (d : Od) (n len : Nat) : List OdRange := (List.range n).map fun r => ⟨odOff d + 16 * odStride d * r, len⟩

/-- The headers of 32 rows: `step` bytes apart, `len` bytes each; none for a format without headers. -/
def odHdrs (d : Od) (step len : Nat) : List OdRange :=
  if isBx (odFmt d) then (List.range 32).map fun r => ⟨odHdr d + step * r, len⟩ else []

/-- SPAN against the segment (R105). A name that fails is left to the segment checks. (DEDUCED, log 50) -/
def spanCheck (me : Me) (d : Od) : M Unit := do
  match (← get).findSeg me (odSeg d) with
  | some (_, _, g) => layoutIf (g.span.toNat ≠ odSpan d)
  | none => pure ()

/-- Check 5 of R133. -/
def odAlign (d : Od) : M Unit := do
  faultIf (odOff d % 16 ≠ 0) .align (segPtr (odSeg d) (odOff d)) 0
  faultIf (isBx (odFmt d) = true ∧ odHdr d % 8 ≠ 0) .align (segPtr (odSeg d) (odHdr d)) 0

/-- Check 6 of R133: every range, whether or not it is used. -/
def odCheck (me : Me) (d : Od) (l : List OdRange) : M Unit :=
  forM' l fun x => do
    let _ ← segCheck me (segPtr (odSeg d) x.off) x.len 0

/-- The references of ranges that are used: races, then residency (R111). Nothing is recorded yet. -/
def odAccess (me : Me) (d : Od) (l : List OdRange) (write : Bool) : M (List SegRef) := do
  let rs ← mapM' l fun x => segCheck me (segPtr (odSeg d) x.off) x.len 0
  forM' (l.zip rs) fun x => do
    if x.2.2.check then raceCheck me x.2.2.store (segPtr (odSeg d) x.1.off) x.2.1.off x.1.len write
  forM' rs fun x => resident (some me) x.1.tile x.1.slot x.2
  forM' rs fun x => modS fun s => s.touch x.1
  pure (rs.map (·.1))

/-- The accesses of ranges are recorded once nothing of their step can fail any more (R193). -/
def odRecord (me : Me) (l : List (SegRef × Nat)) (write : Bool) : M Unit := forM' l fun x => segRecords me [x.1] x.2 write

/-! ## Held rows (R136) -/

/-- One 16 B word as a step uses it. A held word is used as it was fetched; where another engine has written it since, and that write does not
happen before the step, a fresh value says whether its old or its new bytes are used. (DEDUCED, log 29) -/
def useWord (me : Me) (held : List (Nat × List Byte)) (m : Store) (u : Nat) : M (List Byte) := do
  let now := m.read (16 * u) 16
  match lookO held u with
  | none => pure now
  | some h =>
    let s ← get
    if h = now ∨ (lookO m.writer u).any (s.ordered me) = true then pure h
    else
      let (v, s1) := s.draw
      set s1
      pure (if bit v 0 then h else now)

/-- What a descriptor's ranges give a step: the words used, which the press then holds, and the accesses to record. -/
structure Fetched where
  words : List (Nat × List Byte)
  recs : List (SegRef × Nat)
  deriving DecidableEq, Repr, Inhabited

/-- The words held for a descriptor. -/
def PressState.heldOf (p : PressState) (n : BitVec 4) : List (Nat × List Byte) := (lookO p.held n.toNat).getD []

/-- Fetch ranges of a descriptor: words that are held are not fetched again. Poison in a word that is fetched raises
POISON. -/
def fetchWords (me : Me) (held : List (Nat × List Byte)) (d : Od) (l : List OdRange) : M Fetched := do
  match l with
  | [] => pure ⟨held, []⟩
  | x0 :: _ =>
    let new := l.filter fun x => (unitsOf 16 x.off x.len).any fun u => (lookO held u).isNone
    let rs ← odAccess me d new false
    let (r, _) ← segCheck me (segPtr (odSeg d) x0.off) x0.len 0
    let m := (← get).segStore r
    let us := l.foldl (fun a x => (unitsOf 16 x.off x.len).foldl insertN a) []
    match us.find? fun u => (lookO held u).isNone && m.poison.contains u with
    | some u =>
      let p := segPtr (odSeg d) (16 * u)
      modS fun s => s.freezePoison me.tile p.toNat
      fault .poison p 0
    | none =>
      let ws ← mapM' us fun u => do pure (u, ← useWord me held m u)
      pure ⟨ws.foldl (fun h w => put1 h w.1 w.2) held, rs.zip (new.map (·.len))⟩

/-- Bytes of a range out of the words used. -/
def fromWords (ws : List (Nat × List Byte)) (x : OdRange) : List Byte :=
  (((unitsOf 16 x.off x.len).flatMap fun u => (lookO ws u).getD (List.replicate 16 0)).drop (x.off % 16)).take x.len

/-- Hold the words of a descriptor. -/
def PressState.hold (p : PressState) (n : BitVec 4) (ws : List (Nat × List Byte)) : PressState :=
  { p with held := put1 p.held n.toNat ws }

/-! ## Values -/

/-- The elements of a row of n values of a format, with its headers (one of 2 B for each block of 32). -/
def rowVals (f n : Nat) (bs hs : List Byte) : List Fx :=
  if isBx f then
    let w := fmtBits f
    let x := leNat bs
    (List.range n).map fun k => bxValue w (x / 2 ^ (w * k) % 2 ^ w) (leNat ((hs.drop (2 * (k / 32))).take 2))
  else if f = 6 then bs.map fun b => Fx.fin b.msb b.toInt.natAbs 0
  else (chunksOf (fmtBits f / 8) n bs).map fun e => (fmtFloat f).read (leNat e)

/-- Transpose rows of Fx into n columns. -/
def columns (n : Nat) (rows : List (List Fx)) : List (List Fx) :=
  (List.range n).map fun j => rows.map fun r => r.getD j (.fin false 0 0)

/-- FP32 or INT32 elements of an accumulator row. -/
def accElems (r : Row) : List Nat := rowLanes 4 r

/-- The format that a source slot's conversion gives (Table 7.3). -/
def convFmt (a : BitVec 16) : Nat :=
  match bits a 7 6 with
  | 0 => 1 | 1 => 3 | 2 => 4 | _ => 5

/-- The accumulator tiles that a source slot names for chunks of a depth (R137). -/
def srcTiles (a : BitVec 16) (depth : Nat) : List (BitVec 8) :=
  if depth = 8 then [BitVec.ofNat 8 (bits a 15 8)] else (List.range 4).map fun c => BitVec.ofNat 8 (bits a 15 8 + c)

/-- One converted row of a source tile, with flags. -/
def srcRow (conv : Nat) (r : Row) : List Fx × Flg :=
  let xs := accElems r
  if conv = 1 then
    let l := xs.map fun x => fp32.conv bf16 rne x
    (l.map fun y => bf16.read y.1, l.foldl (fun g y => g ||| y.2) 0)
  else
    let w := fmtBits conv
    let (h, es, g) := bxEncode w xs
    (es.map fun e => bxValue w e h, g)

/-! ## Layers (R123, R138, R139) -/

/-- Layers of a column fused off or retired (Table 15.1). -/
def State.fusedOf (s : State) (t : BitVec 8) : BitVec 4 :=
  let c := (columnOf t).toNat
  BitVec.ofNat 4 (bits (s.tower (towerOf t)).fuse (4 * c + 3) (4 * c))

/-- The available layers of the column of a tile (R138). -/
def State.layers (s : State) (t : BitVec 8) : BitVec 4 := ~~~(s.fusedOf t ||| (s.tile t).col.throttled)

/-- A step begins: availability is sampled, with whether a throttle leaves a layer out (R143), and the step keeps what it sampled until it ends; it waits while no layer is available.
(DEDUCED, log 47) -/
def sampleLayers (st : State) : M (BitVec 4 × Bool) := do
  let me := st.meOf .mat
  match (st.myAgt me).layers with
  | some l => pure l
  | none =>
    let a := st.layers st.cur
    if a = 0 then waitFor (.layer (columnOf st.cur))
    let l := (a, decide ((st.tile st.cur).col.throttled &&& ~~~(st.fusedOf st.cur) ≠ 0))
    modS fun s => s.setMyAgt me { s.myAgt me with layers := some l }
    pure l

/-- Check 8: the active layers under the policy. -/
def activeLayers (p : PressState) (avail : BitVec 4) : M (BitVec 4) :=
  match p.policy with
  | .strict l => do
    faultIf (l = 0 ∨ l &&& ~~~avail ≠ 0) .fold (avail.setWidth 64) (l.setWidth 64)
    pure l
  | _ => pure avail

def popLayers (l : BitVec 4) : Nat := popCount 4 l.toNat

/-- The chunks of the passes, highest active layer first (Table 6.5). -/
def deal (n : Nat) : List (List Nat) :=
  match n with
  | 4 => [[0], [1], [2], [3]]
  | 3 => [[0, 1], [2], [3]]
  | 2 => [[0, 1], [2, 3]]
  | _ => [[0, 1, 2, 3]]

/-- The fold code (Table 6.6). -/
def foldCode (l : BitVec 4) : Nat := 16 * (popLayers l - 1) + l.toNat

/-! ## TSTAT (Table 7.5) -/

/-- Fold code, change count and throttle count of a computed step, and its flags (R139, R143); `t` is TSTAT before it. -/
def tstatFold (p : PressState) (fold : Nat) (left : Bool) (flags t : W64) : TstatEff :=
  let last := bits t 63 56
  { flags := flags, fold := some fold, fchg := decide (p.policy = .report ∧ last ≠ 0 ∧ last ≠ fold), thr := left }

/-! ## The status element (R132) -/

/-- A step that will push an element needs room: its push cannot stall once its rows are written.
(DEDUCED, log 52) -/
def statusRoom (me : Me) (s : BitVec 1) : M Unit := do
  if s = 1 then
    let st ← get
    if ((st.slot me.tile me.slot).q.fifo 5).canPush 8 (st.granted me) = false then waitFor (.push 5)

def pushStatus (me : Me) (s : BitVec 1) (v : Nat) : M Unit := if s = 1 then pushFifo me 5 (BitVec.ofNat 64 v) else pure ()

/-- The number of the running step. -/
def State.stepNo (s : State) : Nat := (s.eng .mat).unit % 256

end Sys2Proof.Machine
end

