-- ==== Sys2Proof/Machine/MatMul.lean ====
section
/-! DEFINITION. MMA (R132 to R140, R212 to R217, R374) and the wide multiplies (R153 to R155, R380). -/

namespace Sys2Proof.Machine

/-! ## Sums -/

/-- One element of an FP32 step (R124): the passes in order, each rounded once. -/
def cellFp (part : Nat) (a b : List Fx) (depth : Nat) (passes : List (List Nat)) : Nat × Flg :=
  passes.foldl (fun (p : Nat × Flg) cs =>
    let prods := cs.flatMap fun c => (((a.drop (c * depth)).take depth).zip ((b.drop (c * depth)).take depth)).map fun x => x.1.mul x.2
    let (r, g) := fp32.sum rne (fp32.read p.1 :: prods)
    (r, p.2 ||| g)) (part, 0)

/-- One element of an INT32 step (R126): the value and whether the sum wrapped. -/
def cellInt (c : Nat) (a b : List Fx) : Nat × Bool :=
  let s := (a.zip b).foldl (fun (s : Int) x => s + x.1.dy.m * x.2.dy.m) (sgn 32 c)
  ((BitVec.ofInt 32 s).toNat, decide (s < -(2 ^ 31)) || decide (2 ^ 31 ≤ s))

/-- −∞ in FP32. -/
def negInf32 : Nat := 0xFF800000

/-! ## Operands -/

/-- The byte ranges that an operand names. -/
structure Operand where
  rows : List OdRange
  hdrs : List OdRange
  deriving DecidableEq, Repr, Inhabited

/-- Bytes of a row of k elements. In a step of K = 32 whose other input is FP32 a row holds 32 elements, where Table 7.2 gives the
figures of K = 128. (DEDUCED, log 48) -/
def rowBytes (f k : Nat) : Nat := k * fmtBits f / 8

/-- The ranges of operand A, or of B without t. The one block of 32 elements of a row of a K = 32 step has its header at HDR + 8r,
that of chunk 0 (R119, R135). (DEDUCED, log 48) -/
def plainOperand (d : Od) (f k : Nat) : Operand := ⟨odRows d 32 (rowBytes f k), odHdrs d 8 (2 * (k / 32))⟩

/-- The ranges of B with t: one row for each K index. -/
def transOperand (d : Od) (f k : Nat) : Operand := ⟨odRows d k (rowBytes f 32), []⟩

/-- The ranges that are read where some chunks are skipped. -/
def Operand.used (o : Operand) (trans : Bool) (skip : List Nat) : List OdRange :=
  let rows := if skip.isEmpty then o.rows
    else if trans then (o.rows.zip (List.range o.rows.length)).filterMap fun x =>
      if skip.contains (4 * x.2 / o.rows.length) then none else some x.1
    else o.rows.flatMap fun x => ([0, 1, 2, 3].filter fun c => !skip.contains c).map fun c =>
      OdRange.mk (x.off + c * (x.len / 4)) (x.len / 4)
  rows ++ o.hdrs

/-- The values of an operand, as 32 lists over K; bytes of skipped chunks count as zeros and are not used. -/
def Operand.vals (o : Operand) (f k : Nat) (trans : Bool) (ws : List (Nat × List Byte)) : List (List Fx) :=
  if trans then columns 32 (o.rows.map fun r => rowVals f 32 (fromWords ws r) [])
  else (o.rows.zip (List.range 32)).map fun x =>
    rowVals f k (fromWords ws x.1) (match o.hdrs[x.2]? with
      | some h => fromWords ws h
      | none => [])

/-- Row bytes of a format in the first column of Table 7.2. -/
def tableBytes (f : Nat) : Nat := rowBytes f (if f = 0 then 32 else 128)

/-- Bytes of B in one chunk, as the bytes-not-fetched counter counts them, whatever the step's K (R217). -/
def chunkBytes (f : Nat) : Nat := 8 * tableBytes f + (if isBx f then 64 else 0)

/-! ## Masks -/

/-- How an m step is classed: its class, and the chunks it skips (R213, R214); none raises MASKPROG. -/
def PressState.classed (p : PressState) (m : MaskSlot) : Option (Cls × List Nat) :=
  let q0 : Int := p.mqPos.toNat
  let k0 : Int := p.mkPos.toNat
  if p.carry then
    let cs := (List.range 4).map fun (c : Nat) => m.classOf q0 (q0 + 31) (k0 + 32 * c) (k0 + 32 * c + 31)
    if cs.any Option.isNone then none
    else
      let skip := (List.range 4).filter fun (c : Nat) => cs.getD c none == some .empty
      some (if skip.length = 4 then .empty else .full, skip)
  else (m.classOf q0 (q0 + 31) k0 (k0 + 31)).map fun c => (c, [])

/-- The counters of a mask slot after an m step (R217). -/
def MaskSlot.counted (m : MaskSlot) (carry : Bool) (c : Cls) (bytes : Nat) : MaskSlot :=
  let add (n : BitVec 2) (v : Nat) (k : Vector W64 4) : Vector W64 4 := vset n (vget n k + BitVec.ofNat 64 v) k
  let n : BitVec 2 := match c with
    | .full => 0
    | .partly => 1
    | .empty => 2
  { m with cnt := add 3 bytes (if carry then m.cnt else add n 1 m.cnt) }

/-- Truth values of the elements of a score tile; none raises MASKPROG. -/
def PressState.bitmap (p : PressState) (m : MaskSlot) (i j : Nat) : Option Bool :=
  m.truth (p.mqPos.toNat + i : Nat) (p.mkPos.toNat + j : Nat)

/-- The rows of the source tiles of a step; the tile of a skipped chunk is neither read nor converted (R137, R214). -/
def readSources (me : Me) (tiles : List (BitVec 8)) (skip : List Nat) : M (List (List Row)) :=
  mapM' (tiles.zip (List.range 4)) fun x =>
    if skip.contains x.2 then pure [] else mapM' (List.range 32) fun r => readAcc me x.1 (BitVec.ofNat 5 r)

/-- R374. -/
def execMma (c : BitVec 8) (a : BitVec 5) (b f : BitVec 4) (z t m s : BitVec 1) (st : State) : Ans :=
  matM st do
    let me := st.meOf .mat
    let p := st.matSt
    let (avail, throttled) ← sampleLayers st
    -- checks 1 to 4 (R133) and those of R212
    let rec_ ← fmtEntry st f
    let af := bits rec_ 3 0
    let bf := bits rec_ 7 4
    let isInt := bit rec_ 8
    let src := decide (16 ≤ a.toNat)
    let an : BitVec 4 := a.setWidth 4
    let slot := vget an p.asl
    let da := vget an p.od
    let db := vget b p.od
    let tr := t == 1
    if src = false then
      layoutIf (odFmt da ≠ af)
      spanCheck me da
    layoutIf (odFmt db ≠ bf)
    spanCheck me db
    layoutIf (isBx bf = true ∧ tr = true)
    layoutIf (src = true ∧ (convFmt slot ≠ af ∨ 252 < bits slot 15 8))
    layoutIf (m = 1 ∧ (isInt = true ∨ (p.carry = true ∧ (af = 0 ∨ bf = 0 ∨ z = 1))))
    -- checks 5 and 6
    let depth := if af = 0 ∨ bf = 0 then 8 else 32
    let k := 4 * depth
    if src = false then odAlign da
    odAlign db
    let oa := plainOperand da af k
    let ob := if tr then transOperand db bf k else plainOperand db bf k
    if src = false then odCheck me da (oa.rows ++ oa.hdrs)
    odCheck me db (ob.rows ++ ob.hdrs)
    -- checks 7 and 8
    let stiles := srcTiles slot depth
    if src then forM' stiles fun n => touchAcc me n
    touchAcc me c
    let act ← activeLayers p avail
    let ms := vget p.mslot (st.slot st.cur st.curSlot).masks
    faultIf (m = 1 ∧ ms.prog.isEmpty = true) .maskprog 0 0
    let cl := if m = 1 then p.classed ms else some (.full, [])
    match cl with
    | none => fault .maskprog 0 0
    | some (cls, skip) =>
      let fold ← do
        if cls = .empty then
          statusRoom me s
          if z = 1 ∧ p.carry = false then
            forM' (List.range 32) fun r => writeAcc me c (BitVec.ofNat 5 r) (lanesRow 4 (List.replicate 32 negInf32)) 0
          pure 0
        else
          -- sources, all of them before any row is written
          let wa ← if src then pure ⟨[], []⟩ else fetchWords me (p.heldOf an) da (oa.used false skip)
          -- one descriptor as A and B is fetched once (R140)
          let wb ← fetchWords me (if src = false ∧ an = b then wa.words else p.heldOf b) db (ob.used tr skip)
          let srcs ← if src then readSources me stiles skip else pure []
          let conv := srcs.map fun tile => tile.map (srcRow af)
          let g0 : Flg := conv.foldl (fun g tl => tl.foldl (fun g r => g ||| r.2) g) 0
          let none_ : List Fx × Flg := (List.replicate 32 (.fin false 0 0), 0)
          let va := if src then (List.range 32).map fun i => conv.flatMap fun tl => (tl.getD i none_).1
            else oa.vals af k false wa.words
          let vb := ob.vals bf k tr wb.words
          let olds ← mapM' (List.range 32) fun r => readAcc me c (BitVec.ofNat 5 r)
          let passes := (deal (popLayers act)).map fun cs => cs.filter fun x => !skip.contains x
          let cell (i j : Nat) : Nat × Flg × Bool :=
            let x := (accElems (olds.getD i 0)).getD j 0
            if isInt then
              let (v, w) := cellInt x (va.getD i []) (vb.getD j [])
              (v, 0, w)
            else
              let (v, g) := cellFp x (va.getD i []) (vb.getD j []) depth passes
              (v, g, false)
          let out := (List.range 32).map fun i => (List.range 32).map fun j => cell i j
          let keep (i j : Nat) : Bool := cls != .partly || ((p.bitmap ms i j).getD false)
          let bad := cls == .partly && (List.range 32).any fun i => (List.range 32).any fun j => (p.bitmap ms i j).isNone
          faultIf (bad = true) .maskprog 0 0
          statusRoom me s
          if src = false then modMat fun q => q.hold an wa.words
          modMat fun q => q.hold b wb.words
          odRecord me (wa.recs ++ wb.recs) false
          forM' (List.range 32) fun i => writeAcc me c (BitVec.ofNat 5 i)
            (lanesRow 4 ((List.range 32).map fun j => if keep i j then ((out.getD i []).getD j (0, 0, false)).1 else negInf32)) 0
          let g := out.foldl (fun g r => r.foldl (fun g x => g ||| x.2.1) g) g0
          let wrap := out.any fun r => r.any fun x => x.2.2
          let left := decide (p.policy = .adaptive ∨ p.policy = .report) && throttled
          modTstat (tstatFold p (foldCode act) left (matFlags g ||| (if wrap then 0x800 else 0)) (st.slot st.cur st.curSlot).tstat)
          pure (foldCode act)
      -- advances (R135, R215) and counters (R217)
      if src = false then modMat fun q => q.advance an
      if src = true ∨ an ≠ b then modMat fun q => q.advance b
      if m = 1 then
        let skipped := if cls = .empty then 4 else skip.length
        modS fun s => s.modSlot s.cur s.curSlot fun x => { x with
          masks := vset p.mslot (ms.counted p.carry cls (skipped * chunkBytes bf)) x.masks }
        modMat fun q => { q with mkPos := q.mkPos + BitVec.ofInt 24 (32 * p.kadv.toInt) }
      pushStatus me s (fold + 256 * st.stepNo + 65536 * c.toNat)

/-! ## Wide multiplies -/

/-- ⌈log2 t⌉, and 0 for 0 (R154). -/
def ceilLog2 (t : Nat) : Nat := bitlen (t - 1)

/-- R154, for both opcodes. Each row is read with its sideband as one unit (R159). No wide multiply counts in THRCNT: R155 leaves
the fold policy out of it, and its result is the same on any set of layers. (DEDUCED, log 92) POISON of a row it reads comes behind LAYOUT and before GUARD: R154
gives it no place. (DESIGN CHOICE, log 106) -/
def wideStep (mac : Bool) (c : BitVec 8) (a : BitVec 5) (b f : BitVec 4) (t s : BitVec 1) (st : State) : M Unit := do
  let me := st.meOf .mat
  let _ ← sampleLayers st
  touchAcc me c
  let y : BitVec 5 := t ++ f
  let lo : BitVec 5 := b ++ (0 : BitVec 1)
  let (x, sx) ← accUnit me c a
  let (w, sy) ← accUnit me c y
  layoutIf (sbG sx = 0 ∨ sbG sy ≠ sbG sx ∨ sbP sx = true ∨ sbP sy = true)
  let g := sbG sx
  let n := min (sbN sx) (sbN sy)
  let np0 := if n = 0 then 0 else sbN sx + sbN sy - 1
  let (l, sp) ← if mac then accUnit me c lo else pure (0, 0)
  let (h, sq) ← if mac then accUnit me c (lo + 1) else pure (0, 0)
  if mac then layoutIf (sbP sp = false ∨ sbG sp ≠ g ∨ sq ≠ sp)
  forM' ([a, y] ++ if mac then [lo, lo + 1] else []) fun r => accClean me c r
  let old : Int := (h ++ l).toInt
  let bw := if mac then max (sbBW sp) (sbBW sx + sbBW sy) else sbBW sx + sbBW sy
  let tt := if mac then sbTerms sp + n else n
  let np := if mac then max (sbN sp) np0 else np0
  let ff := (mac && sbF sp) || sbF sx || sbF sy
  let v : BitVec 2048 := BitVec.ofInt 2048 (old + x.toInt * w.toInt)
  let ok := decide (tt < 511) && decide (bw + ceilLog2 tt + 1 ≤ g)
  faultIf (ok = false ∧ ff = true) .guard (BitVec.ofNat 64 (bw + ceilLog2 tt + 1)) (c.setWidth 64)
  statusRoom me s
  let sd := sideband np bw g true ff (if ok then tt else 511)
  writeAcc me c lo (v.setWidth 1024) sd
  writeAcc me c (lo + 1) ((v >>> 1024).setWidth 1024) sd
  if ok = false then modTstat { flags := 0x400 }
  pushStatus me s (256 * st.stepNo + 65536 * c.toNat + (if ok then 0 else 2 ^ 24))

/-- R154. -/
def execMwmul (c : BitVec 8) (a : BitVec 5) (b f : BitVec 4) (t s : BitVec 1) (st : State) : Ans :=
  matM st (wideStep false c a b f t s st)

/-- R154. -/
def execMwmac (c : BitVec 8) (a : BitVec 5) (b f : BitVec 4) (t s : BitVec 1) (st : State) : Ans :=
  matM st (wideStep true c a b f t s st)

end Sys2Proof.Machine
end

