-- ==== Sys2Proof/Machine/MatStep.lean ====
section
/-! DEFINITION. The other press steps (R365 to R381): MDRAIN, MZERO, MCPY, MFIFO, MSYNC, MBAR, MRPT, and the steps that set
press state. -/

namespace Sys2Proof.Machine

/-! ## State-setting steps -/

/-- A read of press state from the entry's x (R373, R366): where it stands, its bytes, and whether its granule is tagged. -/
def readState (me : Me) (p : W64) (n : Nat) : M (List SegRef × List Byte × Bool) := do
  let rs ← segAccesses me [p] n n false
  let bs ← mapM' rs fun r => segTake me p r n
  let s ← get
  pure (rs, bs.flatten, rs.any fun r => (s.segStore r).tags.contains (r.off / 16))

/-- R373. -/
def execMlddOd (n : BitVec 4) (st : State) : Ans :=
  matM st do
    let me := st.meOf .mat
    let (rs, bs, _) ← readState me ((st.curEntry .mat).x + BitVec.ofNat 64 (16 * n.toNat)) 16
    let d : Od := BitVec.ofNat 128 (leNat bs)
    layoutIf (bits d 29 0 ≠ 0 ∨ 6 < odFmt d)
    segRecords me rs 16 false
    modMat fun p => { p with od := vset n d p.od, held := p.held.filter fun h => h.1 ≠ n.toNat }

/-- R373. -/
def execMlddAs (n : BitVec 4) (st : State) : Ans :=
  matM st do
    let me := st.meOf .mat
    let (rs, bs, _) ← readState me ((st.curEntry .mat).x + BitVec.ofNat 64 (2 * n.toNat + 256)) 2
    let a : BitVec 16 := BitVec.ofNat 16 (leNat bs)
    layoutIf (bits a 5 0 ≠ 0)
    segRecords me rs 2 false
    modMat fun p => { p with asl := vset n a p.asl }

/-- R371. -/
def execMfmt (c : BitVec 8) (l : BitVec 2) (st : State) : Ans :=
  matM st do modMat fun p => { p with fmtBase := c.setWidth 4, fmtLoop := l }

/-- R372. -/
def execMfoldAdaptive (st : State) : Ans := matM st do modMat fun p => { p with policy := .adaptive }

/-- R372. -/
def execMfoldStrict (l : BitVec 4) (st : State) : Ans := matM st do modMat fun p => { p with policy := .strict l }

/-- R372. -/
def execMfoldReport (st : State) : Ans := matM st do modMat fun p => { p with policy := .report }

/-- R377, for both forms. -/
def setScale (v : W64) : M Unit := do
  layoutIf (bits v 63 32 ≠ 0)
  modMat fun p => { p with scale := v.setWidth 32 }

/-- R377. -/
def execMscale (st : State) : Ans := matM st (setScale (st.curEntry .mat).x)

/-- R377. -/
def execMscaleY (st : State) : Ans := matM st (setScale (st.curEntry .mat).y)

/-- R211, R375. -/
def execMmsk (s : BitVec 3) (c : BitVec 1) (k : BitVec 5) (q j : BitVec 1) (st : State) : Ans :=
  matM st do
    let e := st.curEntry .mat
    layoutIf ((q = 1 ∧ bits e.x 63 24 ≠ 0) ∨ (j = 1 ∧ bits e.y 63 24 ≠ 0))
    modMat fun p => { p with
      mslot := s
      carry := c == 1
      kadv := k
      mqPos := if q = 1 then e.x.setWidth 24 else p.mqPos
      mkPos := if j = 1 then e.y.setWidth 24 else p.mkPos }

/-- R366: the pointer is checked by each drain. -/
def execMamax (st : State) : Ans := matM st do modMat fun p => { p with amt := .seg (st.curEntry .mat).x }

/-- R366. -/
def execMamaxCap (st : State) : Ans :=
  matM st do
    let me := st.meOf .mat
    let e := st.curEntry .mat
    let (rs, bs, tag) ← readState me e.x 16
    let c : Cap := ⟨BitVec.ofNat 128 (leNat bs), tag⟩
    capCheck3 me c e.y
    segRecords me rs 16 false
    modMat fun p => { p with amt := .cap e.y c }

/-- R366. -/
def execMamaxClr (st : State) : Ans := matM st do modMat fun p => { p with amt := .unset }

/-- R376: the next step repeats c + 1 times. -/
def execMrpt (c : BitVec 6) (a b e : BitVec 3) (st : State) : Ans :=
  .next (st.modEng .mat fun g => { g with unit := g.unit + 1, rpt := some ⟨c.setWidth 7 + 1, a, b, e, 0⟩ })

/-! ## Rows -/

/-- R381. -/
def execMzero (c : BitVec 8) (st : State) : Ans :=
  matM st do
    touchAcc (st.meOf .mat) c
    forM' (List.range 32) fun r => writeAcc (st.meOf .mat) c (BitVec.ofNat 5 r) 0 0

/-- R368. -/
def execMcpy (d : BitVec 8) (n : BitVec 4) (c : BitVec 2) (st : State) : Ans :=
  matM st do
    let me := st.meOf .mat
    let first := bits (vget n st.matSt.asl) 15 8
    layoutIf (252 < first)
    let src : BitVec 8 := BitVec.ofNat 8 (first + c.toNat)
    touchAcc me src
    touchAcc me d
    let rows ← mapM' (List.range 32) fun r => readAcc me src (BitVec.ofNat 5 r)
    forM' (rows.zip (List.range 32)) fun x => writeAcc me d (BitVec.ofNat 5 x.2) x.1 0

/-- R370: the push form. -/
def execMfifoPush (c : BitVec 8) (a : BitVec 5) (st : State) : Ans :=
  matM st do
    let me := st.meOf .mat
    touchAcc me c
    let r ← readAcc me c a
    let f := (st.slot me.tile me.slot).q.matVec
    if f.canPush 8 (st.granted me) then
      modS fun s => ((s.modSlot me.tile me.slot fun k => { k with
        q := { k.q with matVec := f.push (s.item me r) } }).useGrant me).releaseOnly me
    else waitFor (.push 8)

/-- R370: the pop form. -/
def execMfifoPop (c : BitVec 8) (a : BitVec 5) (st : State) : Ans :=
  matM st do
    let me := st.meOf .mat
    touchAcc me c
    let f := (st.slot me.tile me.slot).q.vecMat
    match f.items with
    | [] => waitFor (.pop 7)
    | x :: _ =>
      writeAcc me c a x.val 0
      modS fun s => s.modSlot me.tile me.slot fun k => { (k.learn .mat x.knows) with
        q := { k.q with vecMat := f.pop 8 (s.who me) } }

/-- R379: steps of this model have made their effects when they end, so nothing is waited for but room. -/
def execMsync (s : BitVec 1) (st : State) : Ans :=
  matM st do
    pushStatus (st.meOf .mat) s (bits (st.slot st.cur st.curSlot).tstat 63 56 + 256 * st.stepNo)

/-- R367. -/
def execMbar (st : State) : Ans :=
  matM st do
    let me := st.meOf .mat
    let e := st.curEntry .mat
    layoutIf (bits e.y 63 32 ≠ 0)
    let p ← segPlace me e.x 16 16 true
    arriveAt me p e.x (bits e.y 31 0) 0

/-! ## Drains (R141, R142, R369) -/

/-- The product x × SCALE rounded and saturated to INT8; every saturation is invalid (R141). -/
def drainInt8 (x scale : Fx) : Nat × Flg :=
  let (v, g) := (x.mul scale).toInt rne (-128) 127
  ((BitVec.ofInt 8 v).toNat, g)

/-- An element as FP32: copied, or converted from INT32. -/
def drainFp32 (isInt : Bool) (x : Nat) : Nat × Flg := if isInt then fp32.ofInt rne (sgn 32 x) else (x, 0)

/-- One element in a scalar format. -/
def drainElem (f : Nat) (isInt : Bool) (scale x : Nat) : Nat × Flg :=
  if f = 6 then drainInt8 (if isInt then Fx.fin (decide (sgn 32 x < 0)) (sgn 32 x).natAbs 0 else fp32.read x) (fp32.read scale)
  else if f = 0 then drainFp32 isInt x
  else if isInt then (fmtFloat f).ofInt rne (sgn 32 x) else fp32.conv (fmtFloat f) rne x

/-- The bytes of a row, of its header, and its flags. -/
def drainRow (f : Nat) (isInt : Bool) (scale : Nat) (xs : List Nat) : List Byte × List Byte × Flg :=
  if isBx f then
    let vs := xs.map (drainFp32 isInt)
    let (h, es, g) := bxEncode (fmtBits f) (vs.map (·.1))
    (leBytes (4 * fmtBits f) (bxPack (fmtBits f) es), leBytes 2 h, vs.foldl (fun g v => g ||| v.2) g)
  else
    let vs := xs.map (drainElem f isInt scale)
    (vs.flatMap fun v => leBytes (fmtBits f / 8) v.1, [], vs.foldl (fun g v => g ||| v.2) 0)

/-- The largest magnitude of a tile as an FP32 pattern, over elements that are not NaN; none where every one is. -/
def drainMax (isInt : Bool) (xs : List Nat) : Option Nat :=
  xs.foldl (fun m x =>
    let v := if isInt then some (fp32.ofInt rne ((sgn 32 x).natAbs : Nat)).1
      else if (fp32.read x).isNan then none else some (x % 2 ^ 31)
    match m, v with
    | some a, some b => some (max a b)
    | some a, none => some a
    | none, v => v) none

/-- The target of an amax merge once its checks have passed: an address of another chip, or a place of this one. -/
inductive AmtAt where
  | none
  | far (va : W64)
  | here (p : Place)
  deriving DecidableEq, Repr

/-- The checks of AMT (R142). (DEDUCED, log 51) -/
def amtCheck (me : Me) (a : Amt) : M AmtAt := do
  match a with
  | .unset => pure .none
  | .seg p => pure (.here (← segPlace me p 4 4 true))
  | .cap va c =>
    faultIf (va.toNat < c.base ∨ c.base + c.len < va.toNat + 4) .cap va 4
    let far := vaChip va ≠ (← get).chipOf me.tile
    faultIf (¬ ([pWRITE, pATOMIC].all c.has) ∨ (far ∧ (¬ c.has pREMOTE ∨ c.has pCHECKED))) .cap va 5
    faultIf (va.toNat % 4 ≠ 0) .align va 0
    issuerCheck me va 4
    if far then pure (.far va) else pure (.here (← globPlace me va 4 2))

/-- The merge of a magnitude at another chip. -/
def amaxFar (me : Me) (va : W64) (x : Nat) : M Unit := do
  let _ ← remoteCall me va (vaChip va) (.amo 7 false (BitVec.ofNat 64 x) 0) fun id => .remote id va

/-- A drain whose checks have passed stores its bytes, merges where its target is of this chip, and ends. R142 gives the merge no place
among the bytes; it comes after them (DESIGN CHOICE, log 108). -/
def drainEnd (me : Me) (c : BitVec 8) (b : BitVec 4) (dr : Drain) (merge : M Unit) : M Unit := do
  segPutPieces me dr.pieces
  odRecord me (dr.pieces.map fun x => (x.1, x.2.length)) true
  merge
  modTstat { flags := matFlags dr.flags ||| (if dr.nan then 0x1000 else 0), nan := if dr.nan then some c else none }
  modMat fun p => { p.advance b with drain := none }

/-- Every check of a drain, and what it will do; poison of its target among the checks (R132, R369). (DEDUCED, log 53) -/
def drainPlan (me : Me) (c : BitVec 8) (b f : BitVec 4) (q : BitVec 1) (st : State) : M (Drain × Option Nat) := do
  let isInt := bit (← fmtEntry st f) 8
  let d := vget b st.matSt.od
  let fd := odFmt d
  layoutIf (6 < fd)
  spanCheck me d
  odAlign d
  let rows := odRows d 32 (4 * fmtBits fd)
  let hdrs := odHdrs d 2 2
  odCheck me d (rows ++ hdrs)
  touchAcc me c
  let accs ← mapM' (List.range 32) fun r => readAcc me c (BitVec.ofNat 5 r)
  let xs := accs.map accElems
  let nan := !isInt && xs.any fun l => l.any fun x => (fp32.read x).isNan
  let quiet := q == 1 && nan
  let out := xs.map (drainRow fd isInt st.matSt.scale.toNat)
  let rs ← if quiet then pure [] else odAccess me d (rows ++ hdrs) true
  let pieces := rs.zip (out.map (·.1) ++ (if isBx fd then out.map (·.2.1) else []))
  segPiecesClean me pieces
  let mx := drainMax isInt xs.flatten
  pure (⟨pieces, if quiet then 0 else out.foldl (fun g r => g ||| r.2.2) 0, nan, mx.getD 0⟩, mx)

/-- R369. The merge at another chip is asked for once every check has passed, and the drain goes on with its answer: it writes nothing
where that is a fault. Rows that overlap each other or the headers are written in order, the later over the earlier and the
headers last. (DESIGN CHOICE, log 91) -/
def execMdrain (c : BitVec 8) (b f : BitVec 4) (q : BitVec 1) (st : State) : Ans :=
  matM st do
    let me := st.meOf .mat
    match st.matSt.drain, st.matSt.amt with
    | some dr, .cap va _ =>
      -- with the answer, a fault among them, the step is made afresh where it is made again
      if ((← get).myAgt me).got ≠ [] then modMat fun p => { p with drain := none }
      touchAcc me c
      amaxFar me va dr.amax
      drainEnd me c b dr (pure ())
    | _, amt =>
      let (dr, mx) ← drainPlan me c b f q st
      match ← amtCheck me amt, mx with
      | .far va, some x =>
        modMat fun p => { p with drain := some dr }
        amaxFar me va x
      | .here pl, some x => drainEnd me c b dr do
          let _ ← amoAt me pl 7 4 (BitVec.ofNat 64 x) 0 false false
      | _, _ => drainEnd me c b dr (pure ())

end Sys2Proof.Machine
end

