-- ==== Sys2Proof/Machine/SeqCap.lean ====
section
/-! DEFINITION. Capabilities in the sequencer: CAPLD, CAPST, CAPOP. -/

namespace Sys2Proof.Machine

/-- R332. -/
def execCapld (q : BitVec 3) (d : BitVec 4) (b : BitVec 5) (i : BitVec 10) (s : State) : Ans :=
  seqM q s do
    let p := s.bank.sm b i
    let bs ← segRead s.seqMe p 16 16
    let (r, _) ← segCheck s.seqMe p 16 16
    modS fun s => s.modBank (·.setCap d ⟨BitVec.ofNat 128 (leNat bs), (s.segStore r).tags.contains (r.off / 16)⟩)

/-- R334: the bytes and the tag as one unit. -/
def execCapst (q : BitVec 3) (d : BitVec 4) (b : BitVec 5) (i : BitVec 10) (s : State) : Ans :=
  seqM q s do
    let p := s.bank.sm b i
    let c := s.bank.capr d
    segWrite s.seqMe p (leBytes 16 c.raw.toNat) 16
    if c.tag then
      let (r, _) ← segCheck s.seqMe p 16 16
      modS fun s => s.modSegStore r fun m => { m with tags := insertN m.tags (r.off / 16) }

/-- A capability with another base and a length stored as R333 says, tagged. -/
def Cap.withRegion (c : Cap) (base len : Nat) : Cap :=
  let e := bitlen len - 20
  ⟨setBits (setBits (setBits c.raw 53 0 base) 73 54 (len / 2 ^ e)) 79 74 e, true⟩

/-- Permissions narrowed by a mask (R333): XNONE only grows, CHECKED is kept. -/
def Cap.narrow (c : Cap) (m : Nat) : Cap :=
  let p : BitVec 8 := BitVec.ofNat 8 c.perms
  let g : BitVec 8 := BitVec.ofNat 8 m
  let r := setBit (setBit (p &&& g) pXNONE (bit p pXNONE || !bit g pXNONE)) pCHECKED (bit p pCHECKED)
  ⟨setBits c.raw 87 80 r.toNat, true⟩

/-- A number below a bound, or a fresh value from `low` on where the spec states no result because the number does not fit (R322,
DESIGN CHOICE, log 3). -/
def fitOr (x low bound : Nat) : M Nat := do
  if x < bound then pure x
  else
    let (v, s1) := (← get).draw
    set s1
    pure (low + v.toNat % (bound - low))

/-- CAP raised by a derivation. No rule gives it an address, so FVAL is a fresh value (DESIGN CHOICE, log 3). -/
def capFault (n : W64) : M α := do
  let (v, s1) := (← get).draw
  set s1
  fault .cap v n

/-- The checks of a derivation (R333). -/
def derivable (c : Cap) : M Unit := do
  if c.tag = false then capFault 1
  if c.malformed then capFault 2
  if !c.has pDERIVE then capFault 5

/-- R333. -/
def execCapopMov (q : BitVec 3) (d s : BitVec 4) (st : State) : Ans := seqReg q st fun b => b.setCap d (b.capr s)

/-- R333; the base is never below the source's (R69). -/
def execCapopTrim (q : BitVec 3) (d s : BitVec 4) (t : BitVec 5) (st : State) : Ans :=
  seqM q st do
    let c := st.bank.capr s
    let n := (st.bank.gr t).toNat
    derivable c
    if c.len < n then capFault 5
    let base ← fitOr (c.base + n) c.base (2 ^ 54)
    modS fun s => s.modBank (·.setCap d (c.withRegion base (c.len - n)))

/-- R333. -/
def execCapopLen (q : BitVec 3) (d s : BitVec 4) (t : BitVec 5) (st : State) : Ans :=
  seqM q st do
    let c := st.bank.capr s
    let n := (st.bank.gr t).toNat
    derivable c
    if c.len < n then capFault 5
    modS fun s => s.modBank (·.setCap d (c.withRegion c.base n))

/-- R333. -/
def execCapopPerm (q : BitVec 3) (d s : BitVec 4) (t : BitVec 5) (st : State) : Ans :=
  seqM q st do
    let c := st.bank.capr s
    derivable c
    modS fun s => s.modBank (·.setCap d (c.narrow (bits (st.bank.gr t) 7 0)))

/-- R333. -/
def execCapopBase (q : BitVec 3) (d : BitVec 5) (s : BitVec 4) (st : State) : Ans :=
  seqReg q st fun b => b.setG d (BitVec.ofNat 64 (b.capr s).base)

/-- R333. -/
def execCapopSize (q : BitVec 3) (d : BitVec 5) (s : BitVec 4) (st : State) : Ans :=
  seqM q st do
    writeG d (BitVec.ofNat 64 (← fitOr (st.bank.capr s).len 0 (2 ^ 64)))

/-- R333. -/
def execCapopInfo (q : BitVec 3) (d : BitVec 5) (s : BitVec 4) (st : State) : Ans :=
  seqReg q st fun b =>
    let c := b.capr s
    b.setG d (BitVec.ofNat 64 (c.perms + 2 ^ 8 * c.tenant + 2 ^ 24 * b2n c.tag + 2 ^ 25 * b2n c.malformed))

/-- R333. -/
def execCapopUntag (q : BitVec 3) (d s : BitVec 4) (st : State) : Ans :=
  seqReg q st fun b => b.setCap d { b.capr s with tag := false }

end Sys2Proof.Machine
end

