-- ==== Sys2Proof/Machine/SeqCtl.lean ====
section
/-! DEFINITION. Sequencer control flow: BR, JAL, JALR, LOOP, RPT, TRAP of a kernel, reserved words. -/

namespace Sys2Proof.Machine

/-- R331. -/
def execBr (q : BitVec 3) (n : BitVec 1) (f : BitVec 22) (s : State) : Ans :=
  if s.bank.pr q then .next (s.jump (s.bank.target n f)) else .next s.retire

/-- R354. -/
def execJal (q : BitVec 3) (n : BitVec 1) (f : BitVec 22) (s : State) : Ans :=
  if s.bank.pr q then .next ((s.modBank fun b => b.setG 1 (b.ipc + 4)).jump (s.bank.target n f)) else .next s.retire

/-- R355. -/
def execJalr (q : BitVec 3) (d s : BitVec 5) (i : BitVec 13) (st : State) : Ans :=
  seqJ q st do
    let t := st.bank.gr s + i.signExtend 64
    faultIf (t.toNat % 4 ≠ 0) .align t 0
    modS fun s => (s.modBank fun b => b.setG d (b.ipc + 4)).jump t

/-- LOOP of either kind (R362): rot, stages − 1. -/
def loopStart (q : BitVec 3) (i : BitVec 2) (s : BitVec 5) (rot : Bool) (g : BitVec 3) (l : BitVec 10) (st : State) : Ans :=
  seqJ q st do
    let b := st.bank
    let n := (b.gr s).toNat
    let fin := b.pc + 4 + 4 * l.setWidth 64
    illegalIf (2 ^ 32 < n)
    if n = 0 then modS fun s => (s.modBank fun b => { b with lstat := lsSetAct b.lstat i false }).jump fin
    else
      let l0 := setBits (setBits b.lstat (8 * i.toNat + 7) (8 * i.toNat)
        (2 ^ 7 + 2 ^ 6 * b2n rot + 2 ^ 3 + 1)) (48 + 3 * i.toNat + 2) (48 + 3 * i.toNat) g.toNat
      let b1 := { b with
        lc := vset i (BitVec.ofNat 32 (n - 1)) b.lc
        lstat := l0
        loopStart := vset i (b.pc + 4) b.loopStart
        loopEnd := vset i fin b.loopEnd
        loopOrder := i :: b.loopOrder.filter (· ≠ i) }
      let b2 := if rot then b1.stages i else b1
      modS fun s => (((s.setBank b2).loopRecord 0).clearRemote st.seqMe).retire

/-- R362. -/
def execLoop (q : BitVec 3) (i : BitVec 2) (s : BitVec 5) (l : BitVec 10) (st : State) : Ans :=
  loopStart q i s false 0 l st

/-- R362. -/
def execLoopRot (q : BitVec 3) (i : BitVec 2) (s : BitVec 5) (g : BitVec 3) (l : BitVec 10) (st : State) : Ans :=
  loopStart q i s true g l st

/-- R56 to R58, R386: the successor is judged first, then the predicate; a repeat that was stopped resumes at RPTI, whatever the
repeats before it left in the predicate. Where RPTI is not below the count no repeat is left. (DEDUCED, log 103) -/
def execRpt (q : BitVec 3) (c : BitVec 6) (a b e : BitVec 3) (s : State) : Ans :=
  let k := s.bank
  let noRptv (s : State) : State := s.modBank fun b => { b with lstat := setBit b.lstat 32 false }
  match wordIn s.seqCode (k.pc + 4) with
  | none => .next (((noRptv s).jump (k.pc + 4)).raiseSeq .fetchbound (k.pc + 4) 0)
  | some w =>
    let ok := match decodeWord .seq w with
      | .ok _ => !rptForbids w
      | .error _ => false
    if ok = false then .next ((noRptv s).raiseSeq .illegal (w.setWidth 64) 0)
    else if k.pr q = false ∧ lsRptv k.lstat = false then .next s.retire
    else
      let first := if lsRptv k.lstat then lsRpti k.lstat else 0
      let cnt := c.toNat + 1
      let s1 := noRptv s
      if cnt ≤ first then .next s1.rptDone
      else .next (s1.modBank fun b1 => { b1 with rpt := some ⟨BitVec.ofNat 7 cnt, a, b, e, BitVec.ofNat 7 first⟩ })

/-- TRAP in a kernel (R240): it completes, so EPC names the next instruction; a stop at that boundary stays armed
(R297). -/
def trapSw (q : BitVec 3) (n : W64) (s : State) : Ans :=
  if s.bank.pr q = false then .next s.retire
  else
    let f : FaultRec := { eng := 0, cause := .trapsw, fval := n }
    .next (((s.modSlot s.cur s.curSlot fun y => { y with faults := y.faults ++ [f] }).retire).deliver s.cur)

/-- R240; in the runtime bank a call number that Table 14.5 and R299 do not list answers all ones (R269). -/
def execTrap (q : BitVec 3) (n : BitVec 13) (s : State) : Ans :=
  if s.inRt then seqReg q s (·.setG 4 (ones 64)) else trapSw q (n.setWidth 64) s

/-- R319: a reserved word raises ILLEGAL whatever its predicate. -/
def execReservedWord (w : BitVec 32) (s : State) : Ans := .next (s.raiseSeq .illegal (w.setWidth 64) 0)

end Sys2Proof.Machine
end

