-- ==== Sys2Proof/Machine/SeqQueue.lean ====
section
/-! DEFINITION. Sequencer queues and synchronisation: CMD, POPR, EVPOP, PUSHD, SEMS, BARA, BARW, FENCE, ITER, WAITI. -/

namespace Sys2Proof.Machine

/-- The queue id of a command queue (R294). -/
def cmdQid (e : BitVec 2) : BitVec 8 := e.setWidth 8

/-- R335. (DEDUCED, log 37) -/
def execCmd (e : BitVec 2) (k : BitVec 6) (s t : BitVec 5) (w : BitVec 3) (v : BitVec 1) (z : BitVec 3) (y : BitVec 1)
    (st : State) : Ans :=
  seqM 0 st do
    noRuntime
    let tile := st.cur
    let x := st.slot tile st.curSlot
    let eng := engOf e
    let blocks := ((st.ctxOf tile st.curSlot).map fun c => c.code.blocks eng).getD []
    illegalIf (blocks.length ≤ k.toNat)
    let dq := (st.tower (towerOf tile)).dec.q
    let room := match eng with
      | .dec => dq.canPush 64 (st.granted st.seqMe)
      | _ => (x.cmdQ eng).canPush 16 (st.granted st.seqMe)
    if room = false then waitFor (.push (cmdQid e))
    let b := st.bank
    let ent : Entry := {
      blk := k, x := b.gr s, y := b.gr t, wtok := if v = 1 then some w else none, stok := if y = 1 then some z else none,
      lcs := b.lc, issue := x.sq.issue, ctx := x.ctx.getD 0, tile := tile,
      knows := st.snap st.seqMe }
    modS fun s => s.trace tile 4 0x04 (leBytes 8 (s.whereOf tile st.curSlot .seq) ++ leBytes 2 ent.issue.toNat ++
      [(agentCode (Eng.agent eng)).setWidth 8, k.setWidth 8])
    match eng with
    | .dec => modS fun s => s.modTower (towerOf tile) fun x => { x with dec := { x.dec with q := dq.push { e := ent } } }
    | _ => modS fun s => s.modSlot tile st.curSlot fun x => x.setCmdQ eng ((x.cmdQ eng).push ent)
    modS fun s => ((s.modSlot tile st.curSlot fun x => { x with sq := { x.sq with issue := x.sq.issue + 1 } }).useGrant
      st.seqMe).releaseOnly st.seqMe

/-- R384. -/
def execPopr (q : BitVec 3) (d : BitVec 5) (f : BitVec 2) (st : State) : Ans :=
  seqM q st do
    noRuntime
    let id : BitVec 8 := f.setWidth 8 + 4
    let x := (st.slot st.cur st.curSlot).q.fifo id
    match x.items with
    | [] => waitFor (.pop id)
    | i :: _ =>
      modS fun s => s.modSlot s.cur st.curSlot fun k => { (k.learn .seq i.knows) with q := k.q.setFifo id (x.pop 8 (s.who st.seqMe)) }
      writeG d i.val

/-- R343. -/
def execEvpop (q : BitVec 3) (d : BitVec 5) (st : State) : Ans :=
  seqM q st do
    noRuntime
    let x := (st.slot st.cur st.curSlot).q.ev
    match x.items with
    | [] => waitFor (.pop 9)
    | i :: _ =>
      modS fun s => s.modSlot s.cur st.curSlot fun k => { (k.learn .seq i.knows) with
        q := { k.q with ev := x.pop 64 (s.who st.seqMe) } }
      writeG d (i.val.setWidth 64)
      writeG (d + 1) ((i.val >>> 64).setWidth 64)

/-- A deferral queue record (Table 3.12). -/
def deferRecord (lane k : Nat) (vals : List Nat) (tag : W64) : List Byte :=
  leBytes 2 lane ++ leBytes 1 k ++ List.replicate 5 0 ++
  (List.range 4).flatMap (fun j => leBytes 4 (vals.getD j 0)) ++ leBytes 8 tag.toNat

/-- R385: the counts are integers (R6), so a TAIL below HEAD leaves room; a CAP of 0 never does. (DEDUCED, log 76) -/
def execPushd (q : BitVec 3) (s t : BitVec 5) (st : State) : Ans :=
  seqM q st do
    let p := st.bank.gr s
    let v := st.bank.gr t
    let me := st.seqMe
    faultIf (p.toNat % 64 ≠ 0) .align p 0
    let rh ← segAccesses me [p] 16 16 false
    let h ← mapM' rh fun r => segTake me p r 16
    let rc ← segAccesses me [p + 16] 4 4 false
    let c ← mapM' rc fun r => segTake me (p + 16) r 4
    let head := leNat (h.flatten.take 8)
    let tail := leNat (h.flatten.drop 8)
    let cap := leNat c.flatten
    if cap = 0 ∨ head + cap ≤ tail then waitFor .pushd
    let rr ← segAccesses me [p + BitVec.ofNat 64 (64 + 32 * (tail % cap))] 32 0 true
    let rt ← segAccesses me [p + 8] 8 8 true
    segStorePieces me ((rr.map fun r => (r, deferRecord 0xFFFF 2 [bits v 31 0, bits v 63 32] 0)) ++
      rt.map fun r => (r, leBytes 8 (tail + 1)))
    segRecords me rh 16 false
    segRecords me rc 4 false
    segRecords me rr 32 true
    segRecords me rt 8 true

/-- R389. -/
def execSemsSig (q n : BitVec 3) (st : State) : Ans :=
  seqM q st do
    noRuntime
    match (st.slot st.cur st.curSlot).sems.signal n (st.who st.seqMe) (st.snap st.seqMe) with
    | none => fault .semovf (n.setWidth 64) 0
    | some k => modS fun s => (s.modSlot s.cur st.curSlot fun x => { x with sems := k }).releaseOnly st.seqMe

/-- R389. -/
def execSemsWait (q n : BitVec 3) (st : State) : Ans :=
  seqM q st do
    noRuntime
    let k := (st.slot st.cur st.curSlot).sems
    if k.free n = 0 then
      modS fun s => s.joinSem s.cur st.curSlot n .seq
      waitFor (.sem n)
    else modS fun s => s.modSlot s.cur st.curSlot fun x => x.takeSem n .seq

/-- R389. -/
def execSemsGet (q : BitVec 3) (d : BitVec 5) (n : BitVec 3) (st : State) : Ans :=
  seqM q st do
    noRuntime
    writeG d ((vget n (st.slot st.cur st.curSlot).sems.count).setWidth 64)

/-- R389. -/
def execSemsTry (q : BitVec 3) (d : BitVec 5) (n : BitVec 3) (st : State) : Ans :=
  seqM q st do
    noRuntime
    let k := (st.slot st.cur st.curSlot).sems
    if k.free n = 0 then writeG d 0
    else
      modS fun s => s.modSlot s.cur st.curSlot fun x => x.takeSem n .seq
      writeG d 1

/-- R329. -/
def execBara (q : BitVec 3) (s t : BitVec 5) (st : State) : Ans :=
  seqM q st do
    let p := st.bank.gr s
    let pl ← segPlace st.seqMe p 16 16 true
    arriveAt st.seqMe pl p (st.bank.gr t).toNat 0

/-- R329. -/
def execBaraCap (q : BitVec 3) (c : BitVec 4) (s t : BitVec 5) (st : State) : Ans :=
  seqM q st do
    let p := st.bank.gr s
    let n := st.bank.gr t
    capCheck st.seqMe (st.bank.capr c) p 16 [pREAD, pWRITE, pATOMIC]
    faultIf (p.toNat % 16 ≠ 0) .align p 0
    issuerCheck st.seqMe p 16
    if vaChip p ≠ st.chipOf st.cur then
      let _ ← remoteAsk st.seqMe p (vaChip p) (.arrive n) (decide (n ≠ 0)) fun id => .remote id p
      pure ()
    else
      let pl ← globPlace st.seqMe p 16 2
      arriveAt st.seqMe pl p n.toNat 0

/-- R330. -/
def execBarw (q : BitVec 3) (s t : BitVec 5) (st : State) : Ans :=
  seqM q st do
    let p := st.bank.gr s
    waitPhase st.seqMe p (bits (st.bank.gr t) 0 0) (segPlace st.seqMe p 16 16 false)

/-- R330. -/
def execBarwCap (q : BitVec 3) (c : BitVec 4) (s t : BitVec 5) (st : State) : Ans :=
  seqM q st do
    let p := st.bank.gr s
    let ph := bits (st.bank.gr t) 0 0
    let checks : M Unit := do
      capCheck st.seqMe (st.bank.capr c) p 16 [pREAD]
      faultIf (p.toNat % 16 ≠ 0) .align p 0
      issuerCheck st.seqMe p 16
    if vaChip p ≠ st.chipOf st.cur then
      if !st.readsFar st.seqMe then checks
      remotePhase st.seqMe p (vaChip p) (.read 16) (fun r => .readAt r.page) ph
    else
      waitPhase st.seqMe p ph (do
        checks
        globPlace st.seqMe p 16 0)

/-- R186: accesses of this model take effect in program order, so the fence is passed at once (DESIGN CHOICE, log 4). -/
def execFenceAcq (q : BitVec 3) (_s : BitVec 2) (st : State) : Ans := seqReg q st id

/-- R186. -/
def execFenceRel (q : BitVec 3) (_s : BitVec 2) (st : State) : Ans := seqReg q st id

/-- R186. -/
def execFenceFull (q : BitVec 3) (_s : BitVec 2) (st : State) : Ans := seqReg q st id

/-- Whether words of a block still hold rows of an xlayer step; `item` is the item at which the first word stands. -/
def layerLeft : Nat → List Word → Bool
  | _, [] => false
  | item, w :: r =>
    (match decodeWord .xfr w with
      | .ok (.xlayer _ _ n _ _ _) => decide (item < n.toNat)
      | _ => false) || layerLeft 0 r

/-- Whether an entry that a slot has issued to its transfer unit has xlayer rows that are not written yet; one that a fault of its own has
stopped, running or at the head of its queue, is not awaited (R188, R436). -/
def State.layerDue (s : State) (t : BitVec 8) (k : BitVec 2) : Bool :=
  let x := s.slot t k
  let skip := x.xfr.halted && x.xfr.cur.isNone
  (s.ctxOf t k).any fun c =>
    (!x.xfr.halted && x.xfr.cur.any fun e => layerLeft x.xfr.xs.item ((c.code.block .xfr e.blk).drop x.xfr.unit)) ||
      (x.q.xfr.items.drop (b2n skip)).any fun e => layerLeft 0 (c.code.block .xfr e.blk)

/-- R188: it waits until every xlayer item of every entry that the context issued earlier on this tile has been written and
acknowledged, or until a fault has stopped the entry. (DEDUCED, log 90) -/
def execFenceLayer (q : BitVec 3) (_s : BitVec 2) (st : State) : Ans :=
  seqM q st do
    if st.inRt = false ∧ ((st.slot st.cur st.curSlot).mem.layerOut ≠ 0 ∨ st.layerDue st.cur st.curSlot = true) then
      waitFor .layerFence

/-- R353: the iteration ends, and its retirement is a boundary for a stop (R296). -/
def execIterDone (q : BitVec 3) (st : State) : Ans :=
  seqJ q st do
    noRuntime
    let k := st.curSlot
    modS fun s => (s.iterRecord s.cur k).clearRemote st.seqMe
    modS fun s => s.modSlot s.cur k fun x => { x with sq := { x.sq with hasIter := false } }
    match st.ctxOf st.cur k with
    | some c => modS fun s => s.modCtx c.id fun c => { c with done := c.done + 1 }
    | none => pure ()
    let s ← get
    if bits (s.tile s.cur).trctl 13 12 = 1 ∧ (s.slot s.cur k).faults.isEmpty then set s.landStop

/-- R353. -/
def execIterPt (q : BitVec 3) (d : BitVec 5) (st : State) : Ans :=
  seqM q st do
    noRuntime
    writeG d (BitVec.ofNat 64 (st.slot st.cur st.curSlot).sq.point)

/-- The conditions of Table 21.11 that hold. -/
def State.waitiConds (s : State) (t : BitVec 8) (k : BitVec 2) : BitVec 5 :=
  let x := s.slot t k
  BitVec.ofNat 5 (b2n (!x.q.ev.items.isEmpty) + 2 * b2n (!x.q.vecSeq.items.isEmpty) + 4 * b2n (!x.q.matSeq.items.isEmpty) +
    8 * b2n (!x.q.xfrSeq.items.isEmpty) + 16 * b2n (x.sems.count.toList.any fun c => c != 0))

/-- R429: it completes at once where a selected condition holds, or where it selects none and has no limit. -/
def execWaiti (q : BitVec 3) (d s m : BitVec 5) (st : State) : Ans :=
  seqM q st do
    illegalIf (st.inRt = true ∧ m ≠ 0)
    let lim := st.bank.gr s
    let c := if st.inRt then 0 else st.waitiConds st.cur st.curSlot &&& m
    if c ≠ 0 ∨ (m = 0 ∧ lim = 0) then writeG d (c.setWidth 64) else waitFor (.waiti m lim)

end Sys2Proof.Machine
end

