-- ==== Sys2Proof/Machine/SeqSeg.lean ====
section
/-! DEFINITION. SEGOP and ACCOP of the sequencer (R106, R387, R325, R326). -/

namespace Sys2Proof.Machine

/-! ## SEGOP -/

/-- STATE of a descriptor (Table 5.2). -/
def segStateCode : SegState → Nat
  | .resident => 0
  | .pool => 1
  | .backed => 2
  | _ => 3

/-- Descriptor bits [127:64] (R95). -/
def segDesc (t : BitVec 8) (g : Segment) : W64 :=
  BitVec.ofNat 64 (2 ^ 40 * g.size + 2 ^ 32 * t.toNat + 2 ^ 29 * g.span.toNat + 2 ^ 28 * b2n g.check + 2 ^ 27 * b2n g.pin +
    2 ^ 26 * b2n g.shared + 2 ^ 24 * segStateCode g.state + (if g.state = .resident then g.frame % 2 ^ 13 else 0))

/-- Checks 1 and 2 of R94 (R106). -/
def segName (m : Me) (p : W64) : M (BitVec 8 × BitVec 2 × Segment) := do
  faultIf (ptrMid p ≠ 0) .segbound p 0
  match (← get).findSeg m (ptrSeg p) with
  | none => fault .segname p 0
  | some r => pure r

/-- Numbers in use over the whole context. -/
def State.usedNums (s : State) (c : Context) : List Nat :=
  c.tiles.flatMap fun t => (s.slot t c.slot).mem.segs.map (·.num.toNat)

/-- Pinned bytes of a slot without one number; STACK is not counted (R96). -/
def Slot.pinned (k : Slot) (n : BitVec 12) : Nat :=
  k.mem.segs.foldl (fun a g => if g.num ≠ 0 ∧ g.num ≠ n ∧ g.pin = true then a + g.size else a) 0

/-- Insert a segment, by number. -/
def insertSeg : List Segment → Segment → List Segment
  | [], g => [g]
  | x :: r, g => if g.num.toNat < x.num.toNat then g :: x :: r else x :: insertSeg r g

/-- R106: def. (DEDUCED, log 75) -/
def execSegopDef (q : BitVec 3) (d s t : BitVec 5) (st : State) : Ans :=
  seqM q st do
    noRuntime
    let z := (st.bank.gr s).toNat
    let a := st.bank.gr t
    illegalIf (z % 64 ≠ 0 ∨ z < 64 ∨ 0x800000 < z ∨ bits a 63 6 ≠ 0)
    match st.ctxOf st.cur st.curSlot with
    | none => illegal
    | some c =>
      let used := st.usedNums c
      let k := st.slot st.cur st.curSlot
      match ((List.range 4095).map (· + 1)).find? fun n => !used.contains n with
      | none => fault .booking (BitVec.ofNat 64 z) 0
      | some n =>
        faultIf (st.gddrRoom (towerOf st.cur) z = false) .booking (BitVec.ofNat 64 z) 0
        faultIf (bit a 4 = true ∧ k.mem.quota.toNat < k.pinned 0 + z + c.code.spareB) .booking (BitVec.ofNat 64 z) 0
        let g : Segment := {
          num := BitVec.ofNat 12 n, size := z, span := a.setWidth 3, check := bit a 3, pin := bit a 4, shared := bit a 5,
          state := .backed, frame := 0, backing := Config.backing st.fresh, touch := st.moves, store := {} }
        modS fun s => { (s.modSlot s.cur st.curSlot fun x => { x with mem := { x.mem with segs := insertSeg x.mem.segs g } }) with
          fresh := s.fresh + 1 }
        writeG d (segPtr (BitVec.ofNat 12 n) 0)

/-- Whether an agent waits for a segment of a home tile. -/
def Agt.waitsSeg (a : Agt) (n : BitVec 12) (home : BitVec 8) : Bool :=
  a.wait.any fun w => w.obj == .moving n home || w.obj == .recall n home

/-- Whether an access of another tile has reached a SHARED segment of home tile t and not ended: its agent waits for the
segment, or has found it absent; an access of a stopped slot starts again (R100, R106, R246). (DEDUCED, log 94) -/
def State.reached (s : State) (t : BitVec 8) (k : BitVec 2) (n : BitVec 12) : Bool :=
  (s.peers t k).any fun m => m.tile != t && m.tile != s.cur && (s.tile m.tile).slotRuns && (s.tile m.tile).running == some m.slot &&
    ((s.myAgt m).waitsSeg n t || (s.myAgt m).absent.any fun a => a.1 == t && a.2.1 == n)

/-- The agents that still wait for a segment look for it again. -/
def State.wakeSeg (s : State) (t : BitVec 8) (k : BitVec 2) (n : BitVec 12) (who : Who) : State :=
  (s.peers t k).foldl (fun s m => if (s.myAgt m).waitsSeg n t then s.endMyWait m who else s) s

/-- R106: drop, after every entry that the context issued earlier on this tile. -/
def execSegopDrop (q : BitVec 3) (s : BitVec 5) (st : State) : Ans :=
  seqM q st do
    noRuntime
    let p := st.bank.gr s
    illegalIf (ptrMid p = 0 ∧ ptrSeg p = 0)
    let (t, k, g) ← segName st.seqMe p
    waitRetired st [.vec, .mat, .xfr, .dec]
    if st.reached t k g.num then waitFor (.dropping g.num)
    modS fun s => ((s.modSlot t k fun x => { x with
      mem := { x.mem with segs := x.mem.segs.filter fun y => y.num ≠ g.num } }).wakeSeg t k g.num (s.who st.seqMe)).porterWake
        t k (s.who st.seqMe) (s.spareOf t k)

/-- R106: pin. It is a touch, as an access is (DEDUCED, log 102). -/
def execSegopPin (q : BitVec 3) (s : BitVec 5) (st : State) : Ans :=
  seqM q st do
    noRuntime
    let p := st.bank.gr s
    let (t, k, g) ← segName st.seqMe p
    if g.num ≠ 0 then
      let x := st.slot t k
      faultIf (x.mem.quota.toNat < x.pinned g.num + g.size + st.spareOf t k) .booking (BitVec.ofNat 64 g.size) 0
      resident (some st.seqMe) t k g
      modS fun s => s.modSeg t k g.num fun y => { y with pin := true, touch := s.moves }

/-- R106: unpin; STACK stays pinned for the life of the context (R96). (DEDUCED, log 26) -/
def execSegopUnpin (q : BitVec 3) (s : BitVec 5) (st : State) : Ans :=
  seqM q st do
    noRuntime
    let (t, k, g) ← segName st.seqMe (st.bank.gr s)
    if g.num ≠ 0 then
      modS fun s => (s.modSeg t k g.num fun y => { y with pin := false }).porterWake t k (s.who st.seqMe) (s.spareOf t k)

/-- R106: query. -/
def execSegopQuery (q : BitVec 3) (d s : BitVec 5) (st : State) : Ans :=
  seqM q st do
    noRuntime
    let (t, _, g) ← segName st.seqMe (st.bank.gr s)
    writeG d (segDesc t g)

/-- R107. -/
def execSegopStat (q : BitVec 3) (d s : BitVec 5) (st : State) : Ans :=
  seqM q st do
    noRuntime
    let n := (st.bank.gr s).toNat
    match (st.slot st.cur st.curSlot).mem.porter.toList[n]? with
    | none => illegal
    | some v => writeG d v

/-! ## ACCOP -/

/-- The tile operand (R325, R326). -/
def accArg (st : State) (s : BitVec 5) : M (BitVec 8) := do
  illegalIf (256 ≤ (st.bank.gr s).toNat)
  pure ((st.bank.gr s).setWidth 8)

/-- ACCOWN for a tile that another context owns. -/
def accOwn (st : State) (n : BitVec 8) : M Unit := do
  let o := (st.acc st.cur n).owner
  faultIf (o ≠ 0xFF ∧ o ≠ st.ctxId st.cur st.curSlot) .accown (o.setWidth 64) (n.setWidth 64)

/-- R325. -/
def execAccopQuery (q : BitVec 3) (d s : BitVec 5) (st : State) : Ans :=
  seqM q st do
    let n ← accArg st s
    writeG d ((st.acc st.cur n).owner.setWidth 64)

/-- R325. -/
def execAccopClaim (q : BitVec 3) (s : BitVec 5) (st : State) : Ans :=
  seqM q st do
    noRuntime
    let n ← accArg st s
    accOwn st n
    touchAcc st.seqMe n

/-- R325. -/
def execAccopRelease (q : BitVec 3) (s : BitVec 5) (st : State) : Ans :=
  seqM q st do
    noRuntime
    let n ← accArg st s
    accOwn st n
    waitRetired st [.vec, .mat, .xfr, .dec]
    if (st.acc st.cur n).owner ≠ 0xFF then modS fun s => s.modAcc s.cur n fun _ => AccTile.cleared 0xFF

/-- R325. -/
def execAccopSet (q : BitVec 3) (s t : BitVec 5) (st : State) : Ans :=
  seqM q st do
    needS
    let n ← accArg st s
    illegalIf (256 ≤ (st.bank.gr t).toNat)
    let v : BitVec 8 := (st.bank.gr t).setWidth 8
    illegalIf (v ≠ 0xFF ∧ (st.tile st.cur).slotOfCtx v = none)
    let o := (st.acc st.cur n).owner
    modS fun s => s.modAcc s.cur n fun a => if o ≠ 0xFF ∧ o ≠ v then AccTile.cleared v else { a with owner := v }

/-- Checks of save and load (R326). -/
def accAddr (st : State) (va : W64) : M Unit := do
  faultIf (va.toNat % 16 ≠ 0) .align va 0
  faultIf (vaChip va ≠ st.chipOf st.cur) .cap va 5

/-- R325. -/
def execAccopSave (q : BitVec 3) (d s : BitVec 5) (t : BitVec 4) (st : State) : Ans :=
  seqM q st do
    needS
    let n ← accArg st s
    let va := st.bank.gr d
    let c := st.bank.capr t
    let a := st.acc st.cur n
    accAddr st va
    capCheck st.seqMe c va 4224 [pWRITE]
    gWriteAs st.seqMe c va (a.bytes ++ a.side.toList.flatMap fun w => leBytes 4 w.toNat) false
      (if a.poison ≠ 0 then accPoison st.seqMe else pure ())

/-- A sideband word as load writes it: a G outside 5 to 32 makes it zero. -/
def sideOk (w : Word) : Word := if sbG w ≠ 0 ∧ (sbG w < 5 ∨ 32 < sbG w) then 0 else w

/-- R325. -/
def execAccopLoad (q : BitVec 3) (d s : BitVec 5) (t : BitVec 4) (st : State) : Ans :=
  seqM q st do
    needS
    let n ← accArg st s
    let va := st.bank.gr d
    let c := st.bank.capr t
    accAddr st va
    capCheck st.seqMe c va 4224 [pREAD]
    let bs ← gRead st.seqMe c va 4224
    let rows := (chunksOf 128 32 bs).map fun r => BitVec.ofNat 1024 (leNat r)
    let sides := (chunksOf 4 32 (bs.drop 4096)).map fun r => sideOk (BitVec.ofNat 32 (leNat r))
    modS fun s => s.modAcc s.cur n fun a => (List.range 32).foldl (fun a i =>
      a.put (BitVec.ofNat 5 i) (rows.getD i 0) (sides.getD i 0)) a

end Sys2Proof.Machine
end

