-- ==== Sys2Proof/Machine/Xfer.lean ====
section
/-! DEFINITION. The transfer unit: descriptors (R161, R162), rows and their checks, items (R165, R166), poison policies
(R173), the order of records, arrivals and status elements (R171, R174, R178). One turn runs one item, or posts one record,
or makes the arrival, or ends the step. -/

namespace Sys2Proof.Machine

/-! ## Descriptors (Table 9.1) -/

def Xd.rowLen (d : Xd) : Nat := bits d.raw 167 144
def Xd.kind (d : Xd) : BitVec 2 := BitVec.ofNat 2 (bits d.raw 143 142)
def Xd.pol (d : Xd) : Bool := bit d.raw 141
def Xd.stride (d : Xd) : W64 := BitVec.ofNat 64 (bits d.raw 127 64)
def Xd.base (d : Xd) : W64 := BitVec.ofNat 64 (bits d.raw 63 0)

/-- The address of row i (R162). -/
def Xd.row (d : Xd) (i : Nat) : W64 := d.base + BitVec.ofNat 64 i * d.stride

/-- A descriptor of the given fields. -/
def mkXd (rowLen : Nat) (kind : BitVec 2) (pol : Bool) (stride base : W64) (cap : Cap) : Xd :=
  ⟨BitVec.ofNat 192 (rowLen % 2 ^ 24 * 2 ^ 144 + kind.toNat * 2 ^ 142 + b2n pol * 2 ^ 141 + stride.toNat * 2 ^ 64 + base.toNat), cap⟩

def kSEG : BitVec 2 := 0
def kCAP : BitVec 2 := 1
def kLAYER : BitVec 2 := 2
def kREMOTE : BitVec 2 := 3

/-- SEG or CAP. -/
def Xd.plain (d : Xd) : Bool := d.kind == kSEG || d.kind == kCAP

/-- The descriptors and barrier slots of the running slot. -/
def State.xd (s : State) (n : BitVec 3) : Xd := vget n (s.slot s.cur s.curSlot).xs.xd
def State.bo (s : State) (n : BitVec 5) : Bo := vget n (s.slot s.cur s.curSlot).xs.bo

/-- The step in progress. -/
def State.xstep (s : State) : XStep := (s.eng .xfr).xs
def State.modX (s : State) (f : XStep → XStep) : State := s.modEng .xfr fun g => { g with xs := f g.xs }

/-- The transfer unit as an agent. -/
def State.xfrMe (s : State) : Me := s.meOf .xfr

/-! ## How a turn ends -/

/-- The race records of a store as they stood. -/
def Store.racesOf (m m0 : Store) : Store := { m with lw := m0.lw, lr := m0.lr }

/-- Segments with their race records as they stood. -/
def backSegs (l l0 : List Segment) : List Segment :=
  if l.length = l0.length then l.zipWith (fun g g0 => { g with store := g.store.racesOf g0.store }) l0 else l

/-- The race records that the accesses of a unit made are taken back: it has had no effect (R165, R193). -/
def State.backRaces (s s0 : State) (me : Me) : State :=
  match s0.ctxOf me.tile me.slot with
  | none => s
  | some c =>
    if !s0.raceOn me || c.sweeping then s
    else
      let s1 := c.tiles.foldl (fun s t => s.modSlot t c.slot fun k => { k with
        mem := { k.mem with segs := backSegs k.mem.segs (s0.slot t c.slot).mem.segs } }) s
      allTowers.foldl (fun s w => s.modTower w fun x => { x with gddr := x.gddr.racesOf (s0.tower w).gddr }) s1

/-- How a turn of a step ends: `true` says that the step is complete; `s0` is the state at its start. An item whose row has gone out
waits with what it did kept (R172, R189, R254). -/
def xferEnd (s0 : State) (r : EStateM.Result Stop State Bool) : Ans :=
  match r with
  | .ok last s =>
    let s1 := s.clearRemote s.xfrMe
    .next (if last then s1.modEng .xfr Engine.unitDone else s1)
  | .error (.fault c v i it) s1 =>
    let s := ((s1.backRaces s0 s1.xfrMe).modX fun x => { x with sent := none }).clearRemote s1.xfrMe
    .next (s.raise s.cur s.curSlot (s.unitRec s.cur s.curSlot .xfr c v i it))
  | .error (.wait o) s1 =>
    let s := if s1.xstep.sent.isSome then s1
      else (s1.backRaces s0 s1.xfrMe).backSupp s1.cur s1.curSlot (s0.slot s0.cur s0.curSlot).race.supp
    .next (s.engWait s.xfrMe o)
  | .error .gone s => .next s

/-- A turn of a transfer step. -/
def xferM (st : State) (m : M Bool) : Ans :=
  xferEnd st (m (st.modEng .xfr fun g => { g with agt := { g.agt with used := 0 } }))

/-! ## REMOTE addresses (R162, R172) -/

def rmChip (a : W64) : BitVec 3 := BitVec.ofNat 3 (bits a 51 49)
def rmTile (a : W64) : BitVec 8 := BitVec.ofNat 8 (bits a 48 41)

/-- The segment pointer that a REMOTE address names at its tile. -/
def rmPtr (a : W64) : W64 := segPtr (ptrSeg a) (ptrOff a)

/-- R94 at the target tile on this chip: the context's own instance there. -/
def remoteSeg (me : Me) (a : W64) (n align : Nat) (write race : Bool) : M SegRef := do
  faultIf (bits a 40 23 ≠ 0) .segbound a 0
  let s ← get
  let t := rmTile a
  let hit := (s.slot me.tile me.slot).ctx.bind fun c => ((s.tile t).slotOfCtx c).bind fun k =>
    ((s.slot t k).seg (ptrSeg a)).map fun g => (k, g)
  match hit with
  | none => fault .segname a 0
  | some (k, g) =>
    faultIf (g.size < ptrOff a + n) .segbound a 0
    faultIf (align ≠ 0 ∧ ptrOff a % align ≠ 0) .align a 0
    let r : SegRef := ⟨t, k, g.num, ptrOff a⟩
    segUse me a r g n write race
    pure r

/-- A chip index outside the partition cannot be reached. (DEDUCED, log 59) -/
def remoteChipOk (me : Me) (a : W64) : M Unit := do
  faultIf (((← get).partOf me.tile).any (fun p => decide (p.setup.chips.toNat ≤ (rmChip a).toNat)) = true) .unreach a 0

/-- The context of the moving slot. -/
def State.ctxNum (s : State) : BitVec 8 := ((s.slot s.cur s.curSlot).ctx).getD 0xFF

/-- A row has been sent: the item keeps what it did until the acknowledgement (R172). -/
def State.sentRow (s : State) (d : ItemDone) : State := s.modX fun x => { x with sent := some d }

/-- A store of an item that did `d`: where it waits once its checks have passed, the item is not run again (R165). -/
def keeping (d : ItemDone) (m : M Unit) : M Unit := fun s =>
  match m s with
  | .error (.wait o) t => .error (.wait o) (if (t.myAgt t.xfrMe).out.isSome then t.sentRow d else t)
  | r => r

/-- One row to a REMOTE address (R172): it is sent, and the item, which did `d`, waits for the acknowledgement. On this chip the
row lands at once. -/
def remoteRow (me : Me) (a : W64) (bs : List Byte) (d : ItemDone) : M ItemDone := do
  faultIf (bits a 40 23 ≠ 0) .segbound a 0
  let s ← get
  if rmChip a ≠ s.chipOf me.tile then
    remoteChipOk me a
    let send : M (List Byte) :=
      remoteCall me a (rmChip a) (.put (rmTile a) s.ctxNum (rmPtr a) bs) fun id => .xremAck id a
    (fun t => match send t with
      | .error (.wait o) u => .error (.wait o) (u.sentRow d)
      | .error e u => .error e u
      | .ok _ u => .ok d u)
  else
    let s0 ← get
    let r ← remoteSeg me a bs.length 0 true true
    segPartPoison me s0 a r bs.length
    segWriteRef me r bs
    modS fun s => s.sentRow d
    waitFor (.xremAck 0 a)

/-- The end of an item whose row has gone out: what is left of its store is made, or the other chip has acknowledged its row. -/
def awaitAck (me : Me) (d : ItemDone) : M Unit := do
  let a := (d.wrote.headD (0, 0)).1
  let g := (← get).myAgt me
  match g.out with
  | some l => runOut me a l
  | none =>
    if g.pend.isSome || g.got.isEmpty then waitFor (.xremAck (g.pend.getD 0) a)
    modS fun s => s.setMyAgt me { g with used := g.got.length - 1 }
    let _ ← remoteAsk me a (rmChip a) (.put (rmTile a) (← get).ctxNum (rmPtr a) []) false fun id => .xremAck id a

/-- The object of a REMOTE barrier slot on this chip; poison is reported (R251). -/
def remoteObj (me : Me) (a : W64) (write : Bool) : M Place := do
  let r ← remoteSeg me a 16 16 write false
  let _ ← segTake me a r 16
  pure (.seg r)

/-! ## Rows (R162) -/

/-- A DRAM layer row: inside 2^33 and on a 16 B boundary. -/
def layerCheck (a : W64) (n : Nat) : M Unit := faultIf (2 ^ 33 < a.toNat + n ∨ a.toNat % 16 ≠ 0) .segbound a 0

/-- POL of the descriptor that was read (R173): FAULT raises POISON at the item; under ZERO the error is consumed. -/
def poisonPolicy (me : Me) (d : Xd) (a : W64) : M Unit := do
  modS fun s => s.freezePoison me.tile a.toNat
  if d.pol then fault .poison a (if d.kind = kSEG then 0 else 2)

/-- A POISON answer of another chip is poisoned data, which the policy decides (R173). -/
def orPoison (me : Me) (d : Xd) (a : W64) (n : Nat) (m : M (List Byte × Bool)) : M (List Byte × Bool) := fun s =>
  match m s with
  | .error (.fault .poison _ _ _) t => (do poisonPolicy me d a; pure (List.replicate n 0, true) : M (List Byte × Bool)) t
  | r => r

/-- The channel of the asynchronous path of a tower that tests a lane for a write beat: that beat is not acknowledged yet (R188, R284). -/
def State.writeTest (s : State) (w : BitVec 3) : Option (BitVec 6) :=
  ((s.tower w).lanes.find? fun l => l.asynch && l.testing.any (·.write)).map (·.chan)

/-- A request for the asynchronous path waits for a channel that runs a lane test (R285). No rule says which of its 8 channels
carries a word, so a fresh value does (DESIGN CHOICE, log 93). -/
def asyncFree (w : BitVec 3) : M Unit := do
  let l := ((← get).tower w).lanes.filter fun l => l.asynch && l.testing.isSome
  if !l.isEmpty then
    let (v, s1) := (← get).draw
    set s1
    match l.find? fun x => x.chan.toNat == bits v 2 0 with
    | some x => waitFor (.lane x.chan)
    | none => pure ()

/-- Read n bytes of a row: the bytes, and whether some are poisoned, which the policy has then let pass. -/
def rowRead (me : Me) (d : Xd) (a : W64) (n : Nat) : M (List Byte × Bool) := do
  if d.kind = kCAP then
    capCheck me d.cap a n [pREAD]
    orPoison me d a n (gReadRaw me d.cap a n 0 (poisonPolicy me d a))
  else if d.kind = kLAYER then
    layerCheck a n
    asyncFree (towerOf me.tile)
    let s ← get
    let (r, s1) := s.layerRead (towerOf me.tile) a.toNat n s.ctxNum
    set s1
    if r.2 then poisonPolicy me d a
    pure r
  else
    let rs ← segAccesses me [a] n 0 false
    let s ← get
    let bad := rs.any fun r => !(s.segPoison r n).isEmpty
    if bad then poisonPolicy me d a
    segRecords me rs n false
    pure (rs.flatMap fun r => (s.segStore r).read r.off n, bad)

/-- Write a row of an item that did `r`; `taken` says that it was read and its poison taken as zeros (R173). A layer row counts as not
acknowledged (R188). -/
def rowWrite (me : Me) (d : Xd) (a : W64) (bs : List Byte) (taken : Bool) (r : ItemDone) : M Unit := do
  if d.kind = kCAP then
    capCheck me d.cap a bs.length [pWRITE]
    keeping r (gWriteAs me d.cap a bs taken (pure ()))
  else if d.kind = kLAYER then
    layerCheck a bs.length
    asyncFree (towerOf me.tile)
    modS fun s =>
      let w := s.who me
      (s.layerWrite (towerOf me.tile) a.toNat bs w).modSlot me.tile me.slot fun k => { k with
        mem := { k.mem with layerOut := k.mem.layerOut + 1, layerWho := w } }
  else if taken then
    let r ← segAccess me a bs.length 0 true true
    segWriteRef me r bs
  else segWrite me a bs 0

/-- Read a row by the policy: zeros and a POISON record where it is poisoned. -/
def rowTake (me : Me) (d : Xd) (a : W64) (n : Nat) : M (List Byte × List (BitVec 8 × W64)) := do
  let (bs, bad) ← rowRead me d a n
  pure (if bad then (List.replicate n 0, [(1, a)]) else (bs, []))

/-- The 16 B units that an access to n bytes of a SEG or CAP row touches on this chip: its tower and physical unit, or 8 + the number of
its segment and the unit there. A store to a replicated page touches every replica. -/
def rowUnits (me : Me) (d : Xd) (a : W64) (n : Nat) (write : Bool) : M (List (Nat × Nat)) := do
  if d.kind = kCAP then
    let here := (← get).chipOf me.tile
    let (m, r) := chipSplit a n
    let pss ← mapM' (([(a, m), (a + BitVec.ofNat 64 m, r)]).filter fun x => vaChip x.1 = here) fun x =>
      translateAll me x.1 x.2 (b2n write)
    let s ← get
    pure (pss.flatten.flatMap fun p =>
      let l := if write && p.x.rpl then (s.replicasOf p.owner p.x.ipa).map fun q => (q.1, q.2 * 65536 + p.inPage) else [p.loc]
      l.flatMap fun q => (unitsOf 16 q.2 p.len).map fun u => (q.1.toNat, u))
  else pure ((unitsOf 16 (ptrOff a) n).map fun u => (8 + (ptrSeg a).toNat, u))

/-! ## The address queue (R169, R170) -/

/-- A link read costs DECOUPLE cycles, a free number of them, saturating at 0xFFFF. -/
def addDecouple : M Unit := do
  let (v, s1) := (← get).draw
  set (s1.modX fun x => { x with decouple := min 0xFFFF (x.decouple + bits v 15 0) })

/-- Form the row index of item i from its index word, and its link where that says so: none where one of them is poisoned under
ZERO. -/
def formIndex (me : Me) (l a : Xd) (i : Nat) : M (Option Nat × List (BitVec 8 × W64)) := do
  let p := l.row i
  let (bs, bad) ← rowRead me l p 4
  if bad then pure (none, [(2, p)])
  else
    let w := leNat bs
    if w < 2 ^ 31 then pure (some w, [])
    else
      let q := a.row (w % 2 ^ 31)
      let (ls, bad2) ← rowRead me a q 4
      addDecouple
      pure (if bad2 then (none, [(2, q)]) else (some (leNat ls), []))

/-- The units of the words that form the row index of item i. -/
def indexUnits (me : Me) (l a : Xd) (i : Nat) : M (List (Nat × Nat)) := do
  let u ← rowUnits me l (l.row i) 4 false
  let w := leNat (← rowRead me l (l.row i) 4).1
  let v ← if w < 2 ^ 31 then pure [] else rowUnits me a (a.row (w % 2 ^ 31)) 4 false
  pure (u ++ v)

/-- The address queue forms the row indices of the items from `lo` on that it has room for (R170): 32 addresses. A word that
cannot be read faults at its own item. -/
def State.readAhead (s : State) (me : Me) (l a : Xd) (lo n : Nat) : State :=
  let kept := s.xstep.ahead.filter fun x => decide (lo ≤ x.1)
  let more := ((List.range (min 32 (n - lo))).map (· + lo)).filterMap fun j =>
    if (lookO kept j).isSome then none
    else match formIndex me l a j s, indexUnits me l a j s with
      | .ok (some r, _) _, .ok us _ => some (j, ⟨r, us⟩)
      | _, _ => none
  s.modX fun x => { x with ahead := kept ++ more }

/-- The row index of item i of n (R169). Where a word or link has changed since the address queue formed it, the step uses either
(R170), as a fresh value says (DESIGN CHOICE, log 3). -/
def rowIndex (me : Me) (l a : Xd) (i n : Nat) : M (Option Nat × List (BitVec 8 × W64)) := do
  let old := (lookO (← get).xstep.ahead i).map (·.row)
  let (r, recs) ← formIndex me l a i
  modS fun s => s.readAhead me l a (i + 1) n
  match r, old with
  | some x, some o =>
    if x = o then pure (some x, recs)
    else
      let (v, s1) := (← get).draw
      set s1
      pure (some (if bit v 0 then o else x), recs)
  | _, _ => pure (r, recs)

/-! ## The data queue (R170) -/

/-- The source rows of the items from `lo` on whose addresses `at_` are formed are read ahead, 32 of them; a row that cannot be read now
is left to its own item. -/
def State.readRows (s : State) (me : Me) (x : Xd) (at_ : Nat → Option W64) (lo n : Nat) : State :=
  let kept := s.xstep.rows.filter fun r => decide (lo ≤ r.1)
  let more := ((List.range (min 32 (n - lo))).map (· + lo)).filterMap fun j =>
    if (lookO kept j).isSome then none
    else (at_ j).bind fun a => match rowRead me x a x.rowLen s, rowUnits me x a x.rowLen false s with
      | .ok (bs, false) _, .ok us _ => some (j, ⟨a, bs, us.map some⟩)
      | _, _ => none
  s.modX fun z => { z with rows := kept ++ more }

/-- Of two readings of a row, each 16 B unit that the step's own items have not written between them is of either, as a fresh value says
(DESIGN CHOICE, log 3). -/
def eitherRow (r : RowAhead) (now : List Byte) : M (List Byte) := do
  let at_ (i : Nat) : Nat := (r.addr.toNat + i) / 16
  let us := (unitsOf 16 r.addr.toNat now.length).filter fun u =>
    (r.units.getD (u - at_ 0) none).isSome &&
      (List.range now.length).any fun i => at_ i == u && r.bytes.getD i 0 != now.getD i 0
  let ws ← mapM' us fun u => do
    let (v, s1) := (← get).draw
    set s1
    pure (u, bit v 0)
  pure ((List.range now.length).map fun i => if ws.contains (at_ i, true) then r.bytes.getD i 0 else now.getD i 0)

/-- The source row of an indexed item, by the policy. Where it has changed since it was read ahead, the item uses either reading. -/
def rowQueued (me : Me) (x : Xd) (i : Nat) (a : W64) : M (List Byte × List (BitVec 8 × W64)) := do
  let (bs, recs) ← rowTake me x a x.rowLen
  match (lookO (← get).xstep.rows i).filter fun r => r.addr = a && recs.isEmpty with
  | some r => pure (← eitherRow r bs, recs)
  | none => pure (bs, recs)

/-- What the queues have read ahead of a write of n bytes to a row of y: an item sees what earlier items of its step wrote (R181, R184), so
a unit that the write touches is not used as it was read, and an index formed from one is formed again. -/
def State.keepRows (s : State) (me : Me) (y : Xd) (a : W64) (n : Nat) : State :=
  match rowUnits me y a n true s with
  | .ok ws _ => s.modX fun z => { z with
      ahead := z.ahead.filter fun x => !x.2.units.any ws.contains
      rows := z.rows.map fun r => (r.1, { r.2 with units := r.2.units.map fun u => u.filter fun q => !ws.contains q }) }
  | .error _ _ => s.modX fun z => { z with ahead := [], rows := [] }

/-! ## Steps -/

/-- Insert a range by its start. -/
def insRange (x : Nat × Nat) : List (Nat × Nat) → List (Nat × Nat)
  | [] => [x]
  | y :: r => if x.1 ≤ y.1 then x :: y :: r else y :: insRange x r

/-- Bytes of sorted ranges from `lo` on, each counted once. -/
def coverFrom : Nat → List (Nat × Nat) → Nat
  | _, [] => 0
  | lo, (a, n) :: r => (a + n - max lo a) + coverFrom (max lo (a + n)) r

/-- The number of distinct destination bytes (R178). -/
def distinctBytes (l : List (W64 × Nat)) : Nat := coverFrom 0 ((l.map fun x => (x.1.toNat, x.2)).foldr insRange [])

/-- An arrival on a barrier slot (R172, R178). -/
def arriveSlot (me : Me) (o : Bo) (n : Nat) : M Unit := do
  let s ← get
  if o.remote then
    if rmChip o.ptr ≠ s.chipOf me.tile then
      faultIf (bits o.ptr 40 23 ≠ 0) .segbound o.ptr 0
      remoteChipOk me o.ptr
      let _ ← remoteAsk me o.ptr (rmChip o.ptr) (.arriveSeg (rmTile o.ptr) s.ctxNum (rmPtr o.ptr) (BitVec.ofNat 64 n))
        (decide (n ≠ 0)) fun id => .remote id o.ptr
    else
      let p ← remoteObj me o.ptr true
      arriveAt me p o.ptr n 0
  else
    let p ← segPlace me o.ptr 16 16 true
    arriveAt me p o.ptr n 0

/-- The status element (Table 9.6). -/
def statusOf (x : XStep) (step items : Nat) : W64 :=
  BitVec.ofNat 64 (x.reported % 2 ^ 16 * 2 ^ 48 + (b2n (bit x.flags 0) * 4 + b2n (bit x.flags 1) * 2 + b2n (bit x.flags 2)) * 2 ^ 40 +
    step % 256 * 2 ^ 32 + x.decouple * 2 ^ 16 + items % 2 ^ 16)

/-- Post the first pending record of the item that finished last (R174). The item counts as reported once. -/
def postRec (st : State) (r : BitVec 8 × W64) (rest : List (BitVec 8 × W64)) : M Unit := do
  let e := st.curEntry .xfr
  pushEvent st.xfrMe (eventRecord e.ctx 2 e.issue (BitVec.ofNat 8 (st.eng .xfr).unit) r.1
    (BitVec.ofNat 16 (st.xstep.item - 1)) r.2)
  modS fun s => s.modX fun x => { x with recs := rest, reported := if rest = [] then x.reported + 1 else x.reported }

/-- The end of a step: the status element under S (R171), and the index list is used up. -/
def stepEnd (st : State) (s : BitVec 1) (items : Nat) : M Bool := do
  if s = 1 then pushFifo st.xfrMe 6 (statusOf st.xstep (st.eng .xfr).unit items)
  modS fun s => s.modEng .xfr fun g => { g with xidx := none, xs := { g.xs with ahead := [] } }
  pure true

/-- The arrival of a step under B (R178). An xlayer step's arrival follows the acknowledgement of its rows (R188).
(DEDUCED, log 60) -/
def stepArrive (st : State) (o : BitVec 5) (layer : Bool) : M Unit := do
  let x := st.xstep
  let n := distinctBytes x.wrote + x.extra
  if layer then match st.writeTest (towerOf st.cur) with
    | some c => waitFor (.lane c)
    | none => pure ()
  if n ≠ 0 then arriveSlot st.xfrMe (st.bo o) n
  if layer then modS fun s => s.modSlot s.cur s.curSlot fun k => { k with mem := { k.mem with layerOut := k.mem.layerOut - x.item } }

/-- An item finishes (R165). (DEDUCED, log 57) -/
def XStep.finish (x : XStep) (d : ItemDone) : XStep :=
  { x with
    item := x.item + 1, wrote := x.wrote ++ d.wrote, extra := x.extra + d.extra, recs := d.recs
    flags := x.flags ||| d.flags, sent := none }

/-- One turn of a step with items. `ok` are its checks before item 0 (R166). -/
def dataStep (st : State) (len : BitVec 8) (o : BitVec 5) (b s : BitVec 1) (layer ok : Bool) (item : Nat → M ItemDone) : Ans :=
  xferM st do
    let x := st.xstep
    match x.recs with
    | r :: rest => do postRec st r rest; pure false
    | [] => match x.sent with
      | some d =>
        awaitAck st.xfrMe d
        modS fun s => s.modX (·.finish d)
        pure false
      | none =>
      if x.phase ≠ 0 then stepEnd st s x.item
      else
        faultIf (x.item = 0 ∧ (ok = false ∨ (b = 1 ∧ (st.bo o).valid = false))) .layout 0 0
        if x.item < len.toNat then
          let d ← item x.item
          modS fun s => s.modX (·.finish d)
          pure false
        else
          if b = 1 then stepArrive st o layer
          modS fun s => s.modX fun x => { x with phase := 1 }
          pure false

/-- A descriptor is set. -/
def Xd.isSet (d : Xd) : Bool := d.rowLen != 0

/-- Two set descriptors of equal ROWLEN, neither of kind LAYER or REMOTE (R166). -/
def movePair (x d : Xd) : Bool := x.isSet && d.isSet && x.rowLen == d.rowLen && x.plain && d.plain

/-- What a written row counts. -/
def wroteRow (a : W64) (n : Nat) (recs : List (BitVec 8 × W64)) : ItemDone := { wrote := [(a, n)], recs := recs }

/-- The index list that feeds an indexed step, where its len agrees (R169). -/
def State.fed (s : State) (len : BitVec 8) : Option (Xd × Xd) :=
  match (s.eng .xfr).xidx with
  | none => none
  | some (l, a, n) => if n = len then some (s.xd l, s.xd a) else none

/-! ## Reductions (Table 9.5) -/

/-- Bytes of a source element. -/
def redSize (f : BitVec 4) : Nat := if f = 4 then 1 else if f = 0 ∨ f = 1 ∨ f = 5 then 2 else 4

/-- One combination: destination element, source element. -/
def redElem (f : BitVec 4) (d x : Nat) : Nat × Flg :=
  if f = 0 then fp32.sum rne [fp32.read d, fp16.read x]
  else if f = 1 then fp32.sum rne [fp32.read d, bf16.read x]
  else if f = 2 then fp32.add rne d x
  else if f = 3 then fp32.minmax true d x
  else
    let w := 8 * redSize f
    let v := if x < 2 ^ (w - 1) then x else x + 2 ^ 32 - 2 ^ w
    ((d + v) % 2 ^ 32, 0)

/-- Combine a source row into a destination row: the bytes and the flags. -/
def redRow (f : BitVec 4) (dst src : List Byte) : List Byte × BitVec 3 :=
  let k := redSize f
  let rs := (List.range (src.length / k)).map fun i =>
    redElem f (leNat ((dst.drop (4 * i)).take 4)) (leNat ((src.drop (k * i)).take k))
  (rs.flatMap fun r => leBytes 4 r.1, rs.foldl (fun g r => g ||| r.2.setWidth 3) 0)

end Sys2Proof.Machine
end

