-- ==== Sys2Proof/Machine/XferStep.lean ====
section
/-! DEFINITION. The steps of the transfer unit (Table 9.2, R163 to R180, R430 to R433). -/

namespace Sys2Proof.Machine

/-! ## Moves (R167) -/

/-- R167. -/
def execXcopy (a d : BitVec 3) (l : BitVec 8) (o : BitVec 5) (b s : BitVec 1) (st : State) : Ans :=
  let x := st.xd a
  let y := st.xd d
  let me := st.xfrMe
  dataStep st l o b s false (movePair x y) fun i => do
    let (bs, recs) ← rowTake me x (x.row i) x.rowLen
    let r := wroteRow (y.row i) x.rowLen recs
    rowWrite me y (y.row i) bs false r
    pure r

/-- The bytes of a pattern row: the low 32 bits of y, repeated. -/
def patBytes (y : W64) (n : Nat) : List Byte := (List.range n).map fun i => BitVec.ofNat 8 (bits y 31 0 / 2 ^ (8 * (i % 4)))

/-- R167. -/
def execXfill (d : BitVec 3) (l : BitVec 8) (o : BitVec 5) (b s p : BitVec 1) (st : State) : Ans :=
  let y := st.xd d
  let bs := if p = 1 then patBytes (st.curEntry .xfr).y y.rowLen else List.replicate y.rowLen 0
  dataStep st l o b s false (y.isSet && y.plain) fun i => do
    let r := wroteRow (y.row i) y.rowLen []
    rowWrite st.xfrMe y (y.row i) bs false r
    pure r

/-- R167, R166: one side is the DRAM layer, the other a segment. -/
def execXlayer (a d : BitVec 3) (l : BitVec 8) (o : BitVec 5) (b s : BitVec 1) (st : State) : Ans :=
  let x := st.xd a
  let y := st.xd d
  let ok := x.isSet && y.isSet && x.rowLen == y.rowLen && x.rowLen % 16 == 0 &&
    ((x.kind == kLAYER && y.kind == kSEG) || (x.kind == kSEG && y.kind == kLAYER))
  dataStep st l o b s (y.kind == kLAYER) ok fun i => do
    let (bs, recs) ← rowTake st.xfrMe x (x.row i) x.rowLen
    let r := wroteRow (y.row i) x.rowLen recs
    rowWrite st.xfrMe y (y.row i) bs false r
    pure r

/-- R172. -/
def execXrem (a d : BitVec 3) (l : BitVec 8) (o : BitVec 5) (b s : BitVec 1) (st : State) : Ans :=
  let x := st.xd a
  let y := st.xd d
  let ok := x.isSet && y.isSet && x.rowLen == y.rowLen && x.plain && y.kind == kREMOTE
  dataStep st l o b s false ok fun i => do
    let (bs, recs) ← rowTake st.xfrMe x (x.row i) x.rowLen
    remoteRow st.xfrMe (y.row i) bs (wroteRow (y.row i) x.rowLen recs)

/-- R172: the target tile acknowledges the row that the running transfer step has sent, and the item completes. -/
def execXremAck (t : BitVec 8) (st : State) : Ans :=
  let k := ((st.tile t).running).getD 0
  let g := (st.slot t k).xfr
  match g.agt.wait.map Wait.obj, g.xs.sent with
  | some (.xremAck 0 _), some d =>
    .next ((st.modSlot t k fun z => { z with xfr := { z.xfr with xs := z.xfr.xs.finish d } }).clearRemote ⟨t, k, .xfr⟩)
  | _, _ => .next st

/-! ## Indexed steps (R169, R170, R430) -/

/-- R169: the words are consumed as items of the step that follows. -/
def execXidx (a d : BitVec 3) (l : BitVec 8) (st : State) : Ans :=
  xferM st do
    let x := st.xd a
    let y := st.xd d
    faultIf (x.isSet = false ∨ y.isSet = false ∨ x.rowLen ≠ 4 ∨ x.plain = false ∨ y.plain = false) .layout 0 0
    modS fun s => s.modEng .xfr fun g => { g with xidx := some (a, d, l) }
    modS fun s => s.readAhead s.xfrMe x y 0 l.toNat
    pure true

/-- R430. -/
def execXgath (a d : BitVec 3) (l : BitVec 8) (o : BitVec 5) (b s : BitVec 1) (st : State) : Ans :=
  let x := st.xd a
  let y := st.xd d
  let me := st.xfrMe
  let q := st.fed l
  dataStep st l o b s false (movePair x y && q.isSome) fun i => do
    let (ix, al) := q.getD ({}, {})
    let (r, recs) ← rowIndex me ix al i l.toNat
    let (bs, recs) ← match r with
      | none => pure (List.replicate y.rowLen 0, recs)
      | some r => rowQueued me x i (x.row r)
    let d := wroteRow (y.row i) y.rowLen recs
    modS fun s => (s.readRows me x (fun j => (lookO s.xstep.ahead j).map fun r => x.row r.row) (i + 1) l.toNat).keepRows me y (y.row i) y.rowLen
    rowWrite me y (y.row i) bs false d
    pure d

/-- R430, R173: a poisoned index names no destination, and its row counts toward the arrival. -/
def execXscat (a d : BitVec 3) (l : BitVec 8) (o : BitVec 5) (b s : BitVec 1) (st : State) : Ans :=
  let x := st.xd a
  let y := st.xd d
  let me := st.xfrMe
  let q := st.fed l
  dataStep st l o b s false (movePair x y && q.isSome) fun i => do
    let (ix, al) := q.getD ({}, {})
    let (r, recs) ← rowIndex me ix al i l.toNat
    let more (s : State) : State := s.readRows me x (fun j => (lookO s.xstep.ahead j).map fun _ => x.row j) (i + 1) l.toNat
    match r with
    | none =>
      modS more
      pure { extra := y.rowLen, recs := recs }
    | some r =>
      let (bs, recs) ← rowQueued me x i (x.row i)
      let d := wroteRow (y.row r) y.rowLen recs
      modS fun s => (more s).keepRows me y (y.row r) y.rowLen
      rowWrite me y (y.row r) bs false d
      pure d

/-- R168, R173, R430. -/
def execXred (a d : BitVec 3) (l : BitVec 8) (o : BitVec 5) (b s i n : BitVec 1) (f : BitVec 4) (st : State) : Ans :=
  let x := st.xd a
  let y := st.xd d
  let me := st.xfrMe
  let q := if i = 1 then st.fed l else some ({}, {})
  let k := redSize f
  let ok := x.isSet && y.isSet && x.plain && y.plain && x.rowLen % k == 0 && y.rowLen == x.rowLen / k * 4 && q.isSome
  dataStep st l o b s false ok fun it => do
    let (src, recs) ← do
      if i = 1 then
        let (ix, al) := q.getD ({}, {})
        let (r, recs) ← rowIndex me ix al it l.toNat
        match r with
        | none => pure (List.replicate x.rowLen 0, recs)
        | some r => rowQueued me x it (x.row r)
      else rowTake me x (x.row it) x.rowLen
    let p := if n = 1 then y.row 0 else y.row it
    let (dst, recs2) ← rowTake me y p y.rowLen
    let (bs, g) := redRow f dst src
    let d : ItemDone := { wrote := [(p, y.rowLen)], recs := recs ++ recs2, flags := g }
    modS fun s => (s.readRows me x (fun j => if i = 1 then (lookO s.xstep.ahead j).map fun r => x.row r.row else none) (it + 1) l.toNat).keepRows me y
      p y.rowLen
    rowWrite me y p bs (!recs2.isEmpty) d
    pure d

/-! ## Barrier slots, events, descriptors (R164, R175, R431 to R433) -/

/-- R431. -/
def execXbar (l : BitVec 8) (o : BitVec 5) (s : BitVec 1) (h : BitVec 5) (st : State) : Ans :=
  xferM st do
    if st.xstep.phase ≠ 0 then stepEnd st s 1
    else
      faultIf ((st.bo o).valid = false) .layout 0 0
      arriveSlot st.xfrMe (st.bo o) (l.toNat * 2 ^ h.toNat)
      modS fun s => s.modX fun x => { x with phase := 1 }
      pure false

/-- R432. -/
def execXevt (st : State) : Ans :=
  xferM st do
    let e := st.curEntry .xfr
    pushEvent st.xfrMe (eventRecord e.ctx 2 e.issue (BitVec.ofNat 8 (st.eng .xfr).unit) 0 0 e.x)
    pure true

/-- R433. What is read after it was not read ahead of it (R182). -/
def execXwait (o : BitVec 5) (h : BitVec 1) (st : State) : Ans :=
  xferM st do
    let q := st.bo o
    let me := st.xfrMe
    let ph := h.toNat
    faultIf (q.valid = false) .layout 0 0
    if q.remote ∧ rmChip q.ptr ≠ st.chipOf st.cur then
      faultIf (bits q.ptr 40 23 ≠ 0) .segbound q.ptr 0
      remoteChipOk me q.ptr
      remotePhase me q.ptr (rmChip q.ptr) (.readSeg (rmTile q.ptr) st.ctxNum (rmPtr q.ptr))
        (fun _ => .readSegAt (rmTile q.ptr) st.ctxNum (rmPtr q.ptr)) ph
    else waitPhase me q.ptr ph (if q.remote then remoteObj me q.ptr false else segPlace me q.ptr 16 16 false)
    modS fun s => s.modX fun x => { x with ahead := [] }
    pure true

/-- BASE and STRIDE as SRC selects them (Table 9.3). -/
def descSrc (e : Entry) (rowLen : Nat) (r : BitVec 2) : W64 × W64 :=
  if r = 0 then (e.x, e.y) else (if r = 1 then e.x else e.y, BitVec.ofNat 64 rowLen)

/-- R164, the descriptor form. -/
def execXdesc (d : BitVec 3) (l : BitVec 8) (u k : BitVec 2) (p : BitVec 1) (r : BitVec 2) (st : State) : Ans :=
  xferM st do
    let me := st.xfrMe
    let n := l.toNat * 16 ^ u.toNat
    let (base, stride) := descSrc (st.curEntry .xfr) n r
    let c ← do
      if k = kCAP then
        let bs ← segRead me base 16 16
        let (q, _) ← segCheck me base 16 16
        let c : Cap := ⟨BitVec.ofNat 128 (leNat bs), ((← get).segStore q).tags.contains (q.off / 16)⟩
        let (v, s1) := (← get).draw
        set s1
        capCheck3 me c v
        pure c
      else pure {}
    faultIf (k = kREMOTE ∧ bits base 40 23 ≠ 0) .segbound base 0
    let x := mkXd n k (p == 1) stride (if k = kCAP then BitVec.ofNat 64 c.base else base) c
    modS fun s => s.modSlot s.cur s.curSlot fun z => { z with xs := { z.xs with xd := vset d x z.xs.xd } }
    pure true

/-- R164, the slot form. (DEDUCED, log 30) -/
def execXdescSlot (o : BitVec 5) (k r : BitVec 2) (st : State) : Ans :=
  xferM st do
    let p := (descSrc (st.curEntry .xfr) 0 r).1
    modS fun s => s.modSlot s.cur s.curSlot fun z => { z with xs := { z.xs with bo := vset o ⟨p, true, k == kREMOTE⟩ z.xs.bo } }
    pure true

end Sys2Proof.Machine
end

