-- ==== Sys2Proof/Machine/EvEngine.lean ====
section
/-! DEFINITION. The stages of an entry (R31, R109, R110), the ends of waits (Table 2.5, R300), probes (R36, R37), the
watchdog (R39). Each is an event that happens where its condition holds, and else changes nothing. -/

namespace Sys2Proof.Machine

/-! ## Admission (R109, R110) -/

/-- The segment pointer of a declared operand (R83). -/
def opPtr (e : Entry) (o : BitVec 16) : Option W64 :=
  match bits o 15 14 with
  | 1 => some (segPtr (o.setWidth 12) 0)
  | 2 => some e.x
  | 3 => some e.y
  | _ => none

/-- The declared operands of an entry's block, segment 0 left out (R109). -/
def declared (c : Code) (e : Eng) (ent : Entry) : List W64 :=
  let ops := ((c.blocks e)[ent.blk.toNat]?).elim [] (·.ops)
  (ops.filterMap (opPtr ent)).filter fun p => ptrSeg p ≠ 0

/-- Whether an entry's block declares a segment operand. -/
def declares (c : Code) (e : Eng) (ent : Entry) : Bool :=
  ((c.blocks e)[ent.blk.toNat]?).any fun b => b.ops.any fun o => bits o 15 14 ≠ 0

/-- A DEC entry has been admitted: it is booked and its segments are resident, or it has started (R248 may have put it back). -/
def Slot.wasAdmitted (k : Slot) (d : DecEntry) : Bool :=
  d.run.isSome || k.mem.bookings.any fun b => b.eng == .dec && b.issue == d.e.issue && b.segs.all fun n =>
    (k.seg n).any fun g => g.state == .resident

/-- The entries of a slot that are not admitted yet. -/
def State.unadmitted (s : State) (t : BitVec 8) (k : BitVec 2) : List (Eng × Entry) :=
  let x := s.slot t k
  let d := (s.tower (towerOf t)).dec
  let own (e : Eng) : List (Eng × Entry) :=
    (if (x.engine e).admitted then (x.cmdQ e).items.drop 1 else (x.cmdQ e).items).map fun i => (e, i)
  let decs := (d.parked ++ (if d.token then d.q.items.drop 1 else d.q.items)).filter fun z =>
    z.e.tile == t && some z.e.ctx == x.ctx && !x.wasAdmitted z
  own .vec ++ own .mat ++ own .xfr ++ decs.map fun z => (Eng.dec, z.e)

/-- Whether issue number a comes before b (R31). -/
def issuedBefore (a b : BitVec 16) : Bool := decide ((b - a).toNat ≠ 0) && decide ((b - a).toNat < 2 ^ 15)

/-- Declared segments homed on the tile, each once; one that is homed on another tile is not booked (R109), and one that names no
live segment of the context raises SEGNAME. -/
def ownSegs (me : Me) (ps : List W64) : M (List (BitVec 12)) := do
  let s ← get
  let live := (s.ctxOf me.tile me.slot).elim [] s.usedNums
  let rs ← mapM' ps fun p =>
    if ((s.slot me.tile me.slot).seg (ptrSeg p)).isSome then pure (some (ptrSeg p))
    else if live.contains (ptrSeg p).toNat then pure none
    else fault .segname p 0
  pure ((rs.filterMap id).foldl (fun l n => if l.contains n then l else l ++ [n]) [])

/-- Bytes of the segments of a slot that a test picks, STACK left out. (DEDUCED, log 65) -/
def Slot.sumSegs (k : Slot) (f : Segment → Bool) : Nat :=
  k.mem.segs.foldl (fun a g => if g.num ≠ 0 ∧ f g = true then a + g.size else a) 0

/-- An admission that cannot be made at once (R107). -/
def bookWait (me : Me) (n : BitVec 12) : M α := do
  if ((← get).myAgt me).wait.isNone then
    modS fun s => s.modSlot me.tile me.slot fun x => { x with mem := { x.mem with
      porter := x.mem.porter.set 4 (x.mem.porter[4] + 1) } }
  waitFor (.booking n)

/-- The segments that an entry has booked. -/
def Slot.bookedBy (k : Slot) (e : Eng) (issue : BitVec 16) : Option (List (BitVec 12)) :=
  (k.mem.bookings.find? fun b => b.eng == e && b.issue == issue).map (·.segs)

/-- The end of an admission: the booked segments that are absent are recalled, and it waits until all are resident. -/
def bookRecall (me : Me) (own : List (BitVec 12)) : M Unit := do
  forM' own fun n => modS fun s => match (s.slot me.tile me.slot).seg n with
    | some g => if g.state = .pool ∨ g.state = .backed then s.startRecall me.tile me.slot g else s
    | none => s
  match ((← get).slot me.tile me.slot).mem.segs.find? fun g => own.contains g.num && g.state != .resident with
  | some g => waitFor (.moving g.num me.tile)
  | none => pure ()

/-- Admission of an entry that declares segments (R110), in issue order (R31). The bytes that stay for ever are tested once.
(DEDUCED, log 64) -/
def book (me : Me) (e : Eng) (c : Code) (ent : Entry) : M Unit := do
  let ps := declared c e ent
  let first := (ps.map ptrSeg).headD 0
  let s0 ← get
  match (s0.slot me.tile me.slot).bookedBy e ent.issue with
  | some own => bookRecall me own
  | none =>
    if (s0.unadmitted me.tile me.slot).any fun x => declares c x.1 x.2 && issuedBefore x.2.issue ent.issue then
      bookWait me first
    let own ← ownSegs me ps
    let k := (← get).slot me.tile me.slot
    let isOwn (g : Segment) : Bool := own.contains g.num
    let z := BitVec.ofNat 64 (k.sumSegs isOwn)
    let q := k.mem.quota.toNat
    let a := (← get).myAgt me
    faultIf (a.tested = false ∧ q < k.sumSegs (fun g => g.pin || isOwn g) + c.spareB) .booking z 0
    modS fun s => s.setMyAgt me { a with tested := true }
    let need := k.sumSegs fun g => g.pin || k.isBooked g.num || isOwn g
    if q < need + (if a.grant then 0 else c.spareB) then
      if a.grant then fault .booking z 0
      bookWait me first
    match k.mem.segs.find? fun g => isOwn g && (match g.state with
      | .pushing _ => true
      | .spilling => true
      | _ => false) with
    | some g => waitFor (.moving g.num me.tile)
    | none => pure ()
    modS fun s => (s.modSlot me.tile me.slot fun x => { x with mem := { x.mem with
      bookings := x.mem.bookings ++ [Booking.mk e ent.issue own]
      segs := x.mem.segs.map fun g => if isOwn g then { g with touch := s.moves } else g } }).useGrant me
    bookRecall me own

/-- The slot of an engine's entry: the running one, or for the decode engine the issuing slot. -/
def State.stageMe (s : State) (e : Eng) : Me := if e = .dec then s.decMe else s.meOf e

/-- How a stage of an entry ends. A fault of a DEC entry parks it (R248). A fault gives up a grant. -/
def stageEnd (e : Eng) (r : EStateM.Result Stop State Unit) : Ans :=
  match r with
  | .ok _ s => .next s
  | .error (.fault c v i it) s0 =>
    let m := s0.stageMe e
    let s := (s0.clearRemote m).useGrant m
    let f := s.unitRec m.tile m.slot m.agent c v i it
    .next ((if e = .dec then s.parkDec s.decTower else s).raise m.tile m.slot f)
  | .error (.wait o) s => .next (s.engWait (s.stageMe e) o)
  | .error .gone s => .next s

/-- Whether the entry at the head of an engine's queue can pass a stage now: its slot runs and does not stop, and nothing
runs in the engine. -/
def State.headReady (s : State) (e : Eng) : Option Entry :=
  let x := s.tile s.cur
  let k := x.slot s.curSlot
  let d := (s.tower s.decTower).dec
  if x.enginesRun = false ∨ x.stopping.isSome = true ∨ x.stands k = true then none
  else if e = .dec then
    match d.cur, d.q.items.head? with
    | none, some h => if h.e.tile = s.cur ∧ s.decRuns h.e = true then some h.e else none
    | _, _ => none
  else if (k.engine e).cur.isSome then none
  else (k.cmdQ e).items.head?

/-- Whether the head of an engine's queue is admitted. -/
def State.headAdmitted (s : State) (e : Eng) : Bool :=
  if e = .dec then (s.tower s.decTower).dec.token else (s.eng e).admitted

def State.setAdmitted (s : State) (e : Eng) (b : Bool) : State :=
  if e = .dec then s.modTower s.decTower fun w => { w with dec := { w.dec with token := b } }
  else s.modEng e fun g => { g with admitted := b }

/-- Whether the DEC entry at the head was admitted before it was parked. -/
def State.headKept (s : State) (e : Eng) : Bool :=
  e == .dec && ((s.tower s.decTower).dec.q.items.head?).any fun d => (s.slot s.cur s.curSlot).wasAdmitted d

/-- R110: the entry at the head is admitted, or waits, or faults. An admission may end the wait of a later one (R31, R300). -/
def execEntryAdmission (t : BitVec 8) (e : Eng) (st : State) : Ans :=
  let s := { st with cur := t }
  match s.headReady e with
  | none => .next st
  | some ent =>
    let me := s.stageMe e
    if s.headAdmitted e || (s.myAgt me).stays then .next st
    else
      stageEnd e ((do
        match s.ctxOf t s.curSlot with
        | none => throw .gone
        | some c =>
          if declares c.code e ent && !s.headKept e then book me e c.code ent
          modS fun u => (((u.setAdmitted e true).endMyWait me (u.slot me.tile me.slot).setters.room).clearRemote me).modSlot me.tile me.slot
            fun x => if declares c.code e ent then { x with setters := { x.setters with room := s.who me } } else x : M Unit) s)

/-! ## Wait, run, retire, signal (R31) -/

/-- An entry of an agent has retired: its effects on TSTAT are visible 64 c later (R144). -/
def Slot.retired (k : Slot) (a : Agent) (ent : Entry) (tick : W64) : Slot :=
  { k with effs := k.effs.map fun e => if e.agent = a ∧ e.issue = ent.issue ∧ e.since.isNone then { e with since := some tick } else e }

/-- An entry leaves its queue and starts to run: vs0 and vs1 take x and y (R61); a DEC entry copies its slot entry and its
mask slot (R209, R224). It acquires what its CMD released (R182). -/
def State.startEntry (s : State) (e : Eng) (ent : Entry) : State :=
  let me := s.stageMe e
  let w := s.who me
  let k := s.curSlot
  match e with
  | .dec =>
    let d := (s.tower s.decTower).dec
    match d.q.items.head? with
    | none => s
    | some h =>
      let s1 := if h.run.isSome then s else (s.decRecord s.decTower ent 0).modSlot s.cur k fun x => x.learn .dec ent.knows
      let run : DecRun := match h.run, s.ctxOf s.cur k with
        | some r, _ => r
        | none, some c => ⟨s.slotEnt s.decTower c (bits ent.y 7 0),
            vget (BitVec.ofNat 3 (bits ent.y 24 22)) (s.dctxOf s.decTower ent.ctx).masks⟩
        | none, none => ⟨0, MaskSlot.reset⟩
      s1.modTower s.decTower fun t => { t with dec := { t.dec with
        q := d.q.pop 64 w, cur := some { h with run := some run }, token := false } }
  | _ =>
    let s1 := s.modSlot s.cur k fun x => ((x.setCmdQ e ((x.cmdQ e).pop 16 w)).setEngine e
      { x.engine e with cur := some ent, admitted := false, unit := 0, rpt := none, xs := {}, xidx := none }).learn (Eng.agent e) ent.knows
    if e = .vec then
      s1.modSlot s.cur k fun x => { x with vs := { x.vs with vs := (x.vs.vs.set 0 ent.x).set 1 ent.y } }
    else s1

/-- R31 stages 3 and 4: the token is taken, or waited for in order (R390), and the entry runs. -/
def execEntryWaitToken (t : BitVec 8) (e : Eng) (st : State) : Ans :=
  let s := { st with cur := t }
  match s.headReady e with
  | none => .next st
  | some ent =>
    let me := s.stageMe e
    let x := s.slot t s.curSlot
    if !s.headAdmitted e || (s.myAgt me).wait.isSome then .next st
    else
      let again := e == .dec && ((s.tower s.decTower).dec.q.items.head?).any fun d => d.run.isSome
      match (if again then none else ent.wtok) with
      | none => .next (s.startEntry e ent)
      | some n =>
        if x.sems.free n = 0 then
          .next ((s.joinSem t s.curSlot n (Eng.agent e)).engWait me (.sem n))
        else .next ((s.modSlot t s.curSlot fun y => y.takeSem n (Eng.agent e)).startEntry e ent)

/-- Whether an entry has run its whole block. -/
def State.blockDone (s : State) (e : Eng) : Option Entry :=
  let ended (c : Entry) (unit : Nat) : Option Entry := (s.ctxOf s.cur s.curSlot).bind fun x =>
    if (x.code.block e c.blk).length ≤ unit then some c else none
  if !(s.tile s.cur).enginesRun || (s.tile s.cur).stands (s.slot s.cur s.curSlot) then none
  else if e = .dec then
    (s.tower s.decTower).dec.cur.bind fun d =>
      if d.e.tile = s.cur ∧ s.decRuns d.e = true then ended d.e d.unit else none
  else (s.eng e).cur.bind fun c => ended c (s.eng e).unit

/-- Stage 5: the bookings of an entry are released, which may end waits for the porter. -/
def State.unbook (s : State) (e : Eng) (ent : Entry) (w : Who) : State :=
  let k := s.curSlot
  let s1 := s.modSlot s.cur k fun x => { x with mem := { x.mem with
    bookings := x.mem.bookings.filter fun b => !(b.eng == e && b.issue == ent.issue) } }
  if (s.slot s.cur k).mem.bookings.any fun b => b.eng == e && b.issue == ent.issue then
    s1.porterWake s.cur k w (s.spareOf s.cur k)
  else s1

/-- The engine is free again. -/
def State.freeEngine (s : State) (e : Eng) (ent : Entry) (w : Who) : State :=
  let k := s.curSlot
  -- the retirement that a wait of the sequencer counts (R300)
  let seen := (s.slot s.cur k).sq.agt.wait.any fun v => match v.obj with
    | .retire _ es => es &&& engMask [Eng.agent e] != 0
    | _ => false
  let s1 := s.modSlot s.cur k fun x => { (x.retired (Eng.agent e) ent s.tick) with
    setters := { x.setters with retire := if seen then w else x.setters.retire } }
  match e with
  | .dec =>
    let s2 := s1.decRecord s.decTower ent 1
    s2.modTower s.decTower fun t => { t with
      dec := { t.dec with cur := none, token := false, agt := {} }
      kv := t.kv.release (· == ent.key) }
  | _ =>
    let s2 := s1.modEng e fun g => { g with cur := none, unit := 0, rpt := none, xs := {}, xidx := none, halted := false, agt := {} }
    if e = .mat then s2.modSlot s.cur k fun x => { x with ps := { x.ps with held := [] } } else s2

/-- R31 stages 5 and 6, R32: the signal releases; above 65,535 it raises SEMOVF and the stage can be made again. -/
def execEntryRetire (t : BitVec 8) (e : Eng) (st : State) : Ans :=
  let s := { st with cur := t }
  match s.blockDone e with
  | none => .next st
  | some ent =>
    let me := s.stageMe e
    let w := s.who me
    if (s.myAgt me).stays then .next st
    else
      stageEnd e ((do
        modS fun u => u.unbook e ent w
        match ent.stok with
        | none => pure ()
        | some n =>
          let u0 ← get
          match (u0.slot t s.curSlot).sems.signal n w (u0.snap me) with
          | none => throw (.fault .semovf (n.setWidth 64) 0 (some 0xFFFF))
          | some q => modS fun u => (u.modSlot t s.curSlot fun x => { x with sems := q }).releaseOnly me
        modS fun u => u.freeEngine e ent w : M Unit) s)

/-! ## The ends of waits -/

/-- The turn of an agent of a tile. -/
def turnOf (t : BitVec 8) : Agent → Turn
  | .seq => .seq t
  | .vec => .eng t .vec
  | .mat => .eng t .mat
  | .xfr => .eng t .xfr
  | .dec => .dec (towerOf t)

/-- The wait of an agent whose slot runs and does not stop, with the slot: in one that stops, blocked agents have stopped (R236, R245,
R249). -/
def State.waitingOn (s : State) (t : BitVec 8) (a : Agent) : Option (BitVec 2 × Wait) :=
  let x := s.tile t
  match x.running with
  | none => none
  | some k =>
    if x.up = false ∨ x.inRuntime = true ∨ x.stopping.isSome = true ∨ x.stands (x.slot k) = true then none
    else if a = .dec ∧ s.decOwn t k = false then none
    else (s.agt t k a).wait.map fun w => (k, w)

/-- The wait ends by the act of `by_`, and the agent's turn comes next, in which what it waited to do happens.
(DEDUCED, log 80) -/
def State.wake (s : State) (t : BitVec 8) (k : BitVec 2) (a : Agent) (by_ : Who) : State :=
  let s1 := s.endWait t k a by_
  { s1 with agenda := turnOf t a :: s1.agenda }

/-- End a wait for which a test gives the setter. -/
def wakeIf (t : BitVec 8) (a : Agent) (st : State) (f : BitVec 2 → WaitObj → Option Who) : Ans :=
  match st.waitingOn t a with
  | none => .next st
  | some (k, w) => match f k w.obj with
    | none => .next st
    | some by_ => .next (st.wake t k a by_)

/-- The producer of the oldest item of a queue (R300). -/
def Queues.front (q : Queues) (n : BitVec 8) : Option Who :=
  if n = 7 then q.vecMat.items.head?.map (·.src)
  else if n = 8 then q.matVec.items.head?.map (·.src)
  else if n = 9 then q.ev.items.head?.map (·.src)
  else (q.fifo n).items.head?.map (·.src)

/-- R384, R343: an item stands in the queue. -/
def execPopWaitEnd (t : BitVec 8) (a : Agent) (st : State) : Ans :=
  wakeIf t a st fun k o => match o with
    | .pop q => (st.slot t k).q.front q
    | _ => none

/-- Who popped last, where a queue holds fewer items than its depth. -/
def Queue.freed (q : Queue α) (n : BitVec 8) : Option Who := if q.items.length < depthOf n then some q.popper else none

def State.roomIn (s : State) (t : BitVec 8) (k : BitVec 2) (n : BitVec 8) : Option Who :=
  let q := (s.slot t k).q
  if n = 0 then q.vec.freed n else if n = 1 then q.mat.freed n else if n = 2 then q.xfr.freed n
  else if n = 3 then (s.tower (towerOf t)).dec.q.freed n
  else if n = 7 then q.vecMat.freed n else if n = 8 then q.matVec.freed n else if n = 9 then q.ev.freed n
  else (q.fifo n).freed n

/-- R34: the queue has room. -/
def execPushWaitEnd (t : BitVec 8) (a : Agent) (st : State) : Ans :=
  wakeIf t a st fun k o => match o with
    | .push q => st.roomIn t k q
    | _ => none

/-- R325: no entry that the sequencer waits for is left. -/
def execRetirementWaitEnd (t : BitVec 8) (st : State) : Ans :=
  wakeIf t .seq st fun k o => match o with
    | .retire _ es =>
      let left := (st.holders t k fun _ => true).any fun a => match a with
        | .vec => bit es 0
        | .mat => bit es 1
        | .xfr => bit es 2
        | .dec => bit es 3
        | .seq => false
      if left then none else some (st.slot t k).setters.retire
    | _ => none

/-- R188: the last outstanding xlayer row is acknowledged, and no earlier entry has rows to write; a beat that waits for its lane test is
not acknowledged (R284). -/
def execLayerFenceWaitEnd (t : BitVec 8) (st : State) : Ans :=
  match st.waitingOn t .seq with
  | some (k, ⟨.layerFence, _, _, _, _⟩) =>
    if st.layerDue t k ∨ (st.writeTest (towerOf t)).isSome then .next st
    else .next ((st.modSlot t k fun x => { x with mem := { x.mem with layerOut := 0 } }).wake t k .seq (st.slot t k).mem.layerWho)
  | _ => .next st

/-- R138: a layer of the column is available. The wait is no blocked state, so that a press finishes its entry also while the slot
stops for a slice end (R245). -/
def execLayerAvailableWaitEnd (t : BitVec 8) (st : State) : Ans :=
  let x := st.tile t
  match x.running with
  | none => .next st
  | some k =>
    if x.enginesRun = false ∨ x.stands (x.slot k) = true then .next st
    else match (x.slot k).mat.agt.wait.map Wait.obj with
      | some (.layer _) => if st.layers t = 0 then .next st else .next (st.wake t k .mat smcWho)
      | _ => .next st

/-- The instruction of an agent whose wait for a barrier object has ended completes: `barw` or `xwait`. -/
def State.barrierDone (s : State) (m : Me) : State :=
  let s1 := s.clearRemote m
  match m.agent with
  | .seq => s1.retire
  | .xfr => (s1.modX fun x => { x with ahead := [] }).modEng .xfr Engine.unitDone
  | _ => s1

/-- R179: where the PHASE of the object of a waiting agent differs from the phase it waits on, the wait ends and its instruction
completes. An object of another chip is read again. -/
def execBarrierWaitEnd (t : BitVec 8) (a : Agent) (st : State) : Ans :=
  let s := { st with cur := t }
  match st.waitingOn t a with
  | some (k, ⟨.barrier _ (some p) ph, _, _, _, _⟩) => match s.flipped p ph with
    | some q => .next ((s.endBarrier ⟨t, k, a⟩ q).barrierDone ⟨t, k, a⟩)
    | none => .next st
  | some (_, ⟨.barrier _ none _, _, _, _, _⟩) => .next { st with agenda := turnOf t a :: st.agenda }
  | _ => .next st

/-- The engine of an agent that waits for a token. -/
def tokenEng : Agent → Option Eng
  | .vec => some .vec | .mat => some .mat | .xfr => some .xfr | .dec => some .dec | .seq => none

/-- R390: the earliest waiter of a semaphore decrements it and goes on: `sems.wait` retires, an entry starts to run. -/
def execSemaphoreWaitEnd (t : BitVec 8) (n : BitVec 3) (st : State) : Ans :=
  let s := { st with cur := t }
  let k := s.curSlot
  let x := s.slot t k
  match x.sems.waiters.find? fun w => w.1 == n with
  | none => .next st
  | some (_, a, _) =>
    match s.waitingOn t a with
    | some (_, ⟨.sem m, _, _, _, _⟩) =>
      if m ≠ n ∨ vget n x.sems.count = 0 then .next st
      else
        let by_ := x.sems.setter n
        let s1 := (s.endWait t k a by_).modSlot t k fun y =>
          { (y.takeSem n a) with sems := { y.sems.take n with waiters := dropFirst n y.sems.waiters } }
        match tokenEng a with
        | none => .next s1.retire
        | some e => match s1.headReady e with
          | some ent => .next (s1.startEntry e ent)
          | none => .next s1
    | _ => .next st

/-- R429: WAITI completes where a selected condition holds, or its time limit has passed, and writes the mask of the
conditions. The runtime bank's WAITI has only the limit. -/
def execWaitiWake (t : BitVec 8) (st : State) : Ans :=
  let s := { st with cur := t }
  let k := s.curSlot
  let blocked := (s.tile t).up && (s.inRt || ((s.tile t).running.isSome && (s.tile t).stopping.isNone))
  match blocked, s.seqAgt.wait with
  | true, some ⟨.waiti m lim, _, since, _, _⟩ =>
    let c := if s.inRt then 0 else s.waitiConds t k &&& m
    if c = 0 ∧ (lim = 0 ∨ since < lim.toNat) then .next st
    else match decodeWord .seq s.wordAt with
      | .ok (.waiti _ d _ _) =>
        .next (((s.endMyWait s.seqMe noWho).modBank fun b => b.setG d (c.setWidth 64)).retire)
      | _ => .next st
  | _, _ => .next st

/-! ## Probes (R36, R37) and the watchdog (R39) -/

/-- R36: an agent blocked for 512 c launches a probe. -/
def execProbeLaunch (t : BitVec 8) (a : Agent) (st : State) : Ans :=
  match st.waitingOn t a with
  | none => .next st
  | some (k, w) =>
    if w.obj.blocks = false ∨ w.blocked < 512 ∨ w.probe.isSome = true then .next st
    else
      let todo := (st.edges t k w.obj).map fun x => ProbeEdge.mk x.1 [a] x.2.1 x.2.2
      let p : Probe := { obj := w.obj, half := 0, edges := 0, todo := todo, found := [] }
      .next (st.setAgt t k a { st.agt t k a with wait := some { w with probe := some p } })

/-- A fault of an agent of a slot while it waits is kept: its wait ends, and it waits for no semaphore. -/
def State.keepWaiting (s : State) (t : BitVec 8) (k : BitVec 2) (a : Agent) (c : Cause) (fval : W64) : State :=
  let m : Me := ⟨t, k, a⟩
  let s1 := (({ s with cur := t } : State).clearRemote m).useGrant m
  let s2 := s1.modSlot t k fun x => { x with
    sems := { x.sems with waiters := x.sems.waiters.filter fun w => w.2.1 ≠ a }
    xfr := if a = .xfr then { x.xfr with xs := { x.xfr.xs with sent := none } } else x.xfr }
  let f := s.unitRec t k a c fval 0 none
  (if a = .dec then s2.parkDec (towerOf t) else s2).keepFault t k f

/-- An agent of a slot raises a fault while it waits. -/
def State.raiseWaiting (s : State) (t : BitVec 8) (k : BitVec 2) (a : Agent) (c : Cause) (fval : W64) : State :=
  (s.keepWaiting t k a c fval).deliver t

/-- Grant the spare room of a queue: none where it is in use (R37). -/
def State.grantQueue (s : State) (t : BitVec 8) (k : BitVec 2) (n : BitVec 8) : Option State :=
  let q := (s.slot t k).q
  let give (used : Bool) (f : Queues → Queues) : Option State :=
    if used then none else some (s.modSlot t k fun x => { x with q := f x.q })
  if n = 0 then give q.vec.spare fun q => { q with vec := { q.vec with spare := true } }
  else if n = 1 then give q.mat.spare fun q => { q with mat := { q.mat with spare := true } }
  else if n = 2 then give q.xfr.spare fun q => { q with xfr := { q.xfr with spare := true } }
  else if n = 3 then
    if (s.tower (towerOf t)).dec.q.spare then none
    else some (s.modTower (towerOf t) fun w => { w with dec := { w.dec with q := { w.dec.q with spare := true } } })
  else if n = 7 then give q.vecMat.spare fun q => { q with vecMat := { q.vecMat with spare := true } }
  else if n = 8 then give q.matVec.spare fun q => { q with matVec := { q.matVec with spare := true } }
  else if n = 9 then give q.ev.spare fun q => { q with ev := { q.ev with spare := true } }
  else give (q.fifo n).spare fun q => q.setFifo n { q.fifo n with spare := true }

/-- The issue number a GRANT record names: that of the stalled entry. -/
def State.stalledIssue (s : State) (t : BitVec 8) (k : BitVec 2) (a : Agent) : BitVec 16 :=
  match a with
  | .seq => (s.slot t k).sq.issue
  | _ => ((s.entryOf t k a).map (·.issue)).getD 0

/-- GRANT record (R294), and the grant in the agent's hand; its turn comes next. (DEDUCED, log 66) -/
def State.grantTo (s : State) (t : BitVec 8) (k : BitVec 2) (a : Agent) (n : BitVec 8) : State :=
  let s1 := s.traceAlways t 0x08 ([n, ((s.slot t k).ctx).getD 0xFF] ++ leBytes 2 (s.stalledIssue t k a).toNat)
  let s2 := s1.setAgt t k a { s1.agt t k a with grant := true }
  s2.wake t k a (s.whoIs t k a)

/-- FVAL of WAITCYCLE (Table 13.1). -/
def waitFval (o : WaitObj) (col : BitVec 5) : W64 :=
  match waitKind o col with
  | some (k, i) => BitVec.ofNat 64 (k + 2 ^ 32 * i)
  | none => 0

/-- R36: a probe that has ended answers, where its origin still waits for what it waited for at the launch. -/
def execProbeResponse (t : BitVec 8) (a : Agent) (st : State) : Ans :=
  match st.waitingOn t a with
  | none => .next st
  | some (k, w) =>
    match w.probe with
    | none => .next st
    | some p =>
      if !p.todo.isEmpty then .next st
      else
        let s := st.setAgt t k a { st.agt t k a with wait := some { w with probe := none, blocked := 0 } }
        let queue := p.found.any (·.1)
        let room := p.found.any fun f => f.1 || f.2
        if p.obj ≠ w.obj ∨ p.found = [] then .next s
        else match w.obj with
          | .push n =>
            if queue then match s.grantQueue t k n with
              | some s1 => .next (s1.grantTo t k a n)
              | none => .next s
            else if room then .next s
            else .next (s.raiseWaiting t k a .waitcycle (waitFval w.obj (columnOf t)))
          | .booking _ =>
            let x := s.slot t k
            if room then
              if x.mem.spare then .next s
              else .next ((s.modSlot t k fun y => { y with mem := { y.mem with
                spare := true, porter := y.mem.porter.set 5 (y.mem.porter[5] + 1) } }).grantTo t k a 10)
            else .next (s.raiseWaiting t k a .waitcycle (waitFval w.obj (columnOf t)))
          | .recall n h => .next (s.raiseWaiting t k a .booking (BitVec.ofNat 64 (((s.slot h k).seg n).elim 0 (·.size))))
          | o =>
            if room then .next s
            else .next (s.raiseWaiting t k a .waitcycle (waitFval o (columnOf t)))

/-- R39, R298: an agent blocked for the watchdog period raises WATCHDOG. Its WAIT record is written, and then the recorders
freeze. -/
def execWatchdogExpiry (t : BitVec 8) (a : Agent) (st : State) : Ans :=
  match st.waitingOn t a with
  | none => .next st
  | some (k, w) =>
    if w.obj.counts = false ∨ w.cycles < (st.tile t).wdog then .next st
    else
      let s := st.keepWaiting t k a .watchdog (BitVec.ofNat 64 w.cycles)
      .next (((s.freezeTile t 3 w.cycles).freezeTower (towerOf t) 3 w.cycles).deliver t)

end Sys2Proof.Machine
end

