-- ==== Sys2Proof/Machine/EvTile.lean ====
section
/-! DEFINITION. Slices, stops and the entry at TVEC with CAUSE 0x00 (R245, R249, R296), the walker (R41 to R45), the
completion of a launch (R44). -/

namespace Sys2Proof.Machine

/-! ## Points and towers (R41, R42) -/

/-- The D and S levels of a context, outermost first. -/
def Context.spread (c : Context) : List Level3 := c.code.levels.filter fun l => l.kind ≠ 2

/-- The towers of a context, ascending. -/
def Context.towers (c : Context) : List (BitVec 3) := allTowers.filter fun w => c.tiles.any fun t => towerOf t = w

/-- The product of the extents of one kind. -/
def extents (k : BitVec 8) (ls : List Level3) : Nat := ls.foldl (fun a l => if l.kind = k then a * l.extent else a) 1

/-- How many d in [base, base + x) have d mod n = j. -/
def dCount (n j base x : Nat) : Nat :=
  let off := (j + n - base % n) % n
  if off < x then (x - off - 1) / n + 1 else 0

/-- The points that map to the j-th of n towers. -/
def pointCount (ls : List Level3) (n j : Nat) : Nat := dCount n j 0 (extents 0 ls) * extents 1 ls

/-- The indices of the h-th point in enumeration order that maps to tower j; `d` is the row-major index over the D levels
passed. -/
def pointGo (n j : Nat) : List Level3 → Nat → Nat → List Nat
  | [], _, _ => []
  | l :: r, d, h =>
    let dd := extents 0 r
    let ss := extents 1 r
    if l.kind = 0 then
      let base := d * l.extent * dd
      let off := (j + n - base % n) % n
      let v := (off + h / ss * n) / dd
      v :: pointGo n j r (d * l.extent + v) (h - dCount n j base (v * dd) * ss)
    else
      let cnt := dCount n j (d * dd) dd * ss
      h / cnt :: pointGo n j r d (h % cnt)

/-- The row-major index of a point over the D and S levels. -/
def rowMajor (ls : List Level3) (ix : List Nat) : Nat := (ls.zip ix).foldl (fun a x => a * x.1.extent + x.2) 0

/-- The free tile of a context in a tower with the lowest number (R42). -/
def State.freeTile (s : State) (c : Context) (w : BitVec 3) : Option (BitVec 8) :=
  (tilesOf w).find? fun t => c.tiles.contains t && !(s.slot t c.slot).sq.hasIter

/-- The number of a tower among a context's towers. -/
def Context.towerNo (c : Context) (w : BitVec 3) : Nat := c.towers.findIdx (· == w)

/-- Whether a context has points left in a tower. -/
def Context.pointsLeft (c : Context) (w : BitVec 3) : Bool :=
  c.towers.contains w &&
    decide (look 0 c.handed w.toNat < pointCount c.spread c.towers.length (c.towerNo w))

/-! ## Stopping a slot (R245) -/

/-- R245: the slice count is zero and the slot begins to stop. A slot that stops already does not stop again (R297). -/
def execSliceEnd (t : BitVec 8) (st : State) : Ans :=
  let x := st.tile t
  if x.up = false ∨ x.inRuntime = true ∨ x.running = none ∨ x.tr.slice = 0 ∨ x.sliceLeft ≠ 0 ∨ x.stopping.isSome = true then .next st
  else .next (st.beginStop t id)

/-- R245: the 4,096 c are over. No engine of the slot passes another unit (Tile.enginesRun), and their waits stop. -/
def execSliceBudgetExpiry (t : BitVec 8) (st : State) : Ans :=
  let x := st.tile t
  match x.running, x.stopping with
  | some k, some p =>
    if x.inRuntime = true ∨ p.cycles < 4096 then .next st
    else .next ([Agent.vec, .mat, .xfr].foldl (fun s a => s.stopWait t k a) st)
  | _, _ => .next st

/-- Whether an agent with a running entry has stopped: it is blocked, or its time is over. -/
def Agt.quiet (g : Agt) (late : Bool) : Bool := late || g.wait.any fun w => w.obj.blocks

/-- Whether an engine has stopped: its entry has retired, or it is blocked, or its time is over; one whose unit has a request, row or
store out has not (R245). -/
def Engine.quiet (g : Engine) (late : Bool) : Bool := g.xs.sent.isNone && !g.agt.inUnit && (g.cur.isNone || g.agt.quiet late)

/-- Whether the decode engine has stopped for a slot: it runs no entry of it, or is blocked, or its time is over. -/
def State.decQuiet (s : State) (t : BitVec 8) (k : BitVec 2) (late : Bool) : Bool :=
  let d := (s.tower (towerOf t)).dec
  d.cur.isNone || !s.decOwn t k || d.agt.quiet late

/-- The three conditions of R44. -/
def State.launchDone (s : State) (c : Context) : Bool :=
  c.towers.all (fun w => !c.pointsLeft w) &&
  c.tiles.all (fun t =>
    let x := s.slot t c.slot
    let d := (s.tower (towerOf t)).dec
    !x.sq.hasIter && x.vec.cur.isNone && x.mat.cur.isNone && x.xfr.cur.isNone &&
    x.q.vec.items.isEmpty && x.q.mat.items.isEmpty && x.q.xfr.items.isEmpty &&
    (d.cur.toList ++ d.q.items ++ d.parked).all fun e => e.e.ctx != c.id)

/-- A launch has completed: its completion status, once (R44). -/
def State.completed (s : State) (c : Context) : State :=
  if c.complete then s
  else (s.modPart c.part fun p => { p with statuses := p.statuses ++ [(c.id, 0)] }).modCtx c.id fun y => { y with complete := true }

/-- R237, R245: once every agent of the slot has stopped the sequencer enters TVEC: for the oldest fault, or with CAUSE 0x00,
or for the scrubber. A launch that is complete by then shares the entry (R297), and after a completion the slot holds no
context. -/
def execTrapEntry (t : BitVec 8) (st : State) : Ans :=
  let x := st.tile t
  match x.running with
  | none => .next st
  | some k =>
    let z := x.slot k
    if x.up = false ∨ x.inRuntime = true then .next st
    else if !z.faults.isEmpty then .next (st.deliver t)
    else if !x.scrub.isEmpty then .next (st.scrubNow t)
    else match x.stopping with
      | none => .next st
      | some p0 =>
        if !z.sq.agt.inUnit && z.vec.quiet x.late && z.mat.quiet x.late && z.xfr.quiet x.late && st.decQuiet t k x.late then
          let ended := (st.ctxOf t k).filter st.launchDone
          let p := { p0 with done := p0.done || ended.isSome }
          let s1 := ((ended.elim st st.completed).modTile t fun y => { y with stopping := none }).trapEntry t 0
            { eng := 0, cause := .illegal, finfo := p.finfo } k false (p.done || !z.sq.hasIter)
          .next (if p.done then s1.closeSlot t k else s1)
        else .next st

/-! ## The walker's turn (R42, R43, R45) -/

/-- Whether a tower's walker can hand a point of a context out. -/
def State.canHand (s : State) (w : BitVec 3) (id : BitVec 8) : Bool :=
  (s.ctxById id).any fun c => c.pointsLeft w && (s.freeTile c w).isSome

/-- The context whose turn it is in a round, and the round after its grant: a context that is passed over has used what it
could (R45). -/
def roundPick (ok : BitVec 8 → Bool) : List (BitVec 8 × Nat) → Option (BitVec 8 × List (BitVec 8 × Nat))
  | [] => none
  | (c, n) :: r =>
    if n ≠ 0 ∧ ok c = true then some (c, (c, n - 1) :: r)
    else (roundPick ok r).map fun x => (x.1, (c, 0) :: x.2)

/-- The sequencer state in which an iteration starts (R43, R46, R353). FPMODE, and the start and end that LOOP last set for each
loop (R362), stay as the iteration before left them. (DEDUCED, log 100) -/
def startBank (c : Context) (old : Bank) (stack : Nat) (ix : List Nat) : Bank :=
  let b : Bank := { Bank.zero with
    fpmode := old.fpmode, loopStart := old.loopStart, loopEnd := old.loopEnd, loopOrder := old.loopOrder, pc := BitVec.ofNat 64 c.code.entry }
  let b1 := (List.range ix.length).foldl (fun (b : Bank) i => b.setG (BitVec.ofNat 5 (8 + i)) (BitVec.ofNat 64 (ix.getD i 0))) b
  let b2 := b1.setG 2 (segPtr 0 stack)
  (List.range c.caps.length).foldl (fun (b : Bank) i => b.setCap (BitVec.ofNat 4 i) (c.caps.getD i {})) b2

/-- Hand the next point of a context to a tile. -/
def State.handPoint (s : State) (w : BitVec 3) (c : Context) (t : BitVec 8) : State :=
  let h := look 0 c.handed w.toNat
  let ix := pointGo c.towers.length (c.towerNo w) c.spread 0 h
  let k := c.slot
  let stack := ((s.slot t k).seg 0).elim 0 (·.size)
  let s1 := s.modSlot t k fun x => { x with sq := { x.sq with
    bank := startBank c x.sq.bank stack ix, hasIter := true, point := rowMajor c.spread ix, pending := true, agt := {} } }
  let s2 := s1.modCtx c.id fun y => { y with handed := put1 y.handed w.toNat (h + 1), started := y.started + 1 }
  if (s.tile t).running = some k ∧ (s.tile t).inRuntime = false then s2.startIter t k else s2

/-- R45: the walker of a tower hands out the next point. -/
def execWalkerHandout (w : BitVec 3) (st : State) : Ans :=
  let now := (st.tower w).wrr
  let fresh := now.map fun x => (x.1, ((st.ctxById x.1).map (·.weight)).getD 0)
  match (roundPick (st.canHand w) now).or (roundPick (st.canHand w) fresh) with
  | none => .next st
  | some (id, l) =>
    let s := st.modTower w fun x => { x with wrr := l }
    match st.ctxById id with
    | none => .next st
    | some c => match st.freeTile c w with
      | none => .next st
      | some t => .next (s.handPoint w c t)

/-! ## Completion (R44, R245, R249) -/

/-- R44, R245: a launch completes. The running slot begins to stop with FINFO[0]; a slot that does not run makes its entry
when it is next returned to (R249). (DEDUCED, log 67) -/
def execLaunchComplete (t : BitVec 8) (st : State) : Ans :=
  let x := st.tile t
  let due (k : BitVec 2) : Bool := (st.ctxOf t k).any fun c => st.launchDone c && !(x.slot k).held.any (·.done) &&
    !(x.running == some k && x.stopping.any (·.done))
  match allSlots.find? due with
  | none => .next st
  | some k => match st.ctxOf t k with
    | none => .next st
    | some c =>
      let s := st.completed c
      if x.running = some k ∧ x.inRuntime = false then
        .next (s.beginStop t ({ · with done := true }))
      else .next (s.modSlot t k fun y => { y with held := Stopping.join y.held (some { done := true }) })

end Sys2Proof.Machine
end

