-- ==== Sys2Proof/Machine/EvHw.lean ====
section
/-! DEFINITION. Events of the hardware: column supply (R277 to R279), layers (R280, R281), DRAM and bus errors (R282 to
R286), the scrubber (R250), fatal errors (R252), retry storms (R298), module reset (R287), what the SMC does for a
partition (R264, R265, R267, R268). -/

namespace Sys2Proof.Machine

/-! ## Column supply -/

/-- R277: the detector fires. A column that stretches already goes on. -/
def execDroopStretch (t : BitVec 8) (st : State) : Ans :=
  .next (st.modTile t fun x => { x with col :=
    if x.col.stretching then x.col
    else { x.col with stretching := true, stretchLeft := 32, thirds := 0, events := satInc x.col.events } })

/-- R277: the voltage is back, and 32 stretched cycles have passed. -/
def execStretchEnd (t : BitVec 8) (st : State) : Ans :=
  .next (st.modTile t fun x => { x with col :=
    if x.col.stretchLeft = 0 then { x.col with stretching := false } else x.col })

/-- R279. -/
def execThermalThrottle (t : BitVec 8) (l : BitVec 2) (st : State) : Ans :=
  .next (st.modTile t fun x => { x with col := { x.col with throttled := setBit x.col.throttled l.toNat true } })

/-- R279. -/
def execThrottleRelease (t : BitVec 8) (l : BitVec 2) (st : State) : Ans :=
  .next (st.modTile t fun x => { x with col := { x.col with throttled := setBit x.col.throttled l.toNat false } })

/-- R281: a press step is replayed, which no state shows; where the replay fails too the layer is retired: its fuse bit is
set, and a RETIRE record written. -/
def execBondParityFailure (t : BitVec 8) (l : BitVec 2) (again : Bool) (st : State) : Ans :=
  let x := st.tile t
  let w := towerOf t
  let c := (columnOf t).toNat
  let runs := x.enginesRun && (x.running.any fun k => (x.slot k).mat.cur.isSome) && bit (st.layers t) l.toNat
  if again && runs then
    .next ((st.modTower w fun y => { y with fuse := setBit y.fuse (4 * c + l.toNat) true }).traceTower w 0x11
      (leBytes 1 c ++ leBytes 1 (2 ^ l.toNat)))
  else .next st

/-! ## The DRAM layer -/

/-- R282: the patrol corrects a single error; an uncorrectable word keeps its poison code and is logged. -/
def execDramPatrolScrub (w : BitVec 3) (word : BitVec 29) (st : State) : Ans :=
  let u := word.toNat
  let x := st.tower w
  if x.layer.poison.contains u then .next (st.logArray w 3 0xFF u 0xFF)
  else match x.biterrs.find? fun e => e.1 = u with
    | none => .next st
    | some e => .next ((st.logArray w 1 e.2.toNat u 0xFF).modTower w fun y => { y with
        biterrs := y.biterrs.filter fun z => z.1 ≠ u })

/-- The even parity of some of the bits of a word. -/
def parityOf (l : List Nat) (x : BitVec w) : Bool := l.foldl (fun p i => p != x.getLsbD i) false

/-- The parity lanes of a beat: lane n is the even parity of data lanes 32n to 32n + 31 (R283). -/
def busParity (d : BitVec 128) : BitVec 4 :=
  BitVec.ofNat 4 ((List.range 4).foldl (fun a n => a + 2 ^ n * b2n (parityOf ((List.range 32).map (32 * n + ·)) d)) 0)

/-- A beat as it is sent: 128 data lanes, then the parity lanes. -/
def busBeat (d : BitVec 128) : BitVec 132 := busParity d ++ d

/-- The parity groups in which a beat fails at the receiver: the parity that it forms of the data lanes differs from the parity lane. -/
def busFails (x : BitVec 132) : BitVec 4 := busParity (x.setWidth 128) ^^^ (x >>> 128).setWidth 4

/-- The groups in which a beat failed at first: those of the lanes that arrived wrong, whatever its data (busFails_beat). -/
def beatGroups (b : BusBeat) : BitVec 4 := busFails b.flipped

/-- The parity group of a lane. -/
def laneGroup (n : Nat) : Nat := if n < 128 then n / 32 else n - 128

/-- Write a VBUS record (Table 15.3). -/
def State.logVbus (s : State) (w : BitVec 3) (kind retries lane spare : Nat) (b : BusBeat) : State :=
  let r := BitVec.ofNat 128 (kind * 2 ^ 120 + retries * 2 ^ 112 + lane * 2 ^ 104 + spare * 2 ^ 96 + b2n b.asynch * 2 ^ 89 +
    b.chan.toNat * 2 ^ 83 + b2n b.write * 2 ^ 82 + (beatGroups b).toNat * 2 ^ 48 + bits s.tick 47 0)
  (s.modTower w fun x => { x with vbusLog := x.vbusLog.add r }).traceTower w 0x10 (1 :: leBytes 16 r.toNat)

/-- The state of a channel. -/
def Tower.lane (x : Tower) (asynch : Bool) (chan : BitVec 6) : Lane :=
  (x.lanes.find? fun l => l.asynch == asynch && l.chan == chan).getD ⟨asynch, chan, [], none⟩

def Tower.setLane (x : Tower) (l : Lane) : Tower :=
  { x with lanes := l :: x.lanes.filter fun y => !(y.asynch == l.asynch && y.chan == l.chan) }

/-- A beat that can fail: on a channel that exists, the one that carries its word on the main bus, with a parity group that
failed (R283). -/
def beatOk (b : BusBeat) : Bool :=
  (if b.asynch then decide (b.chan.toNat < 8) else b.chan == busChan b.word.toNat) && (beatGroups b) != 0

/-- Whether a slot of a tower has xlayer rows that are not acknowledged: only then is a write beat of the asynchronous path on its way
(R188). -/
def State.layerSent (s : State) (w : BitVec 3) : Bool :=
  (tilesOf w).any fun t => (s.tile t).slots.toList.any fun k => k.mem.layerOut != 0

/-- R284: a beat is retried until it is accepted, which is logged; after the fourth failure the lane test begins. A channel
in a test carries no other beat. -/
def execVbusParityFailure (w : BitVec 3) (b : BusBeat) (st : State) : Ans :=
  let l := (st.tower w).lane b.asynch b.chan
  if l.testing.isSome ∨ beatOk b = false ∨ (b.asynch = true ∧ b.write = true ∧ st.layerSent w = false) then .next st
  else match b.accepted with
    | some r => if r.toNat = 0 ∨ 4 < r.toNat then .next st else .next (st.logVbus w 1 r.toNat 0xFF 0xFF b)
    | none => .next (st.modTower w fun x => x.setLane { l with testing := some b })

/-- The commands of the host that wait for a channel are acted on again (R285). -/
def State.retryKvput (s : State) (w : BitVec 3) : State :=
  match s.partOfTower w with
  | none => s
  | some p => { (s.modPart p.setup.num fun q => { q with stalledCmds := q.stalledCmds.filter fun c => c.1 ≠ 5 }) with
      agenda := s.agenda ++ (p.stalledCmds.filter fun c => c.1 = 5).map fun c => Turn.event (hostEvent c.1 c.2) }

/-- R284: the test maps the failing lane to the lowest free spare and the beat is sent again; else a read beat is delivered
as poisoned, and a write beat is stored with the poison code. The failing lane is one of a group that failed. (DEDUCED, log 69) -/
def execLaneTestEnd (w : BitVec 3) (asynch : Bool) (chan : BitVec 6) (lane : Option (BitVec 8)) (st : State) : Ans :=
  let l := (st.tower w).lane asynch chan
  match l.testing with
  | none => .next st
  | some b =>
    let u := b.word.toNat
    let bad (n : Nat) : State :=
      let s1 := st.logVbus w 3 4 n 0xFF b
      s1.modTower w fun x =>
        let y := x.setLane { l with testing := none }
        if b.write then { y with layer := { y.layer with poison := insertN y.layer.poison u } }
        else { y with badReads := u :: y.badReads }
    match lane with
    | none => .next ((bad 0xFF).retryKvput w)
    | some n =>
      if 132 ≤ n.toNat ∨ bit (beatGroups b) (laneGroup n.toNat) = false then .next st
      else if 8 ≤ l.spares.length then .next ((bad n.toNat).retryKvput w)
      else .next (((st.logVbus w 2 4 n.toNat l.spares.length b).modTower w fun x =>
        x.setLane { l with spares := l.spares ++ [n], testing := none }).retryKvput w)

/-! ## The scrubber (R250) -/

/-- An uncorrectable error in a line that a context owns: the context ends with POISON (R242), and the tile that held the
slot gets the entry. -/
def State.scrubEnds (s : State) (t : BitVec 8) (k : BitVec 2) (c : BitVec 8) (fval finfo : W64) : State :=
  let s1 := (s.freezeTile t 1 fval.toNat).freezeTower (towerOf t) 1 fval.toNat
  ((s1.endCtx c 0x13).modTile t fun x => { x with scrub := x.scrub ++ [(k, fval, finfo)] }).scrubNow t

/-- A free line is rewritten with zeros; no rule gives the address that the freeze record names (DESIGN CHOICE, log 3). -/
def State.scrubFree (s : State) (t : BitVec 8) : State :=
  let (v, s1) := s.draw
  (s1.freezeTile t 1 (bits v 31 0)).freezeTower (towerOf t) 1 (bits v 31 0)

/-- R250. A correctable error is corrected and changes nothing. -/
def execSramScrub (l : ScrubLine) (bad : Bool) (st : State) : Ans :=
  if !bad then .next st
  else match l with
    | .free t => .next (st.scrubFree t)
    | .segment t k n line =>
      match (st.slot t k).ctx, (st.slot t k).seg n with
      | some c, some g =>
        let p := segPtr n (64 * line)
        let pool := match g.state with
          | .pool => true
          | .recalling x => x
          | .spilling => true
          | _ => false
        let sram := pool || (match g.state with
          | .backed => false
          | .recalling _ => false
          | _ => true)
        if g.size ≤ 64 * line ∨ sram = false then .next st
        else
          let s := if pool then (tilesOf (towerOf t)).foldl (fun (s : State) u => s.freezeTile u 1 p.toNat) st else st
          .next (s.scrubEnds t k c p 0)
      | _, _ => .next st
    | .accum t n line =>
      let a := look AccTile.reset (st.tile t).acc n.toNat
      if 64 ≤ line then .next st
      else match (if a.owner = 0xFF then none else (st.tile t).slotOfCtx a.owner) with
        | none =>
          let r := line / 2
          let b : AccTile := { a with
            rows := a.rows.set! r (setBits (a.rows[r]!) (512 * (line % 2) + 511) (512 * (line % 2)) 0)
            side := a.side.set! r 0
            poison := setBit a.poison r false
            prior := drop1 a.prior r }
          .next ((st.modTile t fun x => { x with acc := put AccTile.reset x.acc n.toNat b }).scrubFree t)
        | some k =>
          let (v, s1) := st.draw
          .next (s1.scrubEnds t k a.owner v 1)
    | .slotState t k =>
      match (st.slot t k).ctx with
      | none => .next (st.scrubFree t)
      | some c =>
        let (v, s1) := st.draw
        .next (s1.scrubEnds t k c v 3)
    | .partition w =>
      match st.partOfTower w with
      | none => .next st
      | some p =>
        -- the line is of the pool, or of a tile's runtime bank, as a fresh value says (R298; DESIGN CHOICE, log 3)
        let (v, s1) := st.draw
        let ts := (if bit v 0 then tilesOf w else ((tilesOf w)[bits v 5 1]?).toList).filter p.tiles.contains
        let s2 := ts.foldl (fun (s : State) t => s.freezeTile t 1 (bits v 63 32)) (s1.freezeTower w 1 (bits v 63 32))
        .next (s2.fatalStop p 2 0)

/-! ## Fatal errors, storms (R252, R298) -/

/-- R252. -/
def execSmcWatchdogExpiry (n : BitVec 8) (st : State) : Ans :=
  match st.partByNum n with
  | none => .next st
  | some p => .next (st.fatalStop p 4 0)

/-- R298: more than 64 retries within 10 µs on a port freeze every recorder of its partition. (DEDUCED, log 70) -/
def execRetryStorm (port : BitVec 5) (retries : BitVec 16) (st : State) : Ans :=
  match st.parts.find? fun p => decide (port.toNat < 18) && p.setup.ports.getLsbD port.toNat with
  | none => .next st
  | some p =>
    if retries.toNat ≤ 64 then .next st
    else
      let tw := allTowers.filter fun w => p.setup.towers.getLsbD w.toNat
      let s1 := tw.foldl (fun s w => (s.traceTower w 0x13 (leBytes 1 port.toNat ++ leBytes 2 retries.toNat)).freezeTower w 4 port.toNat) st
      .next (p.tiles.foldl (fun s t => s.freezeTile t 4 port.toNat) s1)

/-! ## Module reset (R287) -/

/-- R287: the module is reset and bring-up begins; turns of its own take it on, to step 6 where it passes. -/
def execModuleReset (pass : Bool) (st : State) : Ans :=
  let (v, s0) := st.draw
  .next (({ State.reset with
    towers := Vector.ofFn fun i => { Tower.reset with fuse := (st.tower (BitVec.ofNat 3 i.val)).fuse }
    agenda := st.agenda, moves := st.moves, fresh := s0.fresh } : State).bringStart pass v (Config.training st.fresh))

/-! ## Partitions (R264, R265, R267, R268) -/

/-- A tower passes to a new tenant, or is cleared: its memories are pending-zero, its KV tables cleared, nothing is
translated, its error logs are empty and its recorder is cleared (R268, R286, R288). -/
def Tower.cleared (x : Tower) (s2 : List (Nat × PhysPage)) : Tower :=
  { Tower.reset with
    mmu := { Tower.reset.mmu with s2 := s2 }
    fuse := x.fuse, lanes := x.lanes, poolCap := x.poolCap }

/-- A tile with every slot empty, whose runtime does not run. The column's counters are zeroed, and the recorder is
cleared (R278, R288). -/
def Tile.cleared (x : Tile) : Tile :=
  { Tile.reset with
    col := { x.col with events := 0, cycles := 0 } }

/-- Bytes of the pool for segments: 128 MiB, or 120 MiB where the KV store is on (R219). -/
def poolBytes (kv : Bool) : Nat := if kv then 120 * 2 ^ 20 else 128 * 2 ^ 20

/-- The tiles that a partition contains: those of its towers but for columns with every layer set in the fuse map and those that the
self-test has excluded (R138, R281, R287). -/
def State.partTiles (s : State) (p : PartSetup) : List (BitVec 8) :=
  ((allTowers.filter fun w => p.towers.getLsbD w.toNat).flatMap tilesOf).filter s.usable

/-- A partition of tiles before its runtime first runs. GEN of the device starts at 0, and RINGS does not take it from the header of the
fault ring: R258 and R259 do not say which generation the first records carry (DESIGN CHOICE, log 116). -/
def freshPart (p : PartSetup) (ts : List (BitVec 8)) : Partition where
  setup := p
  tiles := ts
  key := true
  runtime := none
  digest := []
  digests := []
  fatal := none
  logDump := []
  faultRing := none
  cmdRing := none
  service := none
  gen := 0
  timeoutUs := 200
  down := []
  pre := ⟨false, false, [], [], [], false⟩
  statuses := []
  stalledCmds := []
  awaiting := []

/-- End every context of a partition and clear its towers and tiles. -/
def State.clearPart (s : State) (p : Partition) : State :=
  let s1 := (s.ctxs.filter fun c => c.part == p.setup.num).foldl (fun s c => s.endCtx c.id 0) s
  let tw := allTowers.filter fun w => p.setup.towers.getLsbD w.toNat
  let s2 := tw.foldl (fun s w => s.modTower w fun x =>
    { x.cleared x.mmu.s2 with poolCap := poolBytes p.setup.kv }) s1
  (tw.flatMap tilesOf).foldl (fun s t => s.modTile t Tile.cleared) s2

/-- Whether two partitions would share a resource (Table 14.4). -/
def setupClash (p q : PartSetup) : Bool :=
  p.num == q.num || (p.towers &&& q.towers) != 0 || (p.ports &&& q.ports) != 0 || (p.meshMask &&& q.meshMask) != 0 ||
    p.classes.any q.classes.contains

/-- Whether a partition can be set up as asked for: its chips, at most 64 routes to each, stage-2 maps in its own towers (R253,
R265), no tower that training has left out (R287), a tile that can be used (R138). (DEDUCED, log 83.) -/
def State.canSetUp (s : State) (p : PartSetup) : Bool :=
  p.towers != 0 && p.chips != 0 && decide (p.chips.toNat ≤ 8) && decide (p.chip.toNat < p.chips.toNat) &&
    p.routes.all (fun r => decide (r.2 ≤ 64)) &&
    p.s2.all (fun m => p.towers.getLsbD m.tower.toNat && match m.phys with
      | .gddr t pg => mayMap p t pg.val
      | .host => true) &&
    (p.towers &&& s.bring.leftOut) == 0 && !(s.partTiles p).isEmpty

/-- R265: the SMC sets a partition up. It takes place only on a module that is ready, with resources that no partition holds. -/
def execPartitionSetUp (p : PartSetup) (st : State) : Ans :=
  if st.bring.step ≠ 6 ∨ st.parts.any (fun q => setupClash p q.setup) = true ∨ st.canSetUp p = false then .next st
  else
    let q := freshPart p (st.partTiles p)
    let s1 := { st with parts := st.parts ++ [q] }.clearPart q
    .next ((allTowers.filter fun w => p.towers.getLsbD w.toNat).foldl (fun s w => s.modTower w fun x => { x with
      mmu := { x.mmu with s2 := (p.s2.filter fun m => m.tower == w).map fun m => (m.ipaPage, m.phys) } }) s1)

/-- R267, R276: the reservation ends: the clock plan is released and the key erased, so that nothing of the partition's
memory can be read any more; the partition goes, and its stage-2 maps with it (R265). -/
def execEndOfTheReservation (n : BitVec 8) (st : State) : Ans :=
  match st.partByNum n with
  | none => .next st
  | some p =>
    let s := (allTowers.filter fun w => p.setup.towers.getLsbD w.toNat).foldl (fun s w => s.modTower w fun x => { x with mmu := Tower.reset.mmu })
      (st.clearPart p)
    .next { s with
      parts := s.parts.filter fun q => q.setup.num ≠ n
      host := { s.host with
        objs := s.host.objs.filter fun o => o.part ≠ n
        sessions := s.host.sessions.filter fun x => x.part ≠ n
        outReqs := s.host.outReqs.filter fun r => r.part ≠ n } }

/-- R264: a pre-copy round begins; the bitmap of granules is always kept. Whether it is the final one is a fresh value: no rule says
when the SMC makes it so (DESIGN CHOICE, log 3). -/
def execPreCopyRound (n : BitVec 8) (st : State) : Ans :=
  let (v, s) := st.draw
  .next (s.modPart n fun p => { p with pre := { p.pre with active := true, final := bit v 0, ring := [], round := [] } })

end Sys2Proof.Machine
end

