-- ==== Sys2Proof/Machine/SeqSys.lean ====
section
/-! DEFINITION. System registers, RETS, RANGE and TSTAT (R394 to R397, R241, R295, R49). -/

namespace Sys2Proof.Machine

/-! ## System registers (Table 3.2) -/

/-- PRIV (Table 2.2). -/
def levelCode : Level → Nat
  | .u => 0 | .s => 1 | .m => 3

/-- RESIDENT (Table 5.4). -/
def Slot.residentReg (k : Slot) : W64 :=
  BitVec.ofNat 64 (2 ^ 48 * b2n k.mem.spare + 2 ^ 24 * (k.fixed % 2 ^ 24) + k.res % 2 ^ 24)

/-- RACECTL (Table 10.3). -/
def Slot.racectl (k : Slot) (sweep : Bool) : W64 :=
  BitVec.ofNat 64 (2 ^ 40 * k.race.supp.toNat + 2 ^ 16 * k.race.widen.toNat + 4 * b2n k.race.wrapped + 2 * b2n sweep +
    b2n k.race.en)

/-- A register of the slot that the moving sequencer reaches; an empty slot reads zero, and CTXID 0xFF (R395). -/
def State.slotReg (s : State) (f : Slot → W64) : W64 :=
  let k := s.slot s.cur s.seqSlot
  if k.ctx.isNone then 0 else f k

/-- The registers of Table 3.2; none for another number. -/
def State.sysreg (s : State) (n : BitVec 12) : Option W64 :=
  let x := s.tile s.cur
  let b := s.bank
  match n.toNat with
  | 0x000 => some (((s.slot s.cur s.seqSlot).ctx.getD 0xFF).setWidth 64)
  | 0x001 => some (BitVec.ofNat 64 (levelCode x.priv))
  | 0x002 => some (s.cur.setWidth 64)
  | 0x003 => some 0xFF
  | 0x004 => some 0
  | 0x008 => some b.fpmode
  | 0x010 => some x.tr.epc
  | 0x011 => some x.tr.fcause
  | 0x012 => some x.tr.fval
  | 0x013 => some x.tr.finfo
  | 0x014 => some x.tr.tvec
  | 0x015 => some x.tr.sscratch
  | 0x016 => some (x.tr.slotsel.setWidth 64)
  | 0x020 => some (s.slotReg fun k => k.mem.stkLimit.setWidth 64)
  | 0x021 => some (s.slotReg fun k => k.mem.quota.setWidth 64)
  | 0x022 => some (s.slotReg Slot.residentReg)
  | 0x040 => some ((vget (0 : BitVec 2) b.lc).setWidth 64)
  | 0x041 => some ((vget (1 : BitVec 2) b.lc).setWidth 64)
  | 0x042 => some ((vget (2 : BitVec 2) b.lc).setWidth 64)
  | 0x043 => some ((vget (3 : BitVec 2) b.lc).setWidth 64)
  | 0x044 => some (b.rrb.setWidth 64)
  | 0x045 => some b.lstat
  | 0x050 => some s.tick
  | 0x051 => some (s.slotReg (·.vtime))
  | 0x052 => some x.tr.slice
  | 0x060 => some (s.slotReg fun k => BitVec.ofNat 64 k.q.ev.items.length)
  | 0x070 => some (setBit x.trctl 11 x.recorder.frozen)
  | 0x071 => some (s.slotReg fun k => BitVec.ofNat 64 k.ranges.length)
  | 0x090 => some (s.slotReg fun k => k.racectl ((s.ctxOf s.cur s.seqSlot).any (·.sweeping)))
  | 0x0F0 => some (BitVec.ofNat 64 (s.partid s.cur))
  | _ => none

/-- Registers whose U column shows no access. -/
def sysPriv (n : BitVec 12) : Bool :=
  [0x010, 0x011, 0x012, 0x013, 0x014, 0x015, 0x016, 0x052, 0x070, 0x090].contains n.toNat

/-- Registers that U may read and only S may write. -/
def sysRoInU (n : BitVec 12) : Bool := [0x020, 0x021].contains n.toNat

/-- The checks of R394. -/
def sysCheck (n : BitVec 12) (write : Bool) : M Unit := do
  illegalIf ((← get).sysreg n = none)
  if sysPriv n || (write && sysRoInU n) then needS

/-- R394, R50. -/
def execSysr (q : BitVec 3) (d : BitVec 5) (f : BitVec 2) (n : BitVec 12) (st : State) : Ans :=
  seqM q st do
    sysCheck n false
    let v := (st.sysreg n).getD 0
    writeG d (if f = 0 then v else if f = 1 then BitVec.ofNat 64 (bits v 31 0) else BitVec.ofNat 64 (bits v 63 32))

/-- RRB as written (Table 3.5): P of 7 stores 0. -/
def rrbWrite (v : W64) : BitVec 6 := if bits v 5 3 = 7 then BitVec.ofNat 6 (bits v 2 0) else v.setWidth 6

/-- FPMODE as written (Table 3.3): flags clear by writing one. -/
def fpmodeWrite (old v : W64) : W64 := setBits (old &&& ~~~(v &&& 0xF0)) 1 0 (bits v 1 0)

/-- A write to a register that has no behaviour of its own, field by field (R5); a read-only one is left alone. -/
def State.syswrite (s : State) (n : BitVec 12) (v : W64) : State :=
  let tr (f : TrapRegs → TrapRegs) : State := s.modTile s.cur fun t => { t with tr := f t.tr }
  let lc (i : BitVec 2) : State := s.modBank fun b => { b with lc := vset i (v.setWidth 32) b.lc }
  let slot (f : Slot → Slot) : State := s.modSlot s.cur s.seqSlot f
  match n.toNat with
  | 0x008 => s.modBank fun b => { b with fpmode := fpmodeWrite b.fpmode v }
  | 0x010 => tr fun r => { r with epc := v &&& 0x3FFFFFFFF }
  | 0x011 => tr fun r => { r with fcause := setBit r.fcause 63 (bit v 63) }
  | 0x012 => tr fun r => { r with fval := v }
  | 0x013 => tr fun r => { r with finfo := v }
  | 0x014 => tr fun r => { r with tvec := v &&& 0xFFFFFFFC }
  | 0x015 => tr fun r => { r with sscratch := v }
  | 0x016 => tr fun r => { r with slotsel := v.setWidth 2 }
  | 0x020 => slot fun k => { k with mem := { k.mem with stkLimit := v.setWidth 23 } }
  | 0x040 => lc 0
  | 0x041 => lc 1
  | 0x042 => lc 2
  | 0x043 => lc 3
  | 0x044 => s.modBank fun b => { b with rrb := rrbWrite v }
  | 0x052 => tr fun r => { r with slice := v }
  | 0x090 => slot fun k =>
    if k.ctx.isNone then k
    else { k with race := { k.race with en := bit v 0, wrapped := k.race.wrapped && !bit v 2 } }
  | _ => s

/-- The write of SYSW (R394). -/
def syswM (q : BitVec 3) (s : BitVec 5) (n : BitVec 12) (st : State) : Ans :=
  seqM q st do
    sysCheck n true
    modS fun t => t.syswrite n (st.bank.gr s)

/-- R394, R249: where a write leaves TIP at 0, the entry that the scrubber owes the tile follows the instruction. -/
def execSysw (q : BitVec 3) (s : BitVec 5) (n : BitVec 12) (st : State) : Ans :=
  match syswM q s n st with
  | .next t => .next (if n = 0x011 then t.scrubNow t.cur else t)
  | r => r

/-- QUOTA as written (Table 5.3): field by field (R394), so bits [63:24] are ignored before the limit is applied. (DEDUCED, log 101) -/
def quotaWrite (v : W64) : BitVec 24 := BitVec.ofNat 24 (min 0x800000 (bits v 23 6 * 64))

/-- R98, Table 5.3. -/
def execSyswQuota (q : BitVec 3) (s : BitVec 5) (st : State) : Ans :=
  seqM q st do
    sysCheck 0x021 true
    let k := st.seqSlot
    modS fun t => t.modSlot t.cur k fun x => { x with mem := { x.mem with quota := quotaWrite (st.bank.gr s) } }
    modS fun t => (t.pushToFit t.cur k 0 false 4096).porterWake t.cur k { tile := st.cur, eng := 5 } (t.spareOf t.cur k)

/-- LSTAT as written (Table 3.6): reserved bits read zero, ST of 7 stores 6. -/
def lstatWrite (v : W64) : W64 :=
  let m := v &&& 0x0FFF3F01FFFFFFFF
  [0, 1, 2, 3].foldl (fun l n => if lsSt l n = 7 then setBits l (48 + 3 * n.toNat + 2) (48 + 3 * n.toNat) 6 else l) m

/-- R362: the loop bounds that LOOP wrote are used where ACT is set. -/
def execSyswLstat (q : BitVec 3) (s : BitVec 5) (st : State) : Ans :=
  seqReg q st fun b => { b with lstat := lstatWrite (b.gr s) }

/-- TRCTL as written (Table 16.1): STOP of 11 stores 00; FROZEN clears by writing one. -/
def trctlWrite (v : W64) : W64 :=
  let m := v &&& 0xFFFFFFFFFFFFF47D
  if bits v 13 12 = 3 then setBits m 13 12 0 else m

/-- R289. -/
def execSyswTrctl (q : BitVec 3) (s : BitVec 5) (st : State) : Ans :=
  seqM q st do
    sysCheck 0x070 true
    let v := st.bank.gr s
    modS fun t => t.modTile t.cur fun x => { x with trctl := trctlWrite v }
    if bit v 11 then
      modS fun t => (t.modTile t.cur fun x => { x with recorder := { x.recorder with frozen := false } }).modTower
        (towerOf t.cur) fun w => { w with recorder := { w.recorder with frozen := false } }

/-! ## RETS (R241, R249) -/

/-- The slot's program counter takes EPC where it names a place of the kernel; moving it ends what the sequencer waits
for (R241, R235; log 36, DEDUCED). A word starts at a multiple of 4, so bits [1:0] of EPC name no other place (DEDUCED, log 39). -/
def State.putEpc (s : State) (k : BitVec 2) : State :=
  let e := (s.tile s.cur).tr.epc
  if bit e 32 || bit e 33 then s
  else
    let pc := BitVec.ofNat 64 (4 * bits e 31 2)
    if (s.slot s.cur k).sq.bank.pc = pc then s
    else s.modSlot s.cur k fun x => { x with
      sq := { x.sq with bank := { x.sq.bank with pc := pc, rpt := none }, agt := {} }
      sems := { x.sems with waiters := x.sems.waiters.filter fun w => w.2.1 ≠ .seq } }

/-- RETS is not allowed in U mode, nor in M mode (R241). -/
def needRets : M Unit := do
  needS
  illegalIf (((← get).tile (← get).cur).priv = .m)

/-- Return into slot t (R241, R246). A slice end that another slot holds is discarded (R249). -/
def retsTo (t : BitVec 2) : M Unit := do
  let s ← get
  let from_ := BitVec.ofNat 2 (bits (s.tile s.cur).tr.fcause 49 48)
  illegalIf ((s.slot s.cur t).ctx = none)
  let s1 := s.putEpc from_
  let s2 := if from_ = t then s1
    else s1.modSlot s.cur from_ fun x => { x with held := x.held.filter fun p => p.landed || p.ring || p.done }
  set ((s2.clearRemote s.seqMe).resume t)

/-- R241. -/
def execRets (q : BitVec 3) (st : State) : Ans :=
  seqJ q st do
    needRets
    retsTo (BitVec.ofNat 2 (bits (st.tile st.cur).tr.fcause 49 48))

/-- R241. -/
def execRetsSlot (q : BitVec 3) (s : BitVec 5) (st : State) : Ans :=
  seqJ q st do
    needRets
    let v := st.bank.gr s
    illegalIf (4 ≤ v.toNat)
    retsTo (v.setWidth 2)

/-- R241, R242: the completion status names the cause in FCAUSE. -/
def execRetsEnd (q : BitVec 3) (s : BitVec 5) (st : State) : Ans :=
  seqM q st do
    needRets
    let v := st.bank.gr s
    illegalIf (4 ≤ v.toNat)
    match (st.slot st.cur (v.setWidth 2)).ctx with
    | none => illegal
    | some c => modS fun s => s.endCtx c ((s.tile s.cur).tr.fcause.setWidth 8)

/-! ## RANGE (R295) -/

/-- RANGE record. -/
def State.rangeRecord (s : State) (label depth : Nat) (pop ovf : Bool) : State :=
  s.trace s.cur 2 0x01 (leBytes 8 (s.whereOf s.cur s.curSlot .seq) ++ leBytes 2 label ++ leBytes 1 depth ++
    leBytes 1 (b2n pop + 2 * b2n ovf))

/-- R295. (DEDUCED, log 40) -/
def execRangePush (q : BitVec 3) (l : BitVec 16) (st : State) : Ans :=
  seqM q st do
    let r := (st.slot st.cur st.seqSlot).ranges
    if st.inRt then modS fun s => s.rangeRecord l.toNat r.length false false
    else if r.length < 16 then
      modS fun s => (s.modSlot s.cur s.curSlot fun k => { k with ranges := r ++ [l] }).rangeRecord l.toNat (r.length + 1)
        false false
    else modS fun s => s.rangeRecord l.toNat r.length false true

/-- R295. -/
def execRangePop (q : BitVec 3) (st : State) : Ans :=
  seqM q st do
    let r := (st.slot st.cur st.seqSlot).ranges
    if st.inRt then modS fun s => s.rangeRecord 0 r.length true false
    else match r.getLast? with
      | some l =>
        modS fun s => (s.modSlot s.cur s.curSlot fun k => { k with ranges := r.dropLast }).rangeRecord l.toNat (r.length - 1) true false
      | none => modS fun s => s.rangeRecord 0 0 true true

/-! ## TSTAT (R397) -/

/-- What a read of TSTAT sees (R144): each field before or after the entries whose effects it need not see, as a fresh value says
(DESIGN CHOICE, log 95). -/
def State.readTstat (s : State) (t : BitVec 8) (k : BitVec 2) : W64 × State :=
  let x := (s.slot t k).tstatSync t s.tick
  if x.effs.isEmpty then (x.tstat, s)
  else tstatFields.zipIdx.foldl (fun (a : W64 × State) f =>
    let (r, s1) := a.2.draw
    (setBits a.1 f.1.1 f.1.2 (bits (x.tstatField f.2 r) f.1.1 f.1.2), s1)) (x.seen, s)

/-- R397. -/
def execTstat (q : BitVec 3) (d : BitVec 5) (st : State) : Ans :=
  seqM q st do
    let (v, s1) := (← get).readTstat st.cur st.seqSlot
    set s1
    writeG d v

/-- TSTAT after a clear (R143, R397): the W1C bits named in gs, FCHG and THRCNT are zero. -/
def tstatClear (v t : W64) : W64 := setBits (setBits (t &&& ~~~(v &&& 0x1CFE)) 55 40 0) 31 16 0

/-- R397: it reads TSTAT, clears it, and each effect that it need not see comes wholly before or wholly after, as a fresh value says
(DESIGN CHOICE, log 95). -/
def State.clearTstat (s : State) (t : BitVec 8) (k : BitVec 2) (v : W64) : W64 × State :=
  let x := (s.slot t k).tstatSync t s.tick
  let (r, s1) := if x.effs.isEmpty then (0, s) else s.draw
  let p := x.clearSplit r
  let old := if x.effs.isEmpty then x.tstat else tstatOn p.1 x.seen
  (old, s1.modSlot t k fun y => { y with
    tstat := tstatOn p.2 (tstatClear v old)
    effs := p.2
    seen := tstatClear v old })

/-- R397. -/
def execTstatClr (q : BitVec 3) (d s : BitVec 5) (st : State) : Ans :=
  seqM q st do
    let (r, s1) := (← get).clearTstat st.cur st.seqSlot (st.bank.gr s)
    set s1
    writeG d r

end Sys2Proof.Machine
end

