-- ==== Sys2Proof/Machine/Firmware.lean ====
section
/-! DEFINITION. Firmware calls (R269, Table 14.5, R299): SETROOT, RINGS, FLUSH, REFUSE, TLBINV, TIMEOUT, MIGRATE, RECREAD.
In the kernel bank the same word is TRAP (R240). -/

namespace Sys2Proof.Machine

/-- A firmware call in the runtime bank; TRAP in a kernel. -/
def fw (q : BitVec 3) (n : W64) (st : State) (m : M Unit) : Ans := if st.inRt then seqM q st m else trapSw q n st

/-- An illegal argument (R269). (DEDUCED, log 19) -/
def badArg : M Unit := writeG 4 (ones 64)

/-- A tower of the caller's partition on this chip. -/
def Partition.holds (p : Partition) (w : Nat) : Bool := decide (w < 8) && p.setup.towers.getLsbD w

/-- A virtual address of this chip in a tower that the partition holds. -/
def Partition.ownVa (p : Partition) (v : W64) : Bool :=
  decide (v.toNat < 2 ^ 54) && vaChip v == p.setup.chip && p.holds (vaTower v).toNat

/-- The partition's towers on this chip. -/
def Partition.towerList (p : Partition) : List (BitVec 3) := allTowers.filter fun t => p.setup.towers.getLsbD t.toNat

/-- Change the agent states of every agent on some tiles, and of the decode engines of some towers. -/
def State.mapAgts (s : State) (ts : List (BitVec 8)) (ws : List (BitVec 3)) (f : Agt → Agt) : State :=
  let s1 := ts.foldl (fun s t => s.modTile t fun x => { x with
    rtAgt := f x.rtAgt
    slots := x.slots.map fun k => { k with
      sq := { k.sq with agt := f k.sq.agt }
      vec := { k.vec with agt := f k.vec.agt }
      mat := { k.mat with agt := f k.mat.agt }
      xfr := { k.xfr with agt := f k.xfr.agt } } }) s
  ws.foldl (fun s w => s.modTower w fun x => { x with dec := { x.dec with agt := f x.dec.agt } }) s1

/-- End the waits that a test picks, without a record: their agents try again on their next turn. -/
def endWaits (p : WaitObj → Bool) (g : Agt) : Agt := if g.wait.any fun w => p w.obj then { g with wait := none } else g

/-- R255. -/
def execSetroot (q : BitVec 3) (st : State) : Ans :=
  fw q 1 st do
    let w := (st.bank.gr 4).toNat
    let ipa := (st.bank.gr 5).toNat
    if !((st.partOf st.cur).any fun p => p.holds w) || decide (2 ^ 48 ≤ ipa) || ipa % 4096 != 0 then badArg
    else
      modS fun s => s.modTower (BitVec.ofNat 3 w) fun x => { x with
        mmu := { x.mmu with root := if ipa = 0 then none else some (BitVec.ofNat 48 ipa) } }
      writeG 4 0

/-- R259, R271. -/
def execRings (q : BitVec 3) (st : State) : Ans :=
  fw q 2 st do
    let f := st.bank.gr 4
    let c := st.bank.gr 5
    match st.partOf st.cur with
    | none => badArg
    | some p =>
      let ok (v : W64) : Bool := v == 0 || (p.ownVa v && v.toNat % 64 == 0)
      if !ok f || !ok c then badArg
      else
        modS fun s => s.modPart p.setup.num fun x => { x with
          faultRing := if f = 0 then x.faultRing else some (f.setWidth 54)
          cmdRing := if c = 0 then x.cmdRing else some (c.setWidth 54)
          service := some s.cur }
        writeG 4 0

/-- R258: every stalled access of the chip is retried. -/
def execFlush (q : BitVec 3) (st : State) : Ans :=
  fw q 3 st do
    match st.partOf st.cur with
    | none => badArg
    | some p =>
      let gen := p.gen + 1
      modS fun s => s.modPart p.setup.num fun x => { x with gen := gen, stalledCmds := [] }
      match p.faultRing with
      | none => pure ()
      | some r => modS fun s => (s.devWrite (r.setWidth 64 + 20) (leBytes 4 gen.toNat) smcWho).getD s
      let reqs := p.towerList.flatMap fun w => (st.tower w).mmu.stalledReqs
      modS fun s => p.towerList.foldl (fun s w => s.modTower w fun x => { x with
        mmu := { x.mmu with posted := [], stalledReqs := [] } }) s
      modS fun s => s.mapAgts p.tiles p.towerList (endWaits fun o => match o with
        | .xlat _ => true
        | _ => false)
      let again : List Turn := (reqs.map fun r => Turn.event (.remoteRequest r)) ++
        (p.stalledCmds.map fun c => Turn.event (hostEvent c.1 c.2))
      modS fun s => { s with agenda := s.agenda ++ again }
      writeG 4 (gen.setWidth 64)

/-- Whether a wait is for a page of a tower's stage 1. -/
def onXlat (w : BitVec 3) (page : Nat) (x : Wait) : Option W64 :=
  match x.obj with
  | .xlat va => if vaTower (va.setWidth 64) = w ∧ vaOff (va.setWidth 64) / 65536 = page then some (va.setWidth 64) else none
  | _ => none

/-- XLAT1 is raised at an agent of a slot whose access stalled on a page, and kept (R236, R258). -/
def State.refuseAgent (s : State) (t : BitVec 8) (k : BitVec 2) (w : BitVec 3) (page : Nat) (a : Agent) : State :=
  let g := s.agt t k a
  match g.wait.bind (onXlat w page) with
  | none => s
  | some v => (s.setAgt t k a { wait := none, grant := g.grant }).keepFault t k (s.unitRec t k a .xlat1 v 0 none)

/-- XLAT1 at the runtime bank's sequencer whose access stalled on a page. -/
def State.refuseRt (s : State) (t : BitVec 8) (w : BitVec 3) (page : Nat) : State :=
  match (if (s.tile t).inRuntime then (s.tile t).rtAgt.wait.bind (onXlat w page) else none) with
  | none => s
  | some v =>
    let s1 := (s.modTile t fun x => { x with rtAgt := {} })
    { (({ s1 with cur := t } : State).raiseSeq .xlat1 v 0) with cur := s.cur }

/-- Every access of a tile that stalled on a page raises XLAT1 at its own agent (R258). A decode engine reaches segments only. -/
def State.refuseTile (s : State) (t : BitVec 8) (w : BitVec 3) (page : Nat) : State :=
  ((allSlots.foldl (fun s k => [Agent.seq, .vec, .mat, .xfr].foldl (fun s a => s.refuseAgent t k w page a) s) s).deliver t).refuseRt
    t w page

/-- Whether an access of n bytes that stage 1 stalls stands at a page: the first of its pages with a record (R258). -/
def State.stallsAt (s : State) (va : W64) (n : Nat) (w : BitVec 3) (page : Nat) : Bool :=
  ((pagePieces (n / 65536 + 2) va.toNat n).map fun p =>
    let v : W64 := BitVec.ofNat 64 p.1
    (vaTower v, vaOff v / 65536)).find? (fun x => (s.tower x.1).mmu.posted.any fun r => r.page == x.2) == some (w, page)

/-- The bytes that a request covers at its address. -/
def reqSize : RemoteOp → Nat
  | .read n => n
  | .check n _ => n
  | .write bs _ => bs.length
  | .amo _ dbl _ _ => if dbl then 8 else 4
  | .arrive _ => 16
  | .put _ _ _ bs => bs.length
  | .arriveSeg _ _ _ _ => 16
  | .readSeg _ _ _ => 16
  | .readAt _ => 16
  | .readSegAt _ _ _ => 16

/-- The answer of a request of another chip. -/
def State.answer (s : State) (r : RemoteReply) : State := { s with host := { s.host with answers := s.host.answers ++ [r] } }

/-- The answer that refuses a request with a cause. -/
def refusal (id : Nat) (cause : BitVec 8) (finfo : W64) : RemoteReply :=
  { id := id, cause := cause, finfo := finfo, bs := [], setter := noWho }

/-- R258: the record of a ring slot is refused. -/
def execRefuse (q : BitVec 3) (st : State) : Ans :=
  fw q 4 st do
    let n := (st.bank.gr 4).toNat
    match st.partOf st.cur with
    | none => badArg
    | some p =>
      let hits := p.towerList.flatMap fun w => ((st.tower w).mmu.posted.filter (·.slot == some n)).map fun r => (w, r)
      match hits with
      | [] => badArg
      | (w, r) :: _ =>
        let s0 ← get
        let mine (x : RemoteReq) : Bool := s0.stallsAt (x.va.setWidth 64) (reqSize x.op) w r.page
        let host (c : BitVec 8 × HostCmd) : Bool := match cmdTarget c.1 c.2 with
          | .va v => s0.stallsAt v (cmdLen c.1 c.2) w r.page
          | _ => false
        modS fun s => s.modTower w fun x => { x with mmu := { x.mmu with posted := x.mmu.posted.filter (· ≠ r) } }
        modS fun s => p.tiles.foldl (fun s t => s.refuseTile t w r.page) s
        modS fun s => ((s.tower w).mmu.stalledReqs.filter mine).foldl (fun s x => s.answer { refusal x.id 0x0A 0 with met := x.met }) s
        modS fun s => s.modTower w fun x => { x with mmu := { x.mmu with
          stalledReqs := x.mmu.stalledReqs.filter fun x => !mine x } }
        modS fun s => (p.stalledCmds.filter host).foldl (fun s c => s.finishCmd c.1 c.2 stRANGE []) s
        modS fun s => s.modPart p.setup.num fun x => { x with stalledCmds := x.stalledCmds.filter fun c => !host c }
        writeG 4 0

/-- R257. -/
def execTlbinv (q : BitVec 3) (st : State) : Ans :=
  fw q 5 st do
    let v := st.bank.gr 4
    let n := (st.bank.gr 5).toNat
    if !((st.partOf st.cur).any fun p => p.ownVa v) || decide (2 ^ 48 < vaOff v + n) then badArg
    else
      modS fun s => s.modTower (vaTower v) fun x => { x with mmu := { x.mmu with
        tlb := x.mmu.tlb.filter fun e => decide (e.page * 65536 + 65536 ≤ vaOff v) || decide (vaOff v + n ≤ e.page * 65536) } }
      writeG 4 0

/-- R261. -/
def execTimeout (q : BitVec 3) (st : State) : Ans :=
  fw q 7 st do
    let n := (st.bank.gr 4).toNat
    match st.partOf st.cur with
    | none => badArg
    | some p =>
      if n < 10 ∨ 10000 < n then badArg
      else
        modS fun s => s.modPart p.setup.num fun x => { x with timeoutUs := n }
        writeG 4 0

/-! ## Moving a page (R262, R263) -/

/-- The entries of one page, keyed in units of `u` bytes, moved to another page. -/
def movedKeys (u src dst : Nat) (l : List (Nat × α)) : List (Nat × α) :=
  (l.filter fun e => e.1 * u / 65536 = src).map fun e => (e.1 - src * (65536 / u) + dst * (65536 / u), e.2)

def movedNums (u src dst : Nat) (l : List Nat) : List Nat :=
  (l.filter fun k => k * u / 65536 = src).map fun k => k - src * (65536 / u) + dst * (65536 / u)

/-- A store without one page. -/
def Store.dropPage (m : Store) (pg : Nat) : Store where
  bytes := m.bytes.filter fun e => e.1 / 65536 ≠ pg
  tags := m.tags.filter fun k => k * 16 / 65536 ≠ pg
  poison := m.poison.filter fun k => k * 16 / 65536 ≠ pg
  lw := m.lw.filter fun e => e.1 * 64 / 65536 ≠ pg
  lr := m.lr.filter fun e => e.1 * 64 / 65536 ≠ pg
  sync := m.sync.filter fun e => e.1 * 4 / 65536 ≠ pg
  flips := m.flips.filter fun e => e.1 * 16 / 65536 ≠ pg

/-- A store whose page `dst` takes what page `src` of another holds. -/
def Store.takePage (m o : Store) (src dst : Nat) : Store :=
  let d := m.dropPage dst
  { bytes := (movedKeys 1 src dst o.bytes).foldl (fun l e => put 0 l e.1 e.2) d.bytes
    tags := (movedNums 16 src dst o.tags).foldl insertN d.tags
    poison := (movedNums 16 src dst o.poison).foldl insertN d.poison
    lw := (movedKeys 64 src dst o.lw).foldl (fun l e => put1 l e.1 e.2) d.lw
    lr := (movedKeys 64 src dst o.lr).foldl (fun l e => put1 l e.1 e.2) d.lr
    sync := (movedKeys 4 src dst o.sync).foldl (fun l e => put1 l e.1 e.2) d.sync
    flips := (movedKeys 16 src dst o.flips).foldl (fun l e => put1 l e.1 e.2) d.flips }

/-- The lowest physical page of a tower that its partition may map and no mapping names (DESIGN CHOICE, log 15). -/
def State.freePage (s : State) (t : BitVec 3) : Option (Fin 393216) :=
  let u := s.usedPages t
  if s.gddrRoom t 65536 = false then none
  else
    ((List.range (u.length + 1)).find? fun n => !u.contains n && (s.partOfTower t).any fun p => mayMap p.setup t n).bind fun n =>
      if h : n < 393216 then some ⟨n, h⟩ else none

/-- Move an IPA page of a tower from one physical page to a free one of another tower; its contents go with it, and the lines
that they fill are no longer pending (R268). -/
def State.movePage (s : State) (w : BitVec 3) (ipa : Nat) (t : BitVec 3) (pg : Fin 393216) (dst : BitVec 3) (n : Fin 393216) : State :=
  let src := (s.tower t).gddr
  let s1 := s.modTower dst fun x => { x with
    gddr := x.gddr.takePage src pg.val n.val
    zeroed := (unitsOf 64 (n.val * 65536) 65536).foldl (fun l u => if l.contains (false, u) then l else (false, u) :: l) x.zeroed }
  let s2 := s1.modTower t fun x => { x with gddr := x.gddr.dropPage pg.val }
  s2.modTower w fun x => { x with mmu := { x.mmu with
    s2 := put1 (x.mmu.s2.filter fun e => !(e.1 == ipa && e.2 == .gddr t pg)) ipa (.gddr dst n) } }

/-- Move IPA pages of a tower to another tower, those that are not there already; none where one is not in memory, or no page is
free (R262). -/
def State.moveAll (w dst : BitVec 3) : List Nat → State → Option State
  | [], s => some s
  | x :: r, s => match (s.tower w).mmu.stage2 x with
    | some (.gddr t pg) =>
      if t = dst then s.moveAll w dst r else (s.freePage dst).bind fun n => (s.movePage w x t pg dst n).moveAll w dst r
    | _ => none

/-- R262, R263. A 2 MiB page moves whole. -/
def execMigrate (q : BitVec 3) (st : State) : Ans :=
  fw q 8 st do
    let v := st.bank.gr 4
    let d := (st.bank.gr 5).toNat
    if !((st.partOf st.cur).any fun p => p.ownVa v && p.holds d) then badArg
    else
      let w := vaTower v
      let page := vaOff v / 65536
      let dst := BitVec.ofNat 3 d
      match (st.tower w).mmu.holds.find? (·.page == page) with
      | some h =>
        writeG 4 (if h.host = false ∧ h.tower = dst then 8 else 7)
        if h.host then
          let (x, s1) := (← get).draw
          set s1
          writeG 5 x
        else writeG 5 (h.tower.setWidth 64)
      | none =>
        match st.stage1 w (vaOff v) with
        | .inl _ => badArg
        | .inr e =>
          let set_ := pageSet (vaOff v) e
          match set_.find? fun x => (st.tower w).mmu.stage2 x.2 == some .host with
          | some x =>
            modS fun s => s.askHost w x.1 x.2
            waitFor (.hostPage (v.setWidth 54) x.2)
          | none =>
            match (← get).moveAll w dst (set_.map (·.2)) with
            | none => badArg
            | some s1 =>
              set (s1.modTower w fun x => { x with mmu := { x.mmu with
                holds := set_.map (fun x => PageHold.mk x.1 false dst 0) ++ x.mmu.holds } })
              writeG 4 0
              writeG 5 (dst.setWidth 64)

/-- R299: the frames of a recorder of the partition, oldest first, whole. -/
def execRecread (q : BitVec 3) (st : State) : Ans :=
  fw q 9 st do
    let src := (st.bank.gr 4).toNat
    let p := st.bank.gr 5
    let w := if src < 256 then src / 32 else src - 0x100
    if 0x108 ≤ src ∨ !((st.partOf st.cur).any fun x => x.holds w && (0x100 ≤ src || x.tiles.contains (BitVec.ofNat 8 src))) then badArg
    else
      let rec_ := if src < 256 then (st.tile (BitVec.ofNat 8 src)).recorder else (st.tower (BitVec.ofNat 3 w)).recorder
      let fs := rec_.all (if src < 256 then 0 else 1) (BitVec.ofNat 8 src)
      let s0 ← get
      let r ← segAccess st.seqMe p 65536 0 true false
      segPartPoison st.seqMe s0 p r (256 * fs.length)
      segWriteRef st.seqMe r (fs.flatMap id)
      writeG 4 (BitVec.ofNat 64 fs.length)

end Sys2Proof.Machine
end

