-- ==== Sys2Proof/Machine/Porter.lean ====
section
/-! DEFINITION. Frames: compaction (R102), room in the store (R101), creation of segments at launch (R96). -/

namespace Sys2Proof.Machine

/-- Insert a resident segment by frame, lowest first. -/
def insFrame (x : BitVec 2 × Segment) : List (BitVec 2 × Segment) → List (BitVec 2 × Segment)
  | [] => [x]
  | y :: r => if x.2.frame ≤ y.2.frame then x :: y :: r else y :: insFrame x r

/-- The resident segments of a tile with their slots, lowest placed first. -/
def Tile.placed (t : Tile) : List (BitVec 2 × Segment) :=
  (allSlots.flatMap fun k => ((t.slot k).mem.segs.filter fun g => g.state == .resident).map fun g => (k, g)).foldr insFrame []

/-- Where a resident segment may move down to, its own frames counting as free. -/
def Tile.lower (t : Tile) (g : Segment) : Option Nat :=
  match firstFit (t.usedRuns.filter fun u => u.1 ≠ g.frame) (frames g.size) with
  | some f => if f < g.frame then some f else none
  | none => none

/-- The compaction move that comes next, if any (R102). -/
def Tile.compaction (t : Tile) : Option (BitVec 2 × Segment × Nat) :=
  t.placed.findSome? fun x => (t.lower x.2).map fun f => (x.1, x.2, f)

/-- One compaction move: it changes FRAME and nothing else, and is counted (R102, R107). -/
def State.compact1 (s : State) (t : BitVec 8) : Option State :=
  (s.tile t).compaction.map fun (k, g, f) =>
    (s.modSeg t k g.num fun x => { x with frame := f }).porterEvent t k g.num g.size 3 3

/-- Compact until no segment can move down. -/
def State.compactAll (s : State) (t : BitVec 8) : Nat → State
  | 0 => s
  | n + 1 => match s.compact1 t with
    | none => s
    | some s1 => s1.compactAll t n

/-- A run of frames: first-fit, then after compaction, then after pushing segments of any context (R101). -/
def State.findRun (s : State) (t : BitVec 8) (n : Nat) : Nat → Option Nat × State
  | 0 => (none, s)
  | f + 1 =>
    match firstFit (s.tile t).usedRuns n with
    | some r => (some r, s)
    | none =>
      let s1 := s.compactAll t 65536
      match firstFit (s1.tile t).usedRuns n with
      | some r => (some r, s1)
      | none => match (s1.tile t).victim with
        | none => (none, s1)
        | some (k, g) => (s1.push1 t k g true).findRun t n f

/-- Create one segment of a launch (R96): resident where room can be made, else one tier out; none where a STACK or PIN
segment cannot be made resident, or no backing is free (DESIGN CHOICE, log 10). -/
def State.createSeg (s : State) (t : BitVec 8) (k : BitVec 2) (g0 : Segment) : Option State :=
  let g : Segment := { g0 with backing := Config.backing s.fresh, touch := s.moves }
  let s := { s with fresh := s.fresh + 1 }
  let add (s : State) (x : Segment) : State :=
    s.modSlot t k fun y => { y with mem := { y.mem with segs := insertSeg y.mem.segs x } }
  let s1 := if g.num = 0 then s else s.pushToFit t k g.size true 4096
  let x := s1.slot t k
  let inQuota := decide (g.num = 0) || decide (x.res + x.incoming + g.size ≤ x.mem.quota.toNat)
  let (run, s2) := if inQuota then s1.findRun t (frames g.size) 65536 else (none, s1)
  if s.gddrRoom (towerOf t) g.size = false then none
  else match run with
  | some f => some (add s2 { g with state := .resident, frame := f })
  | none =>
    if g.num = 0 ∨ g.pin = true then none
    else
      let (fits, s3) := s2.poolRoom (towerOf t) g.size true 65536
      some (add s3 { g with state := if fits then .pool else .backed, frame := 0 })

end Sys2Proof.Machine
end

