-- ==== Sys2Proof/Machine/EvMem.lean ====
section
/-! DEFINITION. Events of memory: moves of the porter (R99 to R103), requests of other chips (R255 to R260), the fabric
(R261), page holds (R263), replicas (R189), pending-zero lines (R268), the sweep of the race detection (R194). -/

namespace Sys2Proof.Machine

/-! ## The porter -/

/-- The agents that wait for the move of a segment homed on a tile. -/
def State.onMove (s : State) (t : BitVec 8) (k : BitVec 2) (n : BitVec 12) : List Me :=
  (s.peers t k).filter fun m => (s.myAgt m).wait.any fun w => w.obj == .moving n t

/-- The agents that wait for the move of a segment go on, and their turns come next (R103). (DEDUCED, log 80) -/
def State.wakeMoving (s : State) (t : BitVec 8) (k : BitVec 2) (n : BitVec 12) : State :=
  let ms := s.onMove t k n
  let s1 := ms.foldl (fun s m => s.endMyWait m { tile := t, eng := 5 }) s
  { s1 with agenda := (ms.map fun m => turnOf m.tile m.agent) ++ s1.agenda }

/-- A waiting agent raises a fault: that of a slot is kept until all are raised, that of the runtime's own code is an entry. -/
def State.failWaiter (s : State) (m : Me) (c : Cause) (v : W64) : State :=
  if s.homeSlot m = none then (({ s with cur := m.tile } : State).clearRemote m).raiseSeq c v 0
  else s.keepWaiting m.tile m.slot m.agent c v

/-- No request of another chip waits for the recall of a segment any more. -/
def State.unask (s : State) (t : BitVec 8) (k : BitVec 2) (n : BitVec 12) : State :=
  s.modSlot t k fun x => { x with mem := { x.mem with asking := x.mem.asking.filter fun a => a.1 ≠ n } }

/-- The agents that wait for a recall that cannot be placed raise BOOKING, an admission that has booked the segment among them;
it gives up its booking, for which other waits are looked at again (R100, R101). The requests of other chips that wait for the recall
are answered BOOKING. -/
def State.failRecall (s0 : State) (t : BitVec 8) (k : BitVec 2) (g : Segment) : State :=
  let asked := ((s0.slot t k).mem.asking.filter fun x => x.1 = g.num).map (·.2)
  let s := asked.foldl (fun s r => s.answer (refusal r.id 0x07 0)) (s0.unask t k g.num)
  let ms := s.onMove t k g.num
  let booked (b : Booking) : Bool := b.segs.contains g.num && ms.any fun m =>
    m.tile == t && ((s.entryOf t k m.agent).any fun e => Eng.agent b.eng == m.agent && e.issue == b.issue)
  let s1 := s.modSlot t k fun x => { x with mem := { x.mem with bookings := x.mem.bookings.filter fun b => !booked b } }
  let gave := (s.slot t k).mem.bookings.find? booked
  let s2 := ms.foldl (fun s m => s.failWaiter m .booking (BitVec.ofNat 64 g.size)) s1
  let s3 := match gave with
    | some b => s2.porterWake t k { s.who ⟨t, k, Eng.agent b.eng⟩ with issue := b.issue } (s.spareOf t k)
    | none => s2
  ms.foldl (fun s m => s.deliver m.tile) s3

/-- Bytes of a slot that have not left the home store yet. -/
def Slot.leaving (k : Slot) : Nat := k.sumSegs fun g => match g.state with
  | .pushing _ => true
  | _ => false

/-- An access that counted the absence of a segment counts it anew where it finds it absent after a recall (R107). -/
def Agt.recalled (g : Agt) (t : BitVec 8) (n : BitVec 12) : Agt :=
  if g.absent = some (t, n, true) then { g with absent := some (t, n, false) } else g

/-- Every access that counted the absence of a segment, parked entries of the decode engine among them. -/
def State.recalled (s : State) (t : BitVec 8) (k : BitVec 2) (n : BitVec 12) : State :=
  let s1 := (s.peers t k).foldl (fun s m => s.setMyAgt m ((s.myAgt m).recalled t n)) s
  s1.modTower (towerOf t) fun w => { w with dec := { w.dec with
    parked := w.dec.parked.map fun d => { d with agt := d.agt.map fun g => g.recalled t n } } }

/-- A recall stands in the store. -/
def State.placeRecall (s : State) (t : BitVec 8) (k : BitVec 2) (g : Segment) (f : Nat) : State :=
  ((((s.unask t k g.num).recalled t k g.num).modSeg t k g.num fun y => { y with state := .resident, frame := f }).porterEvent t k g.num g.size 1 1).wakeMoving
    t k g.num

/-- A recall is given up: the segment is where it was. -/
def State.undoRecall (s : State) (t : BitVec 8) (k : BitVec 2) (g : Segment) (fromPool : Bool) : State :=
  s.modSeg t k g.num fun y => { y with state := if fromPool then .pool else .backed }

/-- R98, R100, R101: a recall completes once the pushes that make its room have, with RES within QUOTA; where booked or pinned
bytes have come to stand in its way it is given up, and the access is looked at again. It is placed first-fit, after
compaction, or after a push of any context's segment; where nothing is pushable BOOKING is raised. -/
def execSegmentRecall (t : BitVec 8) (k : BitVec 2) (n : BitVec 12) (st : State) : Ans :=
  let x := st.slot t k
  match x.seg n with
  | none => .next st
  | some g => match g.state with
    | .recalling fromPool =>
      if x.mem.quota.toNat < x.res + x.leaving + g.size then
        if x.leaving ≠ 0 then .next st
        else
          let s1 := st.pushToFit t k 0 false 4096
          if (s1.slot t k).leaving ≠ 0 then .next s1
          else .next ((st.undoRecall t k g fromPool).wakeMoving t k n)
      else
        match firstFit (st.tile t).usedRuns (frames g.size) with
        | some f => .next (st.placeRecall t k g f)
        | none =>
          if (st.tile t).slots.toList.any fun y => y.leaving ≠ 0 then .next st
          else
            let s1 := st.compactAll t 65536
            match firstFit (s1.tile t).usedRuns (frames g.size) with
            | some f => .next (s1.placeRecall t k g f)
            | none => match (s1.tile t).victim with
              | some (k2, v) => .next (s1.push1 t k2 v false)
              | none => .next ((s1.undoRecall t k g fromPool).failRecall t k g)
    | _ => .next st

/-- R99, R103: a push has copied the whole segment. A push into the pool waits until the pool's own pushes have made its
room. -/
def execSegmentPushComplete (t : BitVec 8) (k : BitVec 2) (n : BitVec 12) (st : State) : Ans :=
  match (st.slot t k).seg n with
  | none => .next st
  | some g =>
    let done (v : SegState) : Ans := .next ((st.modSeg t k n fun y => { y with state := v, frame := 0 }).wakeMoving t k n)
    match g.state with
    | .pushing true =>
      if st.poolUse (towerOf t) true ≤ (st.tower (towerOf t)).poolCap then done .pool else .next st
    | .pushing false => done .backed
    | .spilling => done .backed
    | _ => .next st

/-- R102. -/
def execCompactionMove (t : BitVec 8) (st : State) : Ans := .next ((st.compact1 t).getD st)

/-! ## Requests of other chips (R254 to R260) -/

/-- How a stage-2 failure of a request ends: a mapping of the SMC, or none (R260). -/
def smcOr (va : W64) (ipa : Nat) : M Bool := do
  let w := vaTower va
  modS fun s => s.freezeTower w 2 (bits va 31 0)
  let s ← get
  let r := s.smcPage w
  let s1 := { s with fresh := s.fresh + 1 }
  set (r.elim s1 fun p => s1.modTower w fun x => { x with mmu := { x.mmu with s2 := put1 x.mmu.s2 ipa p } })
  pure r.isSome

/-- Translate one piece at its owner for a request that is no agent's of this chip: `park` keeps it until FLUSH or REFUSE
where stage 1 fails (R258). -/
def ownPiece (va : W64) (ctx tile : BitVec 8) (park : BitVec 3 → State → State) (acc n : Nat) : Nat → M Piece
  | 0 => throw .gone
  | f + 1 => do
    let w := vaTower va
    let (r, s1) := (← get).translate w (vaOff va) acc
    set s1
    let held (ipa : Nat) : M Piece := do
      modS fun s => s.hostHeld none va ipa
      waitFor (.hostPage (va.setWidth 54) ipa)
    match r with
    | .ok x => match x.phys with
      | .gddr _ _ =>
        if (s1.tower w).mmu.repStores.any fun q => q.stalls x acc then waitFor (.replica (va.setWidth 54))
        pure ⟨w, x, vaOff va % 65536, n⟩
      | .host => held x.ipa
    | .s1 reason =>
      match s1.stage1Fail va reason (if acc = 3 then 1 else acc) ctx tile false with
      | some s2 =>
        set (park w s2)
        waitFor (.xlat (va.setWidth 54))
      | none => fault .xlat1 va 0
    | .s2 ipa =>
      if (s1.tower w).mmu.stage2 ipa = some .host then held ipa
      else if ← smcOr va ipa then ownPiece va ctx tile park acc n f
      else throw .gone

/-- Translate a whole range so, each page at its own tower. -/
def ownAll (va : W64) (ctx tile : BitVec 8) (park : BitVec 3 → State → State) (n acc : Nat) : M (List Piece) :=
  mapM' (pagePieces (n / 65536 + 2) va.toNat n) fun p => ownPiece (BitVec.ofNat 64 p.1) ctx tile park acc p.2 8

/-- Translate the whole range of a request. A checked page is refused back to another chip's issuer (R256). -/
def rqAll (r : RemoteReq) (n acc : Nat) : M (List Piece) := do
  let va : W64 := r.va.setWidth 64
  let ps ← ownAll va r.ctx r.tile (fun w s => s.modTower w fun x => { x with mmu := { x.mmu with
    stalledReqs := x.mmu.stalledReqs ++ [{ r with met := true }] } }) n acc
  faultIf (ps.any (fun p => p.x.chk) = true) .cap va 5
  pure ps

/-- Store bytes over translated pieces, each at its page's replicas (R189). -/
def State.storePieces (s : State) (ps : List Piece) (bs : List Byte) (w : Writer) (by_ : Who) : State :=
  (ps.foldl (fun (a : State × List Byte) p => (a.1.storePiece p (a.2.take p.len) w by_, a.2.drop p.len)) (s, bs)).1

/-- The requester as a setter (R300). -/
def reqWho (r : RemoteReq) : Who := { chip := r.fromChip.setWidth 8, tile := r.tile, eng := r.eng, issue := r.issue }

/-- POISON at an owner; `kind` is FINFO[1:0] of Table 13.1. The recorders of the tower freeze, and of the tile whose segment holds it
(R298). -/
def rqPoison (w : BitVec 3) (tile : Option (BitVec 8)) (va : W64) (kind : W64) : M α := do
  modS fun s => tile.elim (s.freezeTower w 1 va.toNat) fun t => s.freezePoison t va.toNat
  fault .poison va kind

/-- Who made PHASE of the object at a place differ last (R300). -/
def State.placeWho (s : State) (p : Place) : Who := (lookO (s.placeStore p).flips (p.addr / 16)).getD noWho

/-- A place of n bytes whose poison is refused, a word by the object or operand that is read. -/
def rqClean (p : Place) (n : Nat) (w : BitVec 3) (tile : Option (BitVec 8)) (va : W64) (kind : W64) : M Unit := do
  if !(((← get).placeStore p).poisoned p.addr n).isEmpty then rqPoison w tile va kind

/-- The place of a 16 B object, or of an atomic's operand. -/
def rqPlace (r : RemoteReq) (n : Nat) : M Place := do
  let va : W64 := r.va.setWidth 64
  let ps ← rqAll r n 2
  match ps with
  | p :: _ =>
    let q := Place.glob p.loc.1 p.loc.2 p
    rqClean q n (vaTower va) none va 2
    pure q
  | [] => fault .xlat1 va 0

/-- R94 for a request to a segment of a context's tile on this chip. One that waits for the segment's recall is kept for the case that the
recall fails (R100, R101). -/
def rqSeg (r : RemoteReq) (t c : BitVec 8) (p : W64) (n align : Nat) : M (SegRef × Segment) := do
  let s ← get
  match ((s.tile t).slotOfCtx c).bind fun k => ((s.slot t k).seg (ptrSeg p)).map fun g => (k, g) with
  | none => fault .segname p 0
  | some (k, g) =>
    faultIf (g.size < ptrOff p + n) .segbound p 0
    faultIf (align ≠ 0 ∧ ptrOff p % align ≠ 0) .align p 0
    if g.state ≠ .resident then modS fun s => s.modSlot t k fun x => { x with mem := { x.mem with
      asking := (g.num, r) :: x.mem.asking.filter fun a => a.2 ≠ r } }
    resident none t k g
    let q : SegRef := ⟨t, k, g.num, ptrOff p⟩
    modS fun s => s.touch q
    pure (q, g)

/-- A 16 B object in a segment. -/
def rqObj (r : RemoteReq) (t c : BitVec 8) (p : W64) : M Place := do
  let (q, _) ← rqSeg r t c p 16 16
  rqClean (.seg q) 16 (towerOf t) (some t) p 0
  pure (.seg q)

/-- The release that a request makes, as a tag. -/
def relClk (r : RemoteReq) : Option Clk := r.rel.map fun n => ⟨r.tile, n⟩

/-- An arrival of another chip (R177); the object carries its tag (R182). -/
def rqArrive (r : RemoteReq) (p : Place) (n : Nat) : M Unit := do
  if n ≠ 0 then
    let s ← get
    match objArrive (leNat (s.placeRead p 16)) n with
    | none => fault .barrier (r.va.setWidth 64) 0
    | some o => set (s.arrivePut p o (relClk r) r.fromChip (reqWho r))

/-- What a request that is carried out answers: bytes, who made PHASE of what it read differ, and the release tags it observed. -/
structure Served where
  bs : List Byte := []
  setter : Who := noWho
  tags : List Clk := []
  page : Nat := 0
  deriving DecidableEq, Repr, Inhabited

/-- What a read of a place answers: its bytes, who made its PHASE differ, and the release tags of the requester's chip. -/
def State.servePlace (s : State) (r : RemoteReq) (q : Place) (n ipa : Nat) : Served where
  bs := s.placeRead q n
  setter := s.placeWho q
  tags := seenTags false r.fromChip (s.placeTags q n)
  page := ipa

/-- What a request does at its owner. A row for a checked segment names none (R191). A store to a replicated page is answered when it is
presented again and its last replica is unlocked (R189). A barrier object that is read once more is not checked again (R330). -/
def serve (r : RemoteReq) : M Served := do
  let va : W64 := r.va.setWidth 64
  match r.op with
  | .read n => do
    let ps ← rqAll r n 0
    let s ← get
    if ps.any fun p => !((s.tower p.loc.1).gddr.poisoned p.loc.2 p.len).isEmpty then rqPoison (vaTower va) none va 2
    let bs := ps.flatMap fun p => (s.tower p.loc.1).gddr.read p.loc.2 p.len
    pure (ps.head?.elim {} fun p => { s.servePlace r (.glob p.loc.1 p.loc.2 p) n p.x.ipa with bs := bs })
  | .readAt ipa => do
    let s ← get
    match s.placeNow (.glob (vaTower va) 0 ⟨vaTower va, ⟨.host, ipa, false, false⟩, vaOff va % 65536, 16⟩) with
    | some q => pure (s.servePlace r q 16 ipa)
    | none => waitFor (.hostPage r.va ipa)
  | .check n taken => do
    let ps ← rqAll r n 1
    let s ← get
    if !taken && ps.any fun p => !((s.tower p.loc.1).gddr.partPoison p.loc.2 p.len).isEmpty then rqPoison (vaTower va) none va 2
    pure {}
  | .write bs taken => do
    if (← get).storesOf (.chip r) then
      modS fun s => s.finishStores (.chip r) (reqWho r)
      pure {}
    else
      let ps ← rqAll r bs.length 1
      let s ← get
      if !taken && ps.any fun p => !((s.tower p.loc.1).gddr.partPoison p.loc.2 p.len).isEmpty then rqPoison (vaTower va) none va 2
      modS fun s => s.storePieces ps bs (.chip r) (reqWho r)
      if (← get).storesOf (.chip r) then waitFor (.replica r.va)
      pure {}
  | .amo op dbl b c => do
    let n := if dbl then 8 else 4
    let p ← rqPlace r n
    let s ← get
    let old := s.placeRead p n
    match amoStore op n (BitVec.ofNat 64 (leNat old)) b c with
    | some v => set (s.amoPut p (leBytes n v.toNat) ((relClk r).map fun x => ⟨r.fromChip, x, true, true⟩) (reqWho r))
    | none => pure ()
    pure { bs := old, tags := seenTags true r.fromChip (s.placeTags p n) }
  | .arrive n => do
    rqArrive r (← rqPlace r 16) n.toNat
    pure {}
  | .put t c p bs => do
    let (q, g) ← rqSeg r t c p bs.length 0
    faultIf (g.check = true) .segname p 0
    if !(((← get).segStore q).partPoison q.off bs.length).isEmpty then rqPoison (towerOf t) (some t) p 0
    modS fun s => s.modSegStore q fun m => m.write q.off bs (reqWho r)
    pure {}
  | .arriveSeg t c p n => do
    rqArrive r (← rqObj r t c p) n.toNat
    pure {}
  | .readSeg t c p => do
    let q ← rqObj r t c p
    pure ((← get).servePlace r q 16 0)
  | .readSegAt t c p => do
    let s ← get
    match (s.tile t).slotOfCtx c with
    | some k => pure (s.servePlace r (.seg ⟨t, k, ptrSeg p, ptrOff p⟩) 16 0)
    | none => fault .segname p 0

/-- Whether a request names a partition and a place of this chip. -/
def State.serves (s : State) (r : RemoteReq) : Bool :=
  (s.partByNum r.part).any fun p =>
    let here := match r.op with
      | .put t _ _ _ => p.setup.towers.getLsbD (towerOf t).toNat
      | .arriveSeg t _ _ _ => p.setup.towers.getLsbD (towerOf t).toNat
      | .readSeg t _ _ => p.setup.towers.getLsbD (towerOf t).toNat
      | .readSegAt t _ _ => p.setup.towers.getLsbD (towerOf t).toNat
      | _ => vaChip (r.va.setWidth 64) == p.setup.chip && p.setup.towers.getLsbD (vaTower (r.va.setWidth 64)).toNat
    p.setup.chip != r.fromChip && here

/-- R255: a request of another chip is translated and carried out at its owner, and answered. While the owner cannot
proceed the request has no effect; it is taken when it is presented again. (DEDUCED, log 72) -/
def execRemoteRequest (r : RemoteReq) (st : State) : Ans :=
  if !st.serves r then .next st
  else
    -- a stage-2 failure that the SMC mapped is XLAT2 (R298)
    let w := vaTower (r.va.setWidth 64)
    let met (s : State) : Bool := r.met || decide ((s.tower w).mmu.s2 ≠ (st.tower w).mmu.s2)
    match serve r st with
    | .ok x s => .next (s.answer { id := r.id, cause := 0, finfo := 0, bs := x.bs, setter := x.setter, tags := x.tags, met := met s, page := x.page })
    | .error (.fault c _ i _) s => .next (s.answer { refusal r.id (causeCode c) i with met := met s })
    | .error (.wait _) s => .next s
    | .error .gone s => .next (s.answer (refusal r.id 0x0B 0))

/-! ## The fabric (R261, R262) -/

/-- Cycles of the fabric timeout: 2,250 c in a microsecond (R20). (DESIGN CHOICE, log 78) -/
def Partition.timeoutC (p : Partition) : Nat := p.timeoutUs * 2250

/-- The agent of a tile that FABRIC_TIMEOUT looks at: its request to another chip, with what it waits for. -/
def State.fabricAgt (s : State) (t : BitVec 8) (a : Agent) : Option (BitVec 2 × Agt) :=
  let x := s.tile t
  if a = .seq ∧ x.inRuntime = true then some (x.running.getD 0, x.rtAgt)
  else x.running.bind fun k => if x.inRuntime then none else some (k, s.agt t k a)

/-- R261, R262: the timeout of an agent's outstanding request runs out, counted from when that request was made. The owner is down from then on, and the request
completes with UNREACH; so does an access to a page that the host has not returned, and the next one asks again. -/
def execFabricTimeout (t : BitVec 8) (a : Agent) (st : State) : Ans :=
  match st.partOf t, st.fabricAgt t a with
  | some p, some (k, g) =>
    match g.wait with
    | none => .next st
    | some w =>
      match w.obj with
        | .hostPage va ipa =>
          if w.since < p.timeoutC then .next st else
          let s := st.modPart p.setup.num fun x => { x with awaiting := x.awaiting.filter (· ≠ (vaTower (va.setWidth 64), ipa)) }
          .next ((s.failWaiter ⟨t, k, a⟩ .unreach (va.setWidth 64)).deliver t)
        | _ =>
          match g.pend.bind fun id => st.host.outReqs.find? (·.id == id) with
          | none => .next st
          | some q =>
            if (st.tick - q.sent).toNat < p.timeoutC then .next st else
            let s := st.modPart p.setup.num fun x => { x with
              down := if x.down.contains q.toChip then x.down else q.toChip :: x.down }
            .next (s.takeReply (refusal q.id 0x14 0))
  | _, _ => .next st

/-- R261. -/
def execRouteUp (n : BitVec 8) (c : BitVec 3) (st : State) : Ans :=
  .next (st.modPart n fun p => { p with down := p.down.filter (· ≠ c) })

/-- R263: the hold after a move ends, 1 ms (2,250,000 c, R20) after it. (DEDUCED, log 68) -/
def execMoveHoldExpiry (w : BitVec 3) (page : Nat) (st : State) : Ans :=
  .next (st.modTower w fun x => { x with mmu := { x.mmu with holds := x.mmu.holds.filter fun h => !(h.page == page && decide (2250000 ≤ h.cycles)) } })

/-! ## Replicas, lines, the sweep -/

/-- WATCHDOG against the writer of a store to a replicated page (R189, R298): an agent raises it, the request of another chip is answered
with it, and a command is answered BUSY (DEDUCED, log 34). -/
def State.lockFails (s : State) (w : Writer) (n : Nat) : State :=
  match w with
  | .agent t k a =>
    let s1 := match k with
      | some k => s.keepWaiting t k a .watchdog (BitVec.ofNat 64 n)
      | none => if (s.tile t).inRuntime then s.failWaiter ⟨t, (s.tile t).tr.slotsel, .seq⟩ .watchdog (BitVec.ofNat 64 n) else s
    ((s1.freezeTile t 3 n).freezeTower (towerOf t) 3 n).deliver t
  | .chip r => s.answer { refusal r.id 0x15 (BitVec.ofNat 64 n) with met := r.met }
  | .host c => s.finishCmd 3 c stBUSY []
  | .answered => s

/-- The writer of a store that failed has its answer: what else of its store stands ends without one (R189, R275). -/
def State.answerOnce (s : State) (w : Writer) : State :=
  allTowers.foldl (fun s t => s.modTower t fun x => { x with mmu := { x.mmu with
    repStores := x.mmu.repStores.map fun q => if q.writer = w then { q with writer := .answered } else q } }) s

/-- R189, R298: a replica stays locked for more than 2 µs. The replicas written keep the new value, the others the old one,
the page is not replicated any more, and WATCHDOG is raised against the writer, once. -/
def execReplicaLockTimeout (w : BitVec 3) (page : Nat) (st : State) : Ans :=
  match (st.tower w).mmu.repStores.find? fun q => q.page == page && !q.locked.isEmpty && decide (4500 < q.cycles) with
  | none => .next st
  | some q =>
    .next (((st.modTower w fun x => { x with mmu := { x.mmu with
      repStores := x.mmu.repStores.filter (· ≠ q)
      unrep := if x.mmu.unrep.contains page then x.mmu.unrep else page :: x.mmu.unrep } }).answerOnce q.writer).lockFails q.writer q.cycles)

/-- R268: the background fill reaches a line. A line whose bit is set reads zeros already; the fill only clears the bit. -/
def execPendingZeroFill (w : BitVec 3) (layer : Bool) (line : Nat) (st : State) : Ans :=
  .next (st.modTower w fun x => { x with
    zeroed := if x.zeroed.contains (layer, line) then x.zeroed else (layer, line) :: x.zeroed })

/-- R194: the sweep of a context's checked metadata ends. (DEDUCED, log 63) -/
def execRaceSweepEnd (c : BitVec 8) (st : State) : Ans :=
  match st.ctxById c with
  | none => .next st
  | some cx =>
    if cx.sweeping = false then .next st
    else .next (cx.tiles.foldl (fun s t => s.modSlot t cx.slot fun x => { x with race := { x.race with wrapped := true } })
      (st.modCtx c fun y => { y with sweeping := false }))

end Sys2Proof.Machine
end

