-- ==== Sys2Proof/Machine/Dump.lean ====
section
/-! DEFINITION. The dump region after a fatal error (R252, R302): the header of Table 13.7 and its six sections. -/

namespace Sys2Proof.Machine

/-! ## What the sections hold -/

/-- A whole segment descriptor (Table 5.2). -/
def descBytes (t : BitVec 8) (g : Segment) : List Byte := leBytes 8 (g.backing.toNat * 2 ^ 6) ++ leBytes 8 (segDesc t g).toNat

/-- Section 3: every live segment's descriptor, by tile, slot and number. (DESIGN CHOICE, log 18) -/
def State.descDump (s : State) (p : Partition) : List Byte :=
  p.tiles.flatMap fun t => allSlots.flatMap fun k => (s.slot t k).mem.segs.flatMap (descBytes t)

/-- A register bank, in the order of Table 13.6. -/
def Bank.nums (b : Bank) : List Nat :=
  [b.pc.toNat] ++ b.g.toList.map (·.toNat) ++ b.f.toList.map (·.toNat) ++ [b.p.toNat] ++
    b.cap.toList.map (fun c => c.raw.toNat + 2 ^ 128 * b2n c.tag) ++ b.lc.toList.map (·.toNat) ++
    [b.rrb.toNat, b.lstat.toNat, b.fpmode.toNat]

def Entry.nums (e : Entry) : List Nat :=
  [e.blk.toNat, e.x.toNat, e.y.toNat, e.wtok.elim 8 (·.toNat), e.stok.elim 8 (·.toNat), e.issue.toNat, e.ctx.toNat, e.tile.toNat] ++
    e.lcs.toList.map (·.toNat)

/-- What an agent awaits, with its watchdog count. -/
def Agt.nums (a : Agt) : List Nat := a.wait.elim [0] fun w => (waitKind w.obj 0).elim [9, w.cycles] fun x => [x.1 + 1, x.2, w.cycles]

def Engine.nums (g : Engine) : List Nat :=
  g.cur.elim [] Entry.nums ++ [b2n g.admitted, g.unit, g.xs.item, g.rpt.elim 0 (·.i.toNat)] ++ g.agt.nums

def Queue.nums (q : Queue α) (f : α → List Nat) : List Nat := [q.items.length, b2n q.spare] ++ q.items.flatMap f

/-- What a stopped slot keeps, in the order of Table 13.6. -/
def Slot.nums (k : Slot) (sweep : Bool) : List Nat :=
  let fifo (q : Queue (Item W64)) : List Nat := q.nums fun i => [i.val.toNat]
  let rows (q : Queue (Item Row)) : List Nat := q.nums fun i => [i.val.toNat]
  [(k.ctx.getD 0xFF).toNat] ++ k.sq.bank.nums ++
    [k.mem.stkLimit.toNat, k.mem.quota.toNat, k.res] ++ k.mem.porter.toList.map (·.toNat) ++
    k.mem.bookings.flatMap (fun b => b.issue.toNat :: b.segs.map (·.toNat)) ++
    k.q.vec.nums Entry.nums ++ k.q.mat.nums Entry.nums ++ k.q.xfr.nums Entry.nums ++
    fifo k.q.vecSeq ++ fifo k.q.matSeq ++ fifo k.q.xfrSeq ++ rows k.q.vecMat ++ rows k.q.matVec ++ k.q.ev.nums (fun i => [i.val.toNat]) ++
    k.vec.nums ++ k.mat.nums ++ k.xfr.nums ++ k.sq.agt.nums ++ k.sems.count.toList.map (·.toNat) ++
    [k.vs.shape.toNat, k.vs.vrm.toNat, k.vs.guard.toNat] ++ k.vs.vp.toList.map (·.toNat) ++ k.vs.vs.toList.map (·.toNat) ++
    k.vs.ad.toList.map (·.toNat) ++
    k.ps.od.toList.map (·.toNat) ++ k.ps.asl.toList.map (·.toNat) ++
    [k.ps.fmtBase.toNat, k.ps.fmtLoop.toNat, k.ps.scale.toNat, k.ps.mslot.toNat, b2n k.ps.carry, k.ps.kadv.toNat, k.ps.mqPos.toNat,
      k.ps.mkPos.toNat, k.tstat.toNat] ++
    (match k.ps.policy with
      | .adaptive => [0]
      | .strict l => [1, l.toNat]
      | .report => [2]) ++
    (match k.ps.amt with
      | .unset => [0]
      | .seg p => [1, p.toNat]
      | .cap p c => [2, p.toNat, c.raw.toNat]) ++
    k.xs.xd.toList.flatMap (fun x => [x.raw.toNat, x.cap.raw.toNat]) ++
    k.xs.bo.toList.flatMap (fun x => [x.ptr.toNat, b2n x.valid, b2n x.remote]) ++
    k.masks.toList.flatMap (fun m => m.prog.map (·.toNat) ++ m.mp.toList.map (·.toNat) ++ m.runs ++ m.cnt.toList.map (·.toNat)) ++
    [(k.racectl sweep).toNat] ++ k.ranges.map (·.toNat) ++ [k.vtime.toNat]

/-- A tile's state as section 1 holds it: the runtime bank, then the four slots. -/
def State.tileNums (s : State) (t : BitVec 8) : List Nat :=
  (s.tile t).rt.nums ++ allSlots.flatMap fun k => (s.slot t k).nums ((s.ctxOf t k).any (·.sweeping))

/-- Section 2: the tower decode queues and the parked entries. -/
def State.queueDump (s : State) (p : Partition) : List Byte :=
  Config.dumpQueues ((allTowers.filter fun w => p.setup.towers.getLsbD w.toNat).flatMap fun w =>
    let d := (s.tower w).dec
    let one (e : DecEntry) : List Nat := e.e.nums ++ [e.unit, b2n e.begun]
    (d.cur.elim [] one) ++ d.q.nums one ++ [d.parked.length] ++ d.parked.flatMap one)

/-- Section 5: tile recorders by tile number, then tower recorders, each 64 KiB, frames oldest first (R302). -/
def State.recDump (s : State) (p : Partition) : List Byte :=
  (p.tiles.flatMap fun t => padTo 65536 (((s.tile t).recorder.all 0 t).flatMap id)) ++
    (allTowers.filter fun w => p.setup.towers.getLsbD w.toNat).flatMap fun w =>
      padTo 65536 (((s.tower w).recorder.all 1 (w.setWidth 8)).flatMap id)

/-- A byte of section 6: for a tile, the rows of its 256 accumulator tiles, then 8 KiB for the sideband words, which is a quarter of
what they are and which no rule lays out. (DESIGN CHOICE, log 18) -/
def State.accDump (s : State) (p : Partition) (i : Nat) : Byte :=
  let t := p.tiles.getD (i / 0x102000) 0
  let o := i % 0x102000
  if o < 0x100000 then
    BitVec.ofNat 8 (((s.acc t (BitVec.ofNat 8 (o / 4096))).row (BitVec.ofNat 5 (o / 128))).toNat / 2 ^ (8 * (o % 128)))
  else Config.dumpByte ((List.range 256).flatMap fun n => (s.acc t (BitVec.ofNat 8 n)).side.toList.map (·.toNat)) (o - 0x100000)

/-! ## The region -/

/-- The sections in order: size, and the byte at an offset. -/
def State.dumpSections (s : State) (p : Partition) : List (Nat × (Nat → Byte)) :=
  let bytes (l : List Byte) : Nat × (Nat → Byte) := (l.length, fun i => l.getD i 0)
  [(0x10000 * p.tiles.length, fun i => Config.dumpByte (s.tileNums (p.tiles.getD (i / 0x10000) 0)) (i % 0x10000)),
   bytes (s.queueDump p), bytes (s.descDump p), bytes p.logDump, bytes (s.recDump p),
   (0x102000 * p.tiles.length, s.accDump p)]

/-- The six section records: kind, offset, size. The sections follow the header and each other. (DESIGN CHOICE, log 18) -/
def sectionRecords : Nat → Nat → List Nat → List Byte
  | _, _, [] => []
  | kind, off, n :: r => leBytes 4 kind ++ leBytes 4 0 ++ leBytes 4 off ++ leBytes 4 n ++ sectionRecords (kind + 1) (off + n) r

/-- The byte at an offset of sections that follow each other. -/
def sectionByte : Nat → List (Nat × (Nat → Byte)) → Byte
  | _, [] => 0
  | i, (n, f) :: r => if i < n then f i else sectionByte (i - n) r

/-- A byte of the dump region (Table 13.7). -/
def State.dumpAt (s : State) (p : Partition) (code : BitVec 8) (tick fcause : W64) (off : Nat) : Byte :=
  let secs := s.dumpSections p
  if off < 4096 then (dumpHeader code p tick fcause ++ sectionRecords 1 4096 (secs.map (·.1))).getD off 0
  else sectionByte (off - 4096) secs

end Sys2Proof.Machine
end

