-- ==== Sys2Proof/Machine/Launch.lean ====
section
/-! DEFINITION. FIRMWARE_LAUNCH: the LAUNCH body (R272), the OVO object (R80 to R89), the checks of Table 12.4 (R91, R437,
R320), the launch (R92, R96). -/

namespace Sys2Proof.Machine

/-! ## Reading an object -/

/-- The n-byte number at an offset. -/
def rdN (img : List Byte) (off n : Nat) : Nat := leNat ((img.drop off).take n)

/-- The 32-bit words of a range. -/
def wordsAt (img : List Byte) (off : Nat) : Nat → List Word
  | 0 => []
  | n + 1 => BitVec.ofNat 32 (rdN img off 4) :: wordsAt img (off + 4) n

/-- A section record (R82): code, offset, size. -/
structure Sect where
  code : Nat
  off : Nat
  size : Nat
  deriving DecidableEq, Repr, Inhabited

def sects (img : List Byte) : List Sect :=
  (List.range (rdN img 24 2)).map fun i =>
    let a := rdN img 48 4 + 16 * i
    ⟨rdN img a 1, rdN img (a + 4) 4, rdN img (a + 8) 4⟩

/-- A section record (R82): code, offset, size; the first of those with the code, where no check names a second (DESIGN CHOICE, log 121). -/
def sectOf (img : List Byte) (code : Nat) : Sect := ((sects img).find? (·.code == code)).getD ⟨code, 0, 0⟩

/-- The words of a code section; code of R82. Bytes that fill no word are dropped (DESIGN CHOICE, log 121). -/
def codeWords (img : List Byte) (code : Nat) : List Word :=
  let x := sectOf img code
  wordsAt img x.off (x.size / 4)

/-- The offsets of the five block tables, VEC, MAT, XFR, MSK, DEC, and where they end (R83). -/
def blockTabs (img : List Byte) : List Nat × Nat :=
  (List.range 5).foldl (fun a _ => (a.1 ++ [a.2], a.2 + 4 + 16 * rdN img a.2 4)) ([], rdN img 36 4)

/-- A block table. -/
def blockTab (img : List Byte) (e : Nat) : List Block :=
  let a := (blockTabs img).1.getD e 0
  (List.range (rdN img a 4)).map fun i =>
    let b := a + 4 + 16 * i
    ⟨rdN img b 4, rdN img (b + 4) 2, (List.range (min 4 (rdN img (b + 6) 1))).map fun j => BitVec.ofNat 16 (rdN img (b + 8 + 2 * j) 2)⟩

/-- A parameter record (R87): kind, index. -/
def params (img : List Byte) : List (Nat × Nat) :=
  let a := rdN img 52 4
  (List.range (rdN img a 4)).map fun i => (rdN img (a + 4 + 8 * i) 1, rdN img (a + 5 + 8 * i) 1)

/-- A segment record (R85). -/
structure SegRec where
  num : Nat
  span : Nat
  attrs : Nat
  size : Nat
  home : Nat
  init : Nat
  ioff : Nat
  ilen : Nat
  zero : Bool
  deriving DecidableEq, Repr, Inhabited

def segRecs (img : List Byte) : List SegRec :=
  let a := rdN img 40 4
  (List.range (rdN img a 4)).map fun i =>
    let b := a + 4 + 32 * i
    ⟨rdN img b 2, rdN img (b + 2) 1, rdN img (b + 3) 1, rdN img (b + 4) 4, rdN img (b + 8) 1, rdN img (b + 16) 1,
     rdN img (b + 20) 4, rdN img (b + 24) 4,
     rdN img (b + 9) 3 == 0 && rdN img (b + 17) 3 == 0 && rdN img (b + 28) 4 == 0⟩

/-- A PARAM relocation (R89): section code, byte offset, parameter record index. -/
structure ParamRel where
  code : Nat
  off : Nat
  par : Nat
  deriving DecidableEq, Repr, Inhabited

/-- The PARAM relocations of an object. The symbol's value is kind × 256 + index (R88). -/
def paramRels (img : List Byte) : List ParamRel :=
  let r := sectOf img 13
  let y := sectOf img 12
  let ps := params img
  (List.range (r.size / 16)).filterMap fun i =>
    let a := r.off + 16 * i
    if rdN img (a + 5) 1 = 6 then
      let v := rdN img (y.off + 4 + 16 * rdN img (a + 8) 4 + 8) 8
      some ⟨rdN img (a + 4) 1, rdN img a 4, ps.findIdx fun p => p == (v / 256, v % 256)⟩
    else none

/-! ## PARAM fields -/

/-- The immediate field of a word by its format: high bit, low bit, signed (R89, R163, Tables 17.2, 17.4, 17.6). Where no rule says
that an immediate is signed (imm20, imm11 and imm22, the imm18 of a repeat or of RANGE) it is unsigned. (DESIGN CHOICE, log 97) -/
def immField (code : Nat) (w : Word) : Option (Nat × Nat × Bool) :=
  let op := bits w 31 26
  if code = 0 then
    if op = 0x01 then some (9, 0, bits w 12 10 == 0 || bits w 12 10 == 7)
    else if op = 0x05 then some (9, 0, true)
    else if op = 0x22 ∨ op = 0x32 then some (9, 0, false)
    else if op = 0x1C then some (12, 0, true)
    else if op = 0x2A ∨ op = 0x2C ∨ op = 0x1D ∨ op = 0x28 ∨ op = 0x29 then some (12, 0, false)
    else if [0x0E, 0x0F, 0x10, 0x11, 0x14, 0x15, 0x17, 0x18].contains op then some (9, 0, true)
    else if op = 0x03 then some (17, 0, true)
    else if op = 0x02 ∨ op = 0x1E ∨ op = 0x2D then some (17, 0, false)
    else none
  else if code = 1 then
    if op = 0x17 ∨ op = 0x18 then some (13, 3, false)
    else if [0x0B, 0x0C, 0x11, 0x12, 0x13, 0x19, 0x1D].contains op then some (19, 0, false)
    else none
  else if code = 3 then some (20, 13, false)
  else if code = 4 then some (21, 0, false)
  else none

/-- Whether a parameter's value fits a field (R73). -/
def fitsField (v : W64) (hi lo : Nat) (sg : Bool) : Bool :=
  let n := hi + 1 - lo
  if sg then decide (-(2 ^ (n - 1) : Nat) ≤ v.toInt) && decide (v.toInt < (2 ^ (n - 1) : Nat)) else decide (v.toNat < 2 ^ n)

/-- The section that a code names (R82, R303). -/
def sectionOf (code : Nat) : Section :=
  match code with
  | 0 => .seq
  | 1 => .vec
  | 2 => .mat
  | 3 => .xfr
  | _ => .dec

/-- Whether a word is an instruction, or a mask word that R320 admits. -/
def wordOk (code : Nat) (w : Word) : Bool :=
  if code = 4 then maskWordOk w
  else match decodeWord (sectionOf code) w with
    | .ok _ => true
    | .error _ => false

/-! ## Check 7 (R320, R56, R57, R376) -/

/-- Whether every repeat of a stepped word is an instruction. -/
def repsOk (code : Nat) (step : Word → Rpt → Word) (w : Word) (n a b c : Nat) : Bool :=
  (List.range n).all fun i =>
    wordOk code (step w ⟨BitVec.ofNat 7 n, BitVec.ofNat 3 a, BitVec.ofNat 3 b, BitVec.ofNat 3 c, BitVec.ofNat 7 i⟩)

/-- Whether a word passes a test, or where a PARAM relocation fills its field, some value of the field makes it pass (R437). -/
def someFill (code : Nat) (fill : Bool) (w : Word) (ok : Word → Bool) : Bool :=
  match (if fill then immField code w else none) with
  | none => ok w
  | some (hi, lo, _) => (List.range (2 ^ (hi + 1 - lo))).any fun v => ok (setBits w hi lo v)

/-- Whether a vrpt and the word that follows it obey R56 and R57. A vrpt whose own fields a parameter fills can always repeat once. -/
def vrptOk (skip : Nat → Bool) (n : Nat) (w x : Word) : Bool :=
  !([0x1D, 0x15, 0x16].contains (bits x 31 26)) && (skip n ||
    someFill 1 (skip (n + 1)) x fun y => repsOk 1 stepVec y (bits w 19 14 + 1) (bits w 13 11) (bits w 10 8) (bits w 7 5))

/-- Whether an mrpt and the word that follows it obey R376. -/
def mrptOk (w x : Word) : Bool :=
  [0x00, 0x03, 0x04, 0x05, 0x06, 0x0C, 0x08].contains (bits x 31 27) && match decodeWord .mat w with
    | .ok (.mrpt k a b e) => repsOk 2 stepMat x (k.toNat + 1) a.toNat b.toNat e.toNat
    | _ => true

/-- Whether a transfer step takes its row indices from an xidx: an xgath, an xscat, or an xred with IDX (R169). -/
def isIndexed (w : Word) : Bool := bits w 31 27 == 0x01 || bits w 31 27 == 0x02 || (bits w 31 27 == 0x05 && bit w 5)

/-- The index in a block of a word that breaks a rule about its neighbours (R56, R57, R376, R169); `n` is the index of the list's
first word, `prev` says that an xidx stands before it, `skip` names the words that a PARAM field leaves open. For a forbidden
successor it is the successor, at a block's end the prefix. (DESIGN CHOICE, log 97) -/
def badNext (code : Nat) (skip : Nat → Bool) : Nat → Bool → List Word → Option Nat
  | _, _, [] => none
  | n, prev, w :: r =>
    let vrpt := code == 1 && bits w 31 26 == 0x1D
    let mrpt := code == 2 && bits w 31 27 == 0x0D
    let xidx := code == 3 && bits w 31 27 == 0x03
    if code = 3 ∧ isIndexed w ≠ prev then some (if isIndexed w then n else n - 1)
    else match r with
      | [] => if vrpt || mrpt || xidx then some n else none
      | x :: _ => if (vrpt && !vrptOk skip n w x) || (mrpt && !mrptOk w x) then some (n + 1) else badNext code skip (n + 1) xidx r

/-- The first word of a section that check 7 refuses, as a byte offset; `skip` says which byte offsets a PARAM field leaves open.
Words that are no instruction come before those that break a rule about their neighbours. (DESIGN CHOICE, log 97) -/
def badWord (code : Nat) (ws : List Word) (blks : List Block) (skip : Nat → Bool) : Option Nat :=
  match (List.range ws.length).find? fun i => !someFill code (skip (4 * i)) (ws.getD i 0) (wordOk code) with
  | some i => some (4 * i)
  | none => blks.findSome? fun b =>
    (badNext code (fun i => skip (4 * (b.start + i))) 0 false ((ws.drop b.start).take b.len)).map fun i => 4 * (b.start + i)

/-! ## The checks of Table 4.12: a status with its value; a value that no rule states is none -/

abbrev Fail := Nat × Option Nat

def orElse' (a : Option Fail) (b : Unit → Option Fail) : Option Fail :=
  match a with
  | some x => some x
  | none => b ()

/-- Check 2: FLAGS, offsets and sizes within SIZE, sections apart. A code section of more than 2^22 words fails it with its own code,
and of two sections that overlap the later record's code is given. ENTRY is an offset within .seq and no offset of the object: no
check looks at it, and one past .seq ends in FETCHBOUND (R244). (DESIGN CHOICE, log 97) -/
def chkLayout (img : List Byte) : Option Fail :=
  let size := rdN img 56 4
  let ss := sects img
  if rdN img 6 2 % 2 = 0 ∨ img.length < size ∨ size < 128 ∨ size < rdN img 48 4 + 16 * rdN img 24 2 then some (2, none)
  else match ss.find? fun x => size < x.off + x.size || (decide (x.code < 6) && decide (2 ^ 24 < x.size)) with
    | some x => some (2, some x.code)
    | none =>
      match (List.range ss.length).find? fun i => (List.range i).any fun j =>
          let a := ss.getD i default
          let b := ss.getD j default
          a.size ≠ 0 ∧ b.size ≠ 0 ∧ a.off < b.off + b.size ∧ b.off < a.off + a.size with
      | some i => some (2, some (ss.getD i default).code)
      | none =>
        if size < rdN img 32 4 + 4 + 8 * rdN img (rdN img 32 4) 4 then some (2, some 7)
        else if size < (blockTabs img).2 then some (2, some 6)
        else if size < rdN img 40 4 + 4 + 32 * rdN img (rdN img 40 4) 4 then some (2, some 8)
        else if size < rdN img 44 4 + 60 then some (2, some 9)
        else if size < rdN img 52 4 + 4 + 8 * rdN img (rdN img 52 4) 4 then some (2, none)
        else none

/-- Check 3: CAPMASK0 is 0xFF and CAPMASK1 0; a disabled KV store lacks bit 4 (R219). -/
def chkFeature (img : List Byte) (kv : Bool) : Option Fail :=
  ((List.range 128).find? fun i => rdN img 8 16 / 2 ^ i % 2 = 1 ∧ (8 ≤ i ∨ (i = 4 ∧ kv = false))).map fun i => (3, some i)

/-- A loop level as the walker uses it; none where its extent names no integer parameter. A parameter's index is its record index
in the parameter table, as in R437 (DESIGN CHOICE, log 97). One that the launch did not supply counts as 0 here: check 9 alone fails for it
(DESIGN CHOICE, log 118). -/
def levelOf (img : List Byte) (ints : List W64) (i : Nat) : Option Level3 :=
  let a := rdN img 32 4 + 4 + 8 * i
  let v := rdN img (a + 4) 4
  let ext : Option Nat := match rdN img (a + 2) 1 with
    | 0 => some v
    | 1 => match (params img)[v]? with
      | some (0, n) => some ((ints.getD n 0).toNat % 2 ^ 32)
      | _ => none
    | _ => none
  ext.map fun e => ⟨BitVec.ofNat 8 (rdN img a 1), BitVec.ofNat 2 (rdN img (a + 1) 1), e⟩

/-- Levels from i on: ids of T levels seen, the running product of the D and S extents (R437); `big` says that the whole product
exceeds 2^48 (R40). -/
def loopGo (img : List Byte) (ints : List W64) (big : Bool) : Nat → Nat → List Nat → Nat → Option Fail
  | 0, _, _, _ => none
  | f + 1, i, ids, prod =>
    let a := rdN img 32 4 + 4 + 8 * i
    let kind := rdN img a 1
    let id := rdN img (a + 1) 1
    match levelOf img ints i with
    | none => some (4, some i)
    | some l =>
      if 2 < kind ∨ (kind = 2 ∧ (3 < id ∨ ids.contains id = true)) then some (4, some i)
      else if kind = 2 then loopGo img ints big f (i + 1) (id :: ids) prod
      else if big = true ∧ 2 ^ 48 < prod * l.extent then some (4, some i)
      else loopGo img ints big f (i + 1) ids (prod * l.extent)

/-- The product of the D and S extents of a table of n levels. -/
def allPoints (img : List Byte) (ints : List W64) (n : Nat) : Nat :=
  ((List.range n).filterMap (levelOf img ints)).foldl (fun a l => if l.kind = 2 then a else a * l.extent) 1

/-- Check 4. -/
def chkLoops (img : List Byte) (ints : List W64) : Option Fail :=
  let n := rdN img (rdN img 32 4) 4
  if n = 0 then some (4, some 0)
  else if 6 < n then some (4, some 6)
  else loopGo img ints (decide (2 ^ 48 < allPoints img ints n)) n 0 [] 1

/-- Check 5 (R85, R96). A table that lacks even STACK fails it with value 0, and an initialiser
that leaves its section with its record index. (DESIGN CHOICE, log 97) -/
def chkSegs (img : List Byte) (tiles : Nat) : Option Fail :=
  let rs := segRecs img
  if 4096 < rs.length then some (5, some 4096)
  else if rs.isEmpty then some (5, some 0)
  else
    let bad (i : Nat) : Bool :=
      let r := rs.getD i default
      r.num != i || decide (7 < r.span) || decide (7 < r.attrs) || !r.zero || r.size % 64 != 0 || decide (r.size < 64) ||
      decide (0x800000 < r.size) || (r.home != 0xFF && decide (tiles ≤ r.home)) || (r.home == 0xFF && bit (BitVec.ofNat 8 r.attrs) 2) ||
      decide (r.size < r.ilen) || !([10, 11, 0xFF].contains r.init) ||
      (r.init != 0xFF && decide ((sectOf img r.init).size < r.ioff + r.ilen)) ||
      (i == 0 && (r.span != 0 || r.attrs != 0 || r.home != 0xFF))
    ((List.range rs.length).find? bad).map fun i => (5, some i)

/-- An operand field is legal (R83). -/
def operandOk (o : BitVec 16) : Bool :=
  bits o 13 12 == 0 && (bits o 15 14 == 1 || bits o 11 0 == 0)

/-- Check 6. Operand words past the count must be zero, and KIND 00 within it is legal: no rule says either (DESIGN CHOICE, log 119). -/
def chkBlocks (img : List Byte) : Option Fail :=
  (List.range 5).findSome? fun e =>
    let a := (blockTabs img).1.getD e 0
    let n := rdN img a 4
    let bad (i : Nat) : Bool :=
      let b := a + 4 + 16 * i
      let len := rdN img (b + 4) 2
      let nops := rdN img (b + 6) 1
      decide ((codeWords img (e + 1)).length < rdN img b 4 + len) || len == 0 || (e == 3 && decide (16 < len)) ||
      decide (4 < nops) || rdN img (b + 7) 1 != 0 ||
      (List.range 4).any fun j =>
        let o := BitVec.ofNat 16 (rdN img (b + 8 + 2 * j) 2)
        !operandOk o || (decide (nops ≤ j) && o != 0)
    if (if e = 3 then 8 else 64) < n then some (6, some (0x200 + e))
    else ((List.range n).find? bad).map fun i => (6, some (64 * e + i))

/-- The five sections that check 7 judges, given the words of each. -/
def chkWords (img : List Byte) (ws : Nat → List Word) (skip : Nat → Nat → Bool) : Option (Nat × Nat) :=
  [1, 2, 3, 4, 5].findSome? fun c => (badWord c (ws c) (blockTab img (c - 1)) (skip c)).map fun o => (c, o)

/-- Check 8 (R86). -/
def chkFmt (img : List Byte) : Option Fail :=
  ((List.range 15).find? fun i =>
    let v := rdN img (rdN img 44 4 + 4 * i) 4
    let af := v % 16
    let bf := v / 16 % 16
    let acc := v / 256 % 2
    decide (512 ≤ v) || decide (6 < af) || decide (6 < bf) || (af == 6) != (acc == 1) || (bf == 6) != (acc == 1)).map
      fun i => (8, some i)

/-- A section with its PARAM fields filled in (R92). -/
def patched (img : List Byte) (ints : List W64) (code : Nat) : List Word :=
  (paramRels img).foldl (fun ws r =>
    if r.code = code then
      match (params img)[r.par]?, ws[r.off / 4]? with
      | some (_, n), some w => match immField code w with
        | some (hi, lo, _) => ws.set (r.off / 4) (setBits w hi lo (ints.getD n 0).toNat)
        | none => ws
      | _, _ => ws
    else ws) (codeWords img code)

/-- Check 9 (R437, Table 4.14). Where a repeat fails, the parameter is the one that fills the repeated word or the vrpt before it. A record
that no rule covers fails here too: a symbol that names no parameter record, a word without an immediate field or outside a code section;
an offset that is not aligned patches the word that it lies in (DESIGN CHOICE, log 120). -/
def chkParams (img : List Byte) (ints : List W64) (ncap : Nat) : Option Fail :=
  let ps := params img
  let declared (k : Nat) : Nat := (ps.filter fun p => p.1 = k).length
  match (List.range ps.length).find? fun i => match ps[i]? with
      | some (0, n) => decide (ints.length ≤ n)
      | some (1, n) => decide (ncap ≤ n)
      | _ => true with
  | some i => some (9, some i)
  | none =>
    if declared 0 < ints.length ∨ declared 1 < ncap then some (9, some ps.length)
    else
      let badRel (r : ParamRel) : Bool :=
        match ps[r.par]?, (codeWords img r.code)[r.off / 4]? with
        | some (0, n), some w => match immField r.code w with
          | some (hi, lo, sg) => !fitsField (ints.getD n 0) hi lo sg || !wordOk r.code ((patched img ints r.code).getD (r.off / 4) 0)
          | none => true
        | _, _ => true
      match (paramRels img).find? badRel with
      | some r => some (9, some r.par)
      | none =>
        match chkWords img (patched img ints) (fun _ _ => false) with
        | none => none
        | some (c, o) =>
          some (9, some (((paramRels img).find? fun r => r.code == c && (r.off == o || r.off + 4 == o)).elim 0 (·.par)))

/-- The booking bound of a block (R108). -/
def boundOf (img : List Byte) (b : Block) : Nat :=
  let rs := segRecs img
  let big := (rs.drop 1).foldl (fun m r => max m r.size) 0
  let fixed := (b.ops.filterMap fun o => if bits o 15 14 = 1 ∧ bits o 11 0 ≠ 0 then some (bits o 11 0) else none).foldl
    (fun l n => if l.contains n then l else n :: l) []
  (fixed.foldl (fun a n => a + (rs.getD n default).size) 0) + big * (b.ops.filter fun o => bits o 15 14 ≥ 2).length

/-- B of an object (R108). -/
def spareBof (img : List Byte) : Nat :=
  (List.range 5).foldl (fun m e => (blockTab img e).foldl (fun m b => max m (boundOf img b)) m) 0

/-- Check 10, for the QUOTA of each tile; a block without operands books nothing. -/
def chkBooking (img : List Byte) (quotas : List Nat) : Option Fail :=
  let b := spareBof img
  (List.range 5).findSome? fun e =>
    ((List.range (blockTab img e).length).find? fun i =>
      let k := (blockTab img e).getD i default
      k.ops.any (fun o => bits o 15 14 != 0) && quotas.any fun q => decide (q < boundOf img k + b)).map fun i => (10, some (64 * e + i))

/-- Check 11. -/
def chkAcc (img : List Byte) : Option Fail :=
  let (a, n) := Config.accuse img
  if 256 < a + n then some (11, some a) else none

/-- The checks in order, the first failure (R91). -/
def validate (img : List Byte) (kv : Bool) (ints : List W64) (ncap tiles : Nat) (quotas : List Nat) : Option Fail :=
  let skip (c o : Nat) : Bool := (paramRels img).any fun r => r.code == c && r.off == o
  orElse' (if rdN img 0 4 ≠ 0x314F564F ∨ rdN img 4 2 ≠ 1 then some (1, some 0) else none) fun _ =>
  orElse' (chkLayout img) fun _ =>
  orElse' (chkFeature img kv) fun _ =>
  orElse' (chkLoops img ints) fun _ =>
  orElse' (chkSegs img tiles) fun _ =>
  orElse' (chkBlocks img) fun _ =>
  orElse' ((chkWords img (codeWords img) skip).map fun (c, o) => (7, some (c * 2 ^ 32 + o))) fun _ =>
  orElse' (chkFmt img) fun _ =>
  orElse' (chkParams img ints ncap) fun _ =>
  orElse' (chkBooking img quotas) fun _ => chkAcc img

/-! ## The launch (R92) -/

/-- A context's own copy of its code. -/
def codeOf (img : List Byte) (ints : List W64) : Code where
  seq := patched img ints 0
  vec := patched img ints 1
  mat := patched img ints 2
  xfr := patched img ints 3
  msk := patched img ints 4
  dec := patched img ints 5
  blkVec := blockTab img 0
  blkMat := blockTab img 1
  blkXfr := blockTab img 2
  blkMsk := blockTab img 3
  blkDec := blockTab img 4
  levels := (List.range (rdN img (rdN img 32 4) 4)).filterMap (levelOf img ints)
  fmt := (List.range 15).map fun i => BitVec.ofNat 32 (rdN img (rdN img 44 4 + 4 * i) 4)
  entry := rdN img 28 4
  spareB := spareBof img

/-- The bytes that a segment starts with. -/
def initOf (img : List Byte) (r : SegRec) : Store :=
  if r.init = 0xFF then {}
  else { bytes := writeBytes [] 0 ((img.drop ((sectOf img r.init).off + r.ioff)).take r.ilen) }

/-- Create the segments in number order; the index of a record that cannot be made resident (R96). -/
def createAll (img : List Byte) (k : BitVec 2) (tiles : List (BitVec 8)) : Nat → List SegRec → State → Except Nat State
  | _, [], s => .ok s
  | i, r :: rs, s =>
    let g : Segment := {
      num := BitVec.ofNat 12 r.num, size := r.size, span := BitVec.ofNat 3 r.span, check := r.attrs % 2 == 1,
      pin := r.attrs / 2 % 2 == 1 || i == 0, shared := r.attrs / 4 % 2 == 1, state := .backed, frame := 0, backing := 0,
      touch := 0, store := initOf img r }
    let homes := if r.home = 0xFF then tiles else (tiles.drop r.home).take 1
    match homes.foldl (fun (a : Option State) t => a.bind fun s => s.createSeg t k g) (some s) with
    | none => .error i
    | some s1 => createAll img k tiles (i + 1) rs s1

/-- A capability parameter as it arrives (R272): its tag is set where TENANT is the partition's and its region lies in the
partition's virtual address space: every tower that it meets is one that the partition holds on that chip. -/
def State.arriveCap (s : State) (p : Partition) (raw : BitVec 128) : Cap :=
  let c : Cap := ⟨raw, true⟩
  let met (i : Nat) : Bool := decide (i * 2 ^ 48 < c.base + max 1 c.len) && decide (c.base < (i + 1) * 2 ^ 48)
  let inside := (List.range 64).all fun i => !met i || setupReaches p.setup (BitVec.ofNat 64 (i * 2 ^ 48))
  ⟨raw, c.tenant == s.partid (p.tiles.headD 0) % 2 ^ 16 && !c.malformed && inside⟩

/-- Make a validated context: a CTXID among the free ones (no rule says which: DESIGN CHOICE, log 3), its slots, segments, `.accuse`
tiles, mask slots and slot tables. A free tile that `.accuse` records keeps what its rows hold: no rule clears it (DESIGN CHOICE,
log 107). -/
def State.makeCtx (s : State) (p : Partition) (img : List Byte) (ints : List W64) (caps : List (BitVec 128))
    (tiles : List (BitVec 8)) (k : BitVec 2) (quota : Option (BitVec 24)) (weight : Nat) (session seq : W64) :
    Except Fail (BitVec 8 × State) :=
  let free := (List.range 255).filter fun n => !(s.ctxs.any fun c => c.id.toNat == n)
  match free with
  | [] => .error (0x0D, some 0)
  | _ =>
    let (v, s0) := s.draw
    let id := BitVec.ofNat 8 (free.getD (v.toNat % free.length) 0)
    let cx : Context := {
      id := id, part := p.setup.num, slot := k, tiles := tiles, code := codeOf img ints, weight := weight,
      caps := caps.map (s.arriveCap p), handed := [], started := 0, done := 0, sweeping := false, complete := false, session := session,
      seq := seq }
    let (a0, an) := Config.accuse img
    let s1 := tiles.foldl (fun s t => s.modSlot t k fun x =>
      let y := x.freed
      { y with ctx := some id, mem := { y.mem with quota := quota.getD y.mem.quota } }) s0
    match createAll img k tiles 0 (segRecs img) { s1 with ctxs := s1.ctxs ++ [cx] } with
    | .error i => .error (5, some i)
    | .ok s2 =>
      let s3 := tiles.foldl (fun s t => (List.range an).foldl (fun s i => s.modAcc t (BitVec.ofNat 8 (a0 + i)) fun a =>
        if a.owner = 0xFF then { a with owner := id } else a) s) s2
      let tw := allTowers.filter fun w => tiles.any fun t => towerOf t = w
      .ok (id, tw.foldl (fun s w => (s.modTower w fun x => { x with
        dctx := x.dctx ++ [DecCtx.mk id (Vector.replicate 8 MaskSlot.reset) (Vector.replicate 8 0)]
        wrr := x.wrr ++ [(id, weight)] }).clearSlots w cx) s3)

/-- The tiles of a context: in each tower of the mask the lowest whose slot is empty; none where a tower has too few, or
is not the partition's (R272). -/
def State.pickTiles (s : State) (p : Partition) (mask : BitVec 8) (n : Nat) (k : BitVec 2) : Option (List (BitVec 8)) :=
  allTowers.foldl (fun a w =>
    if mask.getLsbD w.toNat then
      let free := (tilesOf w).filter fun t => (s.tile t).up && p.tiles.contains t && ((s.slot t k).ctx).isNone
      if p.setup.towers.getLsbD w.toNat = false ∨ free.length < n then none else a.map fun l => l ++ free.take n
    else a) (some [])

/-- One launch: the checks of R272, R91, then R92. (DEDUCED, log 20) -/
def State.launch (s : State) (p : Partition) (body : List Byte) (len : Nat) (k : BitVec 2) (q : W64) (session seq : W64) :
    Except Fail (BitVec 8 × State) :=
  let ni := rdN body 7 1
  let nc := rdN body 8 1
  let mask := BitVec.ofNat 8 (rdN body 4 1)
  let per := rdN body 5 1
  let weight := rdN body 6 1
  match s.host.objs.find? fun o => o.handle.toNat = rdN body 0 4 ∧ o.kind = 0 ∧ o.part = p.setup.num with
  | none => .error (1, some 0)
  | some o =>
    if rdN body 9 7 ≠ 0 ∨ 32 < ni ∨ 8 < nc ∨ per = 0 ∨ 32 < per ∨ weight = 0 ∨ 16 < weight ∨ mask = 0 ∨
        len < 16 + 8 * ni + 16 * nc then .error (1, some 0)
    else match s.pickTiles p mask per k with
      | none => .error (0x0C, none)
      | some tiles =>
        let ints := (List.range ni).map fun i => BitVec.ofNat 64 (rdN body (16 + 8 * i) 8)
        let caps := (List.range nc).map fun i => BitVec.ofNat 128 (rdN body (16 + 8 * ni + 16 * i) 16)
        let quota : Option (BitVec 24) := if q = 0 then none else some (quotaWrite q)
        let quotas := tiles.map fun t => (quota.getD (s.slot t k).mem.quota).toNat
        match validate o.image p.setup.kv ints nc tiles.length quotas with
        | some f => .error f
        | none => s.makeCtx p o.image ints caps tiles k quota weight session seq

/-- R269 call 6, R272. -/
def execFirmwareLaunch (q : BitVec 3) (st : State) : Ans :=
  fw q 6 st do
    let va := st.bank.gr 4
    let k := (st.bank.gr 5).toNat
    match st.partOf st.cur with
    | none => badArg
    | some p =>
      if 4 ≤ k ∨ !p.ownVa va then badArg
      else match st.devRead (va - 32) 32 with
        | none => badArg
        | some h =>
          let len := rdN h 4 4
          let seq := BitVec.ofNat 64 (rdN h 8 8)
          let session := BitVec.ofNat 64 (rdN h 16 8)
          match st.devRead va (min len 480) with
          | none => badArg
          | some body =>
            let answer (status : Nat) (value : W64) : M Unit := do
              modS fun s => s.replyTo 2 p.setup.num.toNat seq session 0 (Config.statusBytes [2, status, value.toNat])
              writeG 4 (BitVec.ofNat 64 status)
              writeG 5 value
            match st.launch p body (min len 480) (BitVec.ofNat 2 k) (st.bank.gr 6) session seq with
            | .ok (id, s1) =>
              set s1
              answer 0 (id.setWidth 64)
            | .error (c, some v) => answer c (BitVec.ofNat 64 v)
            | .error (c, none) =>
              let (v, s1) := (← get).draw
              set s1
              answer c v

end Sys2Proof.Machine
end

