-- ==== Sys2Proof/Machine/HostCmd.lean ====
section
/-! DEFINITION. The host's commands (R270, R271, R274 to R276, R438). -/

namespace Sys2Proof.Machine

/-! ## Taking a command (R252, R275, R276, R287) -/

/-- What a partition with a fatal error still accepts (R252, R275). -/
def afterFatal (op : Nat) (c : HostCmd) : Bool :=
  op == 6 || op == 8 || (op == 4 && (match cmdTarget 4 c with
    | .dump _ => true
    | _ => false))

/-- A command that failed authentication is dropped and counted; AUTH is sent with the next valid command (R276). -/
def State.dropCmd (s : State) : State := { s with host := { s.host with authDrops := s.host.authDrops + 1, authDue := true } }

/-- The AUTH that is due. -/
def State.payAuth (s : State) (op : Nat) (c : HostCmd) : State :=
  if s.host.authDue then
    { s with host := { s.host with authDue := false } }.replyTo op c.part.toNat 0 c.session stAUTH []
  else s

/-- Act on a command whose turn it is; `act` is asked for a partition that accepts it. -/
def State.actCmd (s : State) (op : Nat) (c : HostCmd) (act : Partition → State → State) : State :=
  let o := BitVec.ofNat 8 op
  match s.parts.find? fun p => p.setup.num.setWidth 16 = c.part with
  | none => s.finishCmd o c stRANGE []
  | some p =>
    if ((s.sessionOf c.session).any fun x => x.part != p.setup.num) then s.finishCmd o c stRANGE []
    else if p.fatal.isSome && !afterFatal op c then s.finishCmd o c stSTATE []
    else act p s

/-- A failure of bring-up step 1 leaves no port that replies (R287, Table 15.4). -/
def Bring.mute (b : Bring) : Bool := b.failed && b.step == 1

/-- The commands whose store to a replicated page of a tower stands (R189). -/
def Tower.puts (x : Tower) : List HostCmd := x.mmu.repStores.filterMap fun q => match q.writer with
  | .host c => some c
  | _ => none

/-- Whether a command of a session is stalled (R189, R258): a second one with its SEQ is not acted on (R275). -/
def State.stalledSeq (s : State) (c : HostCmd) : Bool :=
  let same (x : HostCmd) : Bool := x.session == c.session && x.seq == c.seq
  s.parts.any (fun p => p.stalledCmds.any fun x => same x.2) || s.towers.toList.any fun t => t.puts.any same

/-- A command in the order of its session (R275): acted on, held, or answered BADSEQ. Before a session exists there is no
order. -/
def hostCmd (op : Nat) (c : HostCmd) (st : State) (act : Partition → State → State) : Ans :=
  let o := BitVec.ofNat 8 op
  if st.bring.mute then .next st
  else if !c.authentic then .next st.dropCmd
  else
    let s := st.payAuth op c
    let bad : State := s.replyTo op c.part.toNat c.seq c.session stBADSEQ []
    if s.bring.step ≠ 6 then .next (s.replyTo op c.part.toNat c.seq c.session stBUSY [])
    else if c.session = 0 then .next (s.actCmd op c act)
    else match s.sessionOf c.session with
      | none => .next st.dropCmd
      | some x =>
        if c.seq.toNat < x.next.toNat ∨ x.next.toNat + 64 < c.seq.toNat then .next bad
        else if c.seq = x.next then .next (if s.stalledSeq c then bad else s.actCmd op c act)
        else if x.held.any fun h => h.2.seq = c.seq then .next bad
        else .next (s.modSession x.id fun y => { y with held := y.held ++ [(o, c)] })

/-! ## LOAD (R270, R274) -/

/-- A tile right after the runtime has started on it (R270). -/
def startTile (x : Tile) (t : BitVec 8) (p : Partition) (entry : Nat) : Tile :=
  let b := ((Bank.zero.setG 4 (t.setWidth 64)).setG 5 (p.setup.chip.setWidth 64)).setG 6 (p.setup.towers.setWidth 64)
  { Tile.reset with
    up := true
    recorder := x.recorder
    acc := x.acc
    col := x.col
    rt := { b with pc := BitVec.ofNat 64 entry }
    tr := { Tile.reset.tr with
      epc := epcOf false true 0
      fcause := setBit 0 63 true
      tvec := BitVec.ofNat 64 (entry / 4 * 4) } }

/-- An OVO object whose only code section is .seq. -/
def runtimeImage (img : List Byte) : Bool :=
  rdN img 0 4 == 0x314F564F && rdN img 4 2 == 1 && (chkLayout img).isNone &&
    [1, 2, 3, 4, 5].all fun i => (patched img [] i).isEmpty

/-- Start the runtime on every tile of the partition. -/
def State.startRuntime (s : State) (p : Partition) (img : List Byte) : State :=
  let entry := rdN img 28 4
  let s1 := s.modPart p.setup.num fun q => { q with runtime := some (patched img [] 0, entry), digest := Config.digest img }
  p.tiles.foldl (fun s t => s.modTile t fun x => startTile x t p entry) s1

/-- Store an object under a new handle. -/
def State.storeObj (s : State) (p : Partition) (kind : BitVec 8) (img : List Byte) : State :=
  { s with host := { s.host with
      objs := s.host.objs ++ [⟨s.host.nextHandle, p.setup.num, kind, img⟩]
      nextHandle := s.host.nextHandle + 1 } }

/-- R274, R270: an object is stored and measured; a runtime is accepted only before the partition first runs, and starts. -/
def execLoad (c : HostCmd) (st : State) : Ans :=
  hostCmd 1 c st fun p s =>
    let img := c.body.drop 1
    let done (s : State) : State := s.finishCmd 1 c stOK (leBytes 4 st.host.nextHandle.toNat)
    match c.body with
    | 0 :: _ => done ((s.storeObj p 0 img).modPart p.setup.num fun q => { q with digests := q.digests ++ [Config.digest img] })
    | 1 :: _ =>
      if p.runtime.isSome then s.finishCmd 1 c stSTATE []
      else if !runtimeImage img then s.finishCmd 1 c stRANGE []
      else done ((s.storeObj p 1 img).startRuntime p img)
    | _ => s.finishCmd 1 c stRANGE []

/-! ## LAUNCH (R271) -/

/-- A record of the command ring (Table 14.8). -/
def ringRecord (c : HostCmd) : List Byte :=
  [2, 0, 0, 0] ++ leBytes 4 c.body.length ++ leBytes 8 c.seq.toNat ++ leBytes 8 c.session.toNat ++ List.replicate 8 0 ++
    c.body ++ List.replicate (480 - c.body.length) 0

/-- R271: posted to the command ring; the runtime completes it with firmware call 6. -/
def execLaunch (c : HostCmd) (st : State) : Ans :=
  hostCmd 2 c st fun p s =>
    if 480 < c.body.length then s.finishCmd 2 c stRANGE []
    else match p.cmdRing.bind fun r => s.ringPost (r.setWidth 64) 512 (ringRecord c) with
      | none => s.finishCmd 2 c stBUSY []
      | some (_, s1) => (s1.ringNotice p).seqDone c

/-! ## SEGPUT and SEGGET (R262, R263, R438) -/

/-- A segment of a context of the partition on one of its tiles, where a range stands in it. -/
def State.hostSeg (s : State) (p : Partition) (ctx t : BitVec 8) (n : BitVec 12) (off len : Nat) : Option SegRef :=
  (s.ctxById ctx).bind fun c =>
    if c.part ≠ p.setup.num ∨ c.tiles.contains t = false then none
    else ((s.slot t c.slot).seg n).bind fun g => if off + len ≤ g.size then some ⟨t, c.slot, n, off⟩ else none

/-- Whether a range of virtual addresses lies in a tower that the partition holds on this chip. -/
def hostVa (p : Partition) (v : W64) (n : Nat) : Bool :=
  decide (v.toNat < 2 ^ 54) && vaChip v == p.setup.chip && p.setup.towers.getLsbD (vaTower v).toNat && decide (vaOff v + n ≤ 2 ^ 48)

/-- A command whose access stalls is kept until FLUSH or REFUSE (R258). -/
def keepCmd (p : Partition) (op : BitVec 8) (c : HostCmd) (s : State) : State :=
  s.modPart p.setup.num fun q => { q with stalledCmds := q.stalledCmds ++ [(op, c)] }

/-- Translate the range of a command, then go on. A locked replica answers BUSY and a page that the host holds STATE, without a
request for it; a failure that no ring takes answers RANGE. -/
def State.hostXl (s : State) (p : Partition) (op : BitVec 8) (c : HostCmd) (v : W64) (n acc : Nat)
    (go : List Piece → State → State) : State :=
  match ownAll v 0xFF 0xFF (fun _ => keepCmd p op c) n acc s with
  | .ok ps s1 => go ps s1
  | .error (.wait (.xlat _)) s1 => s1
  | .error (.wait (.replica _)) s1 => s1.finishCmd op c stBUSY []
  | .error (.wait _) _ => s.finishCmd op c stSTATE []
  | .error _ s1 => s1.finishCmd op c stRANGE []

/-- Put a returned IPA page of a tower into its memory again (R262); none where no page is free. -/
def State.takeBack (s : State) (w : BitVec 3) (ipa : Nat) : Option State :=
  (s.freePage w).map fun pg =>
    s.modTower w fun x => { x with mmu := { x.mmu with s2 := put1 (x.mmu.s2.filter fun m => m.1 ≠ ipa) ipa (.gddr w pg) } }

/-- The accesses that wait for a page of the host go on. -/
def State.pageBack (s : State) (p : Partition) (w : BitVec 3) (ipa : Nat) : State :=
  (s.mapAgts p.tiles p.towerList (endWaits fun o => match o with
    | .hostPage a i => vaTower (a.setWidth 64) == w && i == ipa
    | _ => false)).modPart p.setup.num fun q => { q with awaiting := q.awaiting.filter fun x => x ≠ (w, ipa) }

/-- The pages of stage 1 that a range of a tower touches, each 64 KiB part as page of OFF and IPA page. -/
def State.rangePages (s : State) (w : BitVec 3) (off n : Nat) : List (Nat × Nat) :=
  ((pagePieces (n / 65536 + 2) off n).flatMap fun p => match s.stage1 w p.1 with
    | .inr e => pageSet p.1 e
    | .inl _ => [(p.1 / 65536, 0)]).eraseDups

/-- The IPA pages of a range that the host holds, whatever stage 1 permits: a page comes back as it went (R262). -/
def State.heldIn (s : State) (w : BitVec 3) (off n : Nat) : List Nat :=
  (pagePieces (n / 65536 + 2) off n).filterMap fun p => match s.stage1 w p.1 with
    | .inr e => if (s.tower w).mmu.stage2 e.ipa = some .host then some e.ipa else none
    | .inl _ => none

/-- The 64 KiB pages, of OFF and IPA, of the page of stage 1 through which an offset was translated to an IPA page: that of the TLB or of the
tables (R255, R257). -/
def State.pageOf (s : State) (w : BitVec 3) (off ipa : Nat) : List (Nat × Nat) :=
  let kept := (s.tower w).mmu.tlb.filter fun e => e.page == off / 65536
  let cur := match s.stage1 w off with
    | .inr e => [e]
    | .inl _ => []
  ((kept ++ cur).find? fun e => e.ipa == ipa).elim [(off / 65536, ipa)] (pageSet off)

/-- The pages that the translated pieces of a range stand in. -/
def State.piecePages (s : State) (w : BitVec 3) (off n : Nat) (ps : List Piece) : List (Nat × Nat) :=
  (((pagePieces (n / 65536 + 2) off n).zip ps).flatMap fun x => s.pageOf w x.1.1 x.2.x.ipa).eraseDups

/-- Put IPA pages into memory again. -/
def State.takeAll (w : BitVec 3) : List Nat → State → Option State
  | [], s => some s
  | i :: r, s => (s.takeBack w i).bind fun s1 => s1.takeAll w r

/-- Whether bytes over translated pieces would cover a poisoned word in part. -/
def State.putSoils (s : State) (ps : List Piece) : Bool :=
  ps.any fun q => !((s.tower q.loc.1).gddr.partPoison q.loc.2 q.len).isEmpty

/-- A SEGPUT that would cover a poisoned word in part answers POISON, and the tower's recorder freezes (R298, R438). -/
def State.putPoison (s : State) (c : HostCmd) (v : W64) : State := (s.freezeTower (vaTower v) 1 v.toNat).finishCmd 3 c stPOISON []

/-- A SEGPUT writes its bytes over translated pieces, or answers POISON. Where a store to a replicated page stands it is answered with the
last unlock (R189). -/
def State.putOwn (s : State) (c : HostCmd) (v : W64) (bs : List Byte) (ps : List Piece) : State :=
  if s.putSoils ps then s.putPoison c v
  else
    let s1 := s.storePieces ps bs (.host c) hostWho
    if s1.storesOf (.host c) then s1 else s1.finishCmd 3 c stOK []

/-- A SEGPUT with GIVE (R262): the pages of the range that the host holds stand in memory again once the whole range can be written,
and the bytes are written; until then the host still holds them, as where stage 1 stalls the command (R258). -/
def State.givePage (s : State) (p : Partition) (c : HostCmd) (v : W64) (bs : List Byte) : State :=
  let w := vaTower v
  let n := bs.length
  let held := s.heldIn w (vaOff v) n
  let back (t : State) : State := t.modTower w fun x => { x with mmu := { x.mmu with s2 := (s.tower w).mmu.s2 } }
  if held.isEmpty then
    match s.translate w (vaOff v) 1 with
    | (.s1 _, _) => s.hostXl p 3 c v n 1 fun ps t => t.putOwn c v bs ps
    | _ => s.finishCmd 3 c stSTATE []
  else match s.takeAll w held with
    | none => s.finishCmd 3 c stBUSY []
    | some s2 =>
    let back1 (i : Nat × Nat) : M Piece := do
      let acc := match (← get).stage1 w (i.1 % 2 ^ 48) with
        | .inr e => if held.contains e.ipa then 3 else 1
        | .inl _ => 1
      ownPiece (BitVec.ofNat 64 i.1) 0xFF 0xFF (fun _ => keepCmd p 3 c) acc i.2 8
    match mapM' (pagePieces (n / 65536 + 2) v.toNat n) back1 s2 with
      | .ok ps s3 =>
        if s3.putSoils ps then s.putPoison c v
        else held.foldl (fun t i => t.pageBack p w i) (s3.putOwn c v bs ps)
      | .error (.wait (.xlat _)) s3 => back s3
      | .error (.wait (.replica _)) s3 => (back s3).finishCmd 3 c stBUSY []
      | .error (.wait _) _ => s.finishCmd 3 c stSTATE []
      | .error _ s3 => (back s3).finishCmd 3 c stRANGE []

/-- R274, R262, R438. -/
def execSegput (c : HostCmd) (st : State) : Ans :=
  hostCmd 3 c st fun p s =>
    let bs := (Config.putTarget c.body).2
    let n := bs.length
    match (Config.putTarget c.body).1 with
    | .dump _ => s.finishCmd 3 c stRANGE []
    | .seg ctx t g off =>
      match s.hostSeg p ctx t g off n with
      | none => s.finishCmd 3 c stRANGE []
      | some r =>
        if !((s.segStore r).partPoison off n).isEmpty then (s.freezePoison t (segPtr g off).toNat).finishCmd 3 c stPOISON []
        else (s.modSegStore r fun m => m.write off bs hostWho).finishCmd 3 c stOK []
    | .va v =>
      if !hostVa p v n then s.finishCmd 3 c stRANGE []
      else
        if c.flags.getLsbD 0 then s.givePage p c v bs else s.hostXl p 3 c v n 1 fun ps t => t.putOwn c v bs ps

/-- Bytes with whether each lies in a poisoned word. -/
def Store.readMarked (m : Store) (a n : Nat) : List (Byte × Bool) :=
  (List.range n).map fun i => (look 0 m.bytes (a + i), m.poison.contains ((a + i) / 16))

/-- The bitmap of R438: one bit per 16 B word from the word of the first byte, padded to 8 B. -/
def poisonMap (first : Nat) (l : List (Byte × Bool)) : List Byte :=
  let bad := ((List.range l.length).zip l).filterMap fun x => if x.2.2 then some ((first % 16 + x.1) / 16) else none
  let words := if l.isEmpty then 0 else (first % 16 + l.length - 1) / 16 + 1
  leBytes ((words + 63) / 64 * 8) (bad.foldl (fun a b => if a / 2 ^ b % 2 = 1 then a else a + 2 ^ b) 0)

/-- The reply of a SEGGET (R438); poison freezes the recorder of the tower, and of the tile whose segment was read (R298). -/
def State.getReply (s : State) (c : HostCmd) (w : BitVec 3) (t : Option (BitVec 8)) (first : Nat) (l : List (Byte × Bool)) : State :=
  let bs := l.map fun x => if x.2 then 0 else x.1
  if l.any (·.2) then ((t.elim s fun t => s.freezeTile t 1 first).freezeTower w 1 first).finishCmd 4 c stPOISON (bs ++ poisonMap first l)
  else s.finishCmd 4 c stOK bs

/-- The bytes over translated pieces. -/
def State.readOwn (s : State) (ps : List Piece) : List (Byte × Bool) :=
  ps.flatMap fun q => (s.tower q.loc.1).gddr.readMarked q.loc.2 q.len

/-- A 64 KiB page goes to the host (R262): its contents leave the tower, and the hold of R263 begins. -/
def State.giveAway (s : State) (w : BitVec 3) (x : Nat × Nat) : State :=
  match (s.tower w).mmu.stage2 x.2 with
  | some (.gddr t pg) =>
    (s.modTower t fun y => { y with gddr := y.gddr.dropPage pg.val }).modTower w fun y => { y with mmu := { y.mmu with
      s2 := put1 (y.mmu.s2.filter fun m => m.1 ≠ x.2) x.2 .host
      holds := ⟨x.1, true, 0, 0⟩ :: y.mmu.holds } }
  | _ => s

/-- R274, R252, R262, R263, R438. -/
def execSegget (c : HostCmd) (st : State) : Ans :=
  hostCmd 4 c st fun p s =>
    let n := (Config.getTarget c.body).2
    match (Config.getTarget c.body).1 with
    | .dump off =>
      match p.fatal with
      | none => s.finishCmd 4 c stSTATE []
      | some (code, tick, fcause) =>
        if 2 ^ 29 < off + n then s.finishCmd 4 c stRANGE []
        else
          s.finishCmd 4 c stOK ((List.range n).map fun i => s.dumpAt p code tick fcause (off + i))
    | .seg ctx t g off =>
      match s.hostSeg p ctx t g off n with
      | none => s.finishCmd 4 c stRANGE []
      | some r => s.getReply c (towerOf t) (some t) off ((s.segStore r).readMarked off n)
    | .va v =>
      if !hostVa p v n then s.finishCmd 4 c stRANGE []
      else if c.flags.getLsbD 0 then
        let w := vaTower v
        let take (s : State) (pages : List (Nat × Nat)) (go : State) : State :=
          match (s.tower w).mmu.holds.find? fun h => (pages.map (·.1)).contains h.page with
          | some h => if h.host then s.finishCmd 4 c stHELD [] else s.finishCmd 4 c stMOVED (leBytes 1 h.tower.toNat)
          | none => go
        -- the pages that go are those that are read
        take s (s.rangePages w (vaOff v) n) (s.hostXl p 4 c v n 0 fun ps s =>
          let pages := s.piecePages w (vaOff v) n ps
          take s pages ((pages.foldl (fun t x => t.giveAway w x) s).getReply c w none (vaOff v) (s.readOwn ps)))
      else s.hostXl p 4 c v n 0 fun ps s => s.getReply c (vaTower v) none (vaOff v) (s.readOwn ps)

/-! ## KVPUT (R274, R339) -/

/-- R274: the decode engine stores the rows as `dappend` does. What would be a record is answered RANGE. A channel in a lane test
makes the command wait (R285). -/
def execKvput (c : HostCmd) (st : State) : Ans :=
  hostCmd 5 c st fun p s =>
    let b := Config.kvBody c.body
    let w := b.tower
    match s.ctxById b.ctx with
    | none => s.finishCmd 5 c stRANGE []
    | some cx =>
      if p.setup.kv = false then s.finishCmd 5 c stSTATE []
      else if cx.part ≠ p.setup.num ∨ (cx.tiles.any fun t => towerOf t == w) = false then s.finishCmd 5 c stRANGE []
      else
        let e := s.slotEnt w cx b.slot.toNat
        if seValid e = false ∨ b.k.length ≠ 256 ∨ b.v.length ≠ 256 then s.finishCmd 5 c stRANGE []
        else match s.appendPlan w cx.id e b.layer.toNat b.head.toNat with
          | .error (code, _) =>
            let s1 := if code = 0x10 then s.missCount w cx.id e b.layer.toNat b.head.toNat else s
            s1.finishCmd 5 c stRANGE []
          | .ok (x, y, n, s1) =>
            if [x, y].any fun a => (s.laneTest w (16384 * a + 256 * (seLen e % 64)) 256).isSome then keepCmd p 5 c s
            else (s1.appendStore w cx.id (seLen e) x y n b.k b.v hostWho).finishCmd 5 c stOK []

/-! ## STATUS, ATTEST, RESETPART (R274, R276, R268) -/

/-- What STATUS reports (R252, R267, R274, R280, R286, R287): bring-up, and of a partition whether its runtime runs, its tiles, its fatal
cause, launch statuses, fuse maps, error logs and stretch counts. -/
def State.statusOf (s : State) (p : Option Partition) : List Nat :=
  [s.bring.step, b2n s.bring.failed, s.host.authDrops, s.bring.leftOut.toNat] ++ s.bring.digest.map (·.toNat) ++
    s.bring.short.flatMap (fun c => [c.1.toNat, b2n c.2.1, c.2.2.toNat]) ++ s.bring.excluded.map (·.toNat) ++
    p.elim [] (fun p =>
      [b2n p.key, b2n p.runtime.isSome] ++ p.tiles.map (·.toNat) ++
      [(p.fatal.map fun f => f.1.toNat).getD 0, p.statuses.length] ++ p.statuses.flatMap (fun x => [x.1.toNat, x.2.toNat]) ++
      p.towerList.flatMap fun w =>
        let x := s.tower w
        [x.fuse.toNat, x.arrayLog.count.toNat, x.vbusLog.count.toNat] ++ x.arrayLog.recs.map (·.toNat) ++
          x.vbusLog.recs.map (·.toNat) ++ (tilesOf w).flatMap fun t => [(s.tile t).col.events.toNat, (s.tile t).col.cycles.toNat])

/-- R274: answered at every step of the bring-up, in the session's order once it has ended. -/
def execStatus (c : HostCmd) (st : State) : Ans :=
  if c.authentic && st.bring.step != 6 && !st.bring.mute then
    .next ((st.payAuth 6 c).replyTo 6 c.part.toNat c.seq c.session stOK (Config.statusBytes (st.statusOf none)))
  else hostCmd 6 c st fun p s => s.finishCmd 6 c stOK (Config.statusBytes (s.statusOf (some p)))

/-- The attestation report of a nonce (R276). -/
def State.report (s : State) (p : Partition) (nonce : List Byte) : List Byte :=
  nonce ++ leBytes 4 (p.setup.tenant.toNat + 2 ^ 16 * p.setup.num.toNat) ++ Config.digest [] ++ p.digest ++ p.digests.flatMap id ++
    Config.planBytes p.setup.powerCaps ++ Config.encapKey s.fresh

/-- R276: a signed report, with a fresh encapsulation key. -/
def execAttest (c : HostCmd) (st : State) : Ans :=
  hostCmd 7 c st fun p s =>
    let r := s.report p c.body
    { s with fresh := s.fresh + 1 }.finishCmd 7 c stOK (r ++ Config.sign r)

/-- R276: the ciphertext is decapsulated, and a session opens; its SEQ starts at 1. -/
def execAttestOpen (c : HostCmd) (st : State) : Ans :=
  hostCmd 7 c st fun p s =>
    let id := Config.decapSession s.fresh c.body
    let s1 := { s with
      fresh := s.fresh + 1
      host := { s.host with sessions := ⟨id, p.setup.num, 1, []⟩ :: s.host.sessions.filter fun x => x.id ≠ id } }
    (s1.replyTo 7 c.part.toNat c.seq id stOK []).seqDone c

/-- R268, R274: every context ends, and the partition is as it was set up; an owner that is down stays so (R261), and commands that
stall are answered (DEDUCED, log 96). (DEDUCED, log 71) -/
def execResetpart (c : HostCmd) (st : State) : Ans :=
  hostCmd 8 c st fun p s0 =>
    let puts := (p.towerList.flatMap fun w => (s0.tower w).puts.map fun c => ((3 : BitVec 8), c)).eraseDups
    let s := (p.stalledCmds ++ puts).foldl (fun s x => s.finishCmd x.1 x.2 stSTATE []) s0
    let s1 := s.clearPart p
    let s2 := s1.modPart p.setup.num fun _ => { freshPart p.setup (s1.partTiles p.setup) with down := p.down }
    { s2 with host := { s2.host with
        objs := s2.host.objs.filter fun o => o.part ≠ p.setup.num
        outReqs := s2.host.outReqs.filter fun r => r.part ≠ p.setup.num } }.finishCmd 8 c stOK []

end Sys2Proof.Machine
end

