-- ==== Sys2Proof/Machine/VecMove.lean ====
section
/-! DEFINITION. Vector moves, predicates, scalars and state: VBCST, VMOVS, VCPY, VPRED, VSOP, VADDR, VSHAPE, VGUARD, VRPT,
VMASKB, VPACK, VXTRD. -/

namespace Sys2Proof.Machine

/-! ## Lanes and rows -/

/-- A 64-bit scalar as a lane: its low bits, or under WIDE its sign extension to 1,024 bits. -/
def Vu.ofScalar (u : Vu) (x : W64) : Nat := if u.et = 6 then (x.signExtend 1024).toNat else x.toNat % 2 ^ (8 * u.b)

/-- R401. -/
def execVbcst (d a i : BitVec 6) (j : BitVec 1) (p : BitVec 3) (st : State) : Ans :=
  vecM st do
    let u := st.vu p
    let n := i.toNat + 64 * j.toNat
    vOwn u [a, d]
    layoutIf (u.n ≤ n)
    let x ← vLanes u a u.b
    vWrite u d fun _ => (x.getD n 0, 0)

/-- R401. -/
def execVbcstS (d : BitVec 6) (n p : BitVec 3) (st : State) : Ans :=
  vecM st do
    let u := st.vu p
    vOwn u [d]
    vWrite u d fun _ => (u.ofScalar (u.v.scalar n), 0)

/-- R417. -/
def execVmovsGet (n : BitVec 3) (a i : BitVec 6) (j : BitVec 1) (st : State) : Ans :=
  vecM st do
    let u := st.vu 0
    let k := i.toNat + 64 * j.toNat
    vOwn u [a]
    layoutIf (u.n ≤ k)
    let x ← vLanes u a u.b
    modVec fun v => v.setScalar n (BitVec.ofInt 64 (sgn (8 * u.b) (x.getD k 0)))

/-- R417. -/
def execVmovsGetu (n : BitVec 3) (a i : BitVec 6) (j : BitVec 1) (st : State) : Ans :=
  vecM st do
    let u := st.vu 0
    let k := i.toNat + 64 * j.toNat
    vOwn u [a]
    layoutIf (u.n ≤ k)
    let x ← vLanes u a u.b
    modVec fun v => v.setScalar n (BitVec.ofNat 64 (x.getD k 0))

/-- R417: the whole row is written, its other lanes unchanged. -/
def execVmovsPut (d : BitVec 6) (n : BitVec 3) (i : BitVec 6) (j : BitVec 1) (p : BitVec 3) (st : State) : Ans :=
  vecM st do
    let u := st.vu p
    let k := i.toNat + 64 * j.toNat
    vOwn u [d]
    layoutIf (u.n ≤ k)
    vMerge u d u.b ((List.range u.n).map fun _ => u.ofScalar (u.v.scalar n)) fun i => decide (i = k) && u.act i

/-- R405. -/
def execVcpy (d a : BitVec 6) (p : BitVec 3) (st : State) : Ans :=
  vecM st do
    let u := st.vu p
    vOwn u [a, d]
    let x ← vLanes u a u.b
    vWrite u d fun i => (x.getD i 0, 0)

/-- R405. -/
def execVcpyP (d a p : BitVec 3) (st : State) : Ans :=
  vecM st do
    let u := st.vu p
    modVec fun v => v.setPred d (predWith u.n (v.pred d) u.act fun i => bit (u.v.pred a) i)

/-- R405. -/
def execVcpyPn (d a p : BitVec 3) (st : State) : Ans :=
  vecM st do
    let u := st.vu p
    modVec fun v => v.setPred d (predWith u.n (v.pred d) u.act fun i => !bit (u.v.pred a) i)

/-! ## Predicates (R419) -/

/-- The logic functions 0x01 to 0x04. -/
def predFn (f : Nat) (a b : Bool) : Bool :=
  match f with
  | 1 => a && b
  | 2 => a || b
  | 3 => a != b
  | _ => a && !b

/-- R419. -/
def execVpredLogic (d a b : BitVec 3) (f : BitVec 5) (p : BitVec 3) (st : State) : Ans :=
  vecM st do
    let u := st.vu p
    modVec fun v => v.setPred d (predWith u.n (v.pred d) u.act fun i =>
      predFn f.toNat (bit (u.v.pred a) i) (bit (u.v.pred b) i))

/-- R419. -/
def execVpredNot (d a p : BitVec 3) (st : State) : Ans :=
  vecM st do
    let u := st.vu p
    modVec fun v => v.setPred d (predWith u.n (v.pred d) u.act fun i => !bit (u.v.pred a) i)

/-- R419. -/
def execVpredLt (d n p : BitVec 3) (st : State) : Ans :=
  vecM st do
    let u := st.vu p
    modVec fun v => v.setPred d (predWith u.n (v.pred d) u.act fun i => decide (i < (u.v.scalar n).toNat))

/-- R419. -/
def execVpredCnt (d a p : BitVec 3) (st : State) : Ans :=
  vecM st do
    let u := st.vu p
    let c := ((List.range u.n).filter fun i => u.act i && bit (u.v.pred a) i).length
    modVec fun v => v.setScalar d (BitVec.ofNat 64 c)

/-! ## Scalars (R426) -/

/-- The second operand: a signed 14-bit immediate, or vs. -/
def VecState.second (v : VecState) (r : BitVec 1) (i : BitVec 14) : W64 :=
  if r = 1 then v.scalar (i.setWidth 3) else i.signExtend 64

/-- R426; launch check 7 refuses the codes that Table 17.9 has no integer function for. (DEDUCED, log 46) -/
def execVsop (d a : BitVec 3) (f : BitVec 5) (r : BitVec 1) (i : BitVec 14) (st : State) : Ans :=
  vecM st do
    match intFn f.toNat (st.vecSt.scalar a) (st.vecSt.second r i) with
    | some x => modVec fun v => v.setScalar d x
    | none => fault .layout 0 0

/-- R426. -/
def execVsopLi (d : BitVec 3) (i : BitVec 14) (st : State) : Ans :=
  vecM st do modVec fun v => v.setScalar d (i.signExtend 64)

/-- R114, R426. -/
def execVsopSetrm (r : BitVec 2) (st : State) : Ans :=
  vecM st do modVec fun v => { v with vrm := r }

/-- R426. -/
def execVsopGetrm (d : BitVec 3) (st : State) : Ans :=
  vecM st do modVec fun v => v.setScalar d (v.vrm.setWidth 64)

/-! ## Address registers (R399) -/

/-- R399, FN 0. -/
def execVaddr (n a : BitVec 3) (s : BitVec 17) (st : State) : Ans :=
  vecM st do
    let p := st.vecSt.scalar a
    faultIf (ptrMid p ≠ 0) .segbound p 0
    let r : AdReg := setBits (setBits (setBits 0 80 57 (s.signExtend 24).toNat) 51 40 (ptrSeg p).toNat) 22 0 (ptrOff p)
    modVec fun v => v.setAd n r

/-- R399, FN 1. -/
def execVaddrLen (n a : BitVec 3) (m : BitVec 2) (st : State) : Ans :=
  vecM st do
    let x := (st.vecSt.scalar a).toNat
    vIllegalIf (2 ^ 23 ≤ x ∨ adLegal m.toNat x 0 = false)
    modVec fun v => v.setAd n (adSetPos (setBits (setBits (vget n v.ad) 103 81 x) 56 55 m.toNat) 0)

/-- R399, FN 2. -/
def execVaddrStep (n a : BitVec 3) (st : State) : Ans :=
  vecM st do
    let x := (st.vecSt.scalar a).toInt
    vIllegalIf (x < -(2 ^ 23) ∨ 2 ^ 23 ≤ x)
    modVec fun v => v.setAd n (setBits (vget n v.ad) 80 57 (BitVec.ofInt 24 x).toNat)

/-- R399, FN 3. -/
def execVaddrPos (n a : BitVec 3) (st : State) : Ans :=
  vecM st do
    let x := (st.vecSt.scalar a).toNat
    let r := vget n st.vecSt.ad
    vIllegalIf (2 ^ 24 ≤ x ∨ adLegal (adMode r) (adLen r) x = false)
    modVec fun v => v.setAd n (adSetPos r x)

/-- R399, FN 4. -/
def execVaddrGet (d n : BitVec 3) (st : State) : Ans :=
  vecM st do modVec fun v => v.setScalar d (BitVec.ofNat 64 (adPos (vget n v.ad)))

/-! ## SHAPE, GUARD -/

/-- R423. -/
def execVshape (t : BitVec 4) (w : BitVec 8) (st : State) : Ans :=
  vecM st do modVec fun v => { v with shape := t ++ w }

/-- R423. -/
def execVshapeVs (a : BitVec 3) (st : State) : Ans :=
  vecM st do
    let x := st.vecSt.scalar a
    layoutIf (bits x 63 12 ≠ 0 ∨ 6 < bits x 11 8 ∨ bit x 0 = true)
    modVec fun v => { v with shape := x.setWidth 12 }

/-- R423. -/
def execVshapeGet (d : BitVec 3) (st : State) : Ans :=
  vecM st do modVec fun v => v.setScalar d (v.shape.setWidth 64)

/-- R151, R413. -/
def execVguard (f : BitVec 1) (g : BitVec 6) (st : State) : Ans :=
  vecM st do modVec fun v => { v with guard := (f ++ g).setWidth 8 }

/-- GW and FLAG (Table 8.2). -/
def VecState.gw (v : VecState) : Nat := bits v.guard 5 0
def VecState.flag (v : VecState) : Bool := bit v.guard 6

/-- R56, R421: the next word repeats c + 1 times. -/
def execVrpt (c : BitVec 6) (d a b : BitVec 3) (st : State) : Ans :=
  .next (st.modEng .vec fun g => { g with unit := g.unit + 1, rpt := some ⟨c.setWidth 7 + 1, d, a, b, 0⟩ })

/-- R416. -/
def execVmaskb (d s n p : BitVec 3) (st : State) : Ans :=
  vecM st do
    let u := st.vu p
    let x := u.v.scalar n
    layoutIf (bits x 63 48 ≠ 0)
    let m := vget s (st.slot st.cur st.curSlot).masks
    faultIf (m.prog.isEmpty = true) .maskprog 0 0
    let t := (List.range u.n).map fun i => if u.act i then m.truth (bits x 23 0) (bits x 47 24 + i : Nat) else some false
    faultIf (t.any Option.isNone = true) .maskprog 0 0
    modVec fun v => v.setPred d (predWith u.n (v.pred d) u.act fun i => (t.getD i none).getD false)

/-! ## Packed rows (R152, R156) -/

/-- R152. Its LAYOUT has the instruction's index as its item (DEDUCED, log 89). -/
def execVpack (d a : BitVec 6) (r : BitVec 1) (n : BitVec 7) (o p : BitVec 3) (st : State) : Ans :=
  vecM st do
    let u := st.vu p
    vOwn u [a, d]
    let k := n.toNat + 1
    let g := u.v.gw
    layoutIf (laneInt u.et = false)
    layoutIf (u.n < k ∨ 1024 < g * (o.toNat + k))
    let x ← vLanes u a u.b
    let c (i : Nat) : Int := if u.act i then sgn (8 * u.b) (x.getD i 0) else 0
    let pos (i : Nat) : Nat := if r = 0 then o.toNat + i else o.toNat + k - 1 - i
    let w : Int := (List.range k).foldl (fun s i => s + c i * (2 ^ (g * pos i) : Nat)) 0
    let bw := (List.range k).foldl (fun m i => max m (bitlen (c i).natAbs)) 0
    writeAcc u.me (u.tile d) (d.setWidth 5) (BitVec.ofInt 1024 w) (sideband k bw g false (!u.v.flag) 0)

/-- The first n signed digits of width g of a number. -/
def digits (g : Nat) (t : Int) : Nat → List Int
  | 0 => []
  | n + 1 =>
    let d := (BitVec.ofInt g t).toInt
    d :: digits g ((t - d) / (2 ^ g : Nat)) n

/-- R156; the pair is read before the destination is written, each row as a unit of its own (R159). Its LAYOUT has the instruction's
index as its item (DEDUCED, log 89). -/
def execVxtrd (d : BitVec 6) (a : BitVec 5) (j : BitVec 11) (p : BitVec 3) (st : State) : Ans :=
  vecM st do
    let u := st.vu p
    let lo : BitVec 6 := a ++ (0 : BitVec 1)
    vOwn u [lo, lo + 1, d]
    layoutIf (laneInt u.et = false)
    let (x0, sb) ← vUnit u lo
    let x1 ← vRow u (lo + 1)
    let g := if sbG sb = 0 then u.v.gw else sbG sb
    let w := 8 * u.b
    let ds := (digits g (x1 ++ x0).toInt (j.toNat + u.n)).drop j.toNat
    let mn : Int := -((2 ^ (w - 1) : Nat) : Int)
    let mx : Int := ((2 ^ (w - 1) : Nat) : Int) - 1
    vWrite u d fun i =>
      let v := ds.getD i 0
      ((BitVec.ofInt w (sat v mn mx)).toNat, if sat v mn mx = v then 0 else fOF)

end Sys2Proof.Machine
end

