-- ==== Sys2Proof/Machine/Dispatch.lean ====
section
/-! DEFINITION. What each instruction, event and command does: one direct call of its meaning. -/

namespace Sys2Proof.Machine

def exec (i : Instr) (s : State) : Host.Outcome State Fault Refusal :=
  match i with
  | .iop q d rs t f => Sys2Proof.Machine.execIop q d rs t f s
  | .iopi q d rs f imm => Sys2Proof.Machine.execIopi q d rs f imm s
  | .lui q d imm => Sys2Proof.Machine.execLui q d imm s
  | .addpc q d imm => Sys2Proof.Machine.execAddpc q d imm s
  | .cmp q d rs t c => Sys2Proof.Machine.execCmp q d rs t c s
  | .cmpi q d rs c imm => Sys2Proof.Machine.execCmpi q d rs c imm s
  | .plog q d rs t f => Sys2Proof.Machine.execPlog q d rs t f s
  | .psave q d => Sys2Proof.Machine.execPsave q d s
  | .pload q rs => Sys2Proof.Machine.execPload q rs s
  | .sel q d rs t c => Sys2Proof.Machine.execSel q d rs t c s
  | .selF q d rs t c => Sys2Proof.Machine.execSelF q d rs t c s
  | .fop q d rs t f => Sys2Proof.Machine.execFop q d rs t f s
  | .fma q d rs t f => Sys2Proof.Machine.execFma q d rs t f s
  | .fcmp q d rs t c => Sys2Proof.Machine.execFcmp q d rs t c s
  | .fcvt q d rs f => Sys2Proof.Machine.execFcvt q d rs f s
  | .lds q d b z x imm => Sys2Proof.Machine.execLds q d b z x imm s
  | .sts q d b z imm => Sys2Proof.Machine.execSts q d b z imm s
  | .flds q d b imm => Sys2Proof.Machine.execFlds q d b imm s
  | .fsts q d b imm => Sys2Proof.Machine.execFsts q d b imm s
  | .ldg q d rs t x z => Sys2Proof.Machine.execLdg q d rs t x z s
  | .stg q d rs t z => Sys2Proof.Machine.execStg q d rs t z s
  | .ldq q d b imm => Sys2Proof.Machine.execLdq q d b imm s
  | .stq q d b imm => Sys2Proof.Machine.execStq q d b imm s
  | .amo q d rs t w c l a o => Sys2Proof.Machine.execAmo q d rs t w c l a o s
  | .capld q d b imm => Sys2Proof.Machine.execCapld q d b imm s
  | .capst q d b imm => Sys2Proof.Machine.execCapst q d b imm s
  | .capopMov q d rs => Sys2Proof.Machine.execCapopMov q d rs s
  | .capopTrim q d rs t => Sys2Proof.Machine.execCapopTrim q d rs t s
  | .capopLen q d rs t => Sys2Proof.Machine.execCapopLen q d rs t s
  | .capopPerm q d rs t => Sys2Proof.Machine.execCapopPerm q d rs t s
  | .capopBase q d rs => Sys2Proof.Machine.execCapopBase q d rs s
  | .capopSize q d rs => Sys2Proof.Machine.execCapopSize q d rs s
  | .capopInfo q d rs => Sys2Proof.Machine.execCapopInfo q d rs s
  | .capopUntag q d rs => Sys2Proof.Machine.execCapopUntag q d rs s
  | .br q n f => Sys2Proof.Machine.execBr q n f s
  | .jal q n f => Sys2Proof.Machine.execJal q n f s
  | .jalr q d rs imm => Sys2Proof.Machine.execJalr q d rs imm s
  | .loop q imm rs l => Sys2Proof.Machine.execLoop q imm rs l s
  | .loopRot q imm rs g l => Sys2Proof.Machine.execLoopRot q imm rs g l s
  | .rpt q c a b e => Sys2Proof.Machine.execRpt q c a b e s
  | .cmd e k rs t w v z y => Sys2Proof.Machine.execCmd e k rs t w v z y s
  | .popr q d f => Sys2Proof.Machine.execPopr q d f s
  | .pushd q rs t => Sys2Proof.Machine.execPushd q rs t s
  | .semsSig q n => Sys2Proof.Machine.execSemsSig q n s
  | .semsWait q n => Sys2Proof.Machine.execSemsWait q n s
  | .semsGet q d n => Sys2Proof.Machine.execSemsGet q d n s
  | .semsTry q d n => Sys2Proof.Machine.execSemsTry q d n s
  | .bara q rs t => Sys2Proof.Machine.execBara q rs t s
  | .baraCap q c rs t => Sys2Proof.Machine.execBaraCap q c rs t s
  | .barw q rs t => Sys2Proof.Machine.execBarw q rs t s
  | .barwCap q c rs t => Sys2Proof.Machine.execBarwCap q c rs t s
  | .fenceAcq q rs => Sys2Proof.Machine.execFenceAcq q rs s
  | .fenceRel q rs => Sys2Proof.Machine.execFenceRel q rs s
  | .fenceFull q rs => Sys2Proof.Machine.execFenceFull q rs s
  | .fenceLayer q rs => Sys2Proof.Machine.execFenceLayer q rs s
  | .evpop q d => Sys2Proof.Machine.execEvpop q d s
  | .iterDone q => Sys2Proof.Machine.execIterDone q s
  | .iterPt q d => Sys2Proof.Machine.execIterPt q d s
  | .sysr q d f n => Sys2Proof.Machine.execSysr q d f n s
  | .sysw q rs n => Sys2Proof.Machine.execSysw q rs n s
  | .syswQuota q rs => Sys2Proof.Machine.execSyswQuota q rs s
  | .syswLstat q rs => Sys2Proof.Machine.execSyswLstat q rs s
  | .syswTrctl q rs => Sys2Proof.Machine.execSyswTrctl q rs s
  | .trap q n => Sys2Proof.Machine.execTrap q n s
  | .setroot q => Sys2Proof.Machine.execSetroot q s
  | .rings q => Sys2Proof.Machine.execRings q s
  | .flush q => Sys2Proof.Machine.execFlush q s
  | .refuse q => Sys2Proof.Machine.execRefuse q s
  | .tlbinv q => Sys2Proof.Machine.execTlbinv q s
  | .firmwareLaunch q => Sys2Proof.Machine.execFirmwareLaunch q s
  | .timeout q => Sys2Proof.Machine.execTimeout q s
  | .migrate q => Sys2Proof.Machine.execMigrate q s
  | .recread q => Sys2Proof.Machine.execRecread q s
  | .rets q => Sys2Proof.Machine.execRets q s
  | .retsSlot q rs => Sys2Proof.Machine.execRetsSlot q rs s
  | .retsEnd q rs => Sys2Proof.Machine.execRetsEnd q rs s
  | .waiti q d rs m => Sys2Proof.Machine.execWaiti q d rs m s
  | .waitiWake tile => Sys2Proof.Machine.execWaitiWake tile s
  | .rangePush q l => Sys2Proof.Machine.execRangePush q l s
  | .rangePop q => Sys2Proof.Machine.execRangePop q s
  | .segopDef q d rs t => Sys2Proof.Machine.execSegopDef q d rs t s
  | .segopDrop q rs => Sys2Proof.Machine.execSegopDrop q rs s
  | .segopPin q rs => Sys2Proof.Machine.execSegopPin q rs s
  | .segopUnpin q rs => Sys2Proof.Machine.execSegopUnpin q rs s
  | .segopQuery q d rs => Sys2Proof.Machine.execSegopQuery q d rs s
  | .segopStat q d rs => Sys2Proof.Machine.execSegopStat q d rs s
  | .accopQuery q d rs => Sys2Proof.Machine.execAccopQuery q d rs s
  | .accopClaim q rs => Sys2Proof.Machine.execAccopClaim q rs s
  | .accopRelease q rs => Sys2Proof.Machine.execAccopRelease q rs s
  | .accopSet q rs t => Sys2Proof.Machine.execAccopSet q rs t s
  | .accopSave q d rs t => Sys2Proof.Machine.execAccopSave q d rs t s
  | .accopLoad q d rs t => Sys2Proof.Machine.execAccopLoad q d rs t s
  | .slotSet q rs t => Sys2Proof.Machine.execSlotSet q rs t s
  | .slotLen q rs t => Sys2Proof.Machine.execSlotLen q rs t s
  | .slotGet q d rs t => Sys2Proof.Machine.execSlotGet q d rs t s
  | .kvopFork q d rs t => Sys2Proof.Machine.execKvopFork q d rs t s
  | .kvopDrop q rs => Sys2Proof.Machine.execKvopDrop q rs s
  | .kvopLook q d rs t => Sys2Proof.Machine.execKvopLook q d rs t s
  | .mskldProg q e l b => Sys2Proof.Machine.execMskldProg q e l b s
  | .mskldParam q rs e l n => Sys2Proof.Machine.execMskldParam q rs e l n s
  | .mskldRuns q rs e l => Sys2Proof.Machine.execMskldRuns q rs e l s
  | .mskldStat q d e l n => Sys2Proof.Machine.execMskldStat q d e l n s
  | .mskldClear q e l => Sys2Proof.Machine.execMskldClear q e l s
  | .tstat q d => Sys2Proof.Machine.execTstat q d s
  | .tstatClr q d rs => Sys2Proof.Machine.execTstatClr q d rs s
  | .vop d a b f p => Sys2Proof.Machine.execVop d a b f p s
  | .vfma d a b v r p => Sys2Proof.Machine.execVfma d a b v r p s
  | .vun d a f p => Sys2Proof.Machine.execVun d a f p s
  | .vcmp d a b c p => Sys2Proof.Machine.execVcmp d a b c p s
  | .vsel d a b c p => Sys2Proof.Machine.execVsel d a b c p s
  | .vcvt d a r k t p => Sys2Proof.Machine.execVcvt d a r k t p s
  | .vred d a f p => Sys2Proof.Machine.execVred d a f p s
  | .vscan d a f p => Sys2Proof.Machine.execVscan d a f p s
  | .vshuf d a b f p => Sys2Proof.Machine.execVshuf d a b f p s
  | .vld d a c p => Sys2Proof.Machine.execVld d a c p s
  | .vst d a c p => Sys2Proof.Machine.execVst d a c p s
  | .vlds d a z x imm => Sys2Proof.Machine.execVlds d a z x imm s
  | .vsts d a z imm => Sys2Proof.Machine.execVsts d a z imm s
  | .vgath d a rs imm p => Sys2Proof.Machine.execVgath d a rs imm p s
  | .vscat d a rs imm p => Sys2Proof.Machine.execVscat d a rs imm p s
  | .vbcst d a imm j p => Sys2Proof.Machine.execVbcst d a imm j p s
  | .vbcstS d n p => Sys2Proof.Machine.execVbcstS d n p s
  | .vmovsGet n a imm j => Sys2Proof.Machine.execVmovsGet n a imm j s
  | .vmovsGetu n a imm j => Sys2Proof.Machine.execVmovsGetu n a imm j s
  | .vmovsPut d n imm j p => Sys2Proof.Machine.execVmovsPut d n imm j p s
  | .vsop d a f r imm => Sys2Proof.Machine.execVsop d a f r imm s
  | .vsopLi d imm => Sys2Proof.Machine.execVsopLi d imm s
  | .vsopSetrm r => Sys2Proof.Machine.execVsopSetrm r s
  | .vsopGetrm d => Sys2Proof.Machine.execVsopGetrm d s
  | .vaddr n a rs => Sys2Proof.Machine.execVaddr n a rs s
  | .vaddrLen n a m => Sys2Proof.Machine.execVaddrLen n a m s
  | .vaddrStep n a => Sys2Proof.Machine.execVaddrStep n a s
  | .vaddrPos n a => Sys2Proof.Machine.execVaddrPos n a s
  | .vaddrGet d n => Sys2Proof.Machine.execVaddrGet d n s
  | .vshape t w => Sys2Proof.Machine.execVshape t w s
  | .vshapeVs a => Sys2Proof.Machine.execVshapeVs a s
  | .vshapeGet d => Sys2Proof.Machine.execVshapeGet d s
  | .vpredLogic d a b f p => Sys2Proof.Machine.execVpredLogic d a b f p s
  | .vpredNot d a p => Sys2Proof.Machine.execVpredNot d a p s
  | .vpredLt d n p => Sys2Proof.Machine.execVpredLt d n p s
  | .vpredCnt d a p => Sys2Proof.Machine.execVpredCnt d a p s
  | .vdefer d a o k t p => Sys2Proof.Machine.execVdefer d a o k t p s
  | .vundef d a o k => Sys2Proof.Machine.execVundef d a o k s
  | .vpack d a r n o p => Sys2Proof.Machine.execVpack d a r n o p s
  | .vxtrd d a j p => Sys2Proof.Machine.execVxtrd d a j p s
  | .vguard f g => Sys2Proof.Machine.execVguard f g s
  | .vbxenc d a b w => Sys2Proof.Machine.execVbxenc d a b w s
  | .vbxdec d a b w => Sys2Proof.Machine.execVbxdec d a b w s
  | .vfifoSeq a imm => Sys2Proof.Machine.execVfifoSeq a imm s
  | .vfifoMat a => Sys2Proof.Machine.execVfifoMat a s
  | .vfifoPop d p => Sys2Proof.Machine.execVfifoPop d p s
  | .vrpt c d a b => Sys2Proof.Machine.execVrpt c d a b s
  | .vsoft d a b p => Sys2Proof.Machine.execVsoft d a b p s
  | .vmaskb d rs n p => Sys2Proof.Machine.execVmaskb d rs n p s
  | .vcpy d a p => Sys2Proof.Machine.execVcpy d a p s
  | .vcpyP d a p => Sys2Proof.Machine.execVcpyP d a p s
  | .vcpyPn d a p => Sys2Proof.Machine.execVcpyPn d a p s
  | .vdot d a b c r p => Sys2Proof.Machine.execVdot d a b c r p s
  | .vamax d a c p => Sys2Proof.Machine.execVamax d a c p s
  | .vclass d a p => Sys2Proof.Machine.execVclass d a p s
  | .mma c a b f z t m rs => Sys2Proof.Machine.execMma c a b f z t m rs s
  | .mlddOd n => Sys2Proof.Machine.execMlddOd n s
  | .mlddAs n => Sys2Proof.Machine.execMlddAs n s
  | .mfmt c l => Sys2Proof.Machine.execMfmt c l s
  | .mdrain c b f q => Sys2Proof.Machine.execMdrain c b f q s
  | .mzero c => Sys2Proof.Machine.execMzero c s
  | .mwmul c a b f t rs => Sys2Proof.Machine.execMwmul c a b f t rs s
  | .mwmac c a b f t rs => Sys2Proof.Machine.execMwmac c a b f t rs s
  | .mfoldStrict l => Sys2Proof.Machine.execMfoldStrict l s
  | .mfifoPop c a => Sys2Proof.Machine.execMfifoPop c a s
  | .mfifoPush c a => Sys2Proof.Machine.execMfifoPush c a s
  | .mmsk rs c k q j => Sys2Proof.Machine.execMmsk rs c k q j s
  | .msync rs => Sys2Proof.Machine.execMsync rs s
  | .mcpy d n c => Sys2Proof.Machine.execMcpy d n c s
  | .mrpt c a b e => Sys2Proof.Machine.execMrpt c a b e s
  | .xcopy a d l o b rs => Sys2Proof.Machine.execXcopy a d l o b rs s
  | .xgath a d l o b rs => Sys2Proof.Machine.execXgath a d l o b rs s
  | .xscat a d l o b rs => Sys2Proof.Machine.execXscat a d l o b rs s
  | .xidx a d l => Sys2Proof.Machine.execXidx a d l s
  | .xfill d l o b rs p => Sys2Proof.Machine.execXfill d l o b rs p s
  | .xred a d l o b rs imm n f => Sys2Proof.Machine.execXred a d l o b rs imm n f s
  | .xlayer a d l o b rs => Sys2Proof.Machine.execXlayer a d l o b rs s
  | .xrem a d l o b rs => Sys2Proof.Machine.execXrem a d l o b rs s
  | .xremAck tile => Sys2Proof.Machine.execXremAck tile s
  | .xbar l o rs h => Sys2Proof.Machine.execXbar l o rs h s
  | .xdesc d l u k p r => Sys2Proof.Machine.execXdesc d l u k p r s
  | .xdescSlot o k r => Sys2Proof.Machine.execXdescSlot o k r s
  | .xwait o h => Sys2Proof.Machine.execXwait o h s
  | .decEntryPark tower => Sys2Proof.Machine.execDecEntryPark tower s
  | .entryAdmission tile e => Sys2Proof.Machine.execEntryAdmission tile e s
  | .entryWaitToken tile e => Sys2Proof.Machine.execEntryWaitToken tile e s
  | .entryRetire tile e => Sys2Proof.Machine.execEntryRetire tile e s
  | .semaphoreWaitEnd tile n => Sys2Proof.Machine.execSemaphoreWaitEnd tile n s
  | .barrierWaitEnd tile a => Sys2Proof.Machine.execBarrierWaitEnd tile a s
  | .popWaitEnd tile a => Sys2Proof.Machine.execPopWaitEnd tile a s
  | .pushWaitEnd tile a => Sys2Proof.Machine.execPushWaitEnd tile a s
  | .retirementWaitEnd tile => Sys2Proof.Machine.execRetirementWaitEnd tile s
  | .layerFenceWaitEnd tile => Sys2Proof.Machine.execLayerFenceWaitEnd tile s
  | .layerAvailableWaitEnd tile => Sys2Proof.Machine.execLayerAvailableWaitEnd tile s
  | .probeLaunch tile a => Sys2Proof.Machine.execProbeLaunch tile a s
  | .probeResponse tile a => Sys2Proof.Machine.execProbeResponse tile a s
  | .watchdogExpiry tile a => Sys2Proof.Machine.execWatchdogExpiry tile a s
  | .sliceEnd tile => Sys2Proof.Machine.execSliceEnd tile s
  | .sliceBudgetExpiry tile => Sys2Proof.Machine.execSliceBudgetExpiry tile s
  | .trapEntry tile => Sys2Proof.Machine.execTrapEntry tile s
  | .smcWatchdogExpiry part => Sys2Proof.Machine.execSmcWatchdogExpiry part s
  | .walkerHandout tower => Sys2Proof.Machine.execWalkerHandout tower s
  | .launchComplete tile => Sys2Proof.Machine.execLaunchComplete tile s
  | .segmentRecall tile slot seg => Sys2Proof.Machine.execSegmentRecall tile slot seg s
  | .compactionMove tile => Sys2Proof.Machine.execCompactionMove tile s
  | .remoteRequest r => Sys2Proof.Machine.execRemoteRequest r s
  | .fabricTimeout tile a => Sys2Proof.Machine.execFabricTimeout tile a s
  | .routeUp part chip => Sys2Proof.Machine.execRouteUp part chip s
  | .moveHoldExpiry tower page => Sys2Proof.Machine.execMoveHoldExpiry tower page s
  | .replicaLockTimeout tower page => Sys2Proof.Machine.execReplicaLockTimeout tower page s
  | .pendingZeroFill tower layer line => Sys2Proof.Machine.execPendingZeroFill tower layer line s
  | .raceSweepEnd ctx => Sys2Proof.Machine.execRaceSweepEnd ctx s
  | .droopStretch tile => Sys2Proof.Machine.execDroopStretch tile s
  | .stretchEnd tile => Sys2Proof.Machine.execStretchEnd tile s
  | .thermalThrottle tile layer => Sys2Proof.Machine.execThermalThrottle tile layer s
  | .throttleRelease tile layer => Sys2Proof.Machine.execThrottleRelease tile layer s
  | .bondParityFailure tile layer again => Sys2Proof.Machine.execBondParityFailure tile layer again s
  | .dramPatrolScrub tower word => Sys2Proof.Machine.execDramPatrolScrub tower word s
  | .sramScrub l uncorrectable => Sys2Proof.Machine.execSramScrub l uncorrectable s
  | .vbusParityFailure tower b => Sys2Proof.Machine.execVbusParityFailure tower b s
  | .laneTestEnd tower asynch chan lane => Sys2Proof.Machine.execLaneTestEnd tower asynch chan lane s
  | .retryStorm port retries => Sys2Proof.Machine.execRetryStorm port retries s
  | .moduleReset pass => Sys2Proof.Machine.execModuleReset pass s
  | .load c => Sys2Proof.Machine.execLoad c s
  | .launch c => Sys2Proof.Machine.execLaunch c s
  | .segput c => Sys2Proof.Machine.execSegput c s
  | .segget c => Sys2Proof.Machine.execSegget c s
  | .kvput c => Sys2Proof.Machine.execKvput c s
  | .status c => Sys2Proof.Machine.execStatus c s
  | .attest c => Sys2Proof.Machine.execAttest c s
  | .attestOpen c => Sys2Proof.Machine.execAttestOpen c s
  | .resetpart c => Sys2Proof.Machine.execResetpart c s
  | .segmentPushComplete tile slot seg => Sys2Proof.Machine.execSegmentPushComplete tile slot seg s
  | .reservedWord w => Sys2Proof.Machine.execReservedWord w s
  | .partitionSetUp p => Sys2Proof.Machine.execPartitionSetUp p s
  | .endOfTheReservation part => Sys2Proof.Machine.execEndOfTheReservation part s
  | .preCopyRound part => Sys2Proof.Machine.execPreCopyRound part s
  | .mfoldAdaptive => Sys2Proof.Machine.execMfoldAdaptive s
  | .mfoldReport => Sys2Proof.Machine.execMfoldReport s
  | .mamax => Sys2Proof.Machine.execMamax s
  | .mamaxCap => Sys2Proof.Machine.execMamaxCap s
  | .mamaxClr => Sys2Proof.Machine.execMamaxClr s
  | .mscale => Sys2Proof.Machine.execMscale s
  | .mscaleY => Sys2Proof.Machine.execMscaleY s
  | .mbar => Sys2Proof.Machine.execMbar s
  | .xevt => Sys2Proof.Machine.execXevt s
  | .dattn => Sys2Proof.Machine.execDattn s
  | .dappend => Sys2Proof.Machine.execDappend s
  | .dstat => Sys2Proof.Machine.execDstat s
  | .dbar => Sys2Proof.Machine.execDbar s

end Sys2Proof.Machine
end

