-- ==== Sys2Proof/Machine/Step.lean ====
section
/-! DEFINITION. One step of the machine: the next turn, and what it runs. -/

namespace Sys2Proof.Machine

/-- Run what a turn amounts to. -/
def runAct : Act → Host.Outcome State Fault Refusal
  | .run i s => exec i s
  | .rest s => .next s
  | .stuck => .fault .engineWord

/-- One step. -/
def step (s : State) : Host.Outcome State Fault Refusal :=
  let (t, s1) := s.nextTurn
  runAct (s1.act t)

/-- s with the instruction of the opcode table whose bits are w placed where the next step fetches (DESIGN CHOICE, log 7): the state as
it is where those bits are no instruction. Every instruction is one 32-bit word (R303). -/
def State.withFetchWord (s : State) (nbits w : Nat) : State :=
  match decodeTableWord nbits w with
  | none => s
  | some i => s.place i (BitVec.ofNat 32 w)

end Sys2Proof.Machine
end

