-- ==== Sys2Proof/Safety.lean ====
section
/-! DEFINITION. What a safe run is, and the words in which claims speak of a state: an agent at rest, a sequencer at an
instruction of its own, an engine at a unit of its own, and the bytes that memory reads as. -/

namespace Sys2Proof.Safety

open Sys2Proof.Machine

/-- A step completes. -/
def Completes (s : State) : Prop := ∃ t, step s = .next t

/-- Every byte store of the machine is in its canonical form. -/
def MemoryCanonical (s : State) : Prop := s.memWf = true

/-- An agent waits for nothing, has no traffic with other chips (R35, R254), and has made no access or admission and sampled no layers yet
for what goes on (R100, R110, R138, R189). -/
def AtRest (a : Agt) : Prop :=
  a.wait = none ∧ a.got = [] ∧ a.pend = none ∧ a.used = 0 ∧ a.absent = none ∧ a.tested = false ∧ a.out = none ∧
    a.layers = none

/-- No pass of a loop ends after the instruction of a bank (R55, R363). -/
def NoPassEnd (b : Bank) : Prop := ∀ n ∈ b.loopOrder, lsAct b.lstat n = true → vget n b.loopEnd ≠ b.pc + 4

/-- The moving sequencer stands at an instruction that no rpt repeats (R56) and after which no pass ends (R55), and is at
rest. -/
structure Plain (s : State) : Prop where
  norpt : s.bank.rpt = none
  nopass : NoPassEnd s.bank
  rest : AtRest s.seqAgt

/-- s with a bank whose program counter names the next word. -/
def onward (s : State) (b : Bank) : State := s.setBank { b with pc := b.pc + 4 }

/-- The slot that runs on the moving tile holds a context, and its engine e is at rest at a unit that no repeat runs. -/
structure UnitOf (e : Eng) (s : State) : Prop where
  norpt : (s.eng e).rpt = none
  rest : AtRest (s.eng e).agt

/-- s with engine e at its next unit (R31, Table 13.5). -/
def nextUnit (e : Eng) (s : State) : State := s.modEng e fun g => { g with unit := g.unit + 1, xs := g.nextX }

/-- Byte a of the segment that number n names for an agent (R94, R96); a byte of no segment reads as none. -/
def segByte (s : State) (m : Me) (n : BitVec 12) (a : Nat) : Option Byte :=
  (s.findSeg m n).map fun r => look 0 r.2.2.store.bytes a

/-- Every byte of memory reads as in another state: segments of every slot, DRAM layers and GDDR 7. -/
structure SameMemory (s t : State) : Prop where
  seg : ∀ u k n a, ((t.slot u k).seg n).map (fun g => look 0 g.store.bytes a) = ((s.slot u k).seg n).map (fun g => look 0 g.store.bytes a)
  layer : ∀ w a, look 0 (t.tower w).layer.bytes a = look 0 (s.tower w).layer.bytes a
  gddr : ∀ w a, look 0 (t.tower w).gddr.bytes a = look 0 (s.tower w).gddr.bytes a

/-- What an access of n bytes at a segment pointer needs (R93, R94, R100, R193, R251): a live segment that holds the range,
alignment, no race, residency, no poison. -/
structure Reachable (s : State) (m : Me) (p : W64) (n align : Nat) (write race : Bool) (t : BitVec 8) (k : BitVec 2)
    (g : Segment) : Prop where
  mid : ptrMid p = 0
  live : s.findSeg m (ptrSeg p) = some (t, k, g)
  holds : ptrOff p + n ≤ g.size
  aligned : align = 0 ∨ ptrOff p % align = 0
  norace : g.check = true → race = true → s.raceOn m = true →
    raceFind (s.slot m.tile m.slot).race g.store m.tile write (unitsOf 64 (ptrOff p) n) = none
  resident : g.state = .resident

/-- A sequencer instruction whose predicate is q executes at a plain instruction (R47). -/
def Executes (s : State) (q : BitVec 3) : Prop := Plain s ∧ s.bank.pr q = true

/-! ## Tables of the spec, as claims read them -/

/-- The integer column of Table 17.9 that IOP admits (R312), over exact integers. -/
def intTable (f : Nat) (a b : BitVec 64) : Option (BitVec 64) :=
  match f with
  | 0x01 => some (BitVec.ofInt 64 (a.toInt + b.toInt))
  | 0x02 => some (BitVec.ofInt 64 (a.toInt - b.toInt))
  | 0x03 => some (BitVec.ofInt 64 (a.toInt * b.toInt))
  | 0x04 => some (BitVec.ofInt 64 (a.toInt.tdiv b.toInt))
  | 0x05 => some (BitVec.ofInt 64 (min a.toInt b.toInt))
  | 0x06 => some (BitVec.ofInt 64 (max a.toInt b.toInt))
  | 0x07 => some (a &&& b)
  | 0x08 => some (a ||| b)
  | 0x09 => some (a ^^^ b)
  | 0x0A => some (BitVec.ofNat 64 (a.toNat * 2 ^ (b.toNat % 64)))
  | 0x0B => some (BitVec.ofNat 64 (a.toNat / 2 ^ (b.toNat % 64)))
  | 0x0C => some (BitVec.ofInt 64 (a.toInt / 2 ^ (b.toNat % 64)))
  | 0x0D => some (BitVec.ofInt 64 (a.toInt * b.toInt / 2 ^ 64))
  | 0x0E => some (BitVec.ofNat 64 (a.toNat / b.toNat))
  | 0x0F => some (BitVec.ofInt 64 (a.toInt.tmod b.toInt))
  | 0x10 => some (BitVec.ofNat 64 (a.toNat % b.toNat))
  | 0x15 => some (BitVec.ofNat 64 (a.toInt - b.toInt).natAbs)
  | _ => none

/-- The function of Table 17.9 that an IOPI function takes, and its second operand (Table 17.10). -/
def immTable (f : BitVec 3) (i : BitVec 10) : Nat × BitVec 64 :=
  match f.toNat with
  | 0 => (0x01, BitVec.ofInt 64 i.toInt)
  | 1 => (0x07, BitVec.ofNat 64 i.toNat)
  | 2 => (0x08, BitVec.ofNat 64 i.toNat)
  | 3 => (0x09, BitVec.ofNat 64 i.toNat)
  | 4 => (0x0A, BitVec.ofNat 64 (i.toNat % 64))
  | 5 => (0x0B, BitVec.ofNat 64 (i.toNat % 64))
  | 6 => (0x0C, BitVec.ofNat 64 (i.toNat % 64))
  | _ => (0x03, BitVec.ofInt 64 i.toInt)

/-- The integer conditions of Table 17.11. -/
def condTable (c : BitVec 3) (a b : BitVec 64) : Bool :=
  match c.toNat with
  | 0 => decide (a = b)
  | 1 => decide (a ≠ b)
  | 2 => decide (a.toInt < b.toInt)
  | 3 => decide (b.toInt ≤ a.toInt)
  | 4 => decide (a.toNat < b.toNat)
  | 5 => decide (b.toNat ≤ a.toNat)
  | 6 => decide (a.toInt ≤ b.toInt)
  | _ => decide (b.toInt < a.toInt)

/-- The check of R52: SEG 0, and an offset from STKLIM.LIMIT to the size of STACK. -/
def StackHolds (s : State) (v : BitVec 64) : Prop :=
  v.toNat / 2 ^ 52 = 0 ∧ (s.slot s.cur s.seqSlot).mem.stkLimit.toNat ≤ v.toNat % 2 ^ 23 ∧ v.toNat % 2 ^ 23 ≤ s.stackSize

/-! ## Frames of memory accesses -/

/-- A segment without its bytes and the bookkeeping of accesses (R98, R193). -/
def bareSeg (g : Segment) : Segment := { g with touch := 0, store := {} }

def bareSlot (k : Slot) : Slot :=
  { k with mem := { k.mem with segs := k.mem.segs.map bareSeg }, race := { k.race with supp := 0 } }

def bareTile (t : Tile) : Tile := { t with slots := t.slots.map bareSlot }

def bareTower (w : Tower) : Tower := { w with gddr := {}, layer := {} }

/-- A state without what memory holds: no bytes, tags, poison, race records and times of access. -/
def bare (s : State) : State := { s with tiles := s.tiles.map bareTile, towers := s.towers.map bareTower }

/-- Two states that differ at most in what memory holds: every register, flag, queue and table is the same. -/
def SameButMemory (s t : State) : Prop := bare s = bare t

/-- Between two states the bytes at offset a of a segment have become bs, and every other byte reads as before. -/
structure Wrote (s t : State) (u : BitVec 8) (k : BitVec 2) (n : BitVec 12) (a : Nat) (bs : List Byte) : Prop where
  seg : ∀ v j m x, ((t.slot v j).seg m).map (fun g => look 0 g.store.bytes x) =
    if v = u ∧ j = k ∧ m = n ∧ a ≤ x ∧ x < a + bs.length then some (bs.getD (x - a) 0)
    else ((s.slot v j).seg m).map (fun g => look 0 g.store.bytes x)
  layer : ∀ w x, look 0 (t.tower w).layer.bytes x = look 0 (s.tower w).layer.bytes x
  gddr : ∀ w x, look 0 (t.tower w).gddr.bytes x = look 0 (s.tower w).gddr.bytes x

/-- A read of n bytes at a segment pointer that passes every check, poison included (R93, R94, R251, R323). -/
def Readable (s : State) (m : Me) (p : W64) (n align : Nat) (t : BitVec 8) (k : BitVec 2) (g : Segment) : Prop :=
  Reachable s m p n align false true t k g ∧ g.store.poisoned (ptrOff p) n = []

/-- A write of n bytes at a segment pointer that passes every check, a poisoned word covered in part included (R393). -/
def Writable (s : State) (m : Me) (p : W64) (n align : Nat) (t : BitVec 8) (k : BitVec 2) (g : Segment) : Prop :=
  Reachable s m p n align true true t k g ∧ g.store.partPoison (ptrOff p) n = []

/-! ## Accesses of global memory, synchronisation -/

/-- s with the recorder of the moving tile frozen where an answer of another chip says that the request met a translation fault there
(R298). -/
def metAt (s : State) (r : RemoteReply) (va : BitVec 64) : State :=
  if r.met = true then s.freezeTile s.cur 2 (bits va 31 0) else s

/-- A state without what synchronisation of agents changes either (R182, R192, R194): clocks, views and sweeps, and what happens before
each agent's present point. -/
def calmSlot (k : Slot) : Slot := { bareSlot k with race := Race.reset, knows := [] }

def calm (s : State) : State :=
  { bare s with
    tiles := s.tiles.map fun t => { t with slots := t.slots.map calmSlot }
    ctxs := s.ctxs.map fun c => { c with sweeping := false } }

/-- Two states that differ at most in memory and in race detection. -/
def SameButSync (s t : State) : Prop := calm s = calm t

/-- A kernel's sequencer instruction whose predicate is q executes (R47, R238). -/
def ExecutesK (s : State) (q : BitVec 3) : Prop := Executes s q ∧ s.inRt = false

/-- The owner's tables map an offset for an access, and the TLB holds nothing that differs (R255 to R257). -/
def Maps (s : State) (w : BitVec 3) (off acc : Nat) (x : Xl) : Prop :=
  ∃ e, s.stage1 w off = .inr e ∧ s.finishXl w e acc = .ok x ∧
    ((s.tower w).mmu.tlb.find? (·.page == off / 65536) = some e ∨ (s.tower w).mmu.tlb.find? (·.page == off / 65536) = none)

/-- s with a translation kept in the TLB, where it was not yet (R257). -/
def xlated (s : State) (w : BitVec 3) (off : Nat) : State :=
  match (s.tower w).mmu.tlb.find? (·.page == off / 65536), s.stage1 w off with
  | none, .inr e => s.modTower w fun x => { x with mmu := { x.mmu with tlb := e :: x.mmu.tlb } }
  | _, _ => s

/-- What an access of n bytes through a capability needs on its own chip (R69, R254 to R260): the four checks of the
capability, the issuer's checks, a range within one page that maps to GDDR address a of tower w, and no store to a
replica of it in progress. -/
structure Global (s : State) (m : Me) (c : Cap) (va : W64) (n acc : Nat) (need : List Nat) (x : Xl) (w : BitVec 3)
    (a : Nat) : Prop where
  tag : c.tag = true
  formed : c.malformed = false
  tenant : c.tenant = s.partid m.tile % 2 ^ 16
  inside : c.base ≤ va.toNat ∧ va.toNat + n ≤ c.base + c.len
  perms : need.all c.has = true
  here : vaChip va = s.chipOf m.tile
  mine : ∃ p, s.partOf m.tile = some p ∧ (vaChip va).toNat < p.setup.chips.toNat ∧
    p.setup.towers.getLsbD (vaTower va).toNat = true
  page : 0 < n ∧ vaOff va % 65536 + n ≤ 65536
  maps : Maps s (vaTower va) (vaOff va) acc x
  phys : ∃ pg, x.phys = .gddr w pg ∧ a = pg.val * 65536 + vaOff va % 65536
  whole : (s.tower (vaTower va)).mmu.repStores.any (·.page == x.ipa) = false

/-- No race of a global access on a CHECKED capability or a checked page (R193). -/
def NoGRace (s : State) (m : Me) (c : Cap) (x : Xl) (w : BitVec 3) (a n : Nat) (write : Bool) : Prop :=
  (c.has pCHECKED || x.chk) = true → s.raceOn m = true →
    raceFind (s.slot m.tile m.slot).race (s.tower w).gddr m.tile write (unitsOf 64 a n) = none

/-- Between two states the bytes at an address of a tower's GDDR 7 have become bs, and every other byte reads as
before. -/
structure WroteG (s t : State) (w : BitVec 3) (a : Nat) (bs : List Byte) : Prop where
  gddr : ∀ v x, look 0 (t.tower v).gddr.bytes x =
    if v = w ∧ a ≤ x ∧ x < a + bs.length then bs.getD (x - a) 0 else look 0 (s.tower v).gddr.bytes x
  layer : ∀ v x, look 0 (t.tower v).layer.bytes x = look 0 (s.tower v).layer.bytes x
  seg : ∀ u k n x, ((t.slot u k).seg n).map (fun g => look 0 g.store.bytes x) = ((s.slot u k).seg n).map (fun g => look 0 g.store.bytes x)

/-- The moving sequencer waits for an object. -/
def waiting (s : State) (o : WaitObj) : State := s.setSeqAgt { s.seqAgt with wait := some { obj := o } }

/-- The new value of an atomic that is no compare and swap, over numbers of w bits (Table 18.6). -/
def amoTable (op w : Nat) (old b : Nat) : Nat :=
  let sg (x : Nat) : Int := if x < 2 ^ (w - 1) then x else (x : Int) - 2 ^ w
  match op with
  | 0 => b
  | 1 => (old + b) % 2 ^ w
  | 2 => old &&& b
  | 3 => old ||| b
  | 4 => old ^^^ b
  | 5 => if sg old < sg b then b else old
  | 6 => if sg old < sg b then old else b
  | 7 => max old b
  | _ => min old b

/-- A barrier object as one number: EXPECTED, PHASE, ARRIVED (Table 9.9). -/
structure Barrier where
  expected : Nat
  phase : Nat
  arrived : Nat

/-- The object that 16 bytes hold. -/
def barrierOf (bs : List Byte) : Barrier := ⟨leNat bs / 2 ^ 32 % 2 ^ 32, leNat bs % 2, leNat bs / 2 ^ 64⟩

/-- Between two states the bytes of one segment have become those of f, and every other byte of memory reads as before. -/
structure Became (s t : State) (u : BitVec 8) (k : BitVec 2) (n : BitVec 12) (f : Nat → Byte) : Prop where
  seg : ∀ v j m x, ((t.slot v j).seg m).map (fun g => look 0 g.store.bytes x) =
    ((s.slot v j).seg m).map fun g => if v = u ∧ j = k ∧ m = n then f x else look 0 g.store.bytes x
  layer : ∀ w x, look 0 (t.tower w).layer.bytes x = look 0 (s.tower w).layer.bytes x
  gddr : ∀ w x, look 0 (t.tower w).gddr.bytes x = look 0 (s.tower w).gddr.bytes x

/-- A range of a segment that an agent may read or write whole: no race (R193), no poison (R251). -/
def Quiet (s : State) (m : Me) (g : Segment) (write : Bool) (a n : Nat) : Prop :=
  (g.check = true → s.raceOn m = true → raceFind (s.slot m.tile m.slot).race g.store m.tile write (unitsOf 64 a n) = none) ∧
  g.store.poisoned a n = []

/-! ## Invariants -/

/-- The accumulator tiles of every tile are listed in canonical form. -/
def AccCanonical (s : State) : Prop := ∀ t, canonFrom AccTile.reset 0 (s.tile t).acc = true

/-- vp0 of every slot reads all ones (R61). -/
def Vp0Ones (s : State) : Prop := ∀ t k, (s.slot t k).vs.pred 0 = BitVec.allOnes 128

/-- ETYPE of every slot is one of the seven element types (Table 3.9). -/
def ShapeLegal (s : State) : Prop := ∀ t k, (s.slot t k).vs.etype ≤ 6

/-- What every step keeps. -/
structure Sound (s : State) : Prop where
  memory : MemoryCanonical s
  acc : AccCanonical s
  vp0 : Vp0Ones s
  shape : ShapeLegal s

/-! ## Accumulator rows and the vector engine -/

/-- s after a touch of accumulator tile n of the moving tile by the running slot: a free tile becomes its own, all zeros (R145). -/
def owning (s : State) (n : BitVec 8) : State :=
  if (s.acc s.cur n).owner = s.ctxId s.cur s.curSlot then s
  else s.modAcc s.cur n fun _ => AccTile.cleared (s.ctxId s.cur s.curSlot)

/-- The same for the tiles of rows, in order. -/
def owningRows (s : State) (u : Vu) (l : List (BitVec 6)) : State := l.foldl (fun s n => owning s (u.tile n)) s

/-- The running slot's context may touch an accumulator tile of the moving tile (R145). -/
def mayOwn (s : State) (n : BitVec 8) : Prop := (s.acc s.cur n).owner = s.ctxId s.cur s.curSlot ∨ (s.acc s.cur n).owner = 0xFF

/-- No other engine than g has written a row and not released since (R62). -/
def Settled (a : AccTile) (g : Agent) (r : BitVec 5) : Prop := ∀ p, lookO a.prior r.toNat = some p → p.writer = g

/-- A row of the window is not poisoned, and the press is not writing it (R62, R251). -/
def cleanRow (s : State) (u : Vu) (n : BitVec 6) : Prop :=
  ((s.acc s.cur (u.tile n)).poison).getLsbD (n.toNat % 32) = false ∧ Settled (s.acc s.cur (u.tile n)) .vec (BitVec.ofNat 5 n.toNat)

/-- The vector engine is at a unit of its own that may touch the rows l and read the rows r (R398). -/
structure Rows (s : State) (u : Vu) (l r : List (BitVec 6)) : Prop where
  unit : UnitOf .vec s
  canon : AccCanonical s
  owned : ∀ n ∈ l, mayOwn s (u.tile n)
  clean : ∀ n ∈ r, cleanRow s u n

/-- An accumulator tile of the moving tile as the running slot's context sees it: zeros where it is free (R145). -/
def accSeen (s : State) (n : BitVec 8) : AccTile :=
  if (s.acc s.cur n).owner = s.ctxId s.cur s.curSlot then s.acc s.cur n else AccTile.cleared (s.ctxId s.cur s.curSlot)

/-- A row of the window with its sideband, and lane i of b bytes of it. -/
def rowAt (s : State) (u : Vu) (n : BitVec 6) : Row := (accSeen s (u.tile n)).row (BitVec.ofNat 5 n.toNat)

def sideAt (s : State) (u : Vu) (n : BitVec 6) : Word := (accSeen s (u.tile n)).sideOf (BitVec.ofNat 5 n.toNat)

def laneAt (s : State) (u : Vu) (b : Nat) (n : BitVec 6) (i : Nat) : Nat := (rowAt s u n).toNat / 2 ^ (8 * b * i) % 2 ^ (8 * b)

/-- s with a row and its sideband written by the vector engine (R62, R149). -/
def rowSet (s : State) (u : Vu) (n : BitVec 6) (r : Row) (sd : Word) : State :=
  s.modAcc s.cur (u.tile n) fun a => a.putBy .vec (BitVec.ofNat 5 n.toNat) r sd

/-- A row of lanes of b bytes, lane 0 lowest (R60). -/
def rowOfLanes (b : Nat) (f : Nat → Nat) : Row := lanesRow b ((List.range (128 / b)).map f)

/-- s after a row has taken the lanes of b bytes that sel picks, the others keeping theirs, its sideband zero (R398). -/
def rowMerge (s : State) (u : Vu) (n : BitVec 6) (b : Nat) (new : Nat → Nat) (sel : Nat → Bool) : State :=
  rowSet s u n (rowOfLanes b fun i => if sel i then new i else laneAt s u b n i) 0

/-- A row whose kept lanes can be read: none is kept, or it is not poisoned. -/
def Kept (s : State) (u : Vu) (n : BitVec 6) (b : Nat) (sel : Nat → Bool) : Prop :=
  (∀ i, i < 128 / b → sel i = true) ∨ cleanRow s u n

/-- The flags of the active lanes. -/
def flagsOf (u : Vu) (f : Nat → Flg) : Flg := ((List.range u.n).filter u.act).foldl (fun g i => g ||| f i) 0

/-- s with vector state changed. -/
def vecSet (s : State) (f : VecState → VecState) : State := s.modSlot s.cur s.curSlot fun k => { k with vs := f k.vs }

/-- s with flags added to TSTAT (R115), the vector engine at its next unit. -/
def vecDone (s : State) (g : Flg) : State :=
  nextUnit .vec (s.modTstat (s.meOf .vec) { flags := vecFlags g })

/-! ## The press -/

/-- s with press state of the running slot changed. -/
def matSet (s : State) (f : PressState → PressState) : State := s.modSlot s.cur s.curSlot fun k => { k with ps := f k.ps }

/-- s with TSTAT of the running slot changed by an effect of the press (R143, R144). -/
def tstatSet (s : State) (e : TstatEff) : State := s.modTstat (s.meOf .mat) e

/-- An accumulator tile whose rows the press has written, each with a zero sideband (R62, R149). -/
def rowsPut (a : AccTile) (f : Nat → Row) : AccTile := (List.range 32).foldl (fun a i => a.putBy .mat (BitVec.ofNat 5 i) (f i) 0) a

/-- The word of number w that the press holds for descriptor n (R136). -/
def heldAt (h : List (Nat × List (Nat × List Byte))) (n w : Nat) : Option (List Byte) := (lookO h n).bind fun l => lookO l w

/-- s after touches of accumulator tiles by number, in order (R145). -/
def owningTiles (s : State) (l : List (BitVec 8)) : State := l.foldl owning s

/-- The press is at a step of its own that may touch the tiles l and read the rows of the tiles r, which the vector engine is not
writing (R62, R145, R251). -/
structure Tiles (s : State) (l r : List (BitVec 8)) : Prop where
  unit : UnitOf .mat s
  canon : AccCanonical s
  owned : ∀ n ∈ l, mayOwn s n
  clean : ∀ n ∈ r, (s.acc s.cur n).poison = 0 ∧ ∀ i, Settled (s.acc s.cur n) .mat i

/-- The rows of a tile, row i first. -/
def rowsOf (f : Nat → Row) : Vector Row 32 := Vector.ofFn fun i => f i.val

/-- The format record that fsel names (R127); none above 14. -/
def fmtRec (s : State) (f : BitVec 4) : Option Word :=
  let p := s.matSt
  let n := if f = 15 then p.fmtBase.toNat + (vget p.fmtLoop (s.curEntry .mat).lcs).toNat else f.toNat
  if n ≤ 14 then some ((((s.ctxOf s.cur s.curSlot).map (·.code.fmt)).getD []).getD n 0) else none

/-- The status element of a step can be pushed (R132, R33). -/
def StatusRoom (s : State) (b : BitVec 1) : Prop := b = 1 → (s.slot s.cur s.curSlot).q.matSeq.items.length < 8 ∨
  ((s.myAgt (s.meOf .mat)).grant = true ∧ (s.slot s.cur s.curSlot).q.matSeq.items.length = 8)

/-- s after a step has pushed its status element, where it pushes one (R132, R182). -/
def statusPushed (s : State) (b : BitVec 1) (v : Nat) : State :=
  if b = 1 then ((s.modSlot s.cur s.curSlot fun k => { k with q := { k.q with matSeq := { k.q.matSeq with
    items := k.q.matSeq.items ++ [s.item (s.meOf .mat) (BitVec.ofNat 64 v)] } } }).useGrant (s.meOf .mat)).releaseOnly (s.meOf .mat)
  else s

/-- Bytes of the segment of a descriptor. -/
def odBytes (s : State) (d : BitVec 128) (a n : Nat) : List Byte :=
  match s.findSeg (s.meOf .mat) (odSeg d) with
  | some r => r.2.2.store.read a n
  | none => []

/-- The K elements of row i of A, of row j of B, or with t of column j of B (R135, Tables 7.1, 7.2). -/
def odElems (s : State) (d : BitVec 128) (f k : Nat) (t : Bool) (i : Nat) : List Fx :=
  if t then (List.range k).map fun r =>
    (rowVals f 32 (odBytes s d (odOff d + 16 * odStride d * r) (32 * fmtBits f / 8)) []).getD i (.fin false 0 0)
  else rowVals f k (odBytes s d (odOff d + 16 * odStride d * i) (k * fmtBits f / 8))
    (if isBx f then odBytes s d (odHdr d + 8 * i) (2 * (k / 32)) else [])

/-- An operand of a step: aligned, of the span of its segment, no row of it held, all of its rows and headers readable
(R105, R133, R135, R136). -/
structure Fetchable (s : State) (n : BitVec 4) (f k : Nat) (t : Bool) : Prop where
  format : odFmt (vget n s.matSt.od) = f
  fresh : lookO s.matSt.held n.toNat = none
  span : ∀ u j g, s.findSeg (s.meOf .mat) (odSeg (vget n s.matSt.od)) = some (u, j, g) → g.span.toNat = odSpan (vget n s.matSt.od)
  align : odOff (vget n s.matSt.od) % 16 = 0 ∧ (isBx f = true → odHdr (vget n s.matSt.od) % 8 = 0)
  rows : ∀ r, r < (if t then k else 32) → ∃ u j g, Readable s (s.meOf .mat)
    (segPtr (odSeg (vget n s.matSt.od)) (odOff (vget n s.matSt.od) + 16 * odStride (vget n s.matSt.od) * r))
    ((if t then 32 else k) * fmtBits f / 8) 0 u j g
  hdrs : isBx f = true → ∀ r, r < 32 → ∃ u j g, Readable s (s.meOf .mat)
    (segPtr (odSeg (vget n s.matSt.od)) (odHdr (vget n s.matSt.od) + 8 * r)) (2 * (k / 32)) 0 u j g

/-- The byte at x after pieces (start, bytes) have been written in order over old bytes. -/
def written (l : List (Nat × List Byte)) (old : Nat → Byte) (x : Nat) : Byte :=
  match l.reverse.find? fun p => decide (p.1 ≤ x) && decide (x < p.1 + p.2.length) with
  | some p => p.2.getD (x - p.1) 0
  | none => old x

/-- The object of 16 bytes after an arrival of n bytes (R177). -/
def arrived (bs : List Byte) (n : Nat) : List Byte :=
  let o := barrierOf bs
  let low := leNat bs % 2 ^ 64
  if n = 0 then bs
  else if o.arrived + n = o.expected then leBytes 16 (low - o.phase + (1 - o.phase)) else leBytes 16 (low + 2 ^ 64 * (o.arrived + n))

/-! ## Transfers -/

/-- Between two states the bytes at an address of a tower's DRAM layer have become bs, and every other byte reads as
before. -/
structure WroteL (s t : State) (w : BitVec 3) (a : Nat) (bs : List Byte) : Prop where
  layer : ∀ v x, look 0 (t.tower v).layer.bytes x =
    if v = w ∧ a ≤ x ∧ x < a + bs.length then bs.getD (x - a) 0 else look 0 (s.tower v).layer.bytes x
  gddr : ∀ v x, look 0 (t.tower v).gddr.bytes x = look 0 (s.tower v).gddr.bytes x
  seg : ∀ u k n x, ((t.slot u k).seg n).map (fun g => look 0 g.store.bytes x) = ((s.slot u k).seg n).map (fun g => look 0 g.store.bytes x)

/-- No channel of a tower's asynchronous path runs a lane test (R285). -/
def AsyncOpen (s : State) (w : BitVec 3) : Prop := ∀ l ∈ (s.tower w).lanes, l.asynch = true → l.testing = none

/-- Where a row lies: in a segment, in GDDR 7, in a DRAM layer. -/
inductive Spot where
  | seg (u : BitVec 8) (k : BitVec 2) (n : BitVec 12) (a : Nat)
  | gddr (w : BitVec 3) (a : Nat)
  | layer (w : BitVec 3) (a : Nat)

/-- Between two states the bytes at a place have become bs. -/
def SpotWrote (s t : State) (o : Spot) (bs : List Byte) : Prop :=
  match o with
  | .seg u k n a => Wrote s t u k n a bs
  | .gddr w a => WroteG s t w a bs
  | .layer w a => WroteL s t w a bs

/-- Row p of a descriptor of kind SEG, CAP or LAYER reads as the n bytes bs, every check passing and none poisoned, and
leaves t (R162, R166). -/
def RowRead (s t : State) (d : Xd) (p : W64) (n : Nat) (bs : List Byte) : Prop :=
  (d.kind = 0 ∧ t = s ∧ ∃ u k g, Readable s s.xfrMe p n 0 u k g ∧ bs = g.store.read (ptrOff p) n) ∨
  (d.kind = 1 ∧ t = xlated s (vaTower p) (vaOff p) ∧ ∃ x w a, Global s s.xfrMe d.cap p n 0 [pREAD] x w a ∧
    NoGRace s s.xfrMe d.cap x w a n false ∧ (s.tower w).gddr.poisoned a n = [] ∧ bs = (s.tower w).gddr.read a n) ∨
  (d.kind = 2 ∧ t = s ∧ AsyncOpen s (towerOf s.cur) ∧ p.toNat + n ≤ 2 ^ 33 ∧ p.toNat % 16 = 0 ∧ bs = (s.tower (towerOf s.cur)).layer.read p.toNat n ∧
    ∀ u ∈ unitsOf 16 p.toNat n, u ∉ (s.tower (towerOf s.cur)).layer.poison ∧ u ∉ (s.tower (towerOf s.cur)).badReads ∧
      ∀ b, (u, b) ∉ (s.tower (towerOf s.cur)).biterrs)

/-- Row p of a descriptor can be written with bs: it lies at o, and the state is t then, but for what memory holds. -/
def RowOpen (s t : State) (d : Xd) (p : W64) (bs : List Byte) (o : Spot) : Prop :=
  (d.kind = 0 ∧ t = s ∧ ∃ u k g, Writable s s.xfrMe p bs.length 0 u k g ∧ o = .seg u k g.num (ptrOff p)) ∨
  (d.kind = 1 ∧ ∃ x w a, Global s s.xfrMe d.cap p bs.length 1 [pWRITE] x w a ∧ x.rpl = false ∧
    NoGRace s s.xfrMe d.cap x w a bs.length true ∧ (s.tower w).gddr.partPoison a bs.length = [] ∧ o = .gddr w a ∧
    t = (xlated s (vaTower p) (vaOff p)).pieceWrite (vaTower p) x (vaOff p % 65536) bs (s.who s.xfrMe)) ∨
  (d.kind = 2 ∧ AsyncOpen s (towerOf s.cur) ∧ p.toNat + bs.length ≤ 2 ^ 33 ∧ p.toNat % 16 = 0 ∧ o = .layer (towerOf s.cur) p.toNat ∧
    t = (s.layerWrite (towerOf s.cur) p.toNat bs (s.who s.xfrMe)).modSlot s.cur s.curSlot fun k => { k with
      mem := { k.mem with layerOut := k.mem.layerOut + 1, layerWho := s.who s.xfrMe } })

/-- Item i of an index list names row r: the word itself, or the word that it links to, unchanged since the address queue formed it
(R169, R170). A link costs a free number of cycles. -/
def IndexRead (s t : State) (ix al : Xd) (i r : Nat) : Prop :=
  (∀ o, lookO s.xstep.ahead i = some o → o.row = r) ∧
  ∃ t0 bs, RowRead s t0 ix (ix.row i) 4 bs ∧
    ((leNat bs < 2 ^ 31 ∧ r = leNat bs ∧ t = t0) ∨
     (2 ^ 31 ≤ leNat bs ∧ ∃ t1 ls, RowRead t0 t1 al (al.row (leNat bs % 2 ^ 31)) 4 ls ∧ r = leNat ls ∧
       t = (t1.draw.2).modX fun x => { x with decouple := min 0xFFFF (x.decouple + t1.draw.1.toNat % 2 ^ 16) }))

/-- s with transfer state of the running slot changed. -/
def xferSet (s : State) (f : XferState → XferState) : State := s.modSlot s.cur s.curSlot fun k => { k with xs := f k.xs }

/-- An agent may push to a queue of n items and depth d (R33, R36). -/
def Room (s : State) (m : Me) (n d : Nat) : Prop := n < d ∨ ((s.myAgt m).grant = true ∧ n = d)

/-- s after a push to a queue of the running slot by an engine (R182). -/
def pushed (s : State) (m : Me) (f : Queues → Queues) : State :=
  ((s.modSlot s.cur s.curSlot fun k => { k with q := f k.q }).useGrant m).releaseOnly m

/-- s with a completion record pushed to the event queue of the running slot (R174). -/
def eventPushed (s : State) (m : Me) (r : BitVec 128) : State :=
  pushed s m fun q => { q with ev := { q.ev with items := q.ev.items ++ [s.item m r] } }

/-- The running slot's event queue has room. -/
def EventRoom (s : State) (m : Me) : Prop := Room s m (s.slot s.cur s.curSlot).q.ev.items.length 64

/-- An agent waits for an object from now on. -/
def waitsFor (s : State) (m : Me) (o : WaitObj) : State := s.setMyAgt m { s.myAgt m with wait := some { obj := o } }

/-! ## The decode engine -/

/-- The decode engine of the moving tile's tower runs an entry of a context, and is at rest (R228). -/
structure Decoding (s : State) (d : DecEntry) (c : Context) : Prop where
  cur : (s.tower (towerOf s.cur)).dec.cur = some d
  ctx : s.ctxById d.e.ctx = some c
  rest : AtRest (s.myAgt s.decMe)

/-- s with the decode engine at its next word. -/
def decDone (s : State) : State := s.modDecCur fun d => { d with unit := d.unit + 1, begun := false }

/-! ## Events -/

/-- The wait of an agent has ended, and its turn comes next (R300). -/
structure Woken (s u : State) (t : BitVec 8) (k : BitVec 2) (a : Agent) : Prop where
  wait : (u.agt t k a).wait = none
  next : u.agenda = turnOf t a :: s.agenda
  mem : SameMemory s u
  others : ∀ v, v ≠ t → u.tile v = s.tile v

/-- Whether the spare room of a queue of a slot is in use (R36, R37). -/
def spareUsed (s : State) (t : BitVec 8) (k : BitVec 2) (q : BitVec 8) : Bool :=
  let x := (s.slot t k).q
  match q.toNat with
  | 0 => x.vec.spare | 1 => x.mat.spare | 2 => x.xfr.spare | 3 => (s.tower (towerOf t)).dec.q.spare | 4 => x.vecSeq.spare
  | 5 => x.matSeq.spare | 6 => x.xfrSeq.spare | 7 => x.vecMat.spare | 8 => x.matVec.spare | _ => x.ev.spare

/-- The blocked agents of a slot of tile t stop where they stand, and no other agent changes (R236, R245, R246). -/
structure BlockedStop (s u : State) (t : BitVec 8) (k : BitVec 2) : Prop where
  mem : SameMemory s u
  others : ∀ v, v ≠ t → u.tile v = s.tile v
  regs : (u.slot t k).sq.bank = (s.slot t k).sq.bank ∧ (u.slot t k).sems = (s.slot t k).sems ∧ (u.slot t k).q = (s.slot t k).q
  engines : ∀ e, e ≠ Eng.dec → let g := (s.slot t k).engine e
    (u.slot t k).engine e = { g with agt := if g.agt.stopsAt (Eng.agent e) then g.agt.stopped else g.agt }

/-- A command that its partition acts on: authentic, in the order of its session, after the bring-up, on a partition
without a fatal error (R252, R275, R276, R287). -/
structure Acts (s : State) (c : HostCmd) (p : Partition) : Prop where
  authentic : c.authentic = true
  due : s.host.authDue = false
  up : s.bring.step = 6
  order : c.session = 0 ∨ ∃ x, s.sessionOf c.session = some x ∧ c.seq = x.next ∧ x.part = p.setup.num ∧ s.stalledSeq c = false
  part : s.parts.find? (fun q => decide (q.setup.num.setWidth 16 = c.part)) = some p
  known : ∀ x, s.sessionOf c.session = some x → x.part = p.setup.num
  fatal : p.fatal = none

/-- The state in which a turn of tile t starts, the agenda's first turn taken. -/
def taken (s : State) (r : List Turn) (t : BitVec 8) : State := { s with agenda := r, moves := s.moves + 1, cur := t }

end Sys2Proof.Safety
end

