-- ==== Sys2Proof/Certificates/Slice0/Obligations.lean ====
section
/-! DEFINITION. The statements for the provers. Where one says what an instruction does, its conclusion is the state that
exec answers, so the result, the frame and the completion are one claim. -/

open Sys2Proof Sys2Proof.Machine Sys2Proof.Safety

/-! ## Decoding and the step -/

/-- Words written out from the spec's encodings decode to what they stand for: one or more of each section. -/
def Obligations.WrittenWordsDecode : Prop :=
  decodeWord .seq 0x180C2201 = .ok (.plog 0 3 1 2 1) ∧ decodeWord .seq 0x803C0002 = .ok (.popr 0 15 2) ∧
  decodeWord .seq 0x2414C702 = .ok (.sel 0 5 6 7 2) ∧ decodeWord .seq 0x08340040 = .ok (.lui 0 13 64) ∧
  decodeWord .seq 0x0418C004 = .ok (.iopi 0 6 6 0 4) ∧ decodeWord .seq 0x68C00005 = .ok (.br 1 1 5) ∧
  decodeWord .seq 0x440C9008 = .ok (.fsts 0 3 4 8) ∧ decodeWord .seq 0x9400000A = .ok (.fenceFull 0 2) ∧
  decodeWord .mat 0x38007C00 = .ok (.mfoldStrict 15) ∧ decodeWord .mat 0x08040000 = .ok (.mlddAs 0) ∧
  decodeWord .seq 0x2C10A601 = .ok (.fma 0 4 5 6 1)

/-- R303 to R311: decoding the word of a well-formed instruction gives it back, and an event has no word. -/
def Obligations.DecodeOfEncode : Prop :=
  (∀ (i : Instr) (c : Section) (w : BitVec 32), i.wf = true → i.sect = some c → encode i = some w → decodeWord c w = .ok i) ∧
  ∀ i : Instr, (encode i).isSome = i.sect.isSome

/-- No bit of a word is dropped: what decodes is well-formed, belongs to the section and encodes to the same word. -/
def Obligations.EncodeOfDecode : Prop :=
  ∀ (c : Section) (w : BitVec 32) (i : Instr), decodeWord c w = .ok i → i.wf = true ∧ i.sect = some c ∧ encode i = some w

/-- A step runs the decoded instruction. The sequencer runs the word at its program counter, or where an rpt repeats the
stepped word after it, and a word that is none as a reserved word; an engine runs the word of its block at its unit. A slot for which
an entry at TVEC is due runs nothing (R236). -/
def Obligations.StepRunsDecoded : Prop :=
  (∀ (s : State) (t : BitVec 8) (r : List Turn) (w : BitVec 32), s.agenda = .seq t :: r → (s.tile t).up = true →
    let u := taken s r t
    (u.inRt = true ∨ ((s.tile t).running.isSome = true ∧ (s.tile t).stopping = none ∧
      (s.tile t).stands (u.slot t u.curSlot) = false ∧ (u.slot t u.curSlot).sq.hasIter = true)) →
    u.seqAgt.wait = none →
    (match u.bank.rpt with
      | none => wordIn u.seqCode u.bank.pc = some w
      | some p => ∃ w0, wordIn u.seqCode (u.bank.pc + 4) = some w0 ∧ w = stepSeq w0 p) →
    (∀ i, decodeWord .seq w = .ok i → step s = exec i u) ∧
    ((∀ i, decodeWord .seq w ≠ .ok i) → step s = exec (.reservedWord w) u)) ∧
  (∀ (s : State) (t : BitVec 8) (e : Eng) (r : List Turn) (x : Entry) (c : Context) (w : BitVec 32) (i : Instr),
    s.agenda = .eng t e :: r → e ≠ .dec → (s.tile t).enginesRun = true →
    let u := taken s r t
    (u.eng e).agt.wait = none → (s.tile t).stands (u.slot t u.curSlot) = false → (u.eng e).cur = some x → u.ctxOf t u.curSlot = some c →
    unitWord e (c.code.block e x.blk) (u.eng e).unit (u.eng e).rpt = some w → decodeWord (Eng.section e) w = .ok i →
    step s = exec i u) ∧
  (∀ (s : State) (k : BitVec 3) (r : List Turn) (d : DecEntry) (c : Context) (w : BitVec 32) (i : Instr),
    s.agenda = .dec k :: r → (s.tower k).dec.cur = some d → (s.tower k).dec.agt.wait = none →
    let u := taken s r d.e.tile
    u.decRuns d.e = true → (s.tile d.e.tile).stands (u.slot d.e.tile u.curSlot) = false → u.ctxById d.e.ctx = some c →
    (c.code.block .dec d.e.blk)[d.unit]? = some w → decodeWord .dec w = .ok i → step s = exec i u)

/-- Right after reset: no bring-up step has run, every register is zero but p0 and vp0, QUOTA, TRCTL and the watchdog period
have their reset values, memory lists nothing, and what every step keeps holds. Values that the spec does not give are those
of DESIGN CHOICE, log 8. -/
def Obligations.ResetHolds : Prop :=
  let s := State.reset
  Sound s ∧ s.bring = {} ∧ s.tick = 0 ∧ s.parts = [] ∧ s.ctxs = [] ∧
  (∀ t, (s.tile t).up = false ∧ (s.tile t).trctl = 0x7D ∧ (s.tile t).wdog = 2 ^ 28 ∧ (s.tile t).rt = Bank.zero ∧ (s.tile t).acc = []) ∧
  (∀ t k, (s.slot t k).ctx = none ∧ (s.slot t k).mem.quota = 0x800000 ∧ (s.slot t k).mem.segs = [] ∧ (s.slot t k).sq.bank = Bank.zero) ∧
  (∀ w, (s.tower w).gddr = {} ∧ (s.tower w).layer = {} ∧ (s.tower w).mmu.root = none) ∧
  (∀ n, Bank.zero.gr n = 0) ∧ (∀ n, Bank.zero.pr n = (n == 0)) ∧ Bank.zero.lstat = 0 ∧ Bank.zero.rrb = 0 ∧ Bank.zero.fpmode = 0

/-- Every step keeps memory and the accumulator store in canonical form, vp0 at all ones (R61), and ETYPE one of the seven
element types (R423). -/
def Obligations.StepKeepsSound : Prop := ∀ s t : State, Sound s → step s = .next t → Sound t

/-- No instruction and no event stops the machine: every one answers a next state. -/
def Obligations.ExecAlwaysCompletes : Prop := ∀ (i : Instr) (s : State), ∃ t, exec i s = .next t

/-- R27, R237: an instruction of a kernel leaves PRIV at U and the trap registers as they are, unless it enters the runtime
at TVEC. -/
def Obligations.KernelKeepsTrapState : Prop :=
  ∀ (i : Instr) (s t : State), i.sect = some .seq → s.inRt = false → (s.tile s.cur).priv = .u → exec i s = .next t →
    (t.tile s.cur).inRuntime = false → (t.tile s.cur).priv = .u ∧ (t.tile s.cur).tr = (s.tile s.cur).tr

/-- R47: the predicate of a SEQ word is the register that bits 25 to 23 name, and p0 is 1. An instruction whose predicate is 0
only retires, RPT among them where its successor may be repeated (R57) and RPTV is 0 (R58; log 103, DEDUCED): outside a repeat and the end of a loop's pass,
which R55 and R57 govern, that changes nothing but the program counter. ILLEGAL of a reserved word
and FETCHBOUND are raised whatever the predicates hold, and CMD, which names none, executes. -/
def Obligations.FalsePredicateOnlyAdvances : Prop :=
  (∀ (s : State) (i : Instr) (w : BitVec 32), i.sect = some .seq → i.wf = true → encode i = some w →
    w.toNat / 2 ^ 26 ≠ 0x1F → s.bank.pr (BitVec.ofNat 3 (w.toNat / 2 ^ 23)) = false →
    (w.toNat / 2 ^ 26 = 0x1E → lsRptv s.bank.lstat = false ∧ ∃ n j, wordIn s.seqCode (s.bank.pc + 4) = some n ∧ decodeWord .seq n = .ok j ∧ rptForbids n = false) →
    exec i s = .next s.retire) ∧
  (∀ s : State, Plain s → s.retire = onward s s.bank) ∧
  (∀ b : Bank, b.pr 0 = true) ∧
  (∀ (w : BitVec 32) (s : State), exec (.reservedWord w) s = .next (s.raiseSeq .illegal (w.setWidth 64) 0)) ∧
  (∀ (s : State) (t : BitVec 8) (r : List Turn), s.agenda = .seq t :: r → (s.tile t).up = true → let u := taken s r t
    (u.inRt = true ∨ ((s.tile t).running.isSome = true ∧ (s.tile t).stopping = none ∧
      (s.tile t).stands (u.slot t u.curSlot) = false ∧ (u.slot t u.curSlot).sq.hasIter = true)) →
    u.seqAgt.wait = none → u.bank.rpt = none → wordIn u.seqCode u.bank.pc = none →
    step s = .next (u.raiseSeq .fetchbound u.bank.pc 0)) ∧
  (∀ (s : State) (e : BitVec 2) (k : BitVec 6) (a b : BitVec 5) (w : BitVec 3) (v : BitVec 1) (z : BitVec 3) (y : BitVec 1) (c : Context),
    ExecutesK s 0 → s.ctxOf s.cur s.curSlot = some c → k.toNat < (c.code.blocks (engOf e)).length → e ≠ 3 →
    ((s.slot s.cur s.curSlot).cmdQ (engOf e)).items.length < 16 → ∃ u, exec (.cmd e k a b w v z y) s = .next u ∧
      (u.slot s.cur s.curSlot).sq.issue = (s.slot s.cur s.curSlot).sq.issue + 1)

/-! ## The sequencer's registers -/

/-- R351: IOP sets gd to the integer result of Table 17.9 and changes no other state but the program counter. -/
def Obligations.IopResult : Prop :=
  ∀ (s : State) (q : BitVec 3) (d a b f : BitVec 5) (v : BitVec 64), Executes s q →
    intTable f.toNat (s.bank.gr a) (s.bank.gr b) = some v → exec (.iop q d a b f) s = .next (onward s (s.bank.setG d v))

/-- R352, R313, R52: IOPI sets gd to the function of gs and the immediate; iopi.add into g2 raises STACKLIM with FVAL the
value where the stack check fails. -/
def Claims.IopiResult : Prop :=
  ∀ (s : State) (q : BitVec 3) (d a : BitVec 5) (f : BitVec 3) (i : BitVec 10) (v : BitVec 64), Executes s q →
    intTable (immTable f i).1 (s.bank.gr a) (immTable f i).2 = some v →
    (f = 0 ∧ d = 2 → StackHolds s v) → exec (.iopi q d a f i) s = .next (onward s (s.bank.setG d v))

/-- R52: the stack check that fails. -/
def Claims.StackCheckTraps : Prop :=
  ∀ (s : State) (q : BitVec 3) (a : BitVec 5) (i : BitVec 10), s.bank.pr q = true →
    ¬ StackHolds s (s.bank.gr a + BitVec.ofInt 64 i.toInt) →
    exec (.iopi q 2 a 0 i) s = .next (s.raiseSeq .stacklim (s.bank.gr a + BitVec.ofInt 64 i.toInt) 0)

/-- R364, R327, R48, R382, R388: LUI, ADDPC, PSAVE, PLOAD, SEL and SEL_F. The byte of PSAVE has bit 0 set and bit n equal
to pn; PLOAD writes p1 to p7 and nothing else. -/
def Obligations.MoveResults : Prop :=
  ∀ (s : State) (q : BitVec 3), Executes s q →
    (∀ d i, exec (.lui q d i) s = .next (onward s (s.bank.setG d (BitVec.ofNat 64 (i.toNat * 2 ^ 46))))) ∧
    (∀ d i, exec (.addpc q d i) s = .next (onward s (s.bank.setG d (s.bank.pc + BitVec.ofInt 64 (4 * i.toInt))))) ∧
    (∀ d, ∃ v : BitVec 64, exec (.psave q d) s = .next (onward s (s.bank.setG d v)) ∧ v.toNat < 256 ∧
      ∀ n : BitVec 3, v.getLsbD n.toNat = s.bank.pr n) ∧
    (∀ a, ∃ b, exec (.pload q a) s = .next (onward s b) ∧ { b with p := s.bank.p } = s.bank ∧
      ∀ n : BitVec 3, b.pr n = (n = 0 || (s.bank.gr a).getLsbD n.toNat)) ∧
    (∀ d a b c, exec (.sel q d a b c) s = .next (onward s (s.bank.setG d (if s.bank.pr c then s.bank.gr a else s.bank.gr b)))) ∧
    (∀ d a b c, exec (.selF q d a b c) s = .next (onward s (s.bank.setF d (if s.bank.pr c then s.bank.fr a else s.bank.fr b)))) ∧
    decodeWord .seq 0x2414C702 = .ok (.sel 0 5 6 7 2) ∧ decodeWord .seq 0x2414C70A = .ok (.selF 0 5 6 7 2) ∧
    decodeWord .seq 0x0C040003 = .ok (.addpc 0 1 3) ∧ decodeWord .seq 0x1C300000 = .ok (.psave 0 12)

/-- R336, R337, R383, R314: CMP and CMPI write the condition of Table 17.11, PLOG the combination of two predicates. A write
to p0 is discarded, functions 0 and 7 of PLOG are reserved, and so is a second operand of its not. -/
def Obligations.PredicateResults : Prop :=
  ∀ (s : State) (q d : BitVec 3), Executes s q →
    (∀ a b c, exec (.cmp q d a b c) s = .next (onward s (s.bank.setP d (condTable c (s.bank.gr a) (s.bank.gr b))))) ∧
    (∀ a c i, exec (.cmpi q d a c i) s = .next (onward s (s.bank.setP d (condTable c (s.bank.gr a) (BitVec.ofInt 64 i.toInt))))) ∧
    (∀ a b : BitVec 3, let x := s.bank.pr a; let y := s.bank.pr b
      exec (.plog q d a b 1) s = .next (onward s (s.bank.setP d (x && y))) ∧
      exec (.plog q d a b 2) s = .next (onward s (s.bank.setP d (x || y))) ∧
      exec (.plog q d a b 3) s = .next (onward s (s.bank.setP d (xor x y))) ∧
      exec (.plog q d a b 4) s = .next (onward s (s.bank.setP d (x && !y))) ∧
      exec (.plog q d a b 5) s = .next (onward s (s.bank.setP d (x || !y))) ∧
      exec (.plog q d a b 6) s = .next (onward s (s.bank.setP d (!x)))) ∧
    (∀ v, s.bank.setP 0 v = s.bank) ∧
    (∀ w p e a b f, decodeWord .seq w = .ok (.plog p e a b f) → 1 ≤ f.toNat ∧ f.toNat ≤ 6 ∧ (f = 6 → b = 0)) ∧
    decodeWord .seq 0x100C8504 = .ok (.cmp 0 3 4 5 4) ∧ decodeWord .seq 0x1404C840 = .ok (.cmpi 0 1 6 2 64) ∧
    decodeWord .seq 0x180C2201 = .ok (.plog 0 3 1 2 1) ∧ decodeWord .seq 0x18108006 = .ok (.plog 0 4 4 0 6)

/-- R348, R349, R344, R345: FOP, FMA, FCMP and FCVT, each rounded once in FPMODE.RM; flags are only ever added. -/
def Obligations.FloatResults : Prop :=
  ∀ (s : State) (q : BitVec 3), Executes s q →
    let b := s.bank
    let x (n : BitVec 5) : Fx := fp32.read (b.fr n).toNat
    let done (c : Bank) (g : Flg) : Host.Outcome State Fault Refusal :=
      .next (onward s { c with fpmode := b.fpmode ||| BitVec.ofNat 64 (16 * g.toNat) })
    let toF (d : BitVec 5) (r : Nat × Flg) := done (b.setF d (BitVec.ofNat 32 r.1)) r.2
    let toG (d : BitVec 5) (r : Nat × Flg) := done (b.setG d (BitVec.ofNat 64 r.1)) r.2
    let toI (d : BitVec 5) (r : Int × Flg) := done (b.setG d (BitVec.ofInt 64 r.1)) r.2
    (∀ d a c f r, fp32.arith b.rm f.toNat (b.fr a).toNat (b.fr c).toNat = some r → exec (.fop q d a c f) s = toF d r) ∧
    (∀ d a c, exec (.fma q d a c 1) s = toF d (fp32.sum b.rm [(x a).mul (x c), x d]) ∧
      exec (.fma q d a c 2) s = toF d (fp32.sum b.rm [(x a).mul (x c), (x d).neg]) ∧
      exec (.fma q d a c 3) s = toF d (fp32.sum b.rm [((x a).mul (x c)).neg, x d]) ∧
      exec (.fma q d a c 4) s = toF d (fp32.sum b.rm [((x a).mul (x c)).neg, (x d).neg])) ∧
    (∀ d a c k, exec (.fcmp q d a c k) s = done (b.setP d (fp32.cond k.toNat (b.fr a).toNat (b.fr c).toNat).1)
      (fp32.cond k.toNat (b.fr a).toNat (b.fr c).toNat).2) ∧
    (∀ d a, exec (.fcvt q d a 1) s = toI d ((x a).toInt b.rm (-(2 ^ 63)) (2 ^ 63 - 1)) ∧
      exec (.fcvt q d a 2) s = toI d ((x a).toInt b.rm 0 (2 ^ 64 - 1)) ∧
      exec (.fcvt q d a 3) s = toF d (fp32.ofInt b.rm (b.gr a).toInt) ∧
      exec (.fcvt q d a 4) s = toF d (fp32.ofInt b.rm (b.gr a).toNat) ∧
      exec (.fcvt q d a 5) s = toG d (fp32.conv fp16 b.rm (b.fr a).toNat) ∧
      exec (.fcvt q d a 6) s = toG d (fp32.conv bf16 b.rm (b.fr a).toNat) ∧
      exec (.fcvt q d a 7) s = toF d (fp16.conv fp32 b.rm ((b.gr a).toNat % 2 ^ 16)) ∧
      exec (.fcvt q d a 8) s = toF d (bf16.conv fp32 b.rm ((b.gr a).toNat % 2 ^ 16)) ∧
      exec (.fcvt q d a 9) s = .next (onward s (b.setG d ((b.fr a).setWidth 64))) ∧
      exec (.fcvt q d a 10) s = .next (onward s (b.setF d ((b.gr a).setWidth 32))))

/-! ## Loads and stores -/

/-- What an access of a segment stops on, in this order (R94, R323): SEGBOUND by pointer bits, SEGNAME, SEGBOUND by its size, ALIGN, RACE
with FVAL the record and FINFO the address, POISON. FVAL is the pointer but for RACE. No byte of memory changes. -/
def Claims.SegmentStops (s : State) (e : Instr) (p : BitVec 64) (n : Nat) (write : Bool) : Prop :=
  let stop (c : Cause) (v i : BitVec 64) : Prop := exec e s = .next (s.raiseSeq c v i)
  (ptrMid p ≠ 0 → stop .segbound p 0) ∧
  (ptrMid p = 0 →
    (s.findSeg s.seqMe (ptrSeg p) = none → stop .segname p 0) ∧
    ∀ u k g, s.findSeg s.seqMe (ptrSeg p) = some (u, k, g) →
      let race := raceFind (s.slot s.cur s.seqSlot).race g.store s.cur write (unitsOf 64 (ptrOff p) n)
      (g.size < ptrOff p + n → stop .segbound p 0) ∧
      (ptrOff p + n ≤ g.size →
        (ptrOff p % n ≠ 0 → stop .align p 0) ∧
        (ptrOff p % n = 0 →
          (∀ c rd, g.check = true → s.raceOn s.seqMe = true → race = some (c, rd) → stop .race (raceFval c rd) p) ∧
          ((g.check = true → s.raceOn s.seqMe = true → race = none) → g.state = .resident →
            (if write then g.store.partPoison (ptrOff p) n else g.store.poisoned (ptrOff p) n) ≠ [] →
            ∃ t, exec e s = .next (t.raiseSeq .poison p 0) ∧ SameMemory s t ∧ t.bank = s.bank))))

/-- R361, R347, R360, R332: a load from a segment whose bytes can be read writes its destination and changes nothing
else. -/
def Claims.LoadResults : Prop :=
  ∀ (s : State) (q : BitVec 3) (b : BitVec 5) (i : BitVec 10) (t : BitVec 8) (k : BitVec 2) (g : Segment), Executes s q →
    let p := s.bank.gr b + BitVec.ofInt 64 i.toInt
    let got (e : Instr) (c : Bank) : Prop := ∃ u, exec e s = .next u ∧ SameButMemory u (onward s c) ∧ SameMemory s u
    (∀ (d : BitVec 5) (z : BitVec 2) (x : BitVec 1), let n := 2 ^ z.toNat
      Readable s s.seqMe p n n t k g →
      let v : BitVec (8 * n) := BitVec.ofNat (8 * n) (leNat (g.store.read (ptrOff p) n))
      got (.lds q d b z x i) (s.bank.setG d (if x = 1 then v.signExtend 64 else v.setWidth 64))) ∧
    (∀ d, Readable s s.seqMe p 4 4 t k g →
      got (.flds q d b i) (s.bank.setF d (BitVec.ofNat 32 (leNat (g.store.read (ptrOff p) 4))))) ∧
    (∀ d, Readable s s.seqMe p 16 16 t k g →
      got (.ldq q d b i) ((s.bank.setG d (BitVec.ofNat 64 (leNat (g.store.read (ptrOff p) 8)))).setG (d + 1)
        (BitVec.ofNat 64 (leNat (g.store.read (ptrOff p + 8) 8))))) ∧
    (∀ d, Readable s s.seqMe p 16 16 t k g →
      got (.capld q d b i) (s.bank.setCap d ⟨BitVec.ofNat 128 (leNat (g.store.read (ptrOff p) 16)),
        g.store.tags.contains (ptrOff p / 16)⟩))

/-- R323, R94: what LDS, FLDS, LDQ and CAPLD stop on. -/
def Claims.LoadStops : Prop :=
  ∀ (s : State) (q : BitVec 3) (d b : BitVec 5) (c : BitVec 4) (i : BitVec 10) (z : BitVec 2) (x : BitVec 1), Executes s q →
    let p := s.bank.gr b + BitVec.ofInt 64 i.toInt
    Claims.SegmentStops s (.lds q d b z x i) p (2 ^ z.toNat) false ∧ Claims.SegmentStops s (.flds q d b i) p 4 false ∧
    Claims.SegmentStops s (.ldq q d b i) p 16 false ∧ Claims.SegmentStops s (.capld q c b i) p 16 false

/-- R393, R350, R334: a store to a segment that can be written changes its own bytes and no others, and no register; CAPST
gives its granule the register's tag, any other store of 16 B none. -/
def Claims.StoreResults : Prop :=
  ∀ (s : State) (q : BitVec 3) (b : BitVec 5) (i : BitVec 10) (t : BitVec 8) (k : BitVec 2) (g : Segment), Executes s q →
    MemoryCanonical s →
    let p := s.bank.gr b + BitVec.ofInt 64 i.toInt
    let put (e : Instr) (bs : List Byte) : Prop := ∃ u, exec e s = .next u ∧ SameButMemory u (onward s s.bank) ∧
      Wrote s u t k g.num (ptrOff p) bs
    let tagOf (u : State) : Option Bool := ((u.slot t k).seg g.num).map fun x => x.store.tags.contains (ptrOff p / 16)
    (∀ d (z : BitVec 2), Writable s s.seqMe p (2 ^ z.toNat) (2 ^ z.toNat) t k g →
      put (.sts q d b z i) (leBytes (2 ^ z.toNat) (s.bank.gr d).toNat)) ∧
    (∀ d, Writable s s.seqMe p 4 4 t k g → put (.fsts q d b i) (leBytes 4 (s.bank.fr d).toNat)) ∧
    (∀ d, Writable s s.seqMe p 16 16 t k g → put (.stq q d b i) (leBytes 8 (s.bank.gr d).toNat ++
      leBytes 8 (s.bank.gr (d + 1)).toNat) ∧ ∀ u, exec (.stq q d b i) s = .next u → tagOf u = some false) ∧
    (∀ d, Writable s s.seqMe p 16 16 t k g → put (.capst q d b i) (leBytes 16 (s.bank.capr d).raw.toNat) ∧
      ∀ u, exec (.capst q d b i) s = .next u → tagOf u = some (s.bank.capr d).tag)

/-- R323, R94, R393: what STS, FSTS, STQ and CAPST stop on; a poisoned 16 B word stops a store that covers it in part. -/
def Claims.StoreStops : Prop :=
  ∀ (s : State) (q : BitVec 3) (d b : BitVec 5) (c : BitVec 4) (i : BitVec 10) (z : BitVec 2), Executes s q →
    let p := s.bank.gr b + BitVec.ofInt 64 i.toInt
    Claims.SegmentStops s (.sts q d b z i) p (2 ^ z.toNat) true ∧ Claims.SegmentStops s (.fsts q d b i) p 4 true ∧
    Claims.SegmentStops s (.stq q d b i) p 16 true ∧ Claims.SegmentStops s (.capst q c b i) p 16 true

/-- R359, R324, R69: a load through a capability that passes its checks writes gd and changes nothing else but the TLB. -/
def Claims.GlobalLoads : Prop :=
  ∀ (s : State) (q : BitVec 3) (d b : BitVec 5) (c : BitVec 4) (x : BitVec 1) (z : BitVec 2) (xl : Xl) (w : BitVec 3) (a : Nat),
    Executes s q →
    let va := s.bank.gr b
    let n := 2 ^ z.toNat
    Global s s.seqMe (s.bank.capr c) va n 0 [pREAD] xl w a → va.toNat % n = 0 →
    NoGRace s s.seqMe (s.bank.capr c) xl w a n false → (s.tower w).gddr.poisoned a n = [] →
    let v : BitVec (8 * n) := BitVec.ofNat (8 * n) (leNat ((s.tower w).gddr.read a n))
    ∃ u, exec (.ldg q d b c x z) s = .next u ∧ SameMemory s u ∧
      SameButMemory u (onward (xlated s (vaTower va) (vaOff va)) (s.bank.setG d (if x = 1 then v.signExtend 64 else v.setWidth 64)))

/-- R393, R324: a store through a capability that passes its checks to a page that is not replicated changes its own bytes
and no others, and no register. -/
def Claims.GlobalStores : Prop :=
  ∀ (s : State) (q : BitVec 3) (d b : BitVec 5) (c : BitVec 4) (z : BitVec 2) (xl : Xl) (w : BitVec 3) (a : Nat),
    Executes s q → MemoryCanonical s →
    let va := s.bank.gr b
    let n := 2 ^ z.toNat
    Global s s.seqMe (s.bank.capr c) va n 1 [pWRITE] xl w a → va.toNat % n = 0 → xl.rpl = false →
    NoGRace s s.seqMe (s.bank.capr c) xl w a n true → (s.tower w).gddr.partPoison a n = [] →
    let bs := leBytes n (s.bank.gr d).toNat
    ∃ u, exec (.stg q d b c z) s = .next u ∧ WroteG s u w a bs ∧
      SameButMemory u (onward ((xlated s (vaTower va) (vaOff va)).pieceWrite (vaTower va) xl (vaOff va % 65536) bs (s.who s.seqMe))
        s.bank)

/-- R69, R254: what an access through a capability stops on, in this order: untagged, malformed, another tenant, outside the
region, a permission that is missing, REMOTE missing for another chip, CHECKED for another chip. All are CAP with FVAL the
address. LDG stands for the accesses. -/
def Claims.CapabilityChecks : Prop :=
  ∀ (s : State) (q : BitVec 3) (d b : BitVec 5) (t : BitVec 4) (x : BitVec 1) (z : BitVec 2), Executes s q →
    let va := s.bank.gr b
    let c := s.bank.capr t
    let n := 2 ^ z.toNat
    let cap (i : W64) : Prop := exec (.ldg q d b t x z) s = .next (s.raiseSeq .cap va i)
    let far : Prop := vaChip va ≠ s.chipOf s.cur
    (c.tag = false → cap 1) ∧
    (c.tag = true → c.malformed = true → cap 2) ∧
    (c.tag = true → c.malformed = false →
      (c.tenant ≠ s.partid s.cur % 2 ^ 16 → cap 3) ∧
      (c.tenant = s.partid s.cur % 2 ^ 16 →
        (va.toNat < c.base ∨ c.base + c.len < va.toNat + n → cap 4) ∧
        (c.base ≤ va.toNat → va.toNat + n ≤ c.base + c.len →
          (c.has pREAD = false → cap 5) ∧
          (c.has pREAD = true → far → (c.has pREMOTE = false ∨ c.has pCHECKED = true) → cap 5) ∧
          (c.has pREAD = true → ¬ far → va.toNat % n ≠ 0 → exec (.ldg q d b t x z) s = .next (s.raiseSeq .align va 0)))))

/-- R254: an access of another chip sends one request and waits; with the answer it completes. A request that met a translation fault
at its owner freezes the recorder of the tile (R298). -/
def Claims.RemoteLoads : Prop :=
  ∀ (s : State) (q : BitVec 3) (d b : BitVec 5) (t : BitVec 4) (x : BitVec 1) (z : BitVec 2) (p : Partition),
    s.bank.pr q = true → s.bank.rpt = none → NoPassEnd s.bank →
    let va := s.bank.gr b
    let c := s.bank.capr t
    let n := 2 ^ z.toNat
    c.tag = true → c.malformed = false → c.tenant = s.partid s.cur % 2 ^ 16 → c.base ≤ va.toNat →
    va.toNat + n ≤ c.base + c.len → c.has pREAD = true → c.has pREMOTE = true → c.has pCHECKED = false → va.toNat % n = 0 →
    s.partOf s.cur = some p → vaChip va ≠ p.setup.chip → setupReaches p.setup va = true →
    p.down.contains (vaChip va) = false →
    (AtRest s.seqAgt →
      let id := s.host.nextReq
      let u := s.setSeqAgt { s.seqAgt with wait := some { obj := .remote id va }, pend := some id }
      exec (.ldg q d b t x z) s = .next { u with host := { s.host with
        nextReq := id + 1
        outReqs := s.host.outReqs ++ [⟨id, p.setup.num, vaChip va, s.cur, s.ctxId s.cur s.seqSlot, va, .read n,
          (s.who s.seqMe).eng, (s.who s.seqMe).issue, none, s.tick⟩] } }) ∧
    (∀ r, s.seqAgt.wait = none → s.seqAgt.got = [r] → s.seqAgt.pend = none → s.seqAgt.absent = none → s.seqAgt.tested = false →
      s.seqAgt.out = none → s.seqAgt.layers = none → r.cause = 0 → r.bs.length = n →
      let v : BitVec (8 * n) := BitVec.ofNat (8 * n) (leNat r.bs)
      exec (.ldg q d b t x z) s = .next (onward ((metAt s r va).setSeqAgt { s.seqAgt with got := [], used := 0 })
        (s.bank.setG d (if x = 1 then v.signExtend 64 else v.setWidth 64))))

/-- R254: a store to another chip sends one request with its bytes and waits, what is left of it kept; with the answer it completes, its
checks made once. -/
def Claims.RemoteStores : Prop :=
  ∀ (s : State) (q : BitVec 3) (d b : BitVec 5) (t : BitVec 4) (z : BitVec 2) (p : Partition),
    s.bank.pr q = true → s.bank.rpt = none → NoPassEnd s.bank →
    let va := s.bank.gr b
    let c := s.bank.capr t
    let n := 2 ^ z.toNat
    let bs := leBytes n (s.bank.gr d).toNat
    c.tag = true → c.malformed = false → c.tenant = s.partid s.cur % 2 ^ 16 → c.base ≤ va.toNat →
    va.toNat + n ≤ c.base + c.len → c.has pWRITE = true → c.has pREMOTE = true → c.has pCHECKED = false → va.toNat % n = 0 →
    s.partOf s.cur = some p → vaChip va ≠ p.setup.chip → setupReaches p.setup va = true →
    p.down.contains (vaChip va) = false →
    (AtRest s.seqAgt →
      let id := s.host.nextReq
      let u := s.setSeqAgt { s.seqAgt with
        wait := some { obj := .remote id va }, pend := some id, out := some [.far va bs false] }
      exec (.stg q d b t z) s = .next { u with host := { s.host with
        nextReq := id + 1
        outReqs := s.host.outReqs ++ [⟨id, p.setup.num, vaChip va, s.cur, s.ctxId s.cur s.seqSlot, va, .write bs false,
          (s.who s.seqMe).eng, (s.who s.seqMe).issue, none, s.tick⟩] } }) ∧
    (∀ r, s.seqAgt.wait = none → s.seqAgt.got = [r] → s.seqAgt.pend = none → s.seqAgt.absent = none → s.seqAgt.tested = false →
      s.seqAgt.out = some [.far va bs false] → s.seqAgt.layers = none → r.cause = 0 → s.storesOf (s.writerOf s.seqMe) = false →
      exec (.stg q d b t z) s = .next (onward ((metAt s r va).setSeqAgt { s.seqAgt with got := [], used := 0, out := none }) s.bank))

/-- R189: a store to a replicated page is made in every replica at once, or some replicas stay locked and it waits for them; which of the
two a free value says (DESIGN CHOICE, log 3). -/
def Claims.ReplicatedStores : Prop :=
  ∀ (s : State) (q : BitVec 3) (d b : BitVec 5) (c : BitVec 4) (z : BitVec 2) (xl : Xl) (w : BitVec 3) (a : Nat),
    Executes s q → MemoryCanonical s →
    let va := s.bank.gr b
    let n := 2 ^ z.toNat
    let bs := leBytes n (s.bank.gr d).toNat
    Global s s.seqMe (s.bank.capr c) va n 1 [pWRITE] xl w a → va.toNat % n = 0 → xl.rpl = true →
    NoGRace s s.seqMe (s.bank.capr c) xl w a n true → (s.tower w).gddr.partPoison a n = [] →
    s.storesOf (s.writerOf s.seqMe) = false →
    let whole := bit (Config.fresh s.fresh) 0 = false
    let reps := s.replicasOf (vaTower va) xl.ipa
    ∃ u, exec (.stg q d b c z) s = .next u ∧ u.fresh = s.fresh + 1 ∧
      (∀ v k m x, ((u.slot v k).seg m).map (fun g => look 0 g.store.bytes x) = ((s.slot v k).seg m).map fun g => look 0 g.store.bytes x) ∧
      (whole → u.bank = { s.bank with pc := s.bank.pc + 4 } ∧ u.seqAgt.wait = none ∧
        ∀ v x, look 0 (u.tower v).gddr.bytes x =
          if reps.any fun r => decide (r.1 = v) && decide (r.2 * 65536 + vaOff va % 65536 ≤ x) &&
            decide (x < r.2 * 65536 + vaOff va % 65536 + n)
          then bs.getD (x % 65536 - vaOff va % 65536) 0 else look 0 (s.tower v).gddr.bytes x) ∧
      (¬ whole → u.bank = s.bank ∧ u.seqAgt.wait = some { obj := .replica (va.setWidth 54) } ∧
        ∃ r, (u.tower (vaTower va)).mmu.repStores = r :: (s.tower (vaTower va)).mmu.repStores ∧ r.page = xl.ipa ∧
          r.off = vaOff va % 65536 ∧ r.bytes = bs ∧ r.writer = s.writerOf s.seqMe ∧ ∃ k, r.locked = reps.drop k)

/-- R328, R191: an atomic on a segment or on global memory of its own chip answers the old value and stores the new one of
Table 18.6; a compare and swap that finds another value stores nothing. -/
def Obligations.AtomicResults : Prop :=
  ∀ (s : State) (q : BitVec 3) (d b t : BitVec 5) (w c l a : BitVec 1) (o : BitVec 4), Executes s q → MemoryCanonical s →
    o.toNat ≤ 9 →
    let p := s.bank.gr b
    let n := if w = 1 then 8 else 4
    let x := (s.bank.gr d).toNat % 2 ^ (8 * n)
    let y := (s.bank.gr (d + 1)).toNat % 2 ^ (8 * n)
    let new (old : Nat) : Nat := if o = 9 then y else amoTable o.toNat (8 * n) old x
    let fails (old : Nat) : Prop := o = 9 ∧ old ≠ x
    (∀ u k (g : Segment), c = 0 → Reachable s s.seqMe p n n true false u k g → g.store.poisoned (ptrOff p) n = [] →
      let old := leNat (g.store.read (ptrOff p) n)
      ∃ v, exec (.amo q d b t w c l a o) s = .next v ∧ SameButSync v (onward s (s.bank.setG d (BitVec.ofNat 64 old))) ∧
        (fails old → SameMemory s v) ∧ (¬ fails old → Wrote s v u k g.num (ptrOff p) (leBytes n (new old)))) ∧
    (∀ (xl : Xl) (tw : BitVec 3) (at_ : Nat), c = 1 →
      Global s s.seqMe (s.bank.capr (t.setWidth 4)) p n 2 [pREAD, pWRITE, pATOMIC] xl tw at_ → p.toNat % n = 0 → xl.rpl = false →
      (s.tower tw).gddr.poisoned at_ n = [] →
      let old := leNat ((s.tower tw).gddr.read at_ n)
      let seen := xlated s (vaTower p) (vaOff p)
      let bs := leBytes n (new old)
      ∃ v, exec (.amo q d b t w c l a o) s = .next v ∧
        (fails old → SameMemory s v ∧ SameButSync v (onward seen (s.bank.setG d (BitVec.ofNat 64 old)))) ∧
        (¬ fails old → WroteG s v tw at_ bs ∧ SameButSync v (onward (seen.pieceWrite (vaTower p) xl (vaOff p % 65536) bs
          (s.who s.seqMe)) (s.bank.setG d (BitVec.ofNat 64 old)))))

/-! ## Capabilities -/

/-- R333: the forms of CAPOP. A derivation needs a tag, a well-formed region and DERIVE, and narrows; the others read. -/
def Claims.CapabilityForms : Prop :=
  ∀ (s : State) (q : BitVec 3), Executes s q →
    (∀ d a : BitVec 4, let c := s.bank.capr a
      exec (.capopMov q d a) s = .next (onward s (s.bank.setCap d c)) ∧
      exec (.capopUntag q d a) s = .next (onward s (s.bank.setCap d { c with tag := false }))) ∧
    (∀ (d : BitVec 5) (a : BitVec 4), let c := s.bank.capr a
      exec (.capopBase q d a) s = .next (onward s (s.bank.setG d (BitVec.ofNat 64 c.base))) ∧
      exec (.capopInfo q d a) s = .next (onward s (s.bank.setG d
        (BitVec.ofNat 64 (c.perms + 2 ^ 8 * c.tenant + 2 ^ 24 * b2n c.tag + 2 ^ 25 * b2n c.malformed)))) ∧
      (c.len < 2 ^ 64 → exec (.capopSize q d a) s = .next (onward s (s.bank.setG d (BitVec.ofNat 64 c.len)))) ∧
      (2 ^ 64 ≤ c.len → ∃ v, exec (.capopSize q d a) s = .next (onward { s with fresh := s.fresh + 1 } (s.bank.setG d v)))) ∧
    (∀ (d a : BitVec 4) (t : BitVec 5), let c := s.bank.capr a
      let x := (s.bank.gr t).toNat
      c.tag = true → c.malformed = false → c.has pDERIVE = true →
      (x ≤ c.len → c.base + x < 2 ^ 54 → ∃ r, exec (.capopTrim q d a t) s = .next (onward s (s.bank.setCap d r)) ∧ r.tag = true ∧
        r.base = c.base + x ∧ r.len ≤ c.len - x ∧ c.len - x < r.len + 2 ^ r.exp ∧ r.perms = c.perms ∧ r.tenant = c.tenant) ∧
      (x ≤ c.len → c.base + x = 2 ^ 54 → ∃ r, r.tag = true ∧ c.base ≤ r.base ∧ r.perms = c.perms ∧ r.tenant = c.tenant ∧
        exec (.capopTrim q d a t) s = .next (onward { s with fresh := s.fresh + 1 } (s.bank.setCap d r))) ∧
      (x ≤ c.len → ∃ r, exec (.capopLen q d a t) s = .next (onward s (s.bank.setCap d r)) ∧ r.tag = true ∧
        r.base = c.base ∧ r.len ≤ x ∧ x < r.len + 2 ^ r.exp ∧ r.perms = c.perms ∧ r.tenant = c.tenant) ∧
      (∃ r, exec (.capopPerm q d a t) s = .next (onward s (s.bank.setCap d r)) ∧ r.tag = true ∧ r.base = c.base ∧
        r.len = c.len ∧ r.tenant = c.tenant ∧
        (∀ m, m < 8 → m ≠ pXNONE → m ≠ pCHECKED → r.has m = (c.has m && (s.bank.gr t).getLsbD m)) ∧
        r.has pXNONE = (c.has pXNONE || !(s.bank.gr t).getLsbD pXNONE) ∧ r.has pCHECKED = c.has pCHECKED)) ∧
    (∀ (d a : BitVec 4) (t : BitVec 5), let c := s.bank.capr a
      (c.tag = false ∨ c.malformed = true ∨ c.has pDERIVE = false ∨ c.len < (s.bank.gr t).toNat) →
      ∃ v i, exec (.capopTrim q d a t) s = .next (({ s with fresh := s.fresh + 1 } : State).raiseSeq .cap v i) ∧
        exec (.capopLen q d a t) s = .next (({ s with fresh := s.fresh + 1 } : State).raiseSeq .cap v i) ∧
        (c.tag = false ∨ c.malformed = true ∨ c.has pDERIVE = false →
          exec (.capopPerm q d a t) s = .next (({ s with fresh := s.fresh + 1 } : State).raiseSeq .cap v i)))

/-! ## Control flow -/

/-- R331, R304, R354, R355: a branch goes to its own offset plus or minus four times its field; a link register takes the
offset after it. JALR raises ALIGN with FVAL the target where the target is no multiple of 4. -/
def Claims.BranchResults : Prop :=
  ∀ (s : State) (q : BitVec 3), Executes s q →
    let b := s.bank
    (∀ (n : BitVec 1) (f : BitVec 22),
      let t := if n = 0 then b.pc + BitVec.ofNat 64 (4 * f.toNat) else b.pc - BitVec.ofNat 64 (4 * f.toNat)
      exec (.br q n f) s = .next (s.setBank { b with pc := t }) ∧
      exec (.jal q n f) s = .next (s.setBank { b.setG 1 (b.pc + 4) with pc := t })) ∧
    (∀ (d a : BitVec 5) (i : BitVec 13), let t := b.gr a + BitVec.ofInt 64 i.toInt
      (t.toNat % 4 = 0 → exec (.jalr q d a i) s = .next (s.setBank { b.setG d (b.pc + 4) with pc := t })) ∧
      (t.toNat % 4 ≠ 0 → exec (.jalr q d a i) s = .next (s.raiseSeq .align t 0)))

/-- R362: LOOP and its rotating form. A count of 0 skips the body, one above 2^32 is ILLEGAL, any other enters the loop. -/
def Claims.LoopResults : Prop :=
  ∀ (s : State) (q : BitVec 3) (i : BitVec 2) (a : BitVec 5) (g : BitVec 3) (l : BitVec 10) (rot : Bool), Executes s q →
    let b := s.bank
    let e : Instr := if rot then .loopRot q i a g l else .loop q i a l
    let n := (b.gr a).toNat
    let fin := b.pc + 4 + BitVec.ofNat 64 (4 * l.toNat)
    (2 ^ 32 < n → exec e s = .next (s.raiseSeq .illegal (s.wordAt.setWidth 64) 0)) ∧
    (n = 0 → exec e s = .next (s.setBank { b with lstat := lsSetAct b.lstat i false, pc := fin })) ∧
    (0 < n → n ≤ 2 ^ 32 → ∃ c : Bank, exec e s = .next ((s.setBank c).loopRecord 0).retire ∧
      { c with lc := b.lc, lstat := b.lstat, loopStart := b.loopStart, loopEnd := b.loopEnd, loopOrder := b.loopOrder, p := b.p } = b ∧
      c.lc = vset i (BitVec.ofNat 32 (n - 1)) b.lc ∧ c.loopStart = vset i (b.pc + 4) b.loopStart ∧
      c.loopEnd = vset i fin b.loopEnd ∧ c.loopOrder = i :: b.loopOrder.filter (· ≠ i) ∧
      lsAct c.lstat i = true ∧ lsRot c.lstat i = rot ∧ lsLo c.lstat i = 1 ∧ lsHi c.lstat i = 1 ∧
      lsSt c.lstat i = (if rot then g.toNat else 0) ∧
      (∀ j, j ≠ i → lsAct c.lstat j = lsAct b.lstat j ∧ lsRot c.lstat j = lsRot b.lstat j ∧ lsLo c.lstat j = lsLo b.lstat j ∧
        lsHi c.lstat j = lsHi b.lstat j ∧ lsSt c.lstat j = lsSt b.lstat j) ∧
      ∀ k : BitVec 3, c.pr k = if rot = true ∧ 0 < k.toNat ∧ k.toNat ≤ g.toNat + 1 then decide (k = 1) else b.pr k)

/-- R55, R363, R54: the end of a pass of the only loop. Another pass goes back to the loop start with LC one less; the last
one ends the loop and goes on. A rotating loop rotates RRB, moves LO and HI and writes its stage predicates, in a fill, a
kernel and a drain. FENCE stands for the instruction at the end of the body. -/
def Obligations.PassEnds : Prop :=
  ∀ (s : State) (q : BitVec 3) (n k : BitVec 2),
    let b := s.bank
    s.bank.pr q = true → b.rpt = none → b.loopOrder = [n] → lsAct b.lstat n = true → vget n b.loopEnd = b.pc + 4 →
    s.inRt = true ∨ bits (s.tile s.cur).trctl 13 12 = 0 →
    let lc := vget n b.lc
    let lo := lsLo b.lstat n
    let hi := lsHi b.lstat n
    let st := lsSt b.lstat n
    let last := lc = 0 ∧ lo = hi ∧ hi = st + 1
    (lsRot b.lstat n = false → lc ≠ 0 →
      exec (.fenceAcq q k) s = .next (s.setBank { b with lc := vset n (lc - 1) b.lc, pc := vget n b.loopStart })) ∧
    ((lsRot b.lstat n = false ∧ lc = 0) ∨ (lsRot b.lstat n = true ∧ last) →
      exec (.fenceAcq q k) s = .next ((s.setBank { b with lstat := lsSetAct b.lstat n false, pc := b.pc + 4 }).loopRecord 1)) ∧
    (lsRot b.lstat n = true → ¬ last → lo ≤ 6 → st ≤ 6 → ∃ c : Bank, exec (.fenceAcq q k) s = .next (s.setBank c) ∧
      { c with lc := b.lc, lstat := b.lstat, rrb := b.rrb, p := b.p, pc := b.pc } = b ∧ c.pc = vget n b.loopStart ∧
      c.lc = (if lc = 0 then b.lc else vset n (lc - 1) b.lc) ∧
      lsLo c.lstat n = (if lc = 0 then lo + 1 else lo) ∧ lsHi c.lstat n = (if hi < st + 1 then hi + 1 else hi) ∧
      c.rrb.toNat % 8 = (b.rrb.toNat % 8 + 1) % 8 ∧ c.rrb.toNat / 8 = (b.rrb.toNat / 8 + 1) % 7 ∧
      ∀ i : BitVec 3, 0 < i.toNat → i.toNat ≤ st + 1 → c.pr i = (decide (lsLo c.lstat n ≤ i.toNat) && decide (i.toNat ≤ lsHi c.lstat n)))

/-- R56 to R58, R386: RPT begins to repeat the next word where its predicate is 1, or, from RPTI, where RPTV is set (whatever its
predicate then is: log 103, DEDUCED), and its successor must be a word that RPT may repeat. VRPT and MRPT do the same in their engines. A repeated instruction leaves the program counter until its last
repeat. -/
def Claims.RepeatResults : Prop :=
  (∀ (s : State) (q : BitVec 3) (c : BitVec 6) (a b e : BitVec 3),
    let k := s.bank
    let clear : Bank := { k with lstat := setBit k.lstat 32 false }
    let first := if lsRptv k.lstat then lsRpti k.lstat else 0
    (wordIn s.seqCode (k.pc + 4) = none →
      exec (.rpt q c a b e) s = .next ((s.setBank { clear with pc := k.pc + 4, rpt := none }).raiseSeq .fetchbound (k.pc + 4) 0)) ∧
    (∀ w, wordIn s.seqCode (k.pc + 4) = some w →
      ((∀ i, decodeWord .seq w ≠ .ok i) ∨ rptForbids w = true →
        exec (.rpt q c a b e) s = .next ((s.setBank clear).raiseSeq .illegal (w.setWidth 64) 0)) ∧
      (∀ i, decodeWord .seq w = .ok i → rptForbids w = false →
        (k.pr q = true ∨ lsRptv k.lstat = true → first ≤ c.toNat → exec (.rpt q c a b e) s = .next (s.setBank { clear with
          rpt := some ⟨BitVec.ofNat 7 (c.toNat + 1), a, b, e, BitVec.ofNat 7 first⟩ })) ∧
        (k.pr q = false → lsRptv k.lstat = false → exec (.rpt q c a b e) s = .next s.retire)))) ∧
  (∀ (s : State) (c : BitVec 6) (a b e : BitVec 3), let r : Rpt := ⟨BitVec.ofNat 7 (c.toNat + 1), a, b, e, 0⟩
    exec (.vrpt c a b e) s = .next (s.modEng .vec fun g => { g with unit := g.unit + 1, rpt := some r }) ∧
    exec (.mrpt c a b e) s = .next (s.modEng .mat fun g => { g with unit := g.unit + 1, rpt := some r })) ∧
  (∀ (s : State) (q : BitVec 3) (k : BitVec 2) (r : Rpt), s.bank.pr q = true → s.bank.rpt = some r → r.i.toNat + 1 < r.cnt.toNat →
    exec (.fenceAcq q k) s = .next (s.setBank { s.bank with rpt := some { r with i := r.i + 1 } }))

/-! ## Queues and synchronisation -/

/-- R335, R30, R33, R192: CMD pushes an entry with the operands, tokens and loop counts of this moment and the next issue
number, writes a START record, and releases. A full queue makes it wait, and a block that the image does not hold is
ILLEGAL. That the record's engine byte is the receiving engine's is log 37 (DEDUCED). -/
def Claims.CommandPush : Prop :=
  ∀ (s : State) (e : BitVec 2) (k : BitVec 6) (a b : BitVec 5) (w : BitVec 3) (v : BitVec 1) (z : BitVec 3) (y : BitVec 1)
    (c : Context), ExecutesK s 0 → s.ctxOf s.cur s.curSlot = some c →
    let x := s.slot s.cur s.curSlot
    let ent : Entry := ⟨k, s.bank.gr a, s.bank.gr b, if v = 1 then some w else none, if y = 1 then some z else none, s.bank.lc,
      x.sq.issue, x.ctx.getD 0, s.cur, s.snap s.seqMe⟩
    let run := exec (.cmd e k a b w v z y) s
    let t := s.trace s.cur 4 0x04 (leBytes 8 (s.whereOf s.cur s.curSlot .seq) ++ leBytes 2 x.sq.issue.toNat ++
      [(agentCode (Eng.agent (engOf e))).setWidth 8, k.setWidth 8])
    let counted (f : Slot → Slot) : State := (t.modSlot s.cur s.curSlot fun k => { f k with sq := { (f k).sq with issue := x.sq.issue + 1 } })
    let room (n d : Nat) : Prop := n < d ∨ (s.seqAgt.grant = true ∧ n = d)
    let done (u : State) : Ans := .next (onward ((u.useGrant s.seqMe).releaseOnly s.seqMe) s.bank)
    (¬ k.toNat < (c.code.blocks (engOf e)).length → run = .next (s.raiseSeq .illegal (s.wordAt.setWidth 64) 0)) ∧
    (k.toNat < (c.code.blocks (engOf e)).length →
      (e ≠ 3 → room (x.cmdQ (engOf e)).items.length 16 → run = done (counted fun k => k.setCmdQ (engOf e)
        { k.cmdQ (engOf e) with items := (k.cmdQ (engOf e)).items ++ [ent] })) ∧
      (e ≠ 3 → ¬ room (x.cmdQ (engOf e)).items.length 16 → run = .next (waiting s (.push (e.setWidth 8)))) ∧
      (e = 3 → room (s.tower (towerOf s.cur)).dec.q.items.length 64 → run = done ((counted id).modTower (towerOf s.cur) fun d =>
        { d with dec := { d.dec with q := { d.dec.q with items := d.dec.q.items ++ [{ e := ent }] } } })) ∧
      (e = 3 → ¬ room (s.tower (towerOf s.cur)).dec.q.items.length 64 → run = .next (waiting s (.push 3))))

/-- R238: forms that raise ILLEGAL in the runtime bank, with no effect. -/
def Claims.KernelOnly (forms : BitVec 3 → BitVec 5 → BitVec 5 → BitVec 5 → List Instr) : Prop :=
  ∀ (s : State) (q : BitVec 3) (d a b : BitVec 5), s.inRt = true → Executes s q →
    ∀ i ∈ forms q d a b, exec i s = .next (s.raiseSeq .illegal (s.wordAt.setWidth 64) 0)

/-- CMD, POPR and EVPOP in the runtime bank. -/
def Claims.RuntimeQueues : Prop :=
  ∀ (e : BitVec 2) (k : BitVec 6) (w z : BitVec 3) (v y : BitVec 1) (f : BitVec 2),
    Claims.KernelOnly fun q d a b => [.cmd e k a b w v z y, .popr q d f, .evpop q d]

/-- R384, R343, R37: POPR and EVPOP take the oldest element of a FIFO, re-arming its spare room, and wait where it is empty.
EVPOP writes a record to a register pair. The pop acquires what its element was pushed after (R182): the effects on TSTAT of what
happens before the push are visible from then on (R144). -/
def Claims.QueuePops : Prop :=
  ∀ (s : State) (q : BitVec 3) (d : BitVec 5), ExecutesK s q →
    let fs := (s.slot s.cur s.curSlot).q
    let taken (f : Queue (Item W64)) (r : List (Item W64)) : Queue (Item W64) := ⟨r, f.spare && decide (8 < r.length), s.who s.seqMe⟩
    let pop (f : BitVec 2) (o : Queue (Item W64)) (put : Queues → Queue (Item W64) → Queues) : Prop :=
      (o.items = [] → exec (.popr q d f) s = .next (waiting s (.pop (f.setWidth 8 + 4)))) ∧
      (∀ x r, o.items = x :: r → exec (.popr q d f) s = .next (onward (s.modSlot s.cur s.curSlot fun k => { (k.learn .seq x.knows) with
        q := put k.q (taken o r) }) (s.bank.setG d x.val)))
    pop 0 fs.vecSeq (fun z f => { z with vecSeq := f }) ∧ pop 1 fs.matSeq (fun z f => { z with matSeq := f }) ∧
    pop 2 fs.xfrSeq (fun z f => { z with xfrSeq := f }) ∧
    (fs.ev.items = [] → exec (.evpop q d) s = .next (waiting s (.pop 9))) ∧
    (∀ x r, fs.ev.items = x :: r → exec (.evpop q d) s = .next (onward (s.modSlot s.cur s.curSlot fun k => { (k.learn .seq x.knows) with
      q := { k.q with ev := ⟨r, fs.ev.spare && decide (64 < r.length), s.who s.seqMe⟩ } })
        ((s.bank.setG d (x.val.setWidth 64)).setG (d + 1) ((x.val >>> 64).setWidth 64)))) ∧
    ∀ (x : Slot) (l : Knows) (e : TstatEff), e.stamp < look 0 l (agentKey s.cur e.agent) →
      e ∉ ((x.learn .seq l).tstatSync s.cur s.tick).effs

/-- R389, R32, R390: SEMS. A signal adds 1 and raises SEMOVF at 65,535; a wait takes 1 that no earlier waiter is due or
joins the waiters, behind those of earlier cycles and before the engines of its own cycle; a try answers whether it took 1; a get reads
the count. That a wait and a try leave to earlier waiters what those are due is log 38 (DEDUCED): R389 says of both `the count is at
least 1`, R390 that waiters take in one order. What is taken is acquired (R182, R144). -/
def Claims.SemaphoreResults : Prop :=
  ∀ (s : State) (q n : BitVec 3) (d : BitVec 5), ExecutesK s q →
    let k := (s.slot s.cur s.curSlot).sems
    let c := vget n k.count
    let due := (k.waiters.filter fun w => w.1 == n).length
    let sems (f : Sems) : State := s.modSlot s.cur s.curSlot fun x => { x with sems := f }
    let less : Sems := { k with count := vset n (c - 1) k.count, signals := dropFirst n k.signals }
    let took : State := s.modSlot s.cur s.curSlot fun x => { (x.takeSem n .seq) with sems := less }
    let now (x : BitVec 3 × Agent × BitVec 64) : Bool := x.2.2 == s.tick
    (c ≠ 0xFFFF → exec (.semsSig q n) s = .next (onward ((sems { k with
      count := vset n (c + 1) k.count, signals := k.signals ++ [(n, s.who s.seqMe)],
      known := put1 k.known n.toNat (joinView (look [] k.known n.toNat) (s.snap s.seqMe)) }).releaseOnly s.seqMe) s.bank)) ∧
    (c = 0xFFFF → exec (.semsSig q n) s = .next (s.raiseSeq .semovf (n.setWidth 64) 0)) ∧
    (due < c.toNat → exec (.semsWait q n) s = .next (onward took s.bank) ∧
      exec (.semsTry q d n) s = .next (onward took (s.bank.setG d 1))) ∧
    (c.toNat ≤ due → (∀ x ∈ k.waiters, x.1 = n → x.2.1 ≠ .seq) →
      ((∀ x ∈ k.waiters, x.1 = n → now x = false) →
        exec (.semsWait q n) s = .next (waiting (sems { k with waiters := k.waiters ++ [(n, .seq, s.tick)] }) (.sem n))) ∧
      (∀ x r, k.waiters = x :: r → x.1 = n → now x = true →
        exec (.semsWait q n) s = .next (waiting (sems { k with waiters := (n, .seq, s.tick) :: k.waiters }) (.sem n)))) ∧
    (c.toNat ≤ due → exec (.semsTry q d n) s = .next (onward s (s.bank.setG d 0))) ∧
    exec (.semsGet q d n) s = .next (onward s (s.bank.setG d (c.setWidth 64)))

/-- SEMS in the runtime bank. -/
def Claims.RuntimeSems : Prop :=
  ∀ n : BitVec 3, Claims.KernelOnly fun q d _ _ => [.semsSig q n, .semsWait q n, .semsGet q d n, .semsTry q d n]

/-- R176, R177, R329: an arrival of n bytes at a barrier object adds n; the arrival that reaches EXPECTED flips PHASE and
leaves ARRIVED 0; one that would pass it raises BARRIER and changes nothing; one of 0 bytes does nothing. In a segment, and
through a capability. -/
def Claims.BarrierArrivals : Prop :=
  ∀ (s : State) (q : BitVec 3) (a b : BitVec 5) (c : BitVec 4), Executes s q → MemoryCanonical s →
    let p := s.bank.gr a
    let n := (s.bank.gr b).toNat
    let after (bs : List Byte) : List Byte :=
      let o := barrierOf bs
      let low := leNat bs % 2 ^ 64
      if n = 0 then bs
      else if o.arrived + n = o.expected then leBytes 16 (low - o.phase + (1 - o.phase)) else leBytes 16 (low + 2 ^ 64 * (o.arrived + n))
    (∀ u k (g : Segment), Reachable s s.seqMe p 16 16 true false u k g → g.store.poisoned (ptrOff p) 16 = [] →
      let bs := g.store.read (ptrOff p) 16
      (n = 0 ∨ (barrierOf bs).arrived + n ≤ (barrierOf bs).expected → ∃ v, exec (.bara q a b) s = .next v ∧
        SameButSync v (onward s s.bank) ∧ Wrote s v u k g.num (ptrOff p) (after bs)) ∧
      (n ≠ 0 → (barrierOf bs).expected < (barrierOf bs).arrived + n → ∃ v, exec (.bara q a b) s = .next (v.raiseSeq .barrier p 0) ∧
        SameButMemory v s ∧ SameMemory s v)) ∧
    (∀ (xl : Xl) (w : BitVec 3) (at_ : Nat), Global s s.seqMe (s.bank.capr c) p 16 2 [pREAD, pWRITE, pATOMIC] xl w at_ →
      p.toNat % 16 = 0 → xl.rpl = false → (s.tower w).gddr.poisoned at_ 16 = [] →
      let bs := (s.tower w).gddr.read at_ 16
      let seen := xlated s (vaTower p) (vaOff p)
      (n = 0 ∨ (barrierOf bs).arrived + n ≤ (barrierOf bs).expected → ∃ v, exec (.baraCap q c a b) s = .next v ∧
        WroteG s v w at_ (after bs) ∧ SameButSync v (onward (if n = 0 then seen else
          seen.pieceWrite (vaTower p) xl (vaOff p % 65536) (after bs) (s.who s.seqMe)) s.bank)) ∧
      (n ≠ 0 → (barrierOf bs).expected < (barrierOf bs).arrived + n → ∃ v, exec (.baraCap q c a b) s = .next (v.raiseSeq .barrier p 0) ∧
        SameButMemory v seen ∧ SameMemory s v))

/-- R330, R179: BARW goes on where PHASE differs from bit 0 of its operand, and waits where it does not; it changes no
memory. -/
def Claims.BarrierWaits : Prop :=
  ∀ (s : State) (q : BitVec 3) (a b : BitVec 5) (c : BitVec 4), Executes s q →
    let p := s.bank.gr a
    let ph := (s.bank.gr b).toNat % 2
    (∀ u k (g : Segment), Reachable s s.seqMe p 16 16 false false u k g → g.store.poisoned (ptrOff p) 16 = [] →
      ∃ v, exec (.barw q a b) s = .next v ∧ SameMemory s v ∧
        ((barrierOf (g.store.read (ptrOff p) 16)).phase ≠ ph → SameButSync v (onward s s.bank)) ∧
        ((barrierOf (g.store.read (ptrOff p) 16)).phase = ph → SameButMemory v (waiting s (.barrier p (some (.seg ⟨u, k, g.num, ptrOff p⟩)) ph)))) ∧
    (∀ (xl : Xl) (w : BitVec 3) (at_ : Nat), Global s s.seqMe (s.bank.capr c) p 16 0 [pREAD] xl w at_ → p.toNat % 16 = 0 →
      (s.tower w).gddr.poisoned at_ 16 = [] →
      let t := xlated s (vaTower p) (vaOff p)
      ∃ v, exec (.barwCap q c a b) s = .next v ∧ SameMemory s v ∧
        ((barrierOf ((s.tower w).gddr.read at_ 16)).phase ≠ ph → SameButSync v (onward t s.bank)) ∧
        ((barrierOf ((s.tower w).gddr.read at_ 16)).phase = ph → SameButMemory v (waiting t (.barrier p
          (some (.glob w at_ ⟨vaTower p, xl, vaOff p % 65536, 16⟩)) ph))))

/-- R330, R179, R300: a BARW that waits looks at its object again without making its checks again: it waits on where PHASE still equals
bit 0 of its operand, and goes on where it differs. -/
def Claims.BarrierLooks : Prop :=
  ∀ (s : State) (q : BitVec 3) (a b : BitVec 5) (c : BitVec 4) (w : Wait) (x : Place),
    s.bank.pr q = true → s.bank.rpt = none → NoPassEnd s.bank →
    let p := s.bank.gr a
    let ph := (s.bank.gr b).toNat % 2
    AtRest { s.seqAgt with wait := none } → s.seqAgt.wait = some w → w.obj = .barrier p (some x) ph →
    let looks (i : Instr) : Prop :=
      (s.flipped x ph = none → exec i s = .next s) ∧
      ((s.flipped x ph).isSome = true → ∃ u, exec i s = .next u ∧ SameMemory s u ∧ u.seqAgt.wait = none ∧
        u.bank = { s.bank with pc := s.bank.pc + 4 })
    looks (.barw q a b) ∧ (vaChip p = s.chipOf s.cur → looks (.barwCap q c a b))

/-- R385, Table 3.12: PUSHD writes the record of lane 0xFFFF with two values at the tail of a deferral queue and then the
tail; it waits where the queue is full, a capacity of 0 among that (log 76), and raises ALIGN off a 64 B boundary. The counts
are integers (R6). -/
def Claims.DeferralPush : Prop :=
  ∀ (s : State) (q : BitVec 3) (a b : BitVec 5) (u : BitVec 8) (k : BitVec 2) (g : Segment), Executes s q → MemoryCanonical s →
    let p := s.bank.gr a
    let v := s.bank.gr b
    let at_ := ptrOff p
    let head := leNat (g.store.read at_ 8)
    let tail := leNat (g.store.read (at_ + 8) 8)
    let cap := leNat (g.store.read (at_ + 16) 4)
    let rec_ := leBytes 2 0xFFFF ++ [2] ++ List.replicate 5 0 ++ leBytes 4 v.toNat ++ leBytes 4 (v.toNat / 2 ^ 32) ++
      List.replicate 16 0
    (p.toNat % 64 ≠ 0 → exec (.pushd q a b) s = .next (s.raiseSeq .align p 0)) ∧
    (p.toNat % 64 = 0 → g.size ≤ 2 ^ 23 → g.store.poisoned at_ (64 + 32 * cap) = [] →
      Reachable s s.seqMe p (64 + 32 * cap) 16 true true u k g →
      (cap = 0 ∨ head + cap ≤ tail → ∃ t, exec (.pushd q a b) s = .next t ∧ SameButMemory t (waiting s .pushd) ∧ SameMemory s t) ∧
      (cap ≠ 0 → tail < head + cap → ∃ t, exec (.pushd q a b) s = .next t ∧ SameButMemory t (onward s s.bank) ∧
        Became s t u k g.num fun x =>
          if at_ + 8 ≤ x ∧ x < at_ + 16 then (leBytes 8 (tail + 1)).getD (x - (at_ + 8)) 0
          else if at_ + 64 + 32 * (tail % cap) ≤ x ∧ x < at_ + 96 + 32 * (tail % cap) then
            rec_.getD (x - (at_ + 64 + 32 * (tail % cap))) 0
          else look 0 g.store.bytes x))

/-- R186, R188, R353, R429: the fences complete at once but for FENCE layer, which waits while xlayer items that the context
issued are not written, or not acknowledged. ITER pt reads the point; ITER done ends the iteration and counts it. WAITI answers the selected conditions
that hold, and waits where none does. In the runtime bank ITER is ILLEGAL (R238), and so is a WAITI that selects a condition. -/
def Obligations.FencesAndWaits : Prop :=
  ∀ (s : State) (q : BitVec 3) (d a m : BitVec 5) (k : BitVec 2), Executes s q →
    (exec (.fenceAcq q k) s = .next (onward s s.bank) ∧ exec (.fenceRel q k) s = .next (onward s s.bank) ∧
      exec (.fenceFull q k) s = .next (onward s s.bank)) ∧
    let due : Prop := (s.slot s.cur s.curSlot).mem.layerOut ≠ 0 ∨ s.layerDue s.cur s.curSlot = true
    (s.inRt = true ∨ ¬ due → exec (.fenceLayer q k) s = .next (onward s s.bank)) ∧
    (s.inRt = false → due → exec (.fenceLayer q k) s = .next (waiting s .layerFence)) ∧
    (s.inRt = true → m = 0 → s.bank.gr a = 0 → exec (.waiti q d a m) s = .next (onward s (s.bank.setG d 0))) ∧
    (s.inRt = true → m = 0 → s.bank.gr a ≠ 0 → exec (.waiti q d a m) s = .next (waiting s (.waiti m (s.bank.gr a)))) ∧
    (s.inRt = false →
      let c := s.waitiConds s.cur s.curSlot &&& m
      exec (.iterPt q d) s = .next (onward s (s.bank.setG d (BitVec.ofNat 64 (s.slot s.cur s.curSlot).sq.point))) ∧
      (c ≠ 0 ∨ (m = 0 ∧ s.bank.gr a = 0) → exec (.waiti q d a m) s = .next (onward s (s.bank.setG d (c.setWidth 64)))) ∧
      (c = 0 → (m ≠ 0 ∨ s.bank.gr a ≠ 0) → exec (.waiti q d a m) s = .next (waiting s (.waiti m (s.bank.gr a)))) ∧
      (∀ x, s.ctxOf s.cur s.curSlot = some x → bits (s.tile s.cur).trctl 13 12 ≠ 1 → exec (.iterDone q) s =
        .next (((s.iterRecord s.cur s.curSlot).modSlot s.cur s.curSlot fun y => { y with sq := { y.sq with hasIter := false } }).modCtx
          x.id fun y => { y with done := y.done + 1 }))) ∧
    (s.inRt = true → ∀ i ∈ [Instr.iterPt q d, .iterDone q], exec i s = .next (s.raiseSeq .illegal (s.wordAt.setWidth 64) 0)) ∧
    (s.inRt = true → m ≠ 0 → exec (.waiti q d a m) s = .next (s.raiseSeq .illegal (s.wordAt.setWidth 64) 0))

/-! ## System registers, traps and returns -/

/-- R394, R50: SYSR reads a register of Table 3.2 in full or by half; a number of no register is ILLEGAL; a register that U
may not read raises PRIV in U with FVAL the word. -/
def Claims.SystemReads : Prop :=
  ∀ (s : State) (q : BitVec 3) (d : BitVec 5) (f : BitVec 2) (n : BitVec 12), Executes s q →
    (∀ v, s.sysreg n = some v → (sysPriv n = true → (s.tile s.cur).priv ≠ .u) →
      exec (.sysr q d 0 n) s = .next (onward s (s.bank.setG d v)) ∧
      exec (.sysr q d 1 n) s = .next (onward s (s.bank.setG d (BitVec.ofNat 64 (v.toNat % 2 ^ 32)))) ∧
      exec (.sysr q d 2 n) s = .next (onward s (s.bank.setG d (BitVec.ofNat 64 (v.toNat / 2 ^ 32))))) ∧
    (∀ v, s.sysreg n = some v → sysPriv n = true → (s.tile s.cur).priv = .u →
      exec (.sysr q d f n) s = .next (s.raiseSeq .priv (s.wordAt.setWidth 64) 0)) ∧
    (s.sysreg n = none → exec (.sysr q d f n) s = .next (s.raiseSeq .illegal (s.wordAt.setWidth 64) 0))

/-- Tables 3.2 to 3.5, 13.3, R394, R54: SYSW of FPMODE, RRB and LC0 to LC3, which every level may write, and of registers that no level
may: those keep their value. -/
def Claims.UserWrites : Prop :=
  ∀ (s : State) (q : BitVec 3) (a : BitVec 5), Executes s q →
    let v := s.bank.gr a
    let bank (n : BitVec 12) (f : Bank → Bank) : Prop := exec (.sysw q a n) s = .next (onward s (f s.bank))
    bank 0x008 (fun b => { b with fpmode := (b.fpmode &&& ~~~(v &&& 0xF0)) &&& ~~~3 ||| (v &&& 3) }) ∧
    bank 0x044 (fun b => { b with rrb := if v.toNat / 8 % 8 = 7 then BitVec.ofNat 6 (v.toNat % 8) else BitVec.ofNat 6 v.toNat }) ∧
    (∀ i : BitVec 2, bank (BitVec.ofNat 12 (0x040 + i.toNat)) fun b => { b with lc := vset i (BitVec.ofNat 32 v.toNat) b.lc }) ∧
    (∀ n ∈ [0x000, 0x001, 0x002, 0x003, 0x004, 0x022, 0x050, 0x051, 0x060, 0x071, 0x0F0].map (BitVec.ofNat 12),
      exec (.sysw q a n) s = .next (onward s s.bank)) ∧
    ∃ l : W64, l &&& ~~~0x0FFF3F01FFFFFFFF = 0 ∧ lsRptv l = v.getLsbD 32 ∧ lsRpti l = v.toNat / 2 ^ 40 % 64 ∧
      (∀ n, lsAct l n = lsAct v n ∧ lsRot l n = lsRot v n ∧ lsHi l n = lsHi v n ∧ lsLo l n = lsLo v n ∧ lsSt l n = min 6 (lsSt v n)) ∧
      (NoPassEnd { s.bank with lstat := l } → exec (.syswLstat q a) s = .next (onward s { s.bank with lstat := l }))

/-- Tables 3.2, 10.3, 13.2 to 13.4, R394, R395: what SYSW of each register of S leaves of the value written. RACECTL of an empty slot is
not written. A write that clears TIP makes the entry that the scrubber owes the tile (R249). -/
def Claims.SystemWrites : Prop :=
  ∀ (s : State) (q : BitVec 3) (a : BitVec 5), Executes s q → (s.tile s.cur).priv ≠ .u →
    let v := s.bank.gr a
    let tr (n : BitVec 12) (f : TrapRegs → TrapRegs) : Prop :=
      exec (.sysw q a n) s = .next (onward (s.modTile s.cur fun t => { t with tr := f t.tr }) s.bank)
    let tip (r : TrapRegs) : TrapRegs := { r with fcause := BitVec.ofNat 64 (r.fcause.toNat % 2 ^ 63 + 2 ^ 63 * (v.toNat / 2 ^ 63)) }
    tr 0x010 (fun r => { r with epc := v &&& 0x3FFFFFFFF }) ∧ tr 0x012 (fun r => { r with fval := v }) ∧
    tr 0x013 (fun r => { r with finfo := v }) ∧ tr 0x014 (fun r => { r with tvec := v &&& 0xFFFFFFFC }) ∧
    tr 0x015 (fun r => { r with sscratch := v }) ∧ tr 0x016 (fun r => { r with slotsel := BitVec.ofNat 2 v.toNat }) ∧
    tr 0x052 (fun r => { r with slice := v }) ∧
    ((s.tile s.cur).scrub = [] ∨ v.getLsbD 63 = true → tr 0x011 tip) ∧
    exec (.sysw q a 0x011) s = .next ((onward (s.modTile s.cur fun t => { t with tr := tip t.tr }) s.bank).scrubNow s.cur) ∧
    exec (.sysw q a 0x020) s = .next (onward (s.modSlot s.cur s.seqSlot fun k => { k with
      mem := { k.mem with stkLimit := BitVec.ofNat 23 v.toNat } }) s.bank) ∧
    ((s.slot s.cur s.seqSlot).ctx.isSome = true → exec (.sysw q a 0x090) s = .next (onward (s.modSlot s.cur s.seqSlot fun k =>
      { k with race := { k.race with en := v.getLsbD 0, wrapped := k.race.wrapped && !v.getLsbD 2 } }) s.bank)) ∧
    ((s.slot s.cur s.seqSlot).ctx = none → exec (.sysw q a 0x090) s = .next (onward s s.bank))

/-- R98, Tables 5.3, 16.1: SYSW of QUOTA stores a multiple of 64 B of at most 8 MiB and changes no byte of memory (that bits 63 to 24 of
the value are ignored before that limit is log 101, DEDUCED); of TRCTL keeps its fields and clears FROZEN. -/
def Claims.ControlWrites : Prop :=
  ∀ (s : State) (q : BitVec 3) (a : BitVec 5), Executes s q → (s.tile s.cur).priv ≠ .u →
    let v := s.bank.gr a
    (∃ u, exec (.syswQuota q a) s = .next u ∧ u.bank = { s.bank with pc := s.bank.pc + 4 } ∧ SameMemory s u ∧
      (u.slot s.cur s.seqSlot).mem.quota = BitVec.ofNat 24 (min 0x800000 (v.toNat % 2 ^ 24 / 64 * 64))) ∧
    (∃ c : W64, (c.toNat / 2 ^ 12 % 4 = if v.toNat / 2 ^ 12 % 4 = 3 then 0 else v.toNat / 2 ^ 12 % 4) ∧
      (∀ i, i ≠ 1 → i ≠ 7 → i ≠ 8 → i ≠ 9 → i ≠ 11 → i ≠ 12 → i ≠ 13 → c.getLsbD i = v.getLsbD i) ∧
      c.getLsbD 1 = false ∧ c.getLsbD 7 = false ∧ c.getLsbD 8 = false ∧ c.getLsbD 9 = false ∧ c.getLsbD 11 = false ∧
      let t := s.modTile s.cur fun x => { x with trctl := c }
      exec (.syswTrctl q a) s = .next (onward (if v.getLsbD 11 then
        (t.modTile s.cur fun x => { x with recorder := { x.recorder with frozen := false } }).modTower (towerOf s.cur) fun w =>
          { w with recorder := { w.recorder with frozen := false } } else t) s.bank))

/-- R27: an instruction of S alone raises PRIV in U, with FVAL its word, and has no other effect. -/
def Obligations.PrivilegeChecks : Prop :=
  ∀ (s : State) (q : BitVec 3) (d a : BitVec 5) (t : BitVec 4) (n : BitVec 12), Executes s q → (s.tile s.cur).priv = .u →
    let traps (i : Instr) : Prop := exec i s = .next (s.raiseSeq .priv (s.wordAt.setWidth 64) 0)
    traps (.rets q) ∧ traps (.retsSlot q a) ∧ traps (.retsEnd q a) ∧ traps (.accopSet q a d) ∧ traps (.accopSave q d a t) ∧
    traps (.accopLoad q d a t) ∧ traps (.syswQuota q a) ∧ traps (.syswTrctl q a) ∧
    (n.toNat ∈ [0x010, 0x011, 0x012, 0x013, 0x014, 0x015, 0x016, 0x020, 0x052, 0x090] → traps (.sysw q a n))

/-- R236, R237, R319, R240, Tables 13.2 to 13.4: a fault of a kernel's sequencer enters the runtime at TVEC in S, with FCAUSE
its cause and slot and TIP set, FVAL and FINFO its values, and EPC the instruction; no register of the kernel changes. A
reserved word stands for the faults: it raises ILLEGAL with FVAL the word. TRAP completes first, so that EPC is the next
word. What another engine could still read of rows that were written goes with the stop (R62). That the entry is part of the same
exec is log 28 (DEDUCED). -/
def Claims.TrapEntry : Prop :=
  ∀ (s : State) (q : BitVec 3) (n : BitVec 13) (w : BitVec 32) (k : BitVec 2),
    s.inRt = false → (s.tile s.cur).running = some k → (s.slot s.cur k).faults = [] → (s.slot s.cur k).atBoundary = true →
    (s.slot s.cur k).sq.hasIter = true → s.bank.rpt = none → (s.tile s.cur).tr.tip = false → (s.tile s.cur).priv ≠ .m →
    let x := s.tile s.cur
    let enters (i : Instr) (code : Nat) (fval epc : W64) : Prop := ∃ (u : State) (y : Tile), exec i s = .next u ∧ SameMemory s u ∧
        y = u.tile s.cur ∧ y.inRuntime = true ∧ y.priv = .s ∧ y.running = some k ∧ y.stopping = none ∧
        y.tr = { x.tr with
          epc := BitVec.ofNat 64 (epc.toNat % 2 ^ 32)
          fcause := BitVec.ofNat 64 (2 ^ 63 + 2 ^ 48 * k.toNat + code)
          fval := fval
          finfo := 0
          slotsel := k } ∧
        { y.rt with pc := x.rt.pc, rpt := x.rt.rpt, lstat := x.rt.lstat } = x.rt ∧ y.rt.pc = x.tr.tvec &&& 0xFFFFFFFC ∧
        (u.slot s.cur k).sq.bank = { s.bank with pc := epc } ∧ (u.slot s.cur k).faults = [] ∧
        y.acc = dropPrior (fun _ => true) x.acc ∧
        ∀ t, t ≠ s.cur → u.tile t = s.tile t
    enters (.reservedWord w) 0x01 (BitVec.ofNat 64 w.toNat) s.bank.pc ∧
    (s.bank.pr q = true → NoPassEnd s.bank → enters (.trap q n) 0x18 (BitVec.ofNat 64 n.toNat) (s.bank.pc + 4))

/-- R237, R252: a fault of the runtime's own code enters TVEC with EPC.SPACE set; while TIP is set any entry is a double
fault, which stops every tile of the partition for good with fatal code 1. A fault of M-mode firmware is fatal with code 3. -/
def Claims.RuntimeFaults : Prop :=
  ∀ (s : State) (w : BitVec 32), s.inRt = true →
    let x := s.tile s.cur
    let stops (code : BitVec 8) (fc : W64) : Prop := ∀ p, s.partOf s.cur = some p → p.fatal = none → ∃ u : State,
      exec (.reservedWord w) s = .next u ∧ SameMemory s u ∧ (∀ t ∈ p.tiles, (u.tile t).up = false) ∧
      ∃ y, u.partByNum p.setup.num = some y ∧ y.fatal = some (code, s.tick, fc)
    (x.priv = .m → stops 3 0) ∧
    (x.priv ≠ .m → x.tr.tip = true → stops 1 x.tr.fcause) ∧
    (x.priv ≠ .m → x.tr.tip = false → ∃ u : State, exec (.reservedWord w) s = .next u ∧ SameMemory s u ∧ (u.tile s.cur).priv = .s ∧
      (u.tile s.cur).inRuntime = true ∧ (u.tile s.cur).tr.fval = BitVec.ofNat 64 w.toNat ∧
      (u.tile s.cur).tr.fcause = BitVec.ofNat 64 (2 ^ 63 + 2 ^ 48 * s.curSlot.toNat + 1) ∧
      (u.tile s.cur).tr.epc = BitVec.ofNat 64 (2 ^ 32 + x.rt.pc.toNat % 2 ^ 32) ∧
      (u.tile s.cur).rt.pc = x.tr.tvec &&& 0xFFFFFFFC ∧ (u.tile s.cur).slots = x.slots)

/-- R241, R246, R249: RETS resumes a slot from its saved state: the running slot, PRIV U, TIP 0, the slice count from SLICE,
and the program counter from EPC where EPC names a place of the kernel, its bits [1:0] ignored (log 39, DEDUCED); where EPC.SPACE or
EPC.IDLE is 1 it stays as it is, which is log 36 (DEDUCED). RETS with a slot resumes that one. In M mode, of an empty slot and of a number above 3 it is ILLEGAL. -/
def Claims.ReturnResults : Prop :=
  ∀ (s : State) (q : BitVec 3) (a : BitVec 5), s.inRt = true → Executes s q →
    let x := s.tile s.cur
    let illegal (i : Instr) : Prop := exec i s = .next (s.raiseSeq .illegal (s.wordAt.setWidth 64) 0)
    (x.priv = .m → illegal (.rets q) ∧ illegal (.retsSlot q a) ∧ illegal (.retsEnd q a)) ∧
    (x.priv = .s →
    let from_ : BitVec 2 := BitVec.ofNat 2 (x.tr.fcause.toNat / 2 ^ 48)
    let ready (k : BitVec 2) : Prop := (x.slot k).ctx.isSome = true ∧ (x.slot k).faults = [] ∧ (x.slot k).held = none ∧
      (x.slot k).sq.pending = false ∧ x.scrub = []
    let back (i : Instr) (k : BitVec 2) : Prop := ∃ (u : State) (y : Tile), exec i s = .next u ∧ SameMemory s u ∧
        y = u.tile s.cur ∧ y.inRuntime = false ∧ y.priv = .u ∧ y.running = some k ∧ y.stopping = none ∧ y.sliceLeft = x.tr.slice.toNat ∧
        y.tr = { x.tr with fcause := BitVec.ofNat 64 (x.tr.fcause.toNat % 2 ^ 63) } ∧ y.acc = x.acc ∧
        (∀ j, j ≠ from_ → y.slot j = x.slot j) ∧
        (y.slot from_).sq.bank.pc = (if x.tr.epc.toNat / 2 ^ 32 % 4 = 0 then BitVec.ofNat 64 (x.tr.epc.toNat % 2 ^ 32 / 4 * 4)
          else (x.slot from_).sq.bank.pc)
    (ready from_ → back (.rets q) from_) ∧
    (∀ k : BitVec 2, s.bank.gr a = k.setWidth 64 → ready k → back (.retsSlot q a) k) ∧
    (4 ≤ (s.bank.gr a).toNat → illegal (.retsSlot q a) ∧ illegal (.retsEnd q a)) ∧
    ((x.slot from_).ctx = none → illegal (.rets q)) ∧
    (∀ k : BitVec 2, s.bank.gr a = k.setWidth 64 → (x.slot k).ctx = none → illegal (.retsSlot q a) ∧ illegal (.retsEnd q a)))

/-- R241, R242: RETS.end ends the context of a slot on every tile: no slot holds it, its accumulator tiles are free and
zero, its segments are gone, and its completion status is the cause in FCAUSE. -/
def Claims.ContextEnd : Prop :=
  ∀ (s : State) (q : BitVec 3) (a : BitVec 5) (k : BitVec 2) (c : BitVec 8) (x : Context) (p : Partition),
    s.inRt = true → Executes s q → (s.tile s.cur).priv = .s → s.bank.gr a = k.setWidth 64 → (s.slot s.cur k).ctx = some c →
    s.ctxById c = some x → s.partByNum x.part = some p →
    ∃ u : State, exec (.retsEnd q a) s = .next u ∧ u.bank = { s.bank with pc := s.bank.pc + 4 } ∧ u.ctxById c = none ∧
      (∀ t ∈ x.tiles, (u.slot t x.slot).ctx = none ∧ (u.slot t x.slot).mem.segs = [] ∧ (u.slot t x.slot).q = Queues.empty ∧
        (u.slot t x.slot).masks = Vector.replicate 8 MaskSlot.reset) ∧
      (AccCanonical s → ∀ t ∈ x.tiles, ∀ n, (s.acc t n).owner = c → u.acc t n = AccTile.reset) ∧
      (∀ t, t ∉ x.tiles → t ≠ s.cur → u.tile t = s.tile t) ∧
      ∃ y, u.partByNum x.part = some y ∧ y.statuses = p.statuses ++ [(c, BitVec.ofNat 8 (s.tile s.cur).tr.fcause.toNat)]

/-- R269, R255, R257, R258, R259, R261, R240: the firmware calls in the runtime. A legal SETROOT, RINGS, TLBINV or TIMEOUT has
its effect and answers 0 in g4; FLUSH starts a new generation and answers it; an illegal argument, or a call of no number,
answers all ones and changes nothing. -/
def Claims.FirmwareCalls : Prop :=
  ∀ (s : State) (q : BitVec 3) (n : BitVec 13) (p : Partition), s.inRt = true → Executes s q → s.partOf s.cur = some p →
    let x := s.bank.gr 4
    let y := s.bank.gr 5
    let bad (i : Instr) : Prop := exec i s = .next (onward s (s.bank.setG 4 (BitVec.allOnes 64)))
    let good (i : Instr) (t : State) : Prop := exec i s = .next (onward t (s.bank.setG 4 0))
    let own (v : W64) : Prop := v.toNat < 2 ^ 54 ∧ vaChip v = p.setup.chip ∧ p.setup.towers.getLsbD (vaTower v).toNat = true
    let part (f : Partition → Partition) : State := s.modPart p.setup.num f
    bad (.trap q n) ∧
    (x.toNat < 8 → p.setup.towers.getLsbD x.toNat = true → y.toNat < 2 ^ 48 → y.toNat % 4096 = 0 → good (.setroot q)
      (s.modTower (BitVec.ofNat 3 x.toNat) fun w => { w with mmu := { w.mmu with
        root := if y = 0 then none else some (BitVec.ofNat 48 y.toNat) } })) ∧
    (8 ≤ x.toNat ∨ p.setup.towers.getLsbD x.toNat = false ∨ 2 ^ 48 ≤ y.toNat ∨ y.toNat % 4096 ≠ 0 → bad (.setroot q)) ∧
    ((x = 0 ∨ (own x ∧ x.toNat % 64 = 0)) → (y = 0 ∨ (own y ∧ y.toNat % 64 = 0)) → good (.rings q)
      (part fun z => { z with
        faultRing := if x = 0 then z.faultRing else some (BitVec.ofNat 54 x.toNat)
        cmdRing := if y = 0 then z.cmdRing else some (BitVec.ofNat 54 y.toNat)
        service := some s.cur })) ∧
    (¬ (x = 0 ∨ (own x ∧ x.toNat % 64 = 0)) ∨ ¬ (y = 0 ∨ (own y ∧ y.toNat % 64 = 0)) → bad (.rings q)) ∧
    (¬ own x ∨ 2 ^ 48 < vaOff x + y.toNat → bad (.tlbinv q)) ∧
    (¬ own x ∨ p.setup.towers.getLsbD y.toNat = false → bad (.migrate q)) ∧
    (own x → vaOff x + y.toNat ≤ 2 ^ 48 → good (.tlbinv q) (s.modTower (vaTower x) fun w => { w with mmu := { w.mmu with
      tlb := w.mmu.tlb.filter fun e => decide (e.page * 65536 + 65536 ≤ vaOff x) || decide (vaOff x + y.toNat ≤ e.page * 65536) } })) ∧
    (10 ≤ x.toNat → x.toNat ≤ 10000 → good (.timeout q) (part fun z => { z with timeoutUs := x.toNat })) ∧
    (x.toNat < 10 ∨ 10000 < x.toNat → bad (.timeout q)) ∧
    (∃ u : State, exec (.flush q) s = .next u ∧ (p.faultRing = none → SameMemory s u) ∧
      u.bank = { s.bank.setG 4 (BitVec.ofNat 64 (p.gen + 1).toNat) with pc := s.bank.pc + 4 } ∧
      (∀ z, u.partByNum p.setup.num = some z → z.gen = p.gen + 1 ∧ z.stalledCmds = []) ∧
      ∀ w ∈ p.towerList, (u.tower w).mmu.posted = [] ∧ (u.tower w).mmu.stalledReqs = [])

/-- R258, R262, R263, R299, R269, R240: REFUSE drops the ring slot's record. MIGRATE moves a page with its bytes to a tower, or
answers that a hold stands. RECREAD writes the frames of the recorder of a tile or of a tower, and answers all ones for one outside the partition. In a kernel the words of the calls are TRAP with their
number. -/
def Claims.FirmwareActions : Prop :=
  (∀ (s : State) (q : BitVec 3), s.inRt = false → exec (.setroot q) s = exec (.trap q 1) s ∧
    exec (.rings q) s = exec (.trap q 2) s ∧ exec (.flush q) s = exec (.trap q 3) s ∧ exec (.refuse q) s = exec (.trap q 4) s ∧
    exec (.tlbinv q) s = exec (.trap q 5) s ∧ exec (.firmwareLaunch q) s = exec (.trap q 6) s ∧
    exec (.timeout q) s = exec (.trap q 7) s ∧ exec (.migrate q) s = exec (.trap q 8) s ∧
    exec (.recread q) s = exec (.trap q 9) s) ∧
  (∀ (s : State) (q : BitVec 3) (p : Partition), s.inRt = true → Executes s q → s.partOf s.cur = some p →
    let x := s.bank.gr 4
    let y := s.bank.gr 5
    ((∀ w ∈ p.towerList, ∀ r ∈ (s.tower w).mmu.posted, r.slot ≠ some x.toNat) →
      exec (.refuse q) s = .next (onward s (s.bank.setG 4 (BitVec.allOnes 64)))) ∧
    (∀ w r, p.towerList = [w] → (s.tower w).mmu.posted.filter (·.slot == some x.toNat) = [r] → ∃ u, exec (.refuse q) s = .next u ∧
      SameMemory s u ∧ u.bank = { s.bank.setG 4 0 with pc := s.bank.pc + 4 } ∧
      (u.tower w).mmu.posted = (s.tower w).mmu.posted.filter (· ≠ r)) ∧
    (∀ e t pg, let w := vaTower x
      let page := vaOff x / 65536
      let d : BitVec 3 := BitVec.ofNat 3 y.toNat
      let answer (u : State) (a : BitVec 64) (dst : BitVec 3) : Prop :=
        u.bank = { (s.bank.setG 4 a).setG 5 (dst.setWidth 64) with pc := s.bank.pc + 4 }
      x.toNat < 2 ^ 54 → vaChip x = p.setup.chip → p.setup.towers.getLsbD w.toNat = true → y.toNat < 8 →
      p.setup.towers.getLsbD y.toNat = true →
      (∀ h, (s.tower w).mmu.holds.find? (·.page == page) = some h → h.host = false →
        ∃ u, exec (.migrate q) s = .next u ∧ SameMemory s u ∧ answer u (if h.tower = d then 8 else 7) h.tower) ∧
      ((s.tower w).mmu.holds.find? (·.page == page) = none → s.stage1 w (vaOff x) = .inr e →
        ((∀ y ∈ pageSet (vaOff x) e, ∃ n, (s.tower w).mmu.stage2 y.2 = some (.gddr d n)) → ∃ u, exec (.migrate q) s = .next u ∧
          SameMemory s u ∧ answer u 0 d ∧ (u.tower w).mmu.holds =
            ((pageSet (vaOff x) e).map fun y => PageHold.mk y.1 false d 0) ++ (s.tower w).mmu.holds) ∧
        ((s.tower w).mmu.stage2 e.ipa = some (.gddr t pg) → e.big = false → t ≠ d → MemoryCanonical s → (s.freePage d).isSome = true → ∃ (u : State) (n : Fin 393216), exec (.migrate q) s = .next u ∧ answer u 0 d ∧
          (u.tower w).mmu.stage2 e.ipa = some (.gddr d n) ∧ (u.tower w).mmu.holds = ⟨page, false, d, 0⟩ :: (s.tower w).mmu.holds ∧
          (∀ o, o < 65536 → look 0 (u.tower d).gddr.bytes (n.val * 65536 + o) =
            look 0 (s.tower t).gddr.bytes (pg.val * 65536 + o)) ∧
          ∀ o, o / 65536 ≠ n.val → look 0 (u.tower d).gddr.bytes o = look 0 (s.tower d).gddr.bytes o))) ∧
    (∀ u k (g : Segment), MemoryCanonical s → x.toNat < 256 → p.setup.towers.getLsbD (x.toNat / 32) = true →
      p.tiles.contains (BitVec.ofNat 8 x.toNat) = true → Reachable s s.seqMe y 65536 0 true false u k g →
      let fs := (s.tile (BitVec.ofNat 8 x.toNat)).recorder.all 0 (BitVec.ofNat 8 x.toNat)
      g.store.partPoison (ptrOff y) (256 * fs.length) = [] → ∃ v, exec (.recread q) s = .next v ∧ Wrote s v u k g.num (ptrOff y) (fs.flatMap id) ∧
        SameButMemory v (onward s (s.bank.setG 4 (BitVec.ofNat 64 fs.length)))) ∧
    (∀ u k (g : Segment), let w := x.toNat - 0x100
      MemoryCanonical s → 0x100 ≤ x.toNat → w < 8 → p.setup.towers.getLsbD w = true → Reachable s s.seqMe y 65536 0 true false u k g →
      let fs := (s.tower (BitVec.ofNat 3 w)).recorder.all 1 (BitVec.ofNat 8 x.toNat)
      g.store.partPoison (ptrOff y) (256 * fs.length) = [] → ∃ v, exec (.recread q) s = .next v ∧ Wrote s v u k g.num (ptrOff y) (fs.flatMap id) ∧
        SameButMemory v (onward s (s.bank.setG 4 (BitVec.ofNat 64 fs.length)))) ∧
    (0x100 ≤ x.toNat → (x.toNat < 0x108 → p.setup.towers.getLsbD (x.toNat - 0x100) = false) →
      exec (.recread q) s = .next (onward s (s.bank.setG 4 (BitVec.allOnes 64)))) ∧
    (x.toNat < 256 → p.tiles.contains (BitVec.ofNat 8 x.toNat) = false →
      exec (.recread q) s = .next (onward s (s.bank.setG 4 (BitVec.allOnes 64)))))

/-- R269, R272, R92: FIRMWARE_LAUNCH answers the CTXID of the context it made, or the status and value of the check that
failed, and tells the host. -/
def Claims.LaunchCall : Prop :=
  ∀ (s : State) (q : BitVec 3) (p : Partition) (h body : List Byte), s.inRt = true → Executes s q → s.partOf s.cur = some p →
    let va := s.bank.gr 4
    let k := s.bank.gr 5
    k.toNat < 4 → va.toNat < 2 ^ 54 → vaChip va = p.setup.chip → p.setup.towers.getLsbD (vaTower va).toNat = true →
    s.devRead (va - 32) 32 = some h →
    let len := min (leNat ((h.drop 4).take 4)) 480
    let seq := BitVec.ofNat 64 (leNat ((h.drop 8).take 8))
    let session := BitVec.ofNat 64 (leNat ((h.drop 16).take 8))
    s.devRead va len = some body →
    let answer (t : State) (c : Nat) (v : BitVec 64) : Ans := .next (onward
      (t.replyTo 2 p.setup.num.toNat seq session 0 (Config.statusBytes [2, c, v.toNat]))
      ((s.bank.setG 4 (BitVec.ofNat 64 c)).setG 5 v))
    let made := s.launch p body len (BitVec.ofNat 2 k.toNat) (s.bank.gr 6) session seq
    (∀ id t, made = .ok (id, t) → exec (.firmwareLaunch q) s = answer t 0 (id.setWidth 64)) ∧
    (∀ c v, made = .error (c, some v) → exec (.firmwareLaunch q) s = answer s c (BitVec.ofNat 64 v)) ∧
    (∀ c, made = .error (c, none) → ∃ v, exec (.firmwareLaunch q) s = answer { s with fresh := s.fresh + 1 } c v)

/-- R92, R96, R272: what a launch makes. Its CTXID was free, its tiles' slots were empty, each of them holds the context with its
registers, queues, semaphores and engines as at reset. Every tile has a live segment for each segment record of the object that is homed
there (0xFF: on every tile), of its size, span and attributes, STACK pinned, with the initialiser's bytes and zeros after them, and no
other segment. -/
def Claims.LaunchResult : Prop :=
  ∀ (s t : State) (p : Partition) (body : List Byte) (len : Nat) (k : BitVec 2) (quota session seq : BitVec 64) (id : BitVec 8),
    s.launch p body len k quota session seq = .ok (id, t) →
    s.ctxById id = none ∧ id ≠ 0xFF ∧ ∃ x, t.ctxById id = some x ∧ x.part = p.setup.num ∧ x.slot = k ∧ x.tiles ≠ [] ∧
      x.started = 0 ∧ x.done = 0 ∧ x.session = session ∧ x.seq = seq ∧
      ∀ u ∈ x.tiles, (s.slot u k).ctx = none ∧ (t.slot u k).ctx = some id ∧ (t.slot u k).sq = SeqSide.reset ∧
        (t.slot u k).sems = Sems.reset ∧ (t.slot u k).q = Queues.empty ∧ (t.slot u k).vs = VecState.reset ∧
        (t.slot u k).ps = PressState.reset ∧ (t.slot u k).xs = XferState.reset ∧ (t.slot u k).tstat = 0 ∧
        (quota ≠ 0 → (t.slot u k).mem.quota = quotaWrite quota) ∧
        (quota = 0 → (t.slot u k).mem.quota = (s.slot u k).mem.quota) ∧ ((t.slot u k).seg 0).isSome = true ∧
        ∀ o j, s.host.objs.find? (fun o => o.handle.toNat = rdN body 0 4 ∧ o.kind = 0 ∧ o.part = p.setup.num) = some o →
          x.tiles[j]? = some u →
          let rs := segRecs o.image
          (∀ n : BitVec 12, ((t.slot u k).seg n).isSome = true ↔ ∃ r, rs[n.toNat]? = some r ∧ (r.home = 0xFF ∨ r.home = j)) ∧
          ∀ (n : BitVec 12) r g, rs[n.toNat]? = some r → (t.slot u k).seg n = some g → g.size = r.size ∧ g.span.toNat = r.span ∧
            g.check = r.attrs.testBit 0 ∧ g.pin = (r.attrs.testBit 1 || n == 0) ∧ g.shared = r.attrs.testBit 2 ∧
            ∀ a, look 0 g.store.bytes a = if r.init ≠ 0xFF ∧ a < r.ilen then
              o.image.getD ((sectOf o.image r.init).off + r.ioff + a) 0 else 0

/-! ## Segments, accumulators, ranges -/

/-- R106, R95, R96: SEGOP def makes the lowest free number of the context a backed segment of zeros and answers its pointer;
an illegal size or attribute is ILLEGAL. That a number is free over the whole context is log 75 (DEDUCED); that BOOKING answers a tower
whose 24 GiB have no room, and what is counted against them, is log 10 (DESIGN CHOICE). -/
def Claims.SegmentDefine : Prop :=
  ∀ (s : State) (q : BitVec 3) (d a b : BitVec 5) (c : Context), ExecutesK s q → s.ctxOf s.cur s.curSlot = some c →
    let z := (s.bank.gr a).toNat
    let t := s.bank.gr b
    let legal := z % 64 = 0 ∧ 64 ≤ z ∧ z ≤ 0x800000 ∧ t.toNat < 64
    let used := s.usedNums c
    let room := s.gddrRoom (towerOf s.cur) z = true
    let k := s.slot s.cur s.curSlot
    let pins := t.getLsbD 4 = true → k.pinned 0 + z + c.code.spareB ≤ k.mem.quota.toNat
    (¬ legal → exec (.segopDef q d a b) s = .next (s.raiseSeq .illegal (s.wordAt.setWidth 64) 0)) ∧
    (∀ n, legal → 1 ≤ n → n ≤ 4095 → n ∉ used → (∀ m, 1 ≤ m → m < n → m ∈ used) →
      (¬ (room ∧ pins) → exec (.segopDef q d a b) s = .next (s.raiseSeq .booking (BitVec.ofNat 64 z) 0)) ∧
      (room → pins →
        let g : Segment := {
          num := BitVec.ofNat 12 n, size := z, span := BitVec.ofNat 3 t.toNat, check := t.getLsbD 3, pin := t.getLsbD 4,
          shared := t.getLsbD 5, state := .backed, frame := 0, backing := Config.backing s.fresh, touch := s.moves, store := {} }
        exec (.segopDef q d a b) s = .next (onward
          { (s.modSlot s.cur s.curSlot fun x => { x with mem := { x.mem with segs := insertSeg x.mem.segs g } }) with
            fresh := s.fresh + 1 } (s.bank.setG d (BitVec.ofNat 64 (n * 2 ^ 52))))))

/-- R387: SEGOP in the runtime bank. -/
def Claims.RuntimeSegments : Prop :=
  Claims.KernelOnly fun q d a b =>
    [.segopDef q d a b, .segopDrop q a, .segopPin q a, .segopUnpin q a, .segopQuery q d a, .segopStat q d a]

/-- R106, R107, R95, R96: SEGOP drop, pin, unpin, query and stat of a live segment. STACK cannot be dropped and stays pinned, by an
unpin too (log 26, DEDUCED); a pin is a touch (log 102, DEDUCED);
a drop waits for the entries that the context issued before and for accesses of other tiles that have reached the segment; query answers the descriptor's upper half. -/
def Claims.SegmentControl : Prop :=
  ∀ (s : State) (q : BitVec 3) (d a : BitVec 5) (t : BitVec 8) (k : BitVec 2) (g : Segment), ExecutesK s q →
    let p := s.bank.gr a
    let x := s.slot t k
    let free := s.holders s.cur s.curSlot fun _ => true
    let code : Nat := match g.state with
      | .resident => 0
      | .pool => 1
      | .backed => 2
      | _ => 3
    (p.toNat % 2 ^ 23 = p.toNat → exec (.segopDrop q a) s = .next (s.raiseSeq .illegal (s.wordAt.setWidth 64) 0)) ∧
    (ptrMid p = 0 → s.findSeg s.seqMe (ptrSeg p) = none →
      exec (.segopQuery q d a) s = .next (s.raiseSeq .segname p 0) ∧ exec (.segopPin q a) s = .next (s.raiseSeq .segname p 0)) ∧
    (ptrMid p = 0 → s.findSeg s.seqMe (ptrSeg p) = some (t, k, g) →
      exec (.segopQuery q d a) s = .next (onward s (s.bank.setG d (BitVec.ofNat 64 (2 ^ 40 * g.size + 2 ^ 32 * t.toNat +
        2 ^ 29 * g.span.toNat + 2 ^ 28 * b2n g.check + 2 ^ 27 * b2n g.pin + 2 ^ 26 * b2n g.shared + 2 ^ 24 * code +
        (if g.state = .resident then g.frame % 2 ^ 13 else 0))))) ∧
      (g.num = 0 → exec (.segopPin q a) s = .next (onward s s.bank) ∧ exec (.segopUnpin q a) s = .next (onward s s.bank)) ∧
      (g.num ≠ 0 → exec (.segopUnpin q a) s = .next (onward ((s.modSeg t k g.num fun y => { y with pin := false }).porterWake t k
        (s.who s.seqMe) (s.spareOf t k)) s.bank)) ∧
      (g.num ≠ 0 → g.state = .resident → x.pinned g.num + g.size + s.spareOf t k ≤ x.mem.quota.toNat →
        exec (.segopPin q a) s = .next (onward (s.modSeg t k g.num fun y => { y with pin := true, touch := s.moves }) s.bank)) ∧
      (g.num ≠ 0 → x.mem.quota.toNat < x.pinned g.num + g.size + s.spareOf t k →
        exec (.segopPin q a) s = .next (s.raiseSeq .booking (BitVec.ofNat 64 g.size) 0)) ∧
      (ptrSeg p ≠ 0 → free = [] → s.reached t k g.num = false → exec (.segopDrop q a) s = .next (onward (((s.modSlot t k fun y =>
        { y with mem := { y.mem with segs := y.mem.segs.filter fun z => z.num ≠ g.num } }).wakeSeg t k g.num
          (s.who s.seqMe)).porterWake t k (s.who s.seqMe) (s.spareOf t k)) s.bank)) ∧
      (ptrSeg p ≠ 0 → free = [] → s.reached t k g.num = true → exec (.segopDrop q a) s = .next (waiting s (.dropping g.num))) ∧
      (ptrSeg p ≠ 0 → free ≠ [] → exec (.segopDrop q a) s = .next (waiting s (.retire (s.slot s.cur s.curSlot).sq.issue 15)))) ∧
    (∀ h : p.toNat < 6, exec (.segopStat q d a) s = .next (onward s (s.bank.setG d (s.slot s.cur s.curSlot).mem.porter[p.toNat]))) ∧
    (6 ≤ p.toNat → exec (.segopStat q d a) s = .next (s.raiseSeq .illegal (s.wordAt.setWidth 64) 0))

/-- R145, R146, R149, R325, R326: ACCOP. Claim takes a free tile, zeroed, and faults on one of another context; release zeroes and
frees; set gives a tile to a context, zeroed where it changes owners; save and load move 4,096 bytes of rows and 128 bytes of
sidebands. -/
def Obligations.AccumulatorControl : Prop :=
  ∀ (s : State) (q : BitVec 3) (d a b : BitVec 5) (c : BitVec 4), Executes s q → (s.bank.gr a).toNat < 256 →
    let n : BitVec 8 := BitVec.ofNat 8 (s.bank.gr a).toNat
    let x := s.acc s.cur n
    let own := s.ctxId s.cur s.curSlot
    let va := s.bank.gr d
    let free := s.holders s.cur s.curSlot fun _ => true
    exec (.accopQuery q d a) s = .next (onward s (s.bank.setG d (x.owner.setWidth 64))) ∧
    (s.inRt = true → ∀ i ∈ [Instr.accopClaim q a, .accopRelease q a],
      exec i s = .next (s.raiseSeq .illegal (s.wordAt.setWidth 64) 0)) ∧
    (s.inRt = false → x.owner = own → own ≠ 0xFF → exec (.accopClaim q a) s = .next (onward s s.bank)) ∧
    (s.inRt = false → x.owner = 0xFF → own ≠ 0xFF →
      exec (.accopClaim q a) s = .next (onward (s.modAcc s.cur n fun _ => AccTile.cleared own) s.bank)) ∧
    (s.inRt = false → x.owner ≠ 0xFF → x.owner ≠ own →
      exec (.accopClaim q a) s = .next (s.raiseSeq .accown (x.owner.setWidth 64) (n.setWidth 64)) ∧
      exec (.accopRelease q a) s = .next (s.raiseSeq .accown (x.owner.setWidth 64) (n.setWidth 64))) ∧
    (s.inRt = false → x.owner = own → own ≠ 0xFF → free = [] →
      exec (.accopRelease q a) s = .next (onward (s.modAcc s.cur n fun _ => AccTile.cleared 0xFF) s.bank)) ∧
    (s.inRt = false → x.owner = 0xFF → free = [] → exec (.accopRelease q a) s = .next (onward s s.bank)) ∧
    ((s.tile s.cur).priv ≠ .u →
      (∀ v : BitVec 8, s.bank.gr b = v.setWidth 64 → v = 0xFF ∨ (s.tile s.cur).slotOfCtx v ≠ none →
        exec (.accopSet q a b) s = .next (onward (s.modAcc s.cur n fun y =>
          if x.owner ≠ 0xFF ∧ x.owner ≠ v then AccTile.cleared v else { y with owner := v }) s.bank)) ∧
      (∀ (xl : Xl) (w : BitVec 3) (at_ : Nat), Global s s.seqMe (s.bank.capr c) va 4224 1 [pWRITE] xl w at_ → va.toNat % 16 = 0 →
        x.poison = 0 → xl.rpl = false → NoGRace s s.seqMe (s.bank.capr c) xl w at_ 4224 true →
        (s.tower w).gddr.partPoison at_ 4224 = [] → MemoryCanonical s →
        let bs := ((List.range 32).flatMap fun r => leBytes 128 (x.row (BitVec.ofNat 5 r)).toNat) ++
          (List.range 32).flatMap fun r => leBytes 4 (x.sideOf (BitVec.ofNat 5 r)).toNat
        ∃ u, exec (.accopSave q d a c) s = .next u ∧ WroteG s u w at_ bs ∧
          SameButMemory u (onward ((xlated s (vaTower va) (vaOff va)).pieceWrite (vaTower va) xl (vaOff va % 65536) bs (s.who s.seqMe))
            s.bank)) ∧
      (∀ (xl : Xl) (w : BitVec 3) (at_ : Nat), Global s s.seqMe (s.bank.capr c) va 4224 0 [pREAD] xl w at_ → va.toNat % 16 = 0 →
        NoGRace s s.seqMe (s.bank.capr c) xl w at_ 4224 false → (s.tower w).gddr.poisoned at_ 4224 = [] → AccCanonical s →
        ∃ u, exec (.accopLoad q d a c) s = .next u ∧ SameMemory s u ∧ u.bank = { s.bank with pc := s.bank.pc + 4 } ∧
          (u.acc s.cur n).owner = x.owner ∧ (u.acc s.cur n).poison = 0 ∧
          (∀ r : BitVec 5, (u.acc s.cur n).row r = BitVec.ofNat 1024 (leNat ((s.tower w).gddr.read (at_ + 128 * r.toNat) 128)) ∧
            (u.acc s.cur n).sideOf r = sideOk (BitVec.ofNat 32 (leNat ((s.tower w).gddr.read (at_ + 4096 + 4 * r.toNat) 4)))) ∧
          ∀ m, m ≠ n → u.acc s.cur m = s.acc s.cur m))

/-- R295, R397, R143: RANGE pushes and pops the label stack of the slot, at most 16 deep, and writes a record of every push
and pop. TSTAT reads; its clear form also clears what its operand names, FCHG and THRCNT, and answers the old value. Of effects
that it need not see yet a read sees each field before or after each (R144), and each comes wholly before or wholly after a clear
(R397); which of the two is log 95's choice. The depth that a record made in the runtime bank carries is that of the slot of SLOTSEL, which is log 40 (DEDUCED). -/
def Obligations.RangesAndStatus : Prop :=
  ∀ (s : State) (q : BitVec 3) (d a : BitVec 5) (l : BitVec 16), Executes s q →
    let k := s.slot s.cur s.seqSlot
    let rs := k.ranges
    let stack (r : List (BitVec 16)) : State := s.modSlot s.cur s.curSlot fun x => { x with ranges := r }
    let z := k.tstatSync s.cur s.tick
    let clears (r v : BitVec 64) : Prop := ∀ i, i < 64 → v.getLsbD i = (r.getLsbD i && !(decide (40 ≤ i) && decide (i ≤ 55)) &&
      !(decide (16 ≤ i) && decide (i ≤ 31)) && !((s.bank.gr a).getLsbD i && [1, 2, 3, 4, 5, 6, 7, 10, 11, 12].contains i))
    (z.effs = [] → exec (.tstat q d) s = .next (onward s (s.bank.setG d k.tstat))) ∧
    (z.effs ≠ [] → ∃ v : BitVec 64, exec (.tstat q d) s = .next (onward { s with fresh := s.fresh + 14 } (s.bank.setG d v)) ∧
      (∀ f ∈ tstatFields, ∃ l : List TstatEff, (∀ e ∈ l, e ∈ z.effs) ∧ bits v f.1 f.2 = bits (tstatOn l z.seen) f.1 f.2) ∧
      ∀ e, z.effs = [e] → ∀ f ∈ tstatFields, bits v f.1 f.2 = bits z.seen f.1 f.2 ∨ bits v f.1 f.2 = bits (e.on z.seen) f.1 f.2) ∧
    (z.effs = [] → ∃ v : BitVec 64, clears k.tstat v ∧ exec (.tstatClr q d a) s = .next (onward (s.modSlot s.cur s.seqSlot fun x => { x with
      tstat := v, effs := [], seen := v }) (s.bank.setG d k.tstat))) ∧
    (z.effs ≠ [] → ∃ (before after : List TstatEff) (v : BitVec 64), (before ++ after).Perm z.effs ∧ clears (tstatOn before z.seen) v ∧
      exec (.tstatClr q d a) s = .next (onward (({ s with fresh := s.fresh + 1 } : State).modSlot s.cur s.seqSlot fun x => { x with
        tstat := tstatOn after v, effs := after, seen := v }) (s.bank.setG d (tstatOn before z.seen)))) ∧
    (s.inRt = false → rs.length < 16 →
      exec (.rangePush q l) s = .next (onward ((stack (rs ++ [l])).rangeRecord l.toNat (rs.length + 1) false false) s.bank)) ∧
    (s.inRt = false → 16 ≤ rs.length → exec (.rangePush q l) s = .next (onward (s.rangeRecord l.toNat rs.length false true) s.bank)) ∧
    (∀ r x, s.inRt = false → rs = r ++ [x] →
      exec (.rangePop q) s = .next (onward ((stack r).rangeRecord x.toNat r.length true false) s.bank)) ∧
    (s.inRt = false → rs = [] → exec (.rangePop q) s = .next (onward (s.rangeRecord 0 0 true true) s.bank)) ∧
    (s.inRt = true → exec (.rangePush q l) s = .next (onward (s.rangeRecord l.toNat rs.length false false) s.bank) ∧
      exec (.rangePop q) s = .next (onward (s.rangeRecord 0 rs.length true false) s.bank))

/-! ## KV tables and mask slots -/

/-- R391, R392, R223: SLOT set stores an image of 64 bytes, keeping the fork fields of the same sequence; len writes LEN; get
reads a doubleword of an entry. An image that breaks a rule of R392, one that keeps the SEQ of a valid entry and changes its BUCKET
among them, is ILLEGAL and changes nothing. -/
def Claims.SlotTables : Prop :=
  ∀ (s : State) (q : BitVec 3) (d a b : BitVec 5) (c : Context) (n : Nat), ExecutesK s q → s.ctxOf s.cur s.curSlot = some c →
    n < 256 →
    let w := towerOf s.cur
    let old := s.slotEnt w c n
    let idle := Agent.dec ∉ s.holders s.cur s.curSlot fun _ => true
    ((s.bank.gr a).toNat = n → ∀ i, i < 8 → (s.bank.gr b).toNat = i →
      exec (.slotGet q d a b) s = .next (onward s (s.bank.setG d (BitVec.ofNat 64 (old.toNat / 2 ^ (64 * i) % 2 ^ 64))))) ∧
    ((s.bank.gr a).toNat = n → idle → seValid old = true → (s.bank.gr b).toNat < seCap old →
      exec (.slotLen q a b) s = .next (onward (s.setSlotEnt w c n (setBits old 63 32 (s.bank.gr b).toNat)) s.bank)) ∧
    ((s.bank.gr a).toNat = n → idle → (seValid old = false ∨ seCap old ≤ (s.bank.gr b).toNat) →
      exec (.slotLen q a b) s = .next (s.raiseSeq .illegal (s.wordAt.setWidth 64) 0)) ∧
    (∀ t k (g : Segment), (s.bank.gr b).toNat = n → idle → MemoryCanonical s → Readable s s.seqMe (s.bank.gr a) 64 64 t k g →
      let img : SlotEnt := BitVec.ofNat 512 (leNat (g.store.read (ptrOff (s.bank.gr a)) 64))
      let same := seValid old = true ∧ seSeq old = seSeq img
      (imageOk img = false ∨ (same ∧ seBucket old ≠ seBucket img) → exec (.slotSet q a b) s =
        .next (s.raiseSeq .illegal (s.wordAt.setWidth 64) 0)) ∧
      (imageOk img = true → (same → seBucket old = seBucket img) →
      ∃ u, exec (.slotSet q a b) s = .next u ∧ SameMemory s u ∧ u.bank = { s.bank with pc := s.bank.pc + 4 } ∧
        (seValid img = false → u.slotEnt w c n = 0) ∧
        (seValid img = true → seSeq (u.slotEnt w c n) = seSeq img ∧ seLen (u.slotEnt w c n) = seLen img ∧
          seBucket (u.slotEnt w c n) = seBucket img ∧ seValid (u.slotEnt w c n) = true ∧
          (same → seForked (u.slotEnt w c n) = seForked old ∧ seParent (u.slotEnt w c n) = seParent old ∧
            seFork (u.slotEnt w c n) = seFork old) ∧
          (¬ same → seForked (u.slotEnt w c n) = false)) ∧
        ∀ m, m < 256 → m ≠ n → u.slotEnt w c m = s.slotEnt w c m))

/-- R392, R357, R378: SLOT, KVOP and MSKLD in the runtime bank. -/
def Claims.RuntimeTables : Prop :=
  ∀ (e : BitVec 1) (l n : BitVec 3) (j : BitVec 2), Claims.KernelOnly fun q d a b =>
    [.slotSet q a b, .slotLen q a b, .slotGet q d a b, .kvopFork q d a b, .kvopDrop q a, .kvopLook q d a b, .mskldProg q e l n,
     .mskldParam q a e l n, .mskldRuns q a e l, .mskldStat q d e l j, .mskldClear q e l]

/-- R225, R358: KVOP fork records a parent and a fork point in the child's entry, or answers the status of what failed; drop
lowers the references of a sequence's blocks; look answers the byte address of a block, or all ones. -/
def Claims.KvOperations : Prop :=
  ∀ (s : State) (q : BitVec 3) (d a b : BitVec 5) (c : Context), ExecutesK s q → s.ctxOf s.cur s.curSlot = some c →
    (Agent.dec ∉ s.holders s.cur s.curSlot fun _ => true) →
    let v := s.bank.gr a
    let f := (s.bank.gr b).toNat
    let w := towerOf s.cur
    let pe := s.slotEnt w c (v.toNat % 256)
    let cn := v.toNat / 256 % 256
    let ce := s.slotEnt w c cn
    (v.toNat < 65536 → seValid pe = true → seValid ce = true → v.toNat % 256 ≠ cn → seForked ce = false → seLen ce = 0 →
      f ≤ seLen pe →
      s.laneTest w 0 16384 = none →
      (seForked pe = true → seFork pe < f →
        exec (.kvopFork q d a b) s = .next (onward s (s.bank.setG d 0x16))) ∧
      ((seForked pe = false ∨ f ≤ seFork pe) →
        (∀ x, s.forkAll w c.id pe (seSeq ce) f (s.who s.seqMe) = .error x →
          exec (.kvopFork q d a b) s = .next (onward s (s.bank.setG d (BitVec.ofNat 64 (0x13 + 256 * x))))) ∧
        (∀ t, s.forkAll w c.id pe (seSeq ce) f (s.who s.seqMe) = .ok t →
          exec (.kvopFork q d a b) s = .next (onward (t.setSlotEnt w c cn (withFork ce true
            (if seForked pe then seParent pe else seSeq pe) f)) (s.bank.setG d 0))))) ∧
    (v.toNat < 256 → seValid pe = true → exec (.kvopDrop q a) s = .next (onward (s.modTower w fun x => { x with
      kv := (x.kv.named (seSeq pe)).foldl (fun k y => k.lower y.1 x.started) x.kv }) s.bank)) ∧
    (v.toNat < 2 ^ 23 → f ≤ 65535 → seValid pe = true →
      let r := s.kvLook w c.id none pe (v.toNat / 2 ^ 8 % 256) (v.toNat / 2 ^ 16 % 64) f (v.toNat / 2 ^ 22 % 2)
      exec (.kvopLook q d a b) s = .next (onward r.2 (s.bank.setG d (match r.1 with
        | some n => BitVec.ofNat 64 (16384 * n)
        | none => BitVec.allOnes 64))))

/-- R207, R208, R209: MSKLD loads a mask slot of the tile's press or of the context's decode engine: a checked program, a
parameter of 24 bits, rising start positions, cleared counters. What the rules refuse raises MASKPROG. -/
def Claims.MaskLoads : Prop :=
  ∀ (s : State) (q : BitVec 3) (d a : BitVec 5) (e : BitVec 1) (l n : BitVec 3) (j : BitVec 2) (c : Context), ExecutesK s q →
    s.ctxOf s.cur s.curSlot = some c → ((if e = 0 then Agent.mat else Agent.dec) ∉ s.holders s.cur s.curSlot fun _ => true) →
    let m := s.mskSlot e l
    let v := (s.bank.gr a).toInt
    let put (x : MaskSlot) : Ans := .next (onward (s.setMskSlot e l x) s.bank)
    (∀ ws, c.code.mskBlock n.toNat = some ws → maskCheck 0 [] ws = none → exec (.mskldProg q e l n) s = put { m with prog := ws }) ∧
    (∀ ws i, c.code.mskBlock n.toNat = some ws → maskCheck 0 [] ws = some i →
      exec (.mskldProg q e l n) s = .next (s.raiseSeq .maskprog 0 (BitVec.ofNat 64 i))) ∧
    (-(2 ^ 23) ≤ v → v < 2 ^ 23 → exec (.mskldParam q a e l n) s = put { m with mp := vset n (BitVec.ofInt 24 v) m.mp }) ∧
    (v < -(2 ^ 23) ∨ 2 ^ 23 ≤ v → exec (.mskldParam q a e l n) s = .next (s.raiseSeq .maskprog 0 0)) ∧
    exec (.mskldStat q d e l j) s = .next (onward s (s.bank.setG d (vget j m.cnt))) ∧
    exec (.mskldClear q e l) s = put { m with cnt := Vector.replicate 4 0 } ∧
    (∀ t k (g : Segment), let p := s.bank.gr a
      let len := leNat (g.store.read (ptrOff p) 4)
      let ws := (List.range len).map fun i => leNat (g.store.read (ptrOff p + 4 + 4 * i) 4)
      Readable s s.seqMe p (4 + 4 * len) 4 t k g → g.size ≤ 2 ^ 23 → len ≤ 1024 → badStart 1 none ws = none →
      ∃ u, exec (.mskldRuns q a e l) s = .next u ∧ SameMemory s u ∧
        SameButMemory u (onward (s.setMskSlot e l { m with runs := ws }) s.bank))

/-! ## Vector rows -/

/-- R398, R59, R60, R115, R401, R405, R411, R418, R422, R427: the vector instructions that write a function of each active
lane. The rows' tiles are owned, the inactive lanes of vd keep their contents, its sideband becomes zero, TSTAT gains the
flags of the active lanes, and nothing else changes. -/
def Obligations.VectorLaneResults : Prop :=
  ∀ (s : State) (d a b : BitVec 6) (p : BitVec 3), let u := s.vu p
    let ins (l r : List (BitVec 6)) : Prop := Rows s u l r ∧ Kept s u d u.b u.act
    let out (i : Instr) (l : List (BitVec 6)) (f : Nat → Nat × Flg) : Prop := exec i s =
      .next (vecDone (rowMerge (owningRows s u l) u d u.b (fun i => (f i).1) u.act) (flagsOf u fun i => (f i).2))
    let x (i : Nat) := laneAt s u u.b a i
    let y (i : Nat) := laneAt s u u.b b i
    let z (i : Nat) := laneAt s u u.b d i
    (∀ f g, ins [a, b, d] [a, b] → laneFn u.et u.v.vrm f.toNat = some g → out (.vop d a b f p) [a, b, d] fun i => g (x i) (y i)) ∧
    (∀ f g, ins [a, d] [a] → laneUn u.et u.v.vrm f.toNat = some g → out (.vun d a f p) [a, d] fun i => g (x i)) ∧
    (∀ v r, Rows s u [a, b, d] [a, b, d] → u.et ≠ 6 → out (.vfma d a b v r p) [a, b, d] fun i => match laneFmt u.et with
      | some f =>
        let pr := (f.read (x i)).mul (f.read (y i))
        let c := f.read (z i)
        f.sum (u.rm r) [if v.toNat / 2 = 1 then pr.neg else pr, if v.toNat % 2 = 1 then c.neg else c]
      | none => (((((if v.toNat / 2 = 1 then -1 else 1) * ((x i : Int) * y i) + (if v.toNat % 2 = 1 then -1 else 1) * (z i : Int)) %
          (2 ^ (8 * u.b) : Nat)).toNat), 0)) ∧
    (∀ c, ins [a, b, d] [a, b] → out (.vsel d a b c p) [a, b, d] fun i => (if (u.v.pred c).getLsbD i then x i else y i, 0)) ∧
    (ins [a, d] [a] → out (.vcpy d a p) [a, d] fun i => (x i, 0)) ∧
    (∀ f, laneFmt u.et = some f → ins [a, d] [a] → out (.vclass d a p) [a, d] fun i => (2 ^ f.classOf (x i), 0)) ∧
    (∀ n : BitVec 7, n.toNat < u.n → ins [a, d] [a] →
      out (.vbcst d a (BitVec.ofNat 6 n.toNat) (BitVec.ofNat 1 (n.toNat / 64)) p) [a, d] fun _ => (x n.toNat, 0)) ∧
    (∀ n, u.et ≤ 6 → ins [d] [] → out (.vbcstS d n p) [d] fun _ =>
      (((u.v.scalar n).toInt % (2 ^ (8 * u.b) : Nat)).toNat, 0)) ∧
    (∀ n k, u.et ≤ 6 → k < u.n → Rows s u [d] [] → Kept s u d u.b (fun i => decide (i = k) && u.act i) → exec (.vmovsPut d n (BitVec.ofNat 6 k) (BitVec.ofNat 1 (k / 64)) p) s =
      .next (nextUnit .vec (rowMerge (owningRows s u [d]) u d u.b (fun _ => ((u.v.scalar n).toInt % (2 ^ (8 * u.b) : Nat)).toNat)
        fun i => decide (i = k) && u.act i)))

/-- R424: VSHUF. Gather by the indexes of vb modulo the lane count, reverse, rotate, and the two interleavings. -/
def Claims.VectorShuffles : Prop :=
  ∀ (s : State) (d a b : BitVec 6) (p : BitVec 3), let u := s.vu p
    u.et ≠ 6 → Kept s u d u.b u.act →
    let l := u.n
    let x (i : Nat) := laneAt s u u.b a i
    let y (i : Nat) := laneAt s u u.b b i
    let out (f : BitVec 5) (rows : List (BitVec 6)) (g : Nat → Nat) : Prop := exec (.vshuf d a b f p) s =
      .next (nextUnit .vec (rowMerge (owningRows s u rows) u d u.b g u.act))
    (Rows s u [a, b, d] [a, b] → out 0 [a, b, d] (fun i => x (y i % l)) ∧
      out 3 [a, b, d] (fun i => if i % 2 = 0 then x (i / 2) else y (i / 2)) ∧
      out 4 [a, b, d] (fun i => if i % 2 = 0 then x (l / 2 + i / 2) else y (l / 2 + i / 2))) ∧
    (Rows s u [a, d] [a] → out 1 [a, d] (fun i => x (l - 1 - i)) ∧ out 2 [a, d] (fun i => x ((i + b.toNat) % l)))

/-- R398, R411, R418, R427, R145: what a vector instruction stops on. A function that its ETYPE does not admit raises LAYOUT,
an accumulator tile of another context ACCOWN, and neither changes the accumulators. -/
def Obligations.VectorFaults : Prop :=
  ∀ (s : State) (d a b : BitVec 6) (p : BitVec 3), let u := s.vu p
    let traps (i : Instr) (c : Cause) (v f : W64) : Prop := exec i s =
      .next (s.raise s.cur s.curSlot (s.unitRec s.cur s.curSlot .vec c v f none))
    (∀ f, Rows s u [a, b, d] [] → laneFn u.et u.v.vrm f.toNat = none → traps (.vop d a b f p) .layout 0 0) ∧
    (∀ f, Rows s u [a, d] [] → laneUn u.et u.v.vrm f.toNat = none → traps (.vun d a f p) .layout 0 0) ∧
    (∀ v r, Rows s u [a, b, d] [] → u.et = 6 → traps (.vfma d a b v r p) .layout 0 0) ∧
    (Rows s u [a, d] [] → laneFmt u.et = none → traps (.vclass d a p) .layout 0 0) ∧
    (∀ f, UnitOf .vec s → ¬ mayOwn s (u.tile a) →
      traps (.vop d a b f p) .accown ((s.acc s.cur (u.tile a)).owner.setWidth 64) ((u.tile a).setWidth 64))

/-- R130, R131, R420, R408, R400, R406: VRED and VSCAN by the pairwise tree and the prefix, VDOT in one rounding, VAMAX the
greatest magnitude of the active lanes, VCVT between widths by parts. Lane 0 of a reduction holds its result and every other
lane zero. -/
def Claims.VectorReductions : Prop :=
  ∀ (s : State) (d a b : BitVec 6) (p : BitVec 3), let u := s.vu p
    let act := (List.range u.n).filter u.act
    let x (i : Nat) := laneAt s u u.b a i
    let y (i : Nat) := laneAt s u u.b b i
    let opts := (List.range u.n).map fun i => if u.act i then some (x i) else none
    let one (i : Instr) (l : List (BitVec 6)) (w : Nat) (v : Nat) (g : Flg) : Prop := exec i s =
      .next (vecDone (rowSet (owningRows s u l) u d (rowOfLanes w fun i => if i = 0 then v else 0) 0) g)
    (∀ f g, Rows s u [a, d] [a] → redFn u.et u.v.vrm f.toNat = some g →
      let t := treeRed g (Nat.log2 u.n) opts
      one (.vred d a f p) [a, d] u.b ((t.1.headD none).getD (redId u.et f.toNat)) t.2) ∧
    (∀ f g, Rows s u [a, d] [a] → Kept s u d u.b u.act → redFn u.et u.v.vrm f.toNat = some g →
      let t := scanAll g (List.range (Nat.log2 u.n)) opts
      exec (.vscan d a f p) s = .next (vecDone (rowMerge (owningRows s u [a, d]) u d u.b (fun i => (t.1.getD i none).getD 0) u.act) t.2)) ∧
    (∀ (c : BitVec 1) (r : BitVec 3), Rows s u [a, b, d] (if c = 1 then [a, b, d] else [a, b]) → u.et ≠ 6 →
      let old := laneAt s u 4 d 0
      (∀ f, laneFmt u.et = some f →
        let v := fp32.sum (u.rm r) ((act.map fun i => (f.read (x i)).mul (f.read (y i))) ++ if c = 1 then [fp32.read old] else [])
        one (.vdot d a b c r p) [a, b, d] 4 v.1 v.2) ∧
      (laneFmt u.et = none →
        let sg (n v : Nat) : Int := (BitVec.ofNat n v).toInt
        let v := act.foldl (fun t i => t + sg (8 * u.b) (x i) * sg (8 * u.b) (y i)) (if c = 1 then sg 32 old else 0)
        let w := max (-(2 ^ 31)) (min v (2 ^ 31 - 1))
        one (.vdot d a b c r p) [a, b, d] 4 (BitVec.ofInt 32 w).toNat (if w = v then 0 else fOF))) ∧
    (∀ c : BitVec 1, Rows s u [a, d] (if c = 1 then [a, d] else [a]) → u.et ≠ 6 →
      let m := (act.map x ++ if c = 1 then [laneAt s u u.b d 0] else []).map fun v => (laneMag u.et v).getD 0
      one (.vamax d a c p) [a, d] u.b (m.foldl max 0) 0) ∧
    (∀ (r : BitVec 3) (k : BitVec 2) (t : BitVec 3), Rows s u [a, d] [a] → u.et ≠ 6 →
      let ls := u.n
      let ld := laneCount t.toNat
      let src (j : Nat) : Option Nat := if ld < ls then some (k.toNat * ld + j)
        else if k.toNat * ls ≤ j ∧ j < k.toNat * ls + ls then some (j - k.toNat * ls) else none
      let sel (j : Nat) : Bool := u.act j && (src j).isSome
      let cv (j : Nat) : Nat × Flg := convLane (u.rm r) u.et t.toNat (x ((src j).getD 0))
      k.toNat < max (ls / ld) (ld / ls) → Kept s u d (laneBytes t.toNat) sel →
      exec (.vcvt d a r k t p) s = .next (vecDone (rowMerge (owningRows s u [a, d]) u d (laneBytes t.toNat) (fun j => (cv j).1) sel)
        (((List.range ld).filter sel).foldl (fun g j => g ||| (cv j).2) 0)))

/-- R130: an integer sum of lanes is their exact sum, whatever the shape of the tree. -/
def Claims.IntegerReduction : Prop :=
  ∀ (s : State) (d a : BitVec 6) (p : BitVec 3), let u := s.vu p
    laneInt u.et = true → Rows s u [a, d] [a] → exec (.vred d a 1 p) s = .next (vecDone (rowSet (owningRows s u [a, d]) u d
      (rowOfLanes u.b fun i => if i = 0 then (((List.range u.n).filter u.act).map fun j => laneAt s u u.b a j).sum % 2 ^ (8 * u.b) else 0)
      0) 0)

/-- R402, R152, R156, R425: VBXENC, VBXDEC, VPACK, VXTRD and VSOFT. -/
def Claims.VectorFormats : Prop :=
  (∀ (s : State) (d a b : BitVec 6) (w : BitVec 2), let u := s.vu 0
    let lanes (n : BitVec 6) := (List.range 32).map fun i => laneAt s u 4 n i
    let es := [a, a + 1, a + 2, a + 3].map fun n => bxEncode (bxWidth w) (lanes n)
    let t := owningRows s u [a, a + 1, a + 2, a + 3, d, b]
    (Rows s u [a, a + 1, a + 2, a + 3, d, b] [a, a + 1, a + 2, a + 3] → exec (.vbxenc d a b w) s = .next (vecDone
      (rowSet (rowSet t u d (BitVec.ofNat 1024 (bxPack (bxWidth w) (es.flatMap fun e => e.2.1))) 0) u b
        (BitVec.ofNat 1024 (bxPack 16 (es.map fun e => e.1))) 0) (es.foldl (fun g e => g ||| e.2.2) 0))) ∧
    (let dst := [d, d + 1, d + 2, d + 3]
      let val (j i : Nat) : Nat × Flg := fp32.sum u.v.vrm [bxValue (bxWidth w)
        ((rowAt s u a).toNat / 2 ^ (bxWidth w * (32 * j + i)) % 2 ^ bxWidth w) ((rowAt s u b).toNat / 2 ^ (16 * j) % 2 ^ 16)]
      let row (j : Nat) : Row := rowOfLanes 4 fun i => (val j i).1
      let o := owningRows s u (a :: b :: dst)
      Rows s u (a :: b :: dst) [a, b] → exec (.vbxdec d a b w) s = .next (vecDone
        (rowSet (rowSet (rowSet (rowSet o u d (row 0) 0) u (d + 1) (row 1) 0) u (d + 2) (row 2) 0) u (d + 3) (row 3) 0)
        ((List.range 128).foldl (fun g i => g ||| (val (i / 32) (i % 32)).2) 0)))) ∧
  (∀ (s : State) (d a : BitVec 6) (p : BitVec 3) (r : BitVec 1) (n : BitVec 7) (o : BitVec 3), let u := s.vu p
    let k := n.toNat + 1
    let g := u.v.guard.toNat % 64
    let c (i : Nat) : Int := if u.act i then (BitVec.ofNat (8 * u.b) (laneAt s u u.b a i)).toInt else 0
    let pos (i : Nat) : Nat := if r = 0 then o.toNat + i else o.toNat + k - 1 - i
    laneInt u.et = true → k ≤ u.n → g * (o.toNat + k) ≤ 1024 → Rows s u [a, d] [a] →
    exec (.vpack d a r n o p) s = .next (nextUnit .vec (rowSet (owningRows s u [a, d]) u d
      (BitVec.ofInt 1024 ((List.range k).map fun i => c i * (2 ^ (g * pos i) : Nat)).sum)
      (sideband k ((List.range k).foldl (fun m i => max m (bitlen (c i).natAbs)) 0) g false (!u.v.guard.getLsbD 6) 0)))) ∧
  (∀ (s : State) (d : BitVec 6) (a : BitVec 5) (j : BitVec 11) (p : BitVec 3), let u := s.vu p
    let lo : BitVec 6 := BitVec.ofNat 6 (2 * a.toNat)
    let sb := sideAt s u lo
    let g := if sbG sb = 0 then u.v.guard.toNat % 64 else sbG sb
    let w := 8 * u.b
    let ds := digits g (rowAt s u (lo + 1) ++ rowAt s u lo).toInt (j.toNat + u.n)
    let v (i : Nat) : Int := ds.getD (j.toNat + i) 0
    let t (i : Nat) : Int := max (-(2 ^ (w - 1) : Nat)) (min (v i) ((2 ^ (w - 1) : Nat) - 1))
    laneInt u.et = true → Rows s u [lo, lo + 1, d] [lo, lo + 1] → Kept s u d u.b u.act →
    exec (.vxtrd d a j p) s = .next (vecDone (rowMerge (owningRows s u [lo, lo + 1, d]) u d u.b
      (fun i => (BitVec.ofInt w (t i)).toNat) u.act) (flagsOf u fun i => if t i = v i then 0 else fOF))) ∧
  (∀ (s : State) (d a b : BitVec 6) (p : BitVec 3), let u := s.vu p
    let act := (List.range 32).filter u.act
    let x (i : Nat) := laneAt s u 4 a i
    let z (i : Nat) := laneAt s u 4 b i
    let top := act.foldl (fun (k : Nat × Flg) i => ((fp32.minmax true k.1 (x i)).1, k.2 ||| (fp32.minmax true k.1 (x i)).2)) (z 0, 0)
    let m := (if (fp32.read top.1).isNan then 0x7FC00000 else top.1, top.2)
    let ex (v : Nat) : Nat × Flg :=
      let r := fp32.sub rne v m.1
      ((exp2of r.1).1, r.2 ||| (exp2of r.1).2)
    let al := ex (z 0)
    let l := fp32.sum rne ((fp32.read al.1).mul (fp32.read (z 1)) :: act.map fun i => fp32.read (ex (x i)).1)
    let t := owningRows s u [a, b, d]
    let state (t : State) (c0 c1 c2 : Nat) : State := rowSet t u b (rowOfLanes 4 fun i =>
      if i = 0 then c0 else if i = 1 then c1 else if i = 2 then c2 else z i) 0
    u.et = 0 → Rows s u [a, b, d] [a, b] → Kept s u d 4 u.act →
    (m.1 = 0xFF800000 → exec (.vsoft d a b p) s =
      .next (vecDone (state (rowMerge t u d 4 (fun _ => 0) u.act) (z 0) (z 1) 0x3F800000) m.2)) ∧
    (m.1 ≠ 0xFF800000 → exec (.vsoft d a b p) s = .next (vecDone (state (rowMerge t u d 4 (fun i => (ex (x i)).1) u.act) m.1 l.1 al.1)
      (m.2 ||| al.2 ||| flagsOf u (fun i => (ex (x i)).2) ||| l.2))))

/-! ## Vector predicates, scalars and state -/

/-- R404, R405, R419, R416, R61: what a vector instruction leaves in a vp register. A compare clears the bits of inactive
lanes, the others keep them, all keep the bits from the lane count on; vp0 reads all ones whatever is written. That VCMP keeps the
bits from the lane count on is log 43 (DEDUCED): R404 does not say it, R419 says it of VPRED. -/
def Obligations.VectorPredicates : Prop :=
  ∀ (s : State) (d a b p : BitVec 3), UnitOf .vec s → Vp0Ones s → let u := s.vu p
    let v := u.v
    let pr (n : BitVec 3) (i : Nat) : Bool := (v.pred n).getLsbD i
    let gives (i : Instr) (f : Nat → Bool) : Prop := ∃ w : Vector (BitVec 128) 8,
      exec i s = .next (nextUnit .vec (vecSet s fun z => { z with vp := w })) ∧
      ∀ (n : BitVec 3) i, i < 128 → (vget n w).getLsbD i =
        if n = 0 then true else if n = d ∧ i < u.n ∧ u.act i = true then f i else pr n i
    gives (.vcpyP d a p) (pr a) ∧ gives (.vcpyPn d a p) (fun i => !pr a i) ∧ gives (.vpredNot d a p) (fun i => !pr a i) ∧
    gives (.vpredLogic d a b 1 p) (fun i => pr a i && pr b i) ∧ gives (.vpredLogic d a b 2 p) (fun i => pr a i || pr b i) ∧
    gives (.vpredLogic d a b 3 p) (fun i => xor (pr a i) (pr b i)) ∧ gives (.vpredLogic d a b 4 p) (fun i => pr a i && !pr b i) ∧
    gives (.vpredLt d a p) (fun i => decide (i < (v.scalar a).toNat)) ∧
    exec (.vpredCnt d a p) s = .next (nextUnit .vec (vecSet s fun z => z.setScalar d
      (BitVec.ofNat 64 ((List.range u.n).countP fun i => u.act i && pr a i)))) ∧
    (∀ m n, let k := vget m (s.slot s.cur s.curSlot).masks
      let x := v.scalar n
      let truth (i : Nat) : Option Bool := k.truth (x.toNat % 2 ^ 24 : Nat) ((x.toNat / 2 ^ 24 + i : Nat))
      (x.toNat < 2 ^ 48 → k.prog ≠ [] → (∀ i, i < u.n → u.act i = true → truth i ≠ none) →
        exec (.vmaskb d m n p) s = .next (nextUnit .vec (vecSet s fun z => z.setPred d (predWith u.n (z.pred d) u.act fun i =>
          (truth i).getD false)))) ∧
      (x.toNat < 2 ^ 48 → k.prog = [] → exec (.vmaskb d m n p) s =
        .next (s.raise s.cur s.curSlot (s.unitRec s.cur s.curSlot .vec .maskprog 0 0 none)))) ∧
    (∀ (a b : BitVec 6) (c : BitVec 3), Rows s u [a, b] [a, b] → u.et ≠ 6 →
      let x (i : Nat) := laneAt s u u.b a i
      let y (i : Nat) := laneAt s u u.b b i
      let f (i : Nat) : Bool × Flg := match laneFmt u.et with
        | some f => f.cond c.toNat (x i) (y i)
        | none => (condI c (BitVec.ofNat (8 * u.b) (x i)) (BitVec.ofNat (8 * u.b) (y i)), 0)
      ∃ w : BitVec 128, (∀ i, i < 128 → w.getLsbD i = if i < u.n then u.act i && (f i).1 else pr d i) ∧
        exec (.vcmp d a b c p) s = .next (vecDone (vecSet (owningRows s u [a, b]) fun z => z.setPred d w) (flagsOf u fun i => (f i).2)))

/-- R417, R426, R399, R423, R413, R114: what a vector instruction leaves in a scalar, an address register, SHAPE, GUARD and
the rounding mode. -/
def Obligations.VectorScalars : Prop :=
  ∀ (s : State) (d a n : BitVec 3), UnitOf .vec s → let v := s.vecSt
    let gives (i : Instr) (f : VecState → VecState) : Prop := exec i s = .next (nextUnit .vec (vecSet s f))
    let sc (i : Instr) (x : BitVec 64) : Prop := gives i fun z => z.setScalar d x
    let bad (i : Instr) (c : Cause) (x : BitVec 64) : Prop := exec i s =
      .next (s.raise s.cur s.curSlot (s.unitRec s.cur s.curSlot .vec c x 0 none))
    let ill (i : Instr) : Prop := bad i .illegal ((s.engWord .vec).setWidth 64)
    let x := v.scalar a
    let r := vget n v.ad
    (∀ (f : BitVec 5) (i : BitVec 14) y, (intTable f.toNat x (BitVec.ofInt 64 i.toInt) = some y → sc (.vsop d a f 0 i) y) ∧
      (intTable f.toNat x (v.scalar (BitVec.ofNat 3 i.toNat)) = some y → sc (.vsop d a f 1 i) y)) ∧
    (∀ i : BitVec 14, sc (.vsopLi d i) (BitVec.ofInt 64 i.toInt)) ∧
    (∀ m : BitVec 2, gives (.vsopSetrm m) fun z => { z with vrm := m }) ∧ sc (.vsopGetrm d) (v.vrm.setWidth 64) ∧
    (∀ (b i : BitVec 6) (j : BitVec 1), let u := s.vu 0
      let k := i.toNat + 64 * j.toNat
      let y := laneAt s u u.b b k
      Rows s u [b] [b] → k < u.n →
        exec (.vmovsGet d b i j) s = .next (nextUnit .vec (vecSet (owningRows s u [b]) fun z =>
          z.setScalar d (BitVec.ofInt 64 (BitVec.ofNat (8 * u.b) y).toInt))) ∧
        exec (.vmovsGetu d b i j) s = .next (nextUnit .vec (vecSet (owningRows s u [b]) fun z => z.setScalar d (BitVec.ofNat 64 y)))) ∧
    (∀ i : BitVec 17, (ptrMid x = 0 → ∃ y : AdReg, gives (.vaddr n a i) (fun z => z.setAd n y) ∧ adPos y = 0 ∧ adLen y = 0 ∧
        adStep y = i.toInt ∧ adMode y = 0 ∧ adSeg y = ptrSeg x ∧ adOff y = ptrOff x) ∧
      (ptrMid x ≠ 0 → bad (.vaddr n a i) .segbound x)) ∧
    (∀ m : BitVec 2, let ok := x.toNat < 2 ^ 23 ∧ adLegal m.toNat x.toNat 0 = true
      (ok → ∃ y : AdReg, gives (.vaddrLen n a m) (fun z => z.setAd n y) ∧ adPos y = 0 ∧ adLen y = x.toNat ∧ adMode y = m.toNat ∧
        adStep y = adStep r ∧ adSeg y = adSeg r ∧ adOff y = adOff r) ∧
      (¬ ok → ill (.vaddrLen n a m))) ∧
    (-(2 ^ 23) ≤ x.toInt → x.toInt < 2 ^ 23 → ∃ y : AdReg, gives (.vaddrStep n a) (fun z => z.setAd n y) ∧ adStep y = x.toInt ∧
      adPos y = adPos r ∧ adLen y = adLen r ∧ adMode y = adMode r ∧ adSeg y = adSeg r ∧ adOff y = adOff r) ∧
    (x.toInt < -(2 ^ 23) ∨ 2 ^ 23 ≤ x.toInt → ill (.vaddrStep n a)) ∧
    (x.toNat < 2 ^ 24 → adLegal (adMode r) (adLen r) x.toNat = true → ∃ y : AdReg, gives (.vaddrPos n a) (fun z => z.setAd n y) ∧
      adPos y = x.toNat ∧ adStep y = adStep r ∧ adLen y = adLen r ∧ adMode y = adMode r ∧ adSeg y = adSeg r ∧ adOff y = adOff r) ∧
    (2 ^ 24 ≤ x.toNat ∨ adLegal (adMode r) (adLen r) x.toNat = false → ill (.vaddrPos n a)) ∧
    sc (.vaddrGet d n) (BitVec.ofNat 64 (adPos r)) ∧
    (∀ (t : BitVec 4) (w : BitVec 8), gives (.vshape t w) fun z => { z with shape := BitVec.ofNat 12 (2 ^ 8 * t.toNat + w.toNat) }) ∧
    (x.toNat < 2 ^ 12 → x.toNat / 2 ^ 8 ≤ 6 → x.toNat % 2 = 0 → gives (.vshapeVs a) fun z => { z with shape := BitVec.ofNat 12 x.toNat }) ∧
    (2 ^ 12 ≤ x.toNat ∨ 6 < x.toNat / 2 ^ 8 ∨ x.toNat % 2 = 1 → bad (.vshapeVs a) .layout 0) ∧
    sc (.vshapeGet d) (v.shape.setWidth 64) ∧
    (∀ (f : BitVec 1) (g : BitVec 6), gives (.vguard f g) fun z => { z with guard := BitVec.ofNat 8 (2 ^ 6 * f.toNat + g.toNat) })

/-! ## Vector memory and FIFOs -/

/-- R415, R414, R412, R64: VLDS and VSTS move one scalar; VLD and VST move rows of 128 bytes at the addresses of an address
register, which steps once per row; VGATH and VSCAT move a lane each at an address of its own. Inactive lanes keep their
contents, and inactive bytes of memory theirs. -/
def Claims.VectorMemory : Prop :=
  ∀ (s : State) (d : BitVec 6) (n a p : BitVec 3), let u := s.vu p
    let m := s.meOf .vec
    let ad := vget a u.v.ad
    let seg (t : BitVec 8) (k : BitVec 2) (g : Segment) : Prop := s.findSeg m (adSeg ad) = some (t, k, g) ∧ g.state = .resident ∧
      g.size ≤ 2 ^ 23
    (∀ t k g (z : BitVec 2) (x : BitVec 1) (i : BitVec 17), let q := u.v.scalar a + BitVec.ofInt 64 i.toInt
      let w := 2 ^ z.toNat
      let v : BitVec (8 * w) := BitVec.ofNat (8 * w) (leNat (g.store.read (ptrOff q) w))
      UnitOf .vec s →
      (Readable s m q w w t k g → ∃ f, exec (.vlds n a z x i) s = .next f ∧ SameMemory s f ∧ SameButMemory f (nextUnit .vec
        (vecSet s fun y => y.setScalar n (if x = 1 then v.signExtend 64 else v.setWidth 64)))) ∧
      (Writable s m q w w t k g → MemoryCanonical s → ∃ f, exec (.vsts n a z i) s = .next f ∧ SameButMemory f (nextUnit .vec s) ∧
        Wrote s f t k g.num (ptrOff q) (leBytes w (u.v.scalar n).toNat))) ∧
    (∀ t k g (c : BitVec 6), seg t k g →
      let rows := (List.range (c.toNat + 1)).map fun j => d + BitVec.ofNat 6 j
      let at_ (j : Nat) : Int := adAddr (adAfter ad j)
      (∀ j, j ≤ c.toNat → 0 ≤ at_ j ∧ at_ j % 16 = 0 ∧ at_ j + 128 ≤ g.size) →
      let quiet (w : Bool) : Prop := ∀ j, j ≤ c.toNat → Quiet s m g w (at_ j).toNat 128
      let done (f : State) (x : State) : Prop := SameButMemory f (nextUnit .vec (vecSet x fun y => y.setAd a (adAfter ad (c.toNat + 1))))
      (quiet false → Rows s u rows rows → ∃ f, exec (.vld d a c p) s = .next f ∧ SameMemory s f ∧ done f
        ((List.range (c.toNat + 1)).foldl (fun x j => rowMerge x u (d + BitVec.ofNat 6 j) u.b
          (fun i => leNat (g.store.read ((at_ j).toNat + u.b * i) u.b)) u.act) (owningRows s u rows))) ∧
      (quiet true → Rows s u rows rows → MemoryCanonical s → ∃ f, exec (.vst d a c p) s = .next f ∧ done f (owningRows s u rows) ∧
        Became s f t k g.num fun x =>
          match (List.range (c.toNat + 1)).reverse.find? fun j => decide (at_ j ≤ x) && decide ((x : Int) < at_ j + 128) &&
            u.act ((x - (at_ j).toNat) / u.b) with
          | some j => BitVec.ofNat 8 ((rowAt s u (d + BitVec.ofNat 6 j)).toNat / 2 ^ (8 * (x - (at_ j).toNat)))
          | none => look 0 g.store.bytes x)) ∧
    (∀ t k g (z : BitVec 3) (i : BitVec 6), seg t k g → u.et ≠ 6 →
      let at_ (l : Nat) : Int := adAddr ad + (laneAt s u u.b i l * 2 ^ z.toNat : Nat)
      (∀ l, l < u.n → u.act l = true → 0 ≤ at_ l ∧ at_ l % u.b = 0 ∧ at_ l + u.b ≤ g.size) →
      let quiet (w : Bool) : Prop := ∀ l, l < u.n → u.act l = true → Quiet s m g w (at_ l).toNat u.b
      let done (f : State) (x : State) : Prop := SameButMemory f (nextUnit .vec (vecSet x fun y => y.setAd a (adNext ad)))
      (quiet false → Rows s u [i, d] [i] → Kept s u d u.b u.act → ∃ f, exec (.vgath d a z i p) s = .next f ∧ SameMemory s f ∧ done f
        (rowMerge (owningRows s u [i, d]) u d u.b (fun l => leNat (g.store.read (at_ l).toNat u.b)) u.act)) ∧
      (quiet true → Rows s u [d, i] [d, i] → MemoryCanonical s → ∃ f, exec (.vscat d a z i p) s = .next f ∧ done f (owningRows s u [d, i]) ∧
        Became s f t k g.num fun x =>
          match ((List.range u.n).filter u.act).reverse.find? fun l => decide (at_ l ≤ x) && decide ((x : Int) < at_ l + u.b) with
          | some l => BitVec.ofNat 8 (laneAt s u u.b d l / 2 ^ (8 * (x - (at_ l).toNat)))
          | none => look 0 g.store.bytes x))

/-- R66, R407, R428, Table 3.12: VDEFER appends a record for each active lane that fits in a deferral queue and answers the
lanes that do not; VUNDEF takes the oldest records, a lane each, and answers the lanes it filled. HEAD and TAIL are counts over
integers (R6). What they do with a header that no rule admits (TAIL below HEAD, TAIL past HEAD + CAP) is the model's choice,
log 76. -/
def Claims.VectorDeferral : Prop :=
  ∀ (s : State) (d : BitVec 6) (a o p : BitVec 3) (c : BitVec 6) (t : BitVec 8) (k : BitVec 2) (g : Segment), let u := s.vu p
    let ad := vget a u.v.ad
    let n := c.toNat + 1
    let rows := (List.range n).map fun j => d + BitVec.ofNat 6 j
    let q := (adAddr ad).toNat
    let head := leNat (g.store.read q 8)
    let tail := leNat (g.store.read (q + 8) 8)
    let cap := leNat (g.store.read (q + 16) 4)
    u.et ≠ 6 → c.toNat < 4 → s.findSeg (s.meOf .vec) (adSeg ad) = some (t, k, g) → g.state = .resident → g.size ≤ 2 ^ 23 →
    Quiet s (s.meOf .vec) g true q (64 + 32 * cap) → 0 ≤ adAddr ad → q % 64 = 0 → 0 < cap → q + 64 + 32 * cap ≤ g.size →
    MemoryCanonical s → Rows s u rows rows →
    let at_ (i : Nat) : Nat := q + 64 + 32 * (i % cap)
    (∀ b : BitVec 3, let act := (List.range u.n).filter u.act
      let m := min act.length (head + cap - tail)
      let rec_ (i : Nat) : List Byte := leBytes 2 i ++ leBytes 1 n ++ List.replicate 5 0 ++
        ((List.range 4).flatMap fun j => leBytes 4 (if j < n then laneAt s u u.b (d + BitVec.ofNat 6 j) i else 0)) ++
        leBytes 8 (u.v.scalar b).toNat
      ∃ (f : State) (w : BitVec 128), exec (.vdefer d a o c b p) s = .next f ∧ SameButMemory f (nextUnit .vec
          (vecSet (owningRows s u rows) fun y => (y.setPred o w).setAd a (adNext ad))) ∧
        (∀ i, i < 128 → w.getLsbD i = decide (i ∈ act.drop m)) ∧ Became s f t k g.num fun x =>
          if q + 8 ≤ x ∧ x < q + 16 then (leBytes 8 (tail + m)).getD (x - (q + 8)) 0
          else match (List.range m).reverse.find? fun i => decide (at_ (tail + i) ≤ x) && decide (x < at_ (tail + i) + 32) with
            | some i => (rec_ (act.getD i 0)).getD (x - at_ (tail + i)) 0
            | none => look 0 g.store.bytes x) ∧
    (p = 0 → let m := min u.n (tail - head)
      let count (i : Nat) : Nat := leNat (g.store.read (at_ (head + i) + 2) 1)
      let val (i j : Nat) : Nat := leNat (g.store.read (at_ (head + i) + 8 + 4 * j) 4)
      ∃ (f : State) (w : BitVec 128), exec (.vundef d a o c) s = .next f ∧
        SameButMemory f (nextUnit .vec (vecSet ((List.range n).foldl (fun x j => if m = 0 then x else rowMerge x u (d + BitVec.ofNat 6 j) u.b
          (fun i => val i j % 2 ^ (8 * u.b)) fun i => decide (i < m) && decide (j < count i)) (owningRows s u rows))
          fun y => (y.setPred o w).setAd a (adNext ad))) ∧
        (∀ i, i < 128 → w.getLsbD i = decide (i < m)) ∧ Became s f t k g.num fun x =>
          if m ≠ 0 ∧ q ≤ x ∧ x < q + 8 then (leBytes 8 (head + m)).getD (x - q) 0 else look 0 g.store.bytes x)

/-- R410, R33, R37, R182: the vector FIFOs. A push goes to a queue of 8 or waits, and carries what it releases; a pop takes the oldest
row and acquires what it carries. -/
def Obligations.VectorFifos : Prop :=
  ∀ (s : State) (d a i : BitVec 6) (p : BitVec 3), let u := s.vu p
    let q := (s.slot s.cur s.curSlot).q
    let me := s.meOf .vec
    let put (l : List (BitVec 6)) (f : Slot → Slot) : Ans :=
      .next (nextUnit .vec ((((owningRows s u l).modSlot s.cur s.curSlot f).useGrant me).releaseOnly me))
    let room (n : Nat) : Prop := n < 8 ∨ ((s.myAgt me).grant = true ∧ n = 8)
    let waits (o : WaitObj) : Ans := .next (s.setMyAgt me { s.myAgt me with wait := some { obj := o } })
    (p = 0 → Rows s u [a] [a] → i.toNat < u.n → room q.vecSeq.items.length →
      exec (.vfifoSeq a i) s = put [a] fun k => { k with q := { k.q with vecSeq := { k.q.vecSeq with
        items := k.q.vecSeq.items ++ [s.item me (BitVec.ofNat 64 (laneAt s u u.b a i.toNat))] } } }) ∧
    (p = 0 → Rows s u [a] [a] → room q.vecMat.items.length →
      exec (.vfifoMat a) s = put [a] fun k => { k with q := { k.q with vecMat := { k.q.vecMat with
        items := k.q.vecMat.items ++ [s.item me (rowAt s u a)] } } }) ∧
    (p = 0 → Rows s u [a] [a] → i.toNat < u.n → ¬ room q.vecSeq.items.length → exec (.vfifoSeq a i) s = waits (.push 4)) ∧
    (p = 0 → Rows s u [a] [a] → ¬ room q.vecMat.items.length → exec (.vfifoMat a) s = waits (.push 7)) ∧
    (Rows s u [d] [] → q.matVec.items = [] → exec (.vfifoPop d p) s = waits (.pop 8)) ∧
    (∀ x r, Rows s u [d] [] → Kept s u d u.b u.act → q.matVec.items = x :: r → exec (.vfifoPop d p) s =
      .next (nextUnit .vec ((rowMerge (owningRows s u [d]) u d u.b (fun l => x.val.toNat / 2 ^ (8 * u.b * l) % 2 ^ (8 * u.b)) u.act).modSlot
        s.cur s.curSlot fun k => { (k.learn .vec x.knows) with q := { k.q with matVec := ⟨r, q.matVec.spare && decide (8 < r.length), s.who me⟩ } })))

/-! ## The press -/

/-- R371, R372, R373, R377, R211, R366, R379: what the steps leave that set press state. A value with bits where
LAYOUT asks for zeros raises it and sets nothing. MSYNC pushes the last fold code with the step number, or waits for
room. -/
def Obligations.PressSettings : Prop :=
  ∀ (s : State), UnitOf .mat s →
    let e := s.curEntry .mat
    let x := e.x.toNat
    let y := e.y.toNat
    let me := s.meOf .mat
    let done (f : PressState → PressState) : Ans := .next (nextUnit .mat (matSet s f))
    let bad : Ans := .next (s.raise s.cur s.curSlot (s.unitRec s.cur s.curSlot .mat .layout 0 0 none))
    let sets (u : State) (f : PressState → PressState) : Prop :=
      SameButMemory u (nextUnit .mat (matSet s f)) ∧ SameMemory s u
    let badly (i : Instr) : Prop := ∃ u, exec i s = .next (u.raise u.cur u.curSlot (u.unitRec u.cur u.curSlot .mat .layout 0 0 none)) ∧
      SameButMemory u s ∧ SameMemory s u
    (∀ c l, exec (.mfmt c l) s = done fun p => { p with fmtBase := BitVec.ofNat 4 c.toNat, fmtLoop := l }) ∧
    exec .mfoldAdaptive s = done (fun p => { p with policy := .adaptive }) ∧ exec .mfoldReport s = done (fun p => { p with policy := .report }) ∧
    (∀ l, exec (.mfoldStrict l) s = done fun p => { p with policy := .strict l }) ∧
    (x < 2 ^ 32 → exec .mscale s = done fun p => { p with scale := BitVec.ofNat 32 x }) ∧ (2 ^ 32 ≤ x → exec .mscale s = bad) ∧
    (y < 2 ^ 32 → exec .mscaleY s = done fun p => { p with scale := BitVec.ofNat 32 y }) ∧ (2 ^ 32 ≤ y → exec .mscaleY s = bad) ∧
    (∀ n c k q j, let ok := (q = 1 → x < 2 ^ 24) ∧ (j = 1 → y < 2 ^ 24)
      (ok → exec (.mmsk n c k q j) s = done fun p => { p with
        mslot := n
        carry := decide (c = 1)
        kadv := k
        mqPos := if q = 1 then BitVec.ofNat 24 x else p.mqPos
        mkPos := if j = 1 then BitVec.ofNat 24 y else p.mkPos }) ∧
      (¬ ok → exec (.mmsk n c k q j) s = bad)) ∧
    exec .mamax s = done (fun p => { p with amt := .seg e.x }) ∧ exec .mamaxClr s = done (fun p => { p with amt := .unset }) ∧
    (∀ u k (g : Segment) (c : Cap), Readable s me e.x 16 16 u k g → c.tag = g.store.tags.contains (ptrOff e.x / 16) →
      c.raw = BitVec.ofNat 128 (leNat (g.store.read (ptrOff e.x) 16)) → c.tag = true → c.malformed = false →
      c.tenant = s.partid s.cur % 2 ^ 16 → ∃ u, exec .mamaxCap s = .next u ∧ sets u fun p => { p with amt := .cap e.y c }) ∧
    (∀ (n : BitVec 4) u k (g : Segment), let p := e.x + BitVec.ofNat 64 (16 * n.toNat)
      let d := BitVec.ofNat 128 (leNat (g.store.read (ptrOff p) 16))
      Readable s me p 16 16 u k g →
        (d.toNat % 2 ^ 30 = 0 → odFmt d ≤ 6 → ∃ u, exec (.mlddOd n) s = .next u ∧ sets u fun z => { z with
          od := vset n d z.od
          held := z.held.filter fun h => h.1 ≠ n.toNat }) ∧
        (d.toNat % 2 ^ 30 ≠ 0 ∨ 6 < odFmt d → badly (.mlddOd n))) ∧
    (∀ (n : BitVec 4) u k (g : Segment), let p := e.x + BitVec.ofNat 64 (256 + 2 * n.toNat)
      let a := BitVec.ofNat 16 (leNat (g.store.read (ptrOff p) 2))
      Readable s me p 2 2 u k g →
        (a.toNat % 64 = 0 → ∃ u, exec (.mlddAs n) s = .next u ∧ sets u fun z => { z with asl := vset n a z.asl }) ∧
        (a.toNat % 64 ≠ 0 → badly (.mlddAs n))) ∧
    (∀ b, StatusRoom s b → exec (.msync b) s = .next (nextUnit .mat (statusPushed s b
      ((s.slot s.cur s.curSlot).tstat.toNat / 2 ^ 56 + 256 * ((s.eng .mat).unit % 256))))) ∧
    (∀ b, ¬ StatusRoom s b → exec (.msync b) s =
      .next (s.setMyAgt me { s.myAgt me with wait := some { obj := .push 5 } }))

/-- R381, R368, R370, R367, R145, R149: the steps that write rows without computing. MZERO zeros a tile, MCPY copies the
tile of a source slot, MFIFO moves a row between a tile and the vector engine's queues; written rows have zero sidebands; the pop of a row acquires what its push released (R182).
MBAR arrives at a barrier object. A tile of another context raises ACCOWN. -/
def Obligations.PressRows : Prop :=
  ∀ (s : State) (c : BitVec 8) (a : BitVec 5),
    let me := s.meOf .mat
    let q := (s.slot s.cur s.curSlot).q
    let waits (o : WaitObj) : Ans := .next (s.setMyAgt me { s.myAgt me with wait := some { obj := o } })
    let room := q.matVec.items.length < 8 ∨ ((s.myAgt me).grant = true ∧ q.matVec.items.length = 8)
    (Tiles s [c] [] → exec (.mzero c) s =
      .next (nextUnit .mat ((owning s c).modAcc s.cur c fun x => rowsPut x fun _ => 0))) ∧
    (∀ (n : BitVec 4) (k : BitVec 2), let first := (vget n s.matSt.asl).toNat / 2 ^ 8
      let d := BitVec.ofNat 8 (first + k.toNat)
      (first ≤ 252 → Tiles s [d, c] [d] → exec (.mcpy c n k) s = .next (nextUnit .mat ((owningTiles s [d, c]).modAcc s.cur c
        fun x => rowsPut x fun i => (accSeen s d).row (BitVec.ofNat 5 i)))) ∧
      (252 < first → UnitOf .mat s → exec (.mcpy c n k) s =
        .next (s.raise s.cur s.curSlot (s.unitRec s.cur s.curSlot .mat .layout 0 0 none)))) ∧
    (Tiles s [c] [c] → room → exec (.mfifoPush c a) s =
      .next (nextUnit .mat ((((owning s c).modSlot s.cur s.curSlot fun k => { k with q := { k.q with matVec := { k.q.matVec with
        items := k.q.matVec.items ++ [s.item me ((accSeen s c).row a)] } } }).useGrant me).releaseOnly me))) ∧
    (Tiles s [c] [c] → ¬ room → exec (.mfifoPush c a) s = waits (.push 8)) ∧
    (∀ x r, Tiles s [c] [] → q.vecMat.items = x :: r → exec (.mfifoPop c a) s =
      .next (nextUnit .mat (((owning s c).modAcc s.cur c fun y => y.putBy .mat a x.val 0).modSlot s.cur s.curSlot fun k =>
        { (k.learn .mat x.knows) with q := { k.q with vecMat := ⟨r, q.vecMat.spare && decide (8 < r.length), s.who me⟩ } }))) ∧
    (Tiles s [c] [] → q.vecMat.items = [] → exec (.mfifoPop c a) s = waits (.pop 7)) ∧
    (UnitOf .mat s → ¬ mayOwn s c → exec (.mzero c) s = .next (s.raise s.cur s.curSlot (s.unitRec s.cur s.curSlot .mat
      .accown ((s.acc s.cur c).owner.setWidth 64) (c.setWidth 64) none))) ∧
    (∀ u k (g : Segment), let e := s.curEntry .mat
      UnitOf .mat s → MemoryCanonical s → e.y.toNat < 2 ^ 32 → Reachable s me e.x 16 16 true false u k g →
      g.store.poisoned (ptrOff e.x) 16 = [] →
      let bs := g.store.read (ptrOff e.x) 16
      (e.y = 0 ∨ (barrierOf bs).arrived + e.y.toNat ≤ (barrierOf bs).expected → ∃ v, exec .mbar s = .next v ∧
        SameButSync v (nextUnit .mat s) ∧ Wrote s v u k g.num (ptrOff e.x) (arrived bs e.y.toNat)))

/-- R132, R124, R126, R127, R133 to R139, R143, R212 to R217: MMA. Every element of the tile takes its old value and the
products of its row of A and its row or column of B, rounded once in each pass of the active layers, or the exact sum
modulo 2^32; the mask unit skips EMPTY chunks, whose source tiles are not read, and writes −∞ where its bit is clear. The descriptors advance, TSTAT and the
mask counters change, and the status element is pushed. The press then holds the words that the step fetched, for each
descriptor that has not moved (R136). No byte of memory changes. -/
def Claims.MmaResult : Prop :=
  ∀ (s : State) (c : BitVec 8) (a : BitVec 5) (b f : BitVec 4) (z t m sb : BitVec 1) (r : Word) (cls : Cls) (skip : List Nat),
    let p := s.matSt
    let n : BitVec 4 := BitVec.ofNat 4 a.toNat
    let src := decide (16 ≤ a.toNat)
    let slot := vget n p.asl
    let af := r.toNat % 16
    let bf := r.toNat / 16 % 16
    let isInt := r.getLsbD 8
    let depth := if af = 0 ∨ bf = 0 then 8 else 32
    let tiles := if src then srcTiles slot depth else []
    let avail := s.layers s.cur
    let act := match p.policy with
      | .strict l => l
      | _ => avail
    let ms := vget p.mslot (s.slot s.cur s.curSlot).masks
    let db := vget b p.od
    let numbered := tiles.zip (List.range 4)
    let read := (numbered.filter fun x => !skip.contains x.2).map (·.1)
    fmtRec s f = some r → Tiles s (tiles ++ [c]) (read ++ [c]) → avail ≠ 0 → act ≠ 0 → act &&& avail = act →
    (src = false → Fetchable s n af (4 * depth) false) → (src = true → convFmt slot = af ∧ slot.toNat / 2 ^ 8 ≤ 252) →
    Fetchable s b bf (4 * depth) (decide (t = 1)) → (isBx bf = true → t = 0) → StatusRoom s sb →
    (m = 0 → cls = .full ∧ skip = []) →
    (m = 1 → isInt = false ∧ (p.carry = true → af ≠ 0 ∧ bf ≠ 0 ∧ z = 0) ∧ ms.prog ≠ [] ∧ p.classed ms = some (cls, skip) ∧
      (cls = .partly → ∀ i j, i < 32 → j < 32 → p.bitmap ms i j ≠ none)) →
    let conv := numbered.map fun x => if skip.contains x.2 then []
      else (List.range 32).map fun i => srcRow af ((accSeen s x.1).row (BitVec.ofNat 5 i))
    let va (i : Nat) : List Fx := if src then conv.flatMap fun x => (x.getD i (List.replicate 32 (.fin false 0 0), 0)).1
      else odElems s (vget n p.od) af (4 * depth) false i
    let vb (j : Nat) : List Fx := odElems s db bf (4 * depth) (decide (t = 1)) j
    let old (i j : Nat) : Nat := ((accSeen s c).row (BitVec.ofNat 5 i)).toNat / 2 ^ (32 * j) % 2 ^ 32
    let passes := (deal (popCount 4 act.toNat)).map fun l => l.filter fun x => !skip.contains x
    let fp (i j : Nat) : Nat × Flg := cellFp (old i j) (va i) (vb j) depth passes
    let keep (i j : Nat) : Bool := decide (cls ≠ .partly) || (p.bitmap ms i j).getD false
    let new (i j : Nat) : Nat := if keep i j then (if isInt then (cellInt (old i j) (va i) (vb j)).1 else (fp i j).1) else 0xFF800000
    let cells := (List.range 32).flatMap fun i => (List.range 32).map fun j => (i, j)
    let flags : Flg := if isInt then conv.foldl (fun g x => x.foldl (fun g y => g ||| y.2) g) 0
      else cells.foldl (fun g x => g ||| (fp x.1 x.2).2) (conv.foldl (fun g x => x.foldl (fun g y => g ||| y.2) g) 0)
    let wrap := isInt && cells.any fun x => (cellInt (old x.1 x.2) (va x.1) (vb x.2)).2
    let left := decide (p.policy = .adaptive ∨ p.policy = .report) &&
      decide ((s.tile s.cur).col.throttled &&& ~~~(s.fusedOf s.cur) ≠ 0)
    let fold := 16 * (popCount 4 act.toNat - 1) + act.toNat
    let rows (g : Nat → Nat → Nat) (s : State) : State := s.modAcc s.cur c fun x => rowsPut x fun i => rowOfLanes 4 (g i)
    let own := owningTiles s (tiles ++ [c])
    let computed : State := if cls = .empty then (if z = 1 ∧ p.carry = false then rows (fun _ _ => 0xFF800000) own else own)
      else tstatSet (rows new own) (tstatFold p fold left (matFlags flags ||| (if wrap then 0x800 else 0)) (s.slot s.cur s.curSlot).tstat)
    let moved (q : PressState) : PressState :=
      let q1 := if src then q else q.advance n
      let q2 := if src = true ∨ n ≠ b then q1.advance b else q1
      if m = 1 then { q2 with mkPos := q2.mkPos + BitVec.ofInt 24 (32 * p.kadv.toInt) } else q2
    let count (s : State) : State := if m = 1 then s.modSlot s.cur s.curSlot fun x => { x with
        masks := vset p.mslot (ms.counted p.carry cls ((if cls = .empty then 4 else skip.length) * chunkBytes bf)) x.masks }
      else s
    let fetches (i : Nat) : List OdRange := if cls = .empty then [] else
      (if src = false ∧ i = n.toNat then (plainOperand (vget n p.od) af (4 * depth)).used false skip else []) ++
      (if i = b.toNat then (if t = 1 then transOperand db bf (4 * depth) else plainOperand db bf (4 * depth)).used (decide (t = 1)) skip
        else [])
    ∃ u h, exec (.mma c a b f z t m sb) s = .next u ∧ SameMemory s u ∧
      (∀ i w, let x := odBytes s (vget (BitVec.ofNat 4 i) p.od) (16 * w) 16
        heldAt h i w = if ((src = false ∧ i = n.toNat) ∨ i = b.toNat) ∧ odAdv (vget (BitVec.ofNat 4 i) p.od) ≠ 0 then none
          else if ∃ y ∈ fetches i, w ∈ unitsOf 16 y.off y.len then some x else heldAt p.held i w) ∧
      SameButMemory u (nextUnit .mat (statusPushed (matSet (count computed) fun q => { moved q with held := h }) sb
        ((if cls = .empty then 0 else fold) + 256 * ((s.eng .mat).unit % 256) + 65536 * c.toNat)))

/-- R133, R138, R139, R145, R212: where an MMA waits or stops. No layer available makes it wait, before any check of R133 (the
model's choice, log 47); a fsel above 14 raises LAYOUT; a strict policy whose layers are not all available raises FOLD with both
masks; neither changes a row. -/
def Claims.MmaStops : Prop :=
  ∀ (s : State) (c : BitVec 8) (a : BitVec 5) (b f : BitVec 4) (z t m sb : BitVec 1), UnitOf .mat s →
    let traps (k : Cause) (v w : W64) : Prop := exec (.mma c a b f z t m sb) s =
      .next (s.raise s.cur s.curSlot (s.unitRec s.cur s.curSlot .mat k v w none))
    let p := s.matSt
    (s.layers s.cur = 0 → exec (.mma c a b f z t m sb) s =
      .next (s.setMyAgt (s.meOf .mat) { s.myAgt (s.meOf .mat) with wait := some { obj := .layer (columnOf s.cur) } })) ∧
    (s.layers s.cur ≠ 0 → fmtRec s f = none → traps .layout 0 0) ∧
    (∀ (r : Word) l, let k := if r.toNat % 16 = 0 ∨ r.toNat / 16 % 16 = 0 then 32 else 128
      s.layers s.cur ≠ 0 → fmtRec s f = some r → p.policy = .strict l → (l = 0 ∨ l &&& s.layers s.cur ≠ l) → a.toNat < 16 →
      m = 0 → Fetchable s (BitVec.ofNat 4 a.toNat) (r.toNat % 16) k false →
      Fetchable s b (r.toNat / 16 % 16) k (decide (t = 1)) → (isBx (r.toNat / 16 % 16) = true → t = 0) → mayOwn s c →
      ∃ u, exec (.mma c a b f z t m sb) s = .next u ∧ u = s.raise s.cur s.curSlot (s.unitRec s.cur s.curSlot .mat .fold
        ((s.layers s.cur).setWidth 64) (l.setWidth 64) none))

/-- R154, R380, Table 8.1: MWMUL and MWMAC. The rows X and Y multiply as signed integers of 1,024 bits, added to the old
pair under MWMAC, into the pair's two rows with one sideband; a step that fails the guard check sets GFLAG or, where an F bit is set, raises GUARD.
That THRCNT stays (log 92) is the model's choice. -/
def Obligations.WideMultiply : Prop :=
  ∀ (s : State) (c : BitVec 8) (a : BitVec 5) (b f : BitVec 4) (t sb : BitVec 1), Tiles s [c] [c] → s.layers s.cur ≠ 0 →
    StatusRoom s sb →
    let x := accSeen s c
    let y : BitVec 5 := BitVec.ofNat 5 (16 * t.toNat + f.toNat)
    let lo : BitVec 5 := BitVec.ofNat 5 (2 * b.toNat)
    let sx := x.sideOf a
    let sy := x.sideOf y
    let sp := x.sideOf lo
    let g := sbG sx
    let low := (x.row lo).toNat + 2 ^ 1024 * (x.row (lo + 1)).toNat
    let lg (n : Nat) : Nat := if n ≤ 1 then 0 else Nat.log2 (n - 1) + 1
    let out (i : Instr) (acc : Int) (bw tt np : Nat) (ff : Bool) : Prop :=
      let v : BitVec 2048 := BitVec.ofInt 2048 (acc + (x.row a).toInt * (x.row y).toInt)
      let ok := tt < 511 ∧ bw + lg tt + 1 ≤ g
      let sd := sideband np bw g true ff (if ok then tt else 511)
      let done := (owning s c).modAcc s.cur c fun z =>
        (z.putBy .mat lo (BitVec.ofNat 1024 v.toNat) sd).putBy .mat (lo + 1) (BitVec.ofNat 1024 (v.toNat / 2 ^ 1024)) sd
      (ok ∨ ff = false → exec i s = .next (nextUnit .mat (statusPushed (if ok then done else tstatSet done { flags := 0x400 }) sb
        (256 * ((s.eng .mat).unit % 256) + 65536 * c.toNat + (if ok then 0 else 2 ^ 24))))) ∧
      (¬ ok → ff = true → exec i s = .next (s.raise s.cur s.curSlot (s.unitRec s.cur s.curSlot .mat .guard
        (BitVec.ofNat 64 (bw + lg tt + 1)) (c.setWidth 64) none)))
    let n := min (sbN sx) (sbN sy)
    let np := if n = 0 then 0 else sbN sx + sbN sy - 1
    let packed := g ≠ 0 ∧ sbG sy = g ∧ sbP sx = false ∧ sbP sy = false
    let pair := sbP sp = true ∧ sbG sp = g ∧ x.sideOf (lo + 1) = sp
    (packed → out (.mwmul c a b f t sb) 0 (sbBW sx + sbBW sy) n np (sbF sx || sbF sy)) ∧
    (packed → pair → out (.mwmac c a b f t sb) (BitVec.ofNat 2048 low).toInt (max (sbBW sp) (sbBW sx + sbBW sy)) (sbTerms sp + n)
      (max (sbN sp) np) (sbF sp || sbF sx || sbF sy)) ∧
    let bad (i : Instr) : Prop := exec i s = .next (s.raise s.cur s.curSlot (s.unitRec s.cur s.curSlot .mat .layout 0 0 none))
    (¬ packed → bad (.mwmul c a b f t sb)) ∧ (¬ packed ∨ ¬ pair → bad (.mwmac c a b f t sb))

/-- R141, R142, R143, R369: MDRAIN writes the converted rows and headers of a tile to its descriptor, sets TSTAT's flags,
and merges the largest magnitude into the word at AMT by an unsigned maximum. With q a tile that holds a NaN is not
stored, and NAN and NANACC say so. Words that the press holds stay as it fetched them (R136). Where rows overlap each other or
the headers, the later bytes of the order rows, then headers stand (log 91), and the merge comes after them (log 108): both are
the model's choice. For a word of another chip the merge is asked for first, and what the drain will do is kept. -/
def Claims.DrainStores : Prop :=
  ∀ (s : State) (c : BitVec 8) (b f : BitVec 4) (q : BitVec 1) (r : Word) (u : BitVec 8) (k : BitVec 2) (g : Segment),
    let p := s.matSt
    let me := s.meOf .mat
    let d := vget b p.od
    let fd := odFmt d
    let isInt := r.getLsbD 8
    let off (i : Nat) := odOff d + 16 * odStride d * i
    Tiles s [c] [c] → MemoryCanonical s → fmtRec s f = some r → fd ≤ 6 → g.span.toNat = odSpan d → odOff d % 16 = 0 →
    (∀ i, i < 32 → Writable s me (segPtr (odSeg d) (off i)) (4 * fmtBits fd) 0 u k g) →
    (isBx fd = true → odHdr d % 8 = 0 ∧
      ∀ i, i < 32 → Writable s me (segPtr (odSeg d) (odHdr d + 2 * i)) 2 0 u k g) →
    let xs (i : Nat) : List Nat := (List.range 32).map fun j => ((accSeen s c).row (BitVec.ofNat 5 i)).toNat / 2 ^ (32 * j) % 2 ^ 32
    let out (i : Nat) := drainRow fd isInt p.scale.toNat (xs i)
    let nan := !isInt && (List.range 32).any fun i => (xs i).any fun x => (fp32.read x).isNan
    let quiet := nan && decide (q = 1)
    let pieces := if quiet then [] else ((List.range 32).map fun i => (off i, (out i).1)) ++
      (if isBx fd then (List.range 32).map fun i => (odHdr d + 2 * i, (out i).2.1) else [])
    let stored : Nat → Byte := written pieces (look 0 g.store.bytes)
    let flags : Flg := if quiet then 0 else (List.range 32).foldl (fun g i => g ||| (out i).2.2) 0
    let noted : TstatEff := { flags := matFlags flags ||| (if nan then 0x1000 else 0), nan := if nan then some c else none }
    let result (base : State) (merged : State → State → Prop) : Prop := ∃ v w,
      exec (.mdrain c b f q) s = .next v ∧ Became s w u k g.num stored ∧ merged w v ∧ SameButMemory v (nextUnit .mat
        (matSet (tstatSet (owning base c) noted) fun z => { z.advance b with drain := none }))
    let best := drainMax isInt ((List.range 32).flatMap xs)
    (p.amt = .unset → result s SameMemory) ∧
    (∀ a u' k' g', p.amt = .seg a → Reachable s me a 4 4 true false u' k' g' → g'.store.poisoned (ptrOff a) 4 = [] →
      let old := leNat ((List.range 4).map fun i =>
        if u' = u ∧ k' = k ∧ g'.num = g.num then stored (ptrOff a + i) else look 0 g'.store.bytes (ptrOff a + i))
      result s fun w v => match best with
        | none => SameMemory w v
        | some m => Wrote w v u' k' g'.num (ptrOff a) (leBytes 4 (max old m))) ∧
    (∀ va cp xl tw a, p.amt = .cap va cp → p.drain = none → Global s me cp va 4 2 [pWRITE, pATOMIC] xl tw a → va.toNat % 4 = 0 →
      xl.rpl = false → (s.tower tw).gddr.poisoned a 4 = [] →
      let seen := xlated s (vaTower va) (vaOff va)
      (best = none → result seen SameMemory) ∧
      (∀ m, best = some m → let bs := leBytes 4 (max (leNat ((s.tower tw).gddr.read a 4)) m)
        result (seen.pieceWrite (vaTower va) xl (vaOff va % 65536) bs (s.who me)) fun w v => WroteG w v tw a bs)) ∧
    (∀ va cp z, p.amt = .cap va cp → p.drain = none → cp.base ≤ va.toNat → va.toNat + 4 ≤ cp.base + cp.len →
      [pWRITE, pATOMIC, pREMOTE].all cp.has = true → cp.has pCHECKED = false → va.toNat % 4 = 0 → s.partOf s.cur = some z →
      vaChip va ≠ z.setup.chip → setupReaches z.setup va = true → z.down.contains (vaChip va) = false →
      (best = none → result s SameMemory) ∧
      (∀ m, best = some m →
        let id := s.host.nextReq
        let x := (matSet s fun y => { y with
          drain := some ⟨pieces.map fun e => (⟨u, k, g.num, e.1⟩, e.2), flags, nan, m⟩ }).setMyAgt me
            { s.myAgt me with wait := some { obj := .remote id va }, pend := some id }
        ∃ v, exec (.mdrain c b f q) s = .next v ∧ SameMemory s v ∧ SameButMemory v { x with host := { s.host with
          nextReq := id + 1
          outReqs := s.host.outReqs ++ [⟨id, z.setup.num, vaChip va, s.cur, s.ctxId s.cur s.curSlot, va,
            .amo 7 false (BitVec.ofNat 64 m) 0, (s.who me).eng, (s.who me).issue, none, s.tick⟩] } }))

/-- R132, R142, R254: a drain whose merge another chip has answered stores what it kept, and ends. -/
def Claims.DrainAnswer : Prop :=
  ∀ (s : State) (c : BitVec 8) (b f : BitVec 4) (q : BitVec 1) (va : W64) (cp : Cap) (r : RemoteReply) (l : List (Nat × List Byte))
    (fl : Flg) (nan : Bool) (m : Nat) (u : BitVec 8) (k : BitVec 2) (n : BitVec 12) (g : Segment),
    let me := s.meOf .mat
    let a := s.myAgt me
    (s.eng .mat).rpt = none → MemoryCanonical s → a.wait = none → a.got = [r] → a.pend = none → a.absent = none → a.tested = false →
    a.out = none → a.layers = none → mayOwn s c → r.cause = 0 → s.matSt.amt = .cap va cp →
    s.matSt.drain = some ⟨l.map fun e => (⟨u, k, n, e.1⟩, e.2), fl, nan, m⟩ → (s.slot u k).seg n = some g →
    let noted : TstatEff := { flags := matFlags fl ||| (if nan then 0x1000 else 0), nan := if nan then some c else none }
    ∃ v, exec (.mdrain c b f q) s = .next v ∧ Became s v u k n (written l (look 0 g.store.bytes)) ∧
      SameButMemory v (nextUnit .mat (matSet (tstatSet ((metAt (owning s c) r va).setMyAgt me { a with got := [], used := 0 }) noted)
        fun z => { z.advance b with drain := none }))

/-! ## Transfers -/

/-- R164, R161, R175, R431 to R433, R169: what the steps leave that set transfer state, post a record, arrive, wait for a
phase and feed an index list. That a barrier slot is loaded without a look at the middle bits of its pointer (log 58) and keeps
which kind its pointer is (log 30) is the model's choice. -/
def Obligations.TransferSettings : Prop :=
  ∀ (s : State), UnitOf .xfr s →
    let e := s.curEntry .xfr
    let me := s.xfrMe
    let next (t : State) : Ans := .next (nextUnit .xfr t)
    let bad (i : Instr) (c : Cause) (v : W64) : Prop := exec i s =
      .next (s.raise s.cur s.curSlot (s.unitRec s.cur s.curSlot .xfr c v 0 none))
    (∀ (d : BitVec 3) (l : BitVec 8) (u k : BitVec 2) (p : BitVec 1) (r : BitVec 2),
      let n := l.toNat * 16 ^ u.toNat
      let base := if r = 0 ∨ r = 1 then e.x else e.y
      let stride : W64 := if r = 0 then e.y else BitVec.ofNat 64 n
      let sets (x : Xd) : State := xferSet s fun z => { z with xd := vset d x z.xd }
      let is (x : Xd) (b : W64) (c : Cap) : Prop := x.rowLen = n ∧ x.kind = k ∧ x.pol = decide (p = 1) ∧ x.stride = stride ∧
        x.base = b ∧ x.cap = c
      (k ≠ 1 → (k = 3 → base.toNat / 2 ^ 23 % 2 ^ 18 = 0) → ∃ x, is x base {} ∧ exec (.xdesc d l u k p r) s = next (sets x)) ∧
      (k = 3 → base.toNat / 2 ^ 23 % 2 ^ 18 ≠ 0 → bad (.xdesc d l u k p r) .segbound base) ∧
      (∀ v j (g : Segment) (c : Cap), k = 1 → Readable s me base 16 16 v j g →
        c.raw = BitVec.ofNat 128 (leNat (g.store.read (ptrOff base) 16)) → c.tag = g.store.tags.contains (ptrOff base / 16) →
        c.tag = true → c.malformed = false → c.tenant = s.partid s.cur % 2 ^ 16 →
        ∃ x t, is x (BitVec.ofNat 64 c.base) c ∧ exec (.xdesc d l u k p r) s = .next t ∧ SameMemory s t ∧
          SameButMemory t (nextUnit .xfr { sets x with fresh := s.fresh + 1 }))) ∧
    (∀ (o : BitVec 5) (k r : BitVec 2), exec (.xdescSlot o k r) s = next (xferSet s fun z => { z with
      bo := vset o ⟨if r = 0 ∨ r = 1 then e.x else e.y, true, decide (k = 3)⟩ z.bo })) ∧
    (EventRoom s me → exec .xevt s = next (eventPushed s me (eventRecord e.ctx 2 e.issue (BitVec.ofNat 8 (s.eng .xfr).unit) 0 0 e.x))) ∧
    (¬ EventRoom s me → exec .xevt s = .next (waitsFor s me (.push 9))) ∧
    (∀ (a d : BitVec 3) (l : BitVec 8), let x := s.xd a
      let y := s.xd d
      let ok := x.rowLen = 4 ∧ y.rowLen ≠ 0 ∧ x.kind.toNat < 2 ∧ y.kind.toNat < 2
      (ok → exec (.xidx a d l) s = next ((s.modEng .xfr fun g => { g with xidx := some (a, d, l) }).readAhead me x y 0 l.toNat)) ∧
      (¬ ok → bad (.xidx a d l) .layout 0)) ∧
    (∀ (l : BitVec 8) (o : BitVec 5) (sb : BitVec 1) (h : BitVec 5), let q := s.bo o
      let n := l.toNat * 2 ^ h.toNat
      (s.xstep.phase = 0 → q.valid = false → bad (.xbar l o sb h) .layout 0) ∧
      (∀ u k (g : Segment), s.xstep.phase = 0 → q.valid = true → q.remote = false → MemoryCanonical s →
        Reachable s me q.ptr 16 16 true false u k g → g.store.poisoned (ptrOff q.ptr) 16 = [] →
        let bs := g.store.read (ptrOff q.ptr) 16
        n = 0 ∨ (barrierOf bs).arrived + n ≤ (barrierOf bs).expected → ∃ v, exec (.xbar l o sb h) s = .next v ∧
          SameButSync v (s.modX fun x => { x with phase := 1 }) ∧ Wrote s v u k g.num (ptrOff q.ptr) (arrived bs n)) ∧
      (s.xstep.phase ≠ 0 → sb = 0 → exec (.xbar l o sb h) s = next (s.modEng .xfr fun g => { g with xidx := none }))) ∧
    (∀ (o : BitVec 5) (h : BitVec 1), let q := s.bo o
      (q.valid = false → bad (.xwait o h) .layout 0) ∧
      (∀ u k (g : Segment), q.valid = true → q.remote = false → Reachable s me q.ptr 16 16 false false u k g →
        g.store.poisoned (ptrOff q.ptr) 16 = [] → ∃ v, exec (.xwait o h) s = .next v ∧ SameMemory s v ∧
          ((barrierOf (g.store.read (ptrOff q.ptr) 16)).phase ≠ h.toNat →
            SameButSync v (nextUnit .xfr (s.modX fun x => { x with ahead := [] }))) ∧
          ((barrierOf (g.store.read (ptrOff q.ptr) 16)).phase = h.toNat →
            SameButMemory v (waitsFor s me (.barrier q.ptr (some (.seg ⟨u, k, g.num, ptrOff q.ptr⟩)) h.toNat)))))

/-- R165, R166, R171, R174, R178, Table 9.6: the turns of a transfer step that are no item. Checks before item 0 raise
LAYOUT; the record of a finished item is posted or waits for room; after the last item the step arrives with the number of
distinct bytes written; an item whose row another chip has been sent waits for the acknowledgement; at its end it pushes its status
element and gives way to the next step. That an item counts in REPORTED once, at its last record (log 57), and that the rows of
an xlayer step count as acknowledged at its arrival (log 60) is the model's choice. -/
def Obligations.TransferTurns : Prop :=
  (∀ l : List (W64 × Nat), ∃ z : List Nat, z.Nodup ∧ z.length = distinctBytes l ∧
    ∀ a, a ∈ z ↔ ∃ x ∈ l, x.1.toNat ≤ a ∧ a < x.1.toNat + x.2) ∧
  ∀ (s : State) (a d : BitVec 3) (l : BitVec 8) (o : BitVec 5) (b sb i n p : BitVec 1) (f : BitVec 4), UnitOf .xfr s →
    let x := s.xd a
    let y := s.xd d
    let me := s.xfrMe
    let e := s.curEntry .xfr
    let z := s.xstep
    let fed : Bool := decide (∃ u v, (s.eng .xfr).xidx = some (u, v, l))
    let both : Bool := decide (x.rowLen ≠ 0 ∧ y.rowLen = x.rowLen)
    let sc (v : Xd) : Bool := decide (v.kind.toNat < 2)
    let size := if f = 4 then 1 else if f = 0 ∨ f = 1 ∨ f = 5 then 2 else 4
    let all (P : Instr → Bool → Bool → Prop) : Prop :=
      P (.xcopy a d l o b sb) (both && sc x && sc y) false ∧ P (.xgath a d l o b sb) (both && sc x && sc y && fed) false ∧
      P (.xscat a d l o b sb) (both && sc x && sc y && fed) false ∧
      P (.xfill d l o b sb p) (decide (y.rowLen ≠ 0) && sc y) false ∧
      P (.xred a d l o b sb i n f) (decide (x.rowLen ≠ 0 ∧ x.rowLen % size = 0 ∧ y.rowLen = 4 * (x.rowLen / size)) && sc x && sc y &&
        (decide (i = 0) || fed)) false ∧
      P (.xlayer a d l o b sb) (both && decide (x.rowLen % 16 = 0) &&
        decide ((x.kind = 2 ∧ y.kind = 0) ∨ (x.kind = 0 ∧ y.kind = 2))) (decide (y.kind = 2)) ∧
      P (.xrem a d l o b sb) (both && sc x && decide (y.kind = 3)) false
    all fun j ok layer =>
      let slotOk := b = 1 → (s.bo o).valid = true
      (∀ r rest, z.recs = r :: rest →
        (EventRoom s me → exec j s = .next ((eventPushed s me (eventRecord e.ctx 2 e.issue (BitVec.ofNat 8 (s.eng .xfr).unit) r.1
          (BitVec.ofNat 16 (z.item - 1)) r.2)).modX fun x => { x with
            recs := rest, reported := if rest = [] then x.reported + 1 else x.reported })) ∧
        (¬ EventRoom s me → exec j s = .next (waitsFor s me (.push 9)))) ∧
      (∀ w, z.recs = [] → z.sent = some w → exec j s = .next (waitsFor s me (.xremAck 0 (w.wrote.headD (0, 0)).1))) ∧
      (z.recs = [] → z.sent = none → z.phase = 0 → z.item = 0 → (ok = false ∨ ¬ slotOk) → exec j s =
        .next (s.raise s.cur s.curSlot (s.unitRec s.cur s.curSlot .xfr .layout 0 0 none))) ∧
      (z.recs = [] → z.sent = none → z.phase = 0 → l.toNat ≤ z.item → (z.item = 0 → ok = true ∧ slotOk) →
        let m := distinctBytes z.wrote + z.extra
        let end_ : State := (if b = 1 ∧ layer = true then s.modSlot s.cur s.curSlot fun k => { k with
          mem := { k.mem with layerOut := k.mem.layerOut - z.item } } else s).modX fun x => { x with phase := 1 }
        let tested := if b = 1 ∧ layer = true then s.writeTest (towerOf s.cur) else none
        (∀ c, tested = some c → exec j s = .next (waitsFor s me (.lane c))) ∧
        (tested = none → b = 0 ∨ m = 0 → exec j s = .next end_) ∧
        (∀ u k (g : Segment), tested = none → b = 1 → m ≠ 0 → (s.bo o).remote = false → MemoryCanonical s →
          Reachable s me (s.bo o).ptr 16 16 true false u k g → g.store.poisoned (ptrOff (s.bo o).ptr) 16 = [] →
          let bs := g.store.read (ptrOff (s.bo o).ptr) 16
          (barrierOf bs).arrived + m ≤ (barrierOf bs).expected → ∃ v, exec j s = .next v ∧ SameButSync v end_ ∧
            Wrote s v u k g.num (ptrOff (s.bo o).ptr) (arrived bs m))) ∧
      (z.recs = [] → z.sent = none → z.phase ≠ 0 →
        let q := (s.slot s.cur s.curSlot).q.xfrSeq
        let element : W64 := BitVec.ofNat 64 (z.item % 2 ^ 16 + 2 ^ 16 * z.decouple + 2 ^ 32 * ((s.eng .xfr).unit % 256) + 2 ^ 40 *
          ((if z.flags.getLsbD 2 then 1 else 0) + 2 * (if z.flags.getLsbD 1 then 1 else 0) + 4 * (if z.flags.getLsbD 0 then 1 else 0)) +
          2 ^ 48 * (z.reported % 2 ^ 16))
        let done (t : State) : Ans := .next (nextUnit .xfr (t.modEng .xfr fun g => { g with xidx := none }))
        (sb = 0 → exec j s = done s) ∧
        (sb = 1 → Room s me q.items.length 8 → exec j s = done (pushed s me fun k => { k with xfrSeq := { k.xfrSeq with
          items := k.xfrSeq.items ++ [s.item me element] } })) ∧
        (sb = 1 → ¬ Room s me q.items.length 8 → exec j s = .next (waitsFor s me (.push 6))))

/-- R165, R167, R168, R170, R172, R173, R430: what one item of a transfer step does, where every check passes. It writes the
row that the step says and no other byte, and counts it. A poisoned source row under FAULT raises POISON, and under ZERO is
taken as zeros and reported; that the recorders freeze under ZERO too is the model's choice, log 62. A row that the data queue has
read ahead is stated where it has not changed since (R170). An XREM row waits for its acknowledgement, which XREM_ACK gives. -/
def Obligations.TransferItems : Prop :=
  (∀ (s : State) (a d : BitVec 3) (l : BitVec 8) (o : BitVec 5) (b sb i n p : BitVec 1) (f : BitVec 4), UnitOf .xfr s →
    MemoryCanonical s →
    let x := s.xd a
    let y := s.xd d
    let me := s.xfrMe
    let z := s.xstep
    let m := z.item
    let sc (v : Xd) : Prop := v.kind.toNat < 2
    let noted (t : State) (w : W64) (k : Nat) (g : BitVec 3) (r : List (BitVec 8 × W64)) : State := t.modX fun q => { q with
      item := m + 1, wrote := q.wrote ++ [(w, k)], recs := r, flags := q.flags ||| g }
    let puts (j : Instr) (y : Xd) (t : State) (w : W64) (bs : List Byte) (g : BitVec 3) (r : List (BitVec 8 × W64)) : Prop :=
      ∀ t2 q, RowOpen t t2 y w bs q → ∃ v, exec j s = .next v ∧ SameButMemory v (noted t2 w bs.length g r) ∧ SpotWrote s v q bs
    let fedPuts (j : Instr) (y : Xd) (t : State) (w : W64) (bs : List Byte) (g : BitVec 3) : Prop :=
      ∀ t2 q, RowOpen t t2 y w bs q → ∃ v ah rw, exec j s = .next v ∧ SpotWrote s v q bs ∧
        SameButMemory v ((noted t2 w bs.length g []).modX fun q => { q with ahead := ah, rows := rw })
    let same (w : W64) (bs : List Byte) : Prop := ∀ o, lookO z.rows m = some o → o.addr = w → o.bytes = bs
    z.recs = [] → z.sent = none → z.phase = 0 → m < l.toNat → (m = 0 → b = 1 → (s.bo o).valid = true) →
    (sc y → y.rowLen ≠ 0 → puts (.xfill d l o b sb p) y s (y.row m) ((List.range y.rowLen).map fun k =>
      if p = 1 then BitVec.ofNat 8 ((s.curEntry .xfr).y.toNat % 2 ^ 32 / 2 ^ (8 * (k % 4))) else 0) 0 []) ∧
    (x.rowLen ≠ 0 → y.rowLen = x.rowLen →
      (sc x → sc y →
        (∀ t bs, RowRead s t x (x.row m) x.rowLen bs → puts (.xcopy a d l o b sb) y t (y.row m) bs 0 []) ∧
        (∀ u k (g : Segment), x.kind = 0 → Reachable s me (x.row m) x.rowLen 0 false true u k g →
          g.store.poisoned (ptrOff (x.row m)) x.rowLen ≠ [] → let t := s.freezePoison s.cur (x.row m).toNat
          (x.pol = true → ∃ v, exec (.xcopy a d l o b sb) s = .next v ∧ SameMemory s v ∧ SameButMemory v
            (t.raise s.cur s.curSlot (t.unitRec s.cur s.curSlot .xfr .poison (x.row m) 0 none))) ∧
          (x.pol = false → puts (.xcopy a d l o b sb) y t (y.row m) (List.replicate x.rowLen 0) 0 [(1, x.row m)])) ∧
        (∀ ix al t r, s.fed l = some (ix, al) → IndexRead s t ix al m r →
          (∀ t2 bs, RowRead t t2 x (x.row r) x.rowLen bs → same (x.row r) bs →
            fedPuts (.xgath a d l o b sb) y t2 (y.row m) bs 0) ∧
          (∀ t2 bs, RowRead t t2 x (x.row m) x.rowLen bs → same (x.row m) bs →
            fedPuts (.xscat a d l o b sb) y t2 (y.row r) bs 0))) ∧
      ((x.kind = 2 ∧ y.kind = 0) ∨ (x.kind = 0 ∧ y.kind = 2) → x.rowLen % 16 = 0 →
        ∀ t bs, RowRead s t x (x.row m) x.rowLen bs → puts (.xlayer a d l o b sb) y t (y.row m) bs 0 []) ∧
      (sc x → y.kind = 3 → ∀ t bs c k (g : Segment), RowRead s t x (x.row m) x.rowLen bs →
        let w := y.row m
        w.toNat / 2 ^ 23 % 2 ^ 18 = 0 → rmChip w = s.chipOf s.cur → (s.slot s.cur s.curSlot).ctx = some c →
        (s.tile (rmTile w)).slotOfCtx c = some k → (s.slot (rmTile w) k).seg (ptrSeg w) = some g →
        ptrOff w + x.rowLen ≤ g.size → g.state = .resident → g.store.partPoison (ptrOff w) x.rowLen = [] →
        (g.check = true → s.raceOn me = true →
          raceFind (s.slot s.cur s.curSlot).race g.store s.cur true (unitsOf 64 (ptrOff w) x.rowLen) = none) →
        ∃ v, exec (.xrem a d l o b sb) s = .next v ∧ SpotWrote s v (.seg (rmTile w) k g.num (ptrOff w)) bs ∧ SameButMemory v
          (waitsFor (t.modX fun q => { q with sent := some { wrote := [(w, x.rowLen)] } }) me (.xremAck 0 w)))) ∧
    (let size := if f = 4 then 1 else if f = 0 ∨ f = 1 ∨ f = 5 then 2 else 4
      let w := if n = 1 then y.row 0 else y.row m
      sc x → sc y → x.rowLen ≠ 0 → x.rowLen % size = 0 → y.rowLen = 4 * (x.rowLen / size) →
      ∀ t t2 t3 r src dst, (i = 0 → t = s ∧ r = m) → (i = 1 → ∃ ix al, s.fed l = some (ix, al) ∧ IndexRead s t ix al m r) →
      RowRead t t2 x (x.row r) x.rowLen src → (i = 1 → same (x.row r) src) → RowRead t2 t3 y w y.rowLen dst →
      fedPuts (.xred a d l o b sb i n f) y t3 w (redRow f dst src).1 (redRow f dst src).2)) ∧
  ∀ (s : State) (u : BitVec 8) (k : BitVec 2) (w : Wait) (p : W64) (d : ItemDone), (s.tile u).running = some k →
    (s.slot u k).xfr.agt.wait = some w → w.obj = .xremAck 0 p → (s.slot u k).xfr.xs.sent = some d →
    exec (.xremAck u) s = .next (s.modSlot u k fun z => { z with xfr := { z.xfr with
      xs := { z.xfr.xs with
        item := z.xfr.xs.item + 1, wrote := z.xfr.xs.wrote ++ d.wrote, extra := z.xfr.xs.extra + d.extra, recs := d.recs
        flags := z.xfr.xs.flags ||| d.flags, sent := none }
      agt := { z.xfr.agt with wait := none, got := [], pend := none, used := 0, absent := none, tested := false, out := none } } })

/-! ## The decode engine -/

/-- R341, R342, R339, R229, R232: DSTAT writes the context's eight counters, DBAR arrives at a barrier object, DAPPEND
stores a token's two rows in its blocks, or posts the record that says why not and changes no byte. -/
def Claims.DecodeAppend : Prop :=
  ∀ (s : State) (d : DecEntry) (c : Context), Decoding s d c → MemoryCanonical s →
    let me := s.decMe
    let w := towerOf s.cur
    let x := d.e.x
    let y := d.e.y.toNat
    let cnt := (s.dctxOf w c.id).cnt
    (∀ u k (g : Segment), Writable s me x 64 64 u k g → y = 0 → ∃ v, exec .dstat s = .next v ∧ SameButMemory v (decDone s) ∧
      Wrote s v u k g.num (ptrOff x) ((List.range 8).flatMap fun i => leBytes 8 (vget (BitVec.ofNat 3 i) cnt).toNat)) ∧
    (∀ u k (g : Segment), Reachable s me x 16 16 true false u k g → g.store.poisoned (ptrOff x) 16 = [] → y < 2 ^ 32 →
      let bs := g.store.read (ptrOff x) 16
      y = 0 ∨ (barrierOf bs).arrived + y ≤ (barrierOf bs).expected → ∃ v, exec .dbar s = .next v ∧ SameButSync v (decDone s) ∧
        Wrote s v u k g.num (ptrOff x) (arrived bs y)) ∧
    (∀ r u k (g : Segment), d.run = some r → seValid r.slot = true → y < 2 ^ 22 → x.toNat % 16 = 0 → Readable s me x 512 0 u k g →
      let bs := g.store.read (ptrOff x) 512
      let lay := y / 2 ^ 8 % 2 ^ 8
      let head := y / 2 ^ 16
      let at_ := seLen r.slot
      (∀ a b n t, s.appendPlan w c.id r.slot lay head = .ok (a, b, n, t) →
        s.laneTest w (16384 * a + 256 * (at_ % 64)) 256 = none → s.laneTest w (16384 * b + 256 * (at_ % 64)) 256 = none → ∃ v, exec .dappend s = .next v ∧
        SameButMemory v (decDone (t.appendStore w c.id at_ a b n (bs.take 256) (bs.drop 256) (s.who me))) ∧
        (a ≠ b → ∀ z, look 0 (v.tower w).layer.bytes z =
          let i := 16384 * a + 256 * (at_ % 64)
          let j := 16384 * b + 256 * (at_ % 64)
          if i ≤ z ∧ z < i + 256 then bs.getD (z - i) 0 else if j ≤ z ∧ z < j + 256 then bs.getD (256 + (z - j)) 0
          else look 0 (s.tower w).layer.bytes z)) ∧
      (∀ code v, s.appendPlan w c.id r.slot lay head = .error (code, v) → EventRoom s me →
        let t := eventPushed s me (eventRecord d.e.ctx 3 d.e.issue (BitVec.ofNat 8 d.unit) code 0 (BitVec.ofNat 64 v))
        ∃ z, exec .dappend s = .next z ∧ SameMemory s z ∧
          SameButMemory z (decDone (if code = 0x10 then t.missCount w c.id r.slot lay head else t))))

/-- R229, R230, R340: DATTN. Its first turn writes m, l and o at their start values; a turn takes one block of keys and values
into them; after the block that holds the last token, o is divided by l and the word is complete. Under M the mask slot that the
entry copied classes the block: an EMPTY one is committed unread, of a PARTIAL one the bitmap takes keys out. A nonzero bit marked
zero or a slot that is not VALID raises LAYOUT, M with no program MASKPROG. That no class counter advances without M (log 23), and
that each word of an entry starts a walk anew (log 24), is the model's choice. -/
def Claims.DecodeAttention : Prop :=
  ∀ (s : State) (d : DecEntry) (c : Context) (r : DecRun), Decoding s d c → MemoryCanonical s → d.run = some r →
    let me := s.decMe
    let x := d.e.x
    let y := d.e.y.toNat
    let w := towerOf s.cur
    let masked := decide (y / 2 ^ 25 % 2 = 1)
    let traps (v : Cause) : Prop := exec .dattn s =
      .next ((s.parkDec w).raise s.cur s.curSlot (s.unitRec s.cur s.curSlot .dec v 0 0 (some 0)))
    (y / 2 ^ 26 % 2 ^ 6 ≠ 0 ∨ seValid r.slot = false → traps .layout) ∧
    (y / 2 ^ 26 % 2 ^ 6 = 0 → seValid r.slot = true → masked = true → r.mask.prog = [] → traps .maskprog) ∧
    ∀ (u : BitVec 8) (k : BitVec 2) (g : Segment), y / 2 ^ 26 % 2 ^ 6 = 0 → seValid r.slot = true → (masked = true → r.mask.prog ≠ []) →
    Reachable s me x 1024 64 true false u k g →
    let race (write : Bool) (a n : Nat) : Prop := g.check = true → s.raceOn me = true →
      raceFind (s.slot me.tile me.slot).race g.store me.tile write (unitsOf 64 (ptrOff x + a) n) = none
    race true 256 524 → (d.begun = true → race false 0 256 ∧ g.store.poisoned (ptrOff x) 780 = []) →
    (d.begun = false → g.store.partPoison (ptrOff x + 256) 524 = []) →
    let wa := g.store.read (ptrOff x) 1024
    let word (i : Nat) : Nat := leNat ((wa.drop i).take 4)
    let old : Walk := ⟨word 768, word 772, (List.range 128).map fun i => word (256 + 4 * i), 0⟩
    let area (z : Walk) (n : Nat) : List Byte := z.o.flatMap (leBytes 4) ++ leBytes 4 z.m ++ leBytes 4 z.l ++ leBytes 4 n
    let b := word 776
    let p := seLen r.slot
    let last := min (64 * b + 63) p
    let n := last + 1 - 64 * b
    let mask := r.mask.withMp r.slot
    let cls : Option Cls := if masked then mask.classOf p p (64 * b) last else some .full
    let flags (t : State) (f : Flg) : State := t.modTstat s.decMe { flags := vecFlags f }
    let committed (t : State) (z : Cls) (bytes : Nat) (f : Flg) : State :=
      let t1 := (t.count w c.id 0 1).count w c.id 2 bytes
      let t2 := if z = .empty then t1.count w c.id 1 1 else t1
      flags (if masked then t2.countClass w c.id (BitVec.ofNat 3 (y / 2 ^ 22)) z else t2) f
    (d.begun = false → ∃ v, exec .dattn s = .next v ∧ SameButMemory v (s.modDecCur fun z => { z with begun := true }) ∧
      Wrote s v u k g.num (ptrOff x + 256) (area ⟨0xFF800000, 0, List.replicate 128 0, 0⟩ 0)) ∧
    (d.begun = true → p / 64 < b →
      let q := if (fp32.cond 7 old.l 0).1 then old.o.map fun z => (fp32.div rne z old.l).1 else old.o
      let f : Flg := if (fp32.cond 7 old.l 0).1 then old.o.foldl (fun f z => f ||| (fp32.div rne z old.l).2) 0 else 0
      ∃ v, exec .dattn s = .next v ∧ SameButMemory v (decDone (flags s f)) ∧
        Wrote s v u k g.num (ptrOff x + 256) (area { old with o := q } b)) ∧
    (d.begun = true → b ≤ p / 64 → cls = some .empty → ∃ v, exec .dattn s = .next v ∧
      SameButMemory v (committed s .empty 0 0) ∧ Wrote s v u k g.num (ptrOff x + 256) (area old (b + 1))) ∧
    (∀ kn vn s1 s2 z, d.begun = true → b ≤ p / 64 → cls = some z → z ≠ .empty →
      let lay := y / 2 ^ 8 % 2 ^ 8
      let head := y / 2 ^ 16 % 2 ^ 6
      s.kvLook w c.id (some d.e.key) r.slot lay head b 0 = (some kn, s1) →
      s1.kvLook w c.id (some d.e.key) r.slot lay head b 1 = (some vn, s2) →
      s.laneTest w (16384 * kn) (256 * n) = none → s.laneTest w (16384 * vn) (256 * n) = none →
      (∀ j ∈ unitsOf 16 (16384 * kn) (256 * n) ++ unitsOf 16 (16384 * vn) (256 * n), j ∉ (s.tower w).layer.poison ∧
        j ∉ (s.tower w).badReads ∧ ∀ e, (j, e) ∉ (s.tower w).biterrs) →
      let rows (a : Nat) : List (List Nat) := (List.range n).map fun i => (List.range 128).map fun j =>
        leNat ((s.tower w).layer.read (16384 * a + 256 * i + 2 * j) 2)
      let allow := (List.range n).map fun (i : Nat) =>
        if z = .partly then (mask.truth p ((64 * b + i : Nat) : Int)).getD false else true
      let new := old.block ((List.range 128).map fun i => leNat ((wa.drop (2 * i)).take 2)) (y / 2 ^ 32) (rows kn) (rows vn) allow
      ∃ v, exec .dattn s = .next v ∧
        SameButMemory v (committed { s with towers := s2.towers } z (512 * n) new.g) ∧
        Wrote s v u k g.num (ptrOff x + 256) (area new (b + 1)))

/-! ## Entries, waits and probes -/

/-- R31, R32, R61, R109, R110, R224, R248: the stages of an entry at the head of its queue. It is admitted, where its declared
segments fit with a booking, and raises BOOKING where they never can; it starts with its token taken, the engine at its first
unit; when its block has run it retires, its bookings go and its signal is given. An entry of the decode engine whose slot does
not run is parked with the later ones. That FVAL of BOOKING is the sum of the declared segments homed on the tile (log 65), that
an entry leaves its queue when it starts (log 12) and that a declared segment homed elsewhere is not booked (log 64) is the
model's choice. -/
def Obligations.EntryStages : Prop :=
  ∀ (t : BitVec 8) (e : Eng) (st : State), let s : State := { st with cur := t }
    let k := s.curSlot
    let me := s.stageMe e
    let x := s.slot t k
    (∀ ent c, s.headReady e = some ent → s.headAdmitted e = false → AtRest (s.myAgt me) → s.ctxOf t k = some c →
      (declares c.code e ent = false → exec (.entryAdmission t e) st = .next (s.setAdmitted e true)) ∧
      (let ps := declared c.code e ent
        let own (g : Segment) : Bool := ps.any fun p => ptrSeg p == g.num
        let sum (f : Segment → Bool) : Nat := ((x.mem.segs.filter fun g => decide (g.num ≠ 0) && f g).map (·.size)).sum
        declares c.code e ent = true → e ≠ .dec → x.bookedBy e ent.issue = none →
        (∀ z ∈ s.unadmitted t k, declares c.code z.1 z.2 = true → issuedBefore z.2.issue ent.issue = false) →
        (∀ p ∈ ps, (x.seg (ptrSeg p)).isSome = true ∨ (ptrSeg p).toNat ∈ s.usedNums c) →
        (x.mem.quota.toNat < sum (fun g => g.pin || own g) + c.code.spareB → exec (.entryAdmission t e) st =
          .next ((s.useGrant me).raise t k (s.unitRec t k me.agent .booking (BitVec.ofNat 64 (sum own)) 0 none))) ∧
        (sum (fun g => g.pin || own g) + c.code.spareB ≤ x.mem.quota.toNat →
          sum (fun g => g.pin || x.isBooked g.num || own g) + (if s.granted me then 0 else c.code.spareB) ≤ x.mem.quota.toNat →
          (∀ g ∈ x.mem.segs, own g = true → g.state = .resident) → ∃ u l, exec (.entryAdmission t e) st = .next u ∧
            SameMemory s u ∧ (u.slot t k).engine e = { x.engine e with
              admitted := true, agt := { (x.engine e).agt with grant := false } } ∧
            (u.slot t k).mem.bookings = x.mem.bookings ++ [⟨e, ent.issue, l⟩] ∧ l.Nodup ∧
            ∀ n, n ∈ l ↔ ∃ g ∈ x.mem.segs, g.num = n ∧ own g = true))) ∧
    (∀ ent, s.headReady e = some ent → s.headAdmitted e = true → (s.myAgt me).wait = none →
      let begins (u : State) : Prop := SameMemory s u ∧
        (e ≠ .dec → (u.slot t k).engine e = { x.engine e with 
            cur := some ent, admitted := false, unit := 0, rpt := none, xs := {}, xidx := none } ∧
          ((u.slot t k).cmdQ e).items = (x.cmdQ e).items.drop 1) ∧
        (e = .vec → (u.slot t k).vs.scalar 0 = ent.x ∧ (u.slot t k).vs.scalar 1 = ent.y) ∧
        (∀ h c, e = .dec → (s.tower (towerOf t)).dec.q.items.head? = some h → h.run = none → s.ctxOf t k = some c →
          let d := (s.tower (towerOf t)).dec
          let v := (u.tower (towerOf t)).dec
          v.q.items = d.q.items.drop 1 ∧ v.cur = some { h with run := some ⟨s.slotEnt (towerOf t) c (ent.y.toNat % 2 ^ 8),
            vget (BitVec.ofNat 3 (ent.y.toNat / 2 ^ 22)) (s.dctxOf (towerOf t) ent.ctx).masks⟩ })
      let again := e = .dec ∧ ∃ h, (s.tower (towerOf t)).dec.q.items.head? = some h ∧ h.run ≠ none
      (ent.wtok = none → ∃ u, exec (.entryWaitToken t e) st = .next u ∧ begins u ∧ (u.slot t k).sems = x.sems) ∧
      (∀ n, ent.wtok = some n → ¬ again →
        let due := (x.sems.waiters.filter fun w => w.1 == n).length
        (due < (vget n x.sems.count).toNat → ∃ u, exec (.entryWaitToken t e) st = .next u ∧ begins u ∧ (u.slot t k).sems =
          { x.sems with count := vset n (vget n x.sems.count - 1) x.sems.count, signals := dropFirst n x.sems.signals }) ∧
        ((vget n x.sems.count).toNat ≤ due → ∃ u, exec (.entryWaitToken t e) st = .next u ∧ SameMemory s u ∧
          (u.slot t k).engine e = (if e = .dec then x.engine e else { x.engine e with
            agt := { (x.engine e).agt with wait := some { obj := .sem n } } }) ∧ ∃ z ∈ (u.slot t k).sems.waiters, z.1 = n ∧ z.2.1 = me.agent))) ∧
    (∀ ent, s.blockDone e = some ent → (s.myAgt me).wait = none →
      let ends (u : State) : Prop := SameMemory s u ∧
        (u.slot t k).mem.bookings = x.mem.bookings.filter (fun b => !(b.eng == e && b.issue == ent.issue)) ∧
        (e ≠ .dec → ((u.slot t k).engine e).cur = none ∧ ((u.slot t k).engine e).halted = false ∧ ((u.slot t k).engine e).agt = {} ∧ (u.slot t k).cmdQ e = x.cmdQ e) ∧
        (e = .mat → (u.slot t k).ps.held = []) ∧ (e = .dec → (u.tower (towerOf t)).dec.cur = none)
      (ent.stok = none → ∃ u, exec (.entryRetire t e) st = .next u ∧ ends u ∧ (u.slot t k).sems = x.sems) ∧
      (∀ n, ent.stok = some n → vget n x.sems.count ≠ 0xFFFF → ∃ u, exec (.entryRetire t e) st = .next u ∧ ends u ∧
        (u.slot t k).sems = { x.sems with
          count := vset n (vget n x.sems.count + 1) x.sems.count
          signals := x.sems.signals ++ [(n, s.who me)]
          known := put1 x.sems.known n.toNat (joinView (look [] x.sems.known n.toNat) (s.snap me)) })) ∧
    (∀ (w : BitVec 3) h, let d := (st.tower w).dec
      let mine (z : DecEntry) : Bool := decide (z.e.tile = h.e.tile ∧ z.e.ctx = h.e.ctx)
      d.cur.or d.q.items.head? = some h → st.decRuns h.e = false → ∃ u, exec (.decEntryPark w) st = .next u ∧ SameMemory st u ∧
        (u.tower w).dec.cur = none ∧ (u.tower w).dec.q.items = d.q.items.filter (fun z => !mine z) ∧
        ((u.tower w).dec.parked.map fun z => { z with agt := none }) =
          ((d.parked ++ d.cur.toList ++ d.q.items.filter mine).map fun z => { z with agt := none }) ∧
        ∀ v, { u.tile v with recorder := (st.tile v).recorder } = st.tile v)

/-- R384, R34, R325, R188, R138, R179, R390, R429, R35, R300: what ends a wait. Each event ends the wait of an agent of a running
slot where its condition holds, and the agent moves next (that it moves at once is the model's choice, log 80); a wait for a
barrier object ends where its PHASE differs, and BARW or xwait completes; the end of a wait for a semaphore takes 1 from it; WAITI
writes the conditions that hold and retires. A press that waits for a layer goes on also while its slot stops for a slice end
(R245). An agent that waits for nothing is left as it is. -/
def Claims.WaitEnds : Prop :=
  ∀ (t : BitVec 8) (st : State) (a : Agent),
    (∀ k w, st.waitingOn t a = some (k, w) →
      let x := st.slot t k
      let ends (i : Instr) (b : Agent) : Prop := ∃ u, exec i st = .next u ∧ Woken st u t k b
      let items (q : BitVec 8) : Nat :=
        if q = 7 then x.q.vecMat.items.length else if q = 8 then x.q.matVec.items.length else if q = 9 then x.q.ev.items.length
        else if q = 4 then x.q.vecSeq.items.length else if q = 5 then x.q.matSeq.items.length else x.q.xfrSeq.items.length
      (∀ q : BitVec 8, 4 ≤ q.toNat → q.toNat ≤ 9 → w.obj = .pop q → 0 < items q → ends (.popWaitEnd t a) a) ∧
      (∀ q : BitVec 8, 4 ≤ q.toNat → q.toNat ≤ 9 → w.obj = .pop q → items q = 0 → exec (.popWaitEnd t a) st = .next st) ∧
      (∀ q : BitVec 8, 4 ≤ q.toNat → q.toNat ≤ 9 → w.obj = .push q → items q < (if q = 9 then 64 else 8) → ends (.pushWaitEnd t a) a) ∧
      (∀ e, e ≠ Eng.dec → w.obj = .push (if e = .vec then 0 else if e = .mat then 1 else 2) → (x.cmdQ e).items.length < 16 →
        ends (.pushWaitEnd t a) a) ∧
      (w.obj = .push 3 → (st.tower (towerOf t)).dec.q.items.length < 64 → ends (.pushWaitEnd t a) a) ∧
      (∀ i (m : BitVec 4), a = .seq → w.obj = .retire i m → (∀ b ∈ st.holders t k fun _ => true,
          (b = .vec → m.getLsbD 0 = false) ∧ (b = .mat → m.getLsbD 1 = false) ∧ (b = .xfr → m.getLsbD 2 = false) ∧
          (b = .dec → m.getLsbD 3 = false)) → ends (.retirementWaitEnd t) .seq) ∧
      (a = .seq → w.obj = .layerFence → st.layerDue t k = false → st.writeTest (towerOf t) = none → ∃ u, exec (.layerFenceWaitEnd t) st = .next u ∧
        Woken st u t k .seq ∧ (u.slot t k).mem.layerOut = 0) ∧
      (a = .seq → w.obj = .layerFence → st.layerDue t k = true ∨ st.writeTest (towerOf t) ≠ none → exec (.layerFenceWaitEnd t) st = .next st) ∧
      (∀ p o ph, w.obj = .barrier p (some o) ph →
        (st.flipped o ph = none → exec (.barrierWaitEnd t a) st = .next st) ∧
        ((st.flipped o ph).isSome = true → ∃ u, exec (.barrierWaitEnd t a) st = .next u ∧ SameMemory st u ∧
          (u.agt t k a).wait = none ∧ (∀ v, v ≠ t → u.tile v = st.tile v) ∧
          (a = .seq → x.sq.bank.rpt = none → NoPassEnd x.sq.bank → (u.slot t k).sq.bank = { x.sq.bank with pc := x.sq.bank.pc + 4 }) ∧
          (a = .xfr → x.xfr.rpt = none → (u.slot t k).xfr.cur = x.xfr.cur ∧ (u.slot t k).xfr.unit = x.xfr.unit + 1))) ∧
      (∀ p ph, w.obj = .barrier p none ph → exec (.barrierWaitEnd t a) st = .next { st with agenda := turnOf t a :: st.agenda }) ∧
      (∀ (n : BitVec 3) i r, w.obj = .sem n → x.sems.waiters.find? (fun z => z.1 == n) = some (n, a, i) → vget n x.sems.count ≠ 0 →
        r = { x.sems with
          count := vset n (vget n x.sems.count - 1) x.sems.count
          signals := dropFirst n x.sems.signals
          waiters := dropFirst n x.sems.waiters } →
        ∃ u, exec (.semaphoreWaitEnd t n) st = .next u ∧ SameMemory st u ∧ (u.slot t k).sems = r ∧
          (a = .seq → x.sq.bank.rpt = none → NoPassEnd x.sq.bank →
            (u.slot t k).sq.bank = { x.sq.bank with pc := x.sq.bank.pc + 4 } ∧ (u.slot t k).sq.agt.wait = none) ∧
          (∀ e ent, tokenEng a = some e → e ≠ .dec → State.headReady { st with cur := t } e = some ent →
            ((u.slot t k).engine e).cur = some ent ∧ ((u.slot t k).engine e).agt.wait = none)) ∧
      (∀ (q : BitVec 3) (d b m n : BitVec 5) (lim : BitVec 64), let s : State := { st with cur := t }
        a = .seq → w.obj = .waiti m lim → decodeWord .seq s.wordAt = .ok (.waiti q d b n) → x.sq.bank.rpt = none →
        NoPassEnd x.sq.bank → let c := s.waitiConds t k &&& m
        (c ≠ 0 ∨ (lim ≠ 0 ∧ lim.toNat ≤ w.since) → ∃ u, exec (.waitiWake t) st = .next u ∧ SameMemory st u ∧
          (u.slot t k).sq.bank = { x.sq.bank.setG d (c.setWidth 64) with pc := x.sq.bank.pc + 4 } ∧
          (u.slot t k).sq.agt.wait = none) ∧
        (c = 0 → lim = 0 ∨ w.since < lim.toNat → exec (.waitiWake t) st = .next st))) ∧
    (st.waitingOn t a = none → exec (.popWaitEnd t a) st = .next st ∧ exec (.pushWaitEnd t a) st = .next st ∧
      exec (.barrierWaitEnd t a) st = .next st ∧ exec (.probeLaunch t a) st = .next st ∧ exec (.probeResponse t a) st = .next st ∧
      exec (.watchdogExpiry t a) st = .next st) ∧
    (st.waitingOn t .seq = none → exec (.retirementWaitEnd t) st = .next st ∧ exec (.layerFenceWaitEnd t) st = .next st) ∧
    (∀ k w c, let x := st.tile t
      x.running = some k → x.enginesRun = true → x.stands (x.slot k) = false → (x.slot k).mat.agt.wait = some w → w.obj = .layer c →
      (st.layers t ≠ 0 → ∃ u, exec (.layerAvailableWaitEnd t) st = .next u ∧ Woken st u t k .mat) ∧
      (st.layers t = 0 → exec (.layerAvailableWaitEnd t) st = .next st)) ∧
    ((∀ k, (st.tile t).running = some k → (st.slot t k).mat.agt.wait = none) → exec (.layerAvailableWaitEnd t) st = .next st)

/-- R36, R37, R38, R39, R298: an agent blocked for 512 c sends a probe along its edges; a probe that found no cycle leaves it
waiting, one with a queue edge grants a push the spare room of its queue and one with an edge of either kind an admission that
of the slot, one with neither raises WAITCYCLE, and a full watchdog period raises WATCHDOG and freezes the recorders. That a wait
for a recall then raises BOOKING and that a granted wait names the origin itself (log 66) is the model's choice. -/
def Claims.ProbesAndWatchdog : Prop :=
  ∀ (t : BitVec 8) (a : Agent) (st : State) (k : BitVec 2) (w : Wait), st.waitingOn t a = some (k, w) →
    let set_ (v : Wait) : State := st.setAgt t k a { st.agt t k a with wait := some v }
    let calm (v : Wait) : Wait := { v with probe := none, blocked := 0 }
    (w.obj.blocks = true → 512 ≤ w.blocked → w.probe = none → exec (.probeLaunch t a) st = .next (set_ { w with
      probe := some { obj := w.obj, half := 0, edges := 0, found := [], todo := (st.edges t k w.obj).map fun z => ⟨z.1, [a], z.2.1, z.2.2⟩ } })) ∧
    ((w.obj.blocks = false ∨ w.blocked < 512 ∨ w.probe ≠ none) → exec (.probeLaunch t a) st = .next st) ∧
    (∀ p, w.probe = some p → p.todo = [] →
      (p.obj ≠ w.obj ∨ p.found = [] → exec (.probeResponse t a) st = .next (set_ (calm w))) ∧
      (p.obj = w.obj → p.found ≠ [] →
        let queue := p.found.any (·.1)
        let room := p.found.any fun f => f.1 || f.2
        let run := exec (.probeResponse t a) st
        (∀ q, w.obj = .push q → q.toNat ≤ 9 →
          (queue = true → spareUsed st t k q = false → ∃ u, run = .next u ∧ Woken st u t k a ∧ (u.agt t k a).grant = true ∧
            spareUsed u t k q = true) ∧
          ((queue = true ∧ spareUsed st t k q = true) ∨ (queue = false ∧ room = true) → run = .next (set_ (calm w))) ∧
          (room = false → run = .next ((set_ (calm w)).raiseWaiting t k a .waitcycle (BitVec.ofNat 64 (3 + 2 ^ 32 * q.toNat))))) ∧
        (∀ n, w.obj = .booking n → let spare := (st.slot t k).mem.spare
          (room = true → spare = false → ∃ u, run = .next u ∧ Woken st u t k a ∧ (u.agt t k a).grant = true ∧
            (u.slot t k).mem.spare = true) ∧
          (room = true → spare = true → run = .next (set_ (calm w))) ∧
          (room = false → run = .next ((set_ (calm w)).raiseWaiting t k a .waitcycle (BitVec.ofNat 64 (4 + 2 ^ 32 * n.toNat))))) ∧
        (∀ n, w.obj = .sem n → p.found.any (fun f => f.1 || f.2) = false → exec (.probeResponse t a) st =
          .next ((set_ (calm w)).raiseWaiting t k a .waitcycle (BitVec.ofNat 64 (2 ^ 32 * n.toNat)))) ∧
        (∀ n, w.obj = .sem n → p.found.any (fun f => f.1 || f.2) = true → exec (.probeResponse t a) st = .next (set_ (calm w))) ∧
        (∀ n h (g : Segment), w.obj = .recall n h → (st.slot h k).seg n = some g → exec (.probeResponse t a) st =
          .next ((set_ (calm w)).raiseWaiting t k a .booking (BitVec.ofNat 64 g.size))))) ∧
    (w.obj.counts = true → (st.tile t).wdog ≤ w.cycles → exec (.watchdogExpiry t a) st =
      .next ((((st.keepWaiting t k a .watchdog (BitVec.ofNat 64 w.cycles)).freezeTile t 3 w.cycles).freezeTower (towerOf t) 3
        w.cycles).deliver t)) ∧
    (w.obj.counts = false ∨ w.cycles < (st.tile t).wdog → exec (.watchdogExpiry t a) st = .next st)

/-! ## Slices, the walker and the end of a launch -/

/-- R245, R237, R296: a slice that has run out makes the running slot stop; after 4,096 c the waits of its engines stop too;
once every engine stands still the runtime is entered at TVEC with CAUSE 0 and FINFO saying why, or for the oldest fault; blocked
agents stop at once. After a completion EPC.IDLE is 1 and the slot holds no context. -/
def Claims.StopResults : Prop :=
  ∀ (t : BitVec 8) (st : State), let x := st.tile t
    (∀ k, x.up = true → x.inRuntime = false → x.running = some k → x.tr.slice ≠ 0 → x.sliceLeft = 0 → x.stopping = none →
      let v := st.modTile t fun y => { y with stopping := some {} }
      exec (.sliceEnd t) st = .next (v.stopBlocked t k) ∧ BlockedStop v (v.stopBlocked t k) t k) ∧
    (x.sliceLeft ≠ 0 ∨ x.tr.slice = 0 ∨ x.stopping.isSome = true → exec (.sliceEnd t) st = .next st) ∧
    (∀ k p, x.inRuntime = false → x.running = some k → x.stopping = some p →
      (4096 ≤ p.cycles → ∃ u, exec (.sliceBudgetExpiry t) st = .next u ∧ SameMemory st u ∧
        (∀ e, e ≠ Eng.dec → ∀ v, ((u.slot t k).engine e).agt.wait = some v → v.probe = none ∧ v.blocked = 0) ∧
        ∀ v, v ≠ t → u.tile v = st.tile v) ∧
      (p.cycles < 4096 → exec (.sliceBudgetExpiry t) st = .next st)) ∧
    (∀ k p, x.up = true → x.inRuntime = false → x.running = some k → (st.slot t k).faults = [] → x.scrub = [] →
      x.stopping = some p → x.tr.tip = false →
      let z := st.slot t k
      let late := decide (4096 ≤ p.cycles)
      let done := p.done || (st.ctxOf t k).any st.launchDone
      let info := (if done then 1 else 0) + (if p.landed then 2 else 0) + (if p.ring then 4 else 0)
      let quiet := !z.sq.agt.inUnit && z.vec.quiet late && z.mat.quiet late && z.xfr.quiet late && st.decQuiet t k late
      (quiet = true →
        ∃ (u : State) (y : Tile), exec (.trapEntry t) st = .next u ∧ y = u.tile t ∧ y.inRuntime = true ∧ y.priv = .s ∧
          y.stopping = none ∧ y.tr.fcause = BitVec.ofNat 64 (2 ^ 63 + 2 ^ 48 * k.toNat) ∧ y.tr.finfo = BitVec.ofNat 64 info ∧
          y.tr.fval = 0 ∧ y.tr.slotsel = k ∧ y.rt.pc = x.tr.tvec &&& 0xFFFFFFFC ∧
          (done = false → z.sq.hasIter = true → y.tr.epc = BitVec.ofNat 64 (z.sq.bank.pc.toNat % 2 ^ 32)) ∧
          (done = true ∨ z.sq.hasIter = false → y.tr.epc = BitVec.ofNat 64 (2 ^ 33)) ∧
          (done = false → SameMemory st u) ∧ (done = true → (y.slot k).ctx = none)) ∧
      (quiet = false → exec (.trapEntry t) st = .next st)) ∧
    (∀ k f r, x.up = true → x.inRuntime = false → x.running = some k → (st.slot t k).faults = f :: r → (st.slot t k).atBoundary = true →
      x.tr.tip = false → ∃ (u : State) (y : Tile), exec (.trapEntry t) st = .next u ∧ SameMemory st u ∧ y = u.tile t ∧
        y.inRuntime = true ∧ y.priv = .s ∧ y.tr.fval = f.fval ∧ y.tr.finfo = f.finfo ∧ y.tr.fcause.toNat % 2 ^ 8 = (causeCode f.cause).toNat ∧
        y.rt.pc = x.tr.tvec &&& 0xFFFFFFFC ∧ (y.slot k).faults = r)

/-- R41 to R46: a tower hands the next of its points to its free tile of the lowest number. The iteration starts with its
indices in g8 and on, the stack pointer at the end of STACK, the capabilities of the launch, and the rest zero. The points of
a tower come in ascending row-major order, each inside the extents and, over the D levels, at an index that maps to it. -/
def Obligations.WalkerResults : Prop :=
  (∀ (ls : List Level3) (n j h h2 : Nat), (∀ l ∈ ls, l.kind = 0 ∨ l.kind = 1) → j < n → h < h2 → h2 < pointCount ls n j →
    let a := pointGo n j ls 0 h
    let b := pointGo n j ls 0 h2
    a.length = ls.length ∧ (∀ x ∈ ls.zip a, x.2 < x.1.extent) ∧ rowMajor ls a < rowMajor ls b ∧
      rowMajor (ls.filter fun l => l.kind = 0) (((ls.zip a).filter fun x => x.1.kind = 0).map (·.2)) % n = j) ∧
  ∀ (w : BitVec 3) (st : State) (id : BitVec 8) (n : Nat) (r : List (BitVec 8 × Nat)) (c : Context) (t : BitVec 8),
    (st.tower w).wrr = (id, n + 1) :: r → st.canHand w id = true → st.ctxById id = some c → c.id = id → st.freeTile c w = some t →
    c.spread.length ≤ 8 → c.caps.length ≤ 16 →
    let h := look 0 c.handed w.toNat
    let ix := pointGo c.towers.length (c.towerNo w) c.spread 0 h
    ∃ (u : State) (b : Bank), exec (.walkerHandout w) st = .next u ∧ SameMemory st u ∧ (u.tower w).wrr = (id, n) :: r ∧
      (u.slot t c.slot).sq.hasIter = true ∧ (u.slot t c.slot).sq.point = rowMajor c.spread ix ∧ b = (u.slot t c.slot).sq.bank ∧
      b.pc = BitVec.ofNat 64 c.code.entry ∧ b.gr 2 = BitVec.ofNat 64 (((st.slot t c.slot).seg 0).elim 0 (·.size)) ∧
      (∀ i : BitVec 5, i.toNat < ix.length → b.gr (8 + i) = BitVec.ofNat 64 (ix.getD i.toNat 0)) ∧
      (∀ i : BitVec 5, i ≠ 2 → (i.toNat < 8 ∨ 8 + ix.length ≤ i.toNat) → b.gr i = 0) ∧
      (∀ i : BitVec 4, b.capr i = c.caps.getD i.toNat {}) ∧ b.fpmode = (st.slot t c.slot).sq.bank.fpmode ∧
      ∃ d, u.ctxById id = some d ∧ d.started = c.started + 1 ∧ look 0 d.handed w.toNat = h + 1

/-- R44, R245, R249: a launch whose points are all handed out and done, its entries signalled, completes with status 0; its
running slot begins to stop, its blocked agents at once, and one that does not run keeps the completion for its next return. -/
def Claims.LaunchCompletion : Prop :=
  ∀ (t : BitVec 8) (st : State) (k : BitVec 2) (c : Context), let x := st.tile t
    let due (j : BitVec 2) : Prop := ∃ c, st.ctxOf t j = some c ∧ st.launchDone c = true ∧ (∀ p, (x.slot j).held = some p → p.done = false) ∧
      ¬ (x.running = some j ∧ ∃ p, x.stopping = some p ∧ p.done = true)
    let told : State := if c.complete then st
      else (st.modPart c.part fun p => { p with statuses := p.statuses ++ [(c.id, 0)] }).modCtx c.id fun y => { y with complete := true }
    (st.ctxOf t k = some c → due k → (∀ j : BitVec 2, j.toNat < k.toNat → ¬ due j) →
      (x.running = some k → x.inRuntime = false →
        let v := told.modTile t fun y => { y with stopping := some { y.stopping.getD {} with done := true } }
        exec (.launchComplete t) st = .next (if x.stopping.isSome then v else v.stopBlocked t k)) ∧
      (x.running ≠ some k ∨ x.inRuntime = true → exec (.launchComplete t) st =
        .next (told.modSlot t k fun y => { y with
          held := some { landed := y.held.any (·.landed), ring := y.held.any (·.ring), done := true } }))) ∧
    ((∀ j, ¬ due j) → exec (.launchComplete t) st = .next st)

/-! ## Memory's own events -/

/-- R98 to R103: a recall whose room is there puts the segment at the lowest free frame that fits it and ends the waits for
it, on every tile of the context; a push ends one tier outward; a compaction move takes a segment to a lower frame. No byte of memory changes. -/
def Claims.PorterMoves : Prop :=
  (∀ (l : List (Nat × Nat)) (n f : Nat), (∀ u ∈ l, 0 < u.2) → 0 < n →
    let free (f : Nat) : Prop := f + n ≤ 8192 ∧ ∀ u ∈ l, ∀ x, f ≤ x → x < f + n → ¬ (u.1 ≤ x ∧ x < u.1 + u.2)
    (firstFit l n = some f ↔ free f ∧ ∀ e, free e → f ≤ e)) ∧
  ∀ (t : BitVec 8) (k : BitVec 2) (n : BitVec 12) (st : State) (g : Segment), (st.slot t k).seg n = some g →
    let x := st.slot t k
    let became (i : Instr) (h : Segment) : Prop := ∃ u, exec i st = .next u ∧ SameMemory st u ∧ (u.slot t k).seg n = some h ∧
      (∀ m, m ≠ n → (u.slot t k).seg m = (st.slot t k).seg m) ∧
      ∀ c a v w, st.ctxOf t k = some c → v ∈ c.tiles → (st.tile v).inRuntime = false → a ≠ Agent.dec →
        (st.agt v c.slot a).wait = some w → w.obj = .moving n t → (u.agt v c.slot a).wait = none
    let room := x.res + x.leaving + g.size ≤ x.mem.quota.toNat
    (∀ b f, g.state = .recalling b → room → firstFit (st.tile t).usedRuns (frames g.size) = some f →
      became (.segmentRecall t k n) { g with state := .resident, frame := f }) ∧
    (∀ b, g.state = .recalling b → ¬ room → x.leaving ≠ 0 → exec (.segmentRecall t k n) st = .next st) ∧
    ((∀ b, g.state ≠ .recalling b) → exec (.segmentRecall t k n) st = .next st) ∧
    (g.state = .pushing false ∨ g.state = .spilling → became (.segmentPushComplete t k n) { g with state := .backed, frame := 0 }) ∧
    (g.state = .pushing true → st.poolUse (towerOf t) true ≤ (st.tower (towerOf t)).poolCap →
      became (.segmentPushComplete t k n) { g with state := .pool, frame := 0 }) ∧
    (g.state = .resident ∨ g.state = .pool ∨ g.state = .backed → exec (.segmentPushComplete t k n) st = .next st) ∧
    ((st.tile t).compaction = none → exec (.compactionMove t) st = .next st) ∧
    (∀ f, (st.tile t).compaction = some (k, g, f) → f < g.frame ∧ ∃ u, exec (.compactionMove t) st = .next u ∧ SameMemory st u ∧
      (u.slot t k).seg n = some { g with frame := f } ∧ ∀ v, v ≠ t → u.tile v = st.tile v)

/-- R254 to R260, R172, R177, R328: a request of another chip acts at its owner and is answered once: a read with the bytes, a
write with nothing, an atomic with the old value, an arrival and a row of an xrem with nothing; the check of a part of a store with nothing, and a barrier object
that is read once more with its bytes (R330). A checked page is refused with
CAP, a row for a checked segment with SEGNAME. That one which names nothing of this chip is not taken is the model's choice,
log 72. -/
def Claims.RemoteRequests : Prop :=
  ∀ (r : RemoteReq) (st : State),
    (st.serves r = false → exec (.remoteRequest r) st = .next st) ∧
    (st.serves r = true → MemoryCanonical st →
      let replied (u : State) (a : RemoteReply) : Prop := u.host = { st.host with answers := st.host.answers ++ [a] } ∧
        (∀ v, u.tile v = { st.tile v with slots := (u.tile v).slots })
      let answered (u : State) (bs : List Byte) : Prop := ∃ z l n, replied u ⟨r.id, 0, 0, bs, z, l, r.met, n⟩
      (∀ (x : Xl) (v : BitVec 3) (pg : Fin 393216) (n acc : Nat), let w := vaTower (r.va.setWidth 64)
        let off := vaOff (r.va.setWidth 64)
        let a := pg.val * 65536 + off % 65536
        let old := (st.tower v).gddr.read a
        Maps st w off acc x → x.phys = .gddr v pg → 0 < n → off % 65536 + n ≤ 65536 → x.rpl = false → st.storesOf (.chip r) = false →
        (st.tower w).mmu.repStores.any (·.page == x.ipa) = false →
        (x.chk = true → (r.op = .read n ∧ acc = 0 ∨ ∃ bs z, r.op = .write bs z ∧ n = bs.length ∧ acc = 1) →
          ∃ u, exec (.remoteRequest r) st = .next u ∧ SameMemory st u ∧ replied u { refusal r.id 9 5 with met := r.met }) ∧
        (x.chk = false →
        (r.op = .read n → acc = 0 → (st.tower v).gddr.poisoned a n = [] → ∃ u, exec (.remoteRequest r) st = .next u ∧
          SameMemory st u ∧ answered u (old n)) ∧
        (r.op = .readAt x.ipa → acc = 0 → n = 16 → ∃ u, exec (.remoteRequest r) st = .next u ∧ SameMemory st u ∧ answered u (old 16)) ∧
        (∀ z, r.op = .check n z → acc = 1 → (z = false → (st.tower v).gddr.partPoison a n = []) →
          ∃ u, exec (.remoteRequest r) st = .next u ∧ SameMemory st u ∧ answered u []) ∧
        (∀ bs z, r.op = .write bs z → n = bs.length → acc = 1 → (z = false → (st.tower v).gddr.partPoison a n = []) →
          ∃ u, exec (.remoteRequest r) st = .next u ∧ WroteG st u v a bs ∧ answered u []) ∧
        (∀ (o : BitVec 4) d y z, r.op = .amo o d y z → o.toNat < 10 → n = (if d = true then 8 else 4) → acc = 2 →
          (st.tower v).gddr.poisoned a n = [] → let q := leNat (old n)
          let m := 2 ^ (8 * n)
          ∃ u, exec (.remoteRequest r) st = .next u ∧ answered u (old n) ∧
            (o ≠ 9 → WroteG st u v a (leBytes n (amoTable o.toNat (8 * n) q (y.toNat % m)))) ∧
            (o = 9 → q = y.toNat % m → WroteG st u v a (leBytes n (z.toNat % m))) ∧ (o = 9 → q ≠ y.toNat % m → SameMemory st u)) ∧
        (∀ k : BitVec 64, r.op = .arrive k → n = 16 → acc = 2 → (st.tower v).gddr.poisoned a 16 = [] →
          (k = 0 ∨ (barrierOf (old 16)).arrived + k.toNat ≤ (barrierOf (old 16)).expected) →
          ∃ u, exec (.remoteRequest r) st = .next u ∧ WroteG st u v a (arrived (old 16) k.toNat) ∧ answered u []))) ∧
      (∀ (t c : BitVec 8) (p : W64) (k : BitVec 2) (g : Segment), (st.tile t).slotOfCtx c = some k → (st.slot t k).seg (ptrSeg p) = some g →
        g.state = .resident → let old := g.store.read (ptrOff p) 16
        (∀ bs, r.op = .put t c p bs → ptrOff p + bs.length ≤ g.size → g.check = false →
          g.store.partPoison (ptrOff p) bs.length = [] →
          ∃ u, exec (.remoteRequest r) st = .next u ∧ Wrote st u t k g.num (ptrOff p) bs ∧ answered u []) ∧
        (∀ bs, r.op = .put t c p bs → ptrOff p + bs.length ≤ g.size → g.check = true →
          ∃ u, exec (.remoteRequest r) st = .next u ∧ SameMemory st u ∧ replied u { refusal r.id 6 0 with met := r.met }) ∧
        (∀ n : BitVec 64, r.op = .arriveSeg t c p n → ptrOff p + 16 ≤ g.size → ptrOff p % 16 = 0 →
          (n = 0 ∨ (barrierOf old).arrived + n.toNat ≤ (barrierOf old).expected) → g.store.poisoned (ptrOff p) 16 = [] →
          ∃ u, exec (.remoteRequest r) st = .next u ∧ Wrote st u t k g.num (ptrOff p) (arrived old n.toNat) ∧ answered u []) ∧
        (r.op = .readSeg t c p → ptrOff p + 16 ≤ g.size → ptrOff p % 16 = 0 → g.store.poisoned (ptrOff p) 16 = [] →
          ∃ u, exec (.remoteRequest r) st = .next u ∧ SameMemory st u ∧ answered u old) ∧
        (r.op = .readSegAt t c p → ∃ u, exec (.remoteRequest r) st = .next u ∧ SameMemory st u ∧ answered u old)))

/-- R261, R263, R189, R298, R268, R194: a fabric timeout completes the request with UNREACH and marks the owner down, until its
route is up again; a page hold ends after 1 ms; a replica that stays locked makes its page unreplicated and raises WATCHDOG against the
writer, once, whether an agent, a request of another chip (answered so) or a command (answered BUSY: the model's choice, log 34); the fill
clears a pending line, which reads zeros before and after; the sweep of checked metadata ends. That WRAPPED is set then is the
model's choice, log 63. -/
def Claims.FabricAndLines : Prop :=
  ∀ (st : State) (t : BitVec 8) (a : Agent) (n : BitVec 8) (c w : BitVec 3) (page : Nat) (layer : Bool),
    (∀ p k g v id q, st.partOf t = some p → (st.tile t).inRuntime = false → (st.tile t).running = some k → a ≠ .dec →
      g = st.agt t k a → g.wait = some v → g.pend = some id → st.host.outReqs.find? (·.id == id) = some q → q.tile = t →
      (∀ x y, v.obj ≠ .hostPage x y) →
      let since := (st.tick - q.sent).toNat
      (since < p.timeoutUs * 2250 → exec (.fabricTimeout t a) st = .next st) ∧
      (p.timeoutUs * 2250 ≤ since → ∃ u, exec (.fabricTimeout t a) st = .next u ∧ SameMemory st u ∧
        (u.agt t k a).got = g.got ++ [refusal id 0x14 0] ∧ (u.agt t k a).pend = none ∧
        u.host.outReqs = st.host.outReqs.filter (fun x => decide (x.id ≠ id)) ∧ ∀ y ∈ u.parts, y.setup.num = p.setup.num → q.toChip ∈ y.down)) ∧
    exec (.routeUp n c) st = .next (st.modPart n fun p => { p with down := p.down.filter (· ≠ c) }) ∧
    exec (.moveHoldExpiry w page) st = .next (st.modTower w fun x => { x with mmu := { x.mmu with
      holds := x.mmu.holds.filter fun h => decide (h.page ≠ page ∨ h.cycles < 2250000) } }) ∧
    (∀ q, (st.tower w).mmu.repStores.find? (fun q => q.page == page && !q.locked.isEmpty && decide (4500 < q.cycles)) = some q →
      page ∉ (st.tower w).mmu.unrep →
      let x := (st.modTower w fun x => { x with mmu := { x.mmu with
        repStores := x.mmu.repStores.filter (· ≠ q), unrep := page :: x.mmu.unrep } }).answerOnce q.writer
      let n := q.cycles
      (∀ t k a, q.writer = .agent t (some k) a → exec (.replicaLockTimeout w page) st = .next ((((x.keepWaiting t k a .watchdog
        (BitVec.ofNat 64 n)).freezeTile t 3 n).freezeTower (towerOf t) 3 n).deliver t)) ∧
      (∀ r, q.writer = .chip r → exec (.replicaLockTimeout w page) st =
        .next (x.answer { refusal r.id 0x15 (BitVec.ofNat 64 n) with met := r.met })) ∧
      (∀ c, q.writer = .host c → exec (.replicaLockTimeout w page) st = .next (x.finishCmd 3 c 5 []))) ∧
    ((∀ q ∈ (st.tower w).mmu.repStores, q.page = page → q.locked = [] ∨ q.cycles ≤ 4500) → exec (.replicaLockTimeout w page) st = .next st) ∧
    ((layer, page) ∉ (st.tower w).zeroed → exec (.pendingZeroFill w layer page) st =
      .next (st.modTower w fun x => { x with zeroed := (layer, page) :: x.zeroed })) ∧
    ((layer, page) ∈ (st.tower w).zeroed → exec (.pendingZeroFill w layer page) st = .next st) ∧
    (∀ x, st.ctxById n = some x → x.sweeping = true → ∃ u, exec (.raceSweepEnd n) st = .next u ∧ SameMemory st u ∧
      (∀ t ∈ x.tiles, (u.slot t x.slot).race = { (st.slot t x.slot).race with wrapped := true }) ∧
      u.ctxById n = some { x with sweeping := false }) ∧
    ((∀ x, st.ctxById n = some x → x.sweeping = false) → exec (.raceSweepEnd n) st = .next st)

/-! ## Events of the hardware -/

/-- R277, R278, R279, R281, R280: droop stretching, thermal throttling and the retirement of a layer. They change the column's
state, or its fuse bits, and nothing that software computes with. -/
def Claims.ColumnSupply : Prop :=
  ∀ (st : State) (t : BitVec 8) (l : BitVec 2),
    let col (f : Column → Column) : Ans := .next (st.modTile t fun x => { x with col := f x.col })
    let c := (st.tile t).col
    (c.stretching = false → exec (.droopStretch t) st = col fun y => { y with
      stretching := true, stretchLeft := 32, thirds := 0, events := BitVec.ofNat 32 (min (y.events.toNat + 1) (2 ^ 32 - 1)) }) ∧
    (c.stretching = true → exec (.droopStretch t) st = .next st) ∧
    (c.stretchLeft = 0 → exec (.stretchEnd t) st = col fun y => { y with stretching := false }) ∧
    (c.stretchLeft ≠ 0 → exec (.stretchEnd t) st = .next st) ∧
    (∃ v : BitVec 4, exec (.thermalThrottle t l) st = col (fun y => { y with throttled := v }) ∧
      ∀ i, v.getLsbD i = (c.throttled.getLsbD i || decide (i = l.toNat))) ∧
    (∃ v : BitVec 4, exec (.throttleRelease t l) st = col (fun y => { y with throttled := v }) ∧
      ∀ i, v.getLsbD i = (c.throttled.getLsbD i && decide (i ≠ l.toNat))) ∧
    exec (.bondParityFailure t l false) st = .next st ∧
    (∀ k, (st.tile t).enginesRun = true → (st.tile t).running = some k → (st.slot t k).mat.cur ≠ none → (st.layers t).getLsbD l.toNat = true →
      ∃ u, exec (.bondParityFailure t l true) st = .next u ∧ SameMemory st u ∧ u.tiles = st.tiles ∧ (u.layers t).getLsbD l.toNat = false ∧
        ∀ i, i ≠ l.toNat → (u.layers t).getLsbD i = (st.layers t).getLsbD i)

/-- R282 to R286, R298: errors of the DRAM layer, the vertical bus and the links. A single error is corrected and logged; the parity
groups in which a beat fails are those of the lanes that arrived wrong, whatever its data; a beat that four retries do not carry starts
the lane test, which maps the failing lane, one of a group that failed, to a spare, or leaves a written word poisoned; a read beat that the
test does not save is the next read of its word (the model's choice, log 69); more than 64 retries freeze the recorders of the
partition. -/
def Claims.ErrorEvents : Prop :=
  ∀ (st : State) (w : BitVec 3) (word : BitVec 29) (b : BusBeat) (lane : Option (BitVec 8)) (port : BitVec 5) (m : BitVec 16),
    let x := st.tower w
    let logged (u : State) (f : Tower → Tower) : Prop := SameMemory st u ∧ u.tiles = st.tiles ∧
      (u.tower w).arrayLog.count = BitVec.ofNat 32 (min (x.arrayLog.count.toNat + 1) (2 ^ 32 - 1)) ∧
      u.tower w = { f x with arrayLog := (u.tower w).arrayLog, recorder := (u.tower w).recorder } ∧ ∀ v, v ≠ w → u.tower v = st.tower v
    (word.toNat ∈ x.layer.poison → ∃ u, exec (.dramPatrolScrub w word) st = .next u ∧ logged u id) ∧
    (∀ e, word.toNat ∉ x.layer.poison → x.biterrs.find? (fun e => decide (e.1 = word.toNat)) = some e →
      ∃ u, exec (.dramPatrolScrub w word) st = .next u ∧ logged u fun y => { y with
        biterrs := y.biterrs.filter fun z => z.1 ≠ word.toNat }) ∧
    (word.toNat ∉ x.layer.poison → (∀ e ∈ x.biterrs, e.1 ≠ word.toNat) → exec (.dramPatrolScrub w word) st = .next st) ∧
    (let l := x.lane b.asynch b.chan
      let exists_ := (if b.asynch = true then b.chan.toNat < 8 else b.chan.toNat = b.word.toNat % 64) ∧ busFails b.flipped ≠ 0 ∧
        (b.asynch = true → b.write = true → st.layerSent w = true)
      let suspect (n : BitVec 8) : Prop := n.toNat < 132 ∧ (busFails b.flipped).getLsbD (laneGroup n.toNat) = true
      let bus (u : State) (f : Tower → Tower) : Prop := u.tiles = st.tiles ∧ (∀ v, v ≠ w → u.tower v = st.tower v) ∧
        (u.tower w).vbusLog.count = BitVec.ofNat 32 (min (x.vbusLog.count.toNat + 1) (2 ^ 32 - 1)) ∧
        u.tower w = { f x with vbusLog := (u.tower w).vbusLog, recorder := (u.tower w).recorder }
      (∀ r : BitVec 3, l.testing = none → exists_ → b.accepted = some r → 0 < r.toNat → r.toNat ≤ 4 →
        ∃ u, exec (.vbusParityFailure w b) st = .next u ∧ bus u id) ∧
      (l.testing = none → exists_ → b.accepted = none → exec (.vbusParityFailure w b) st =
        .next (st.modTower w fun y => y.setLane { l with testing := some b })) ∧
      (l.testing ≠ none ∨ ¬ exists_ → exec (.vbusParityFailure w b) st = .next st) ∧
      (l.testing = none → exec (.laneTestEnd w b.asynch b.chan lane) st = .next st) ∧
      (l.testing = some b →
        (∀ n, lane = some n → ¬ suspect n → exec (.laneTestEnd w b.asynch b.chan lane) st = .next st) ∧
        (∀ n, lane = some n → suspect n → l.spares.length < 8 → ∃ u, exec (.laneTestEnd w b.asynch b.chan lane) st = .next u ∧
          bus u fun y => y.setLane { l with spares := l.spares ++ [n], testing := none }) ∧
        (lane = none ∨ (∃ n, lane = some n ∧ suspect n ∧ 8 ≤ l.spares.length) →
          (b.write = true → ∃ u, exec (.laneTestEnd w b.asynch b.chan lane) st = .next u ∧ bus u fun y =>
            let z := y.setLane { l with testing := none }
            { z with layer := { z.layer with poison := insertN z.layer.poison b.word.toNat } }) ∧
          (b.write = false → ∃ u, exec (.laneTestEnd w b.asynch b.chan lane) st = .next u ∧ bus u fun y =>
            let z := y.setLane { l with testing := none }
            { z with badReads := b.word.toNat :: z.badReads })))) ∧
    (∀ (d : BitVec 128) (f : BitVec 132), busFails (busBeat d ^^^ f) = busFails f ∧
      ∀ i : BitVec 2, (busParity d).getLsbD i.toNat = ((List.range 32).foldl (fun p j => p != d.getLsbD (32 * i.toNat + j)) false)) ∧
    (∀ p, st.parts.find? (fun p => decide (port.toNat < 18) && p.setup.ports.getLsbD port.toNat) = some p →
      (m.toNat ≤ 64 → exec (.retryStorm port m) st = .next st) ∧
      (64 < m.toNat → ∃ u, exec (.retryStorm port m) st = .next u ∧ SameMemory st u ∧ u.ctxs = st.ctxs ∧
        (∀ t ∈ p.tiles, (u.tile t).recorder.frozen = true) ∧
        ∀ v : BitVec 3, p.setup.towers.getLsbD v.toNat = true → (u.tower v).recorder.frozen = true))

/-- R250, R242, R252, R298: the scrubber and the fatal errors. A correctable error changes nothing; an uncorrectable one ends the
context that owns the line with status POISON, clears a line without owner, and in a line of the partition is fatal, as the
expiry of the SMC's watchdog is. A fatal error stops every tile of the partition and is kept. -/
def Obligations.ScrubAndFatal : Prop :=
  ∀ (st : State) (l : ScrubLine) (t : BitVec 8) (k : BitVec 2) (n : BitVec 12) (i : Nat) (a : BitVec 8) (w : BitVec 3),
    exec (.sramScrub l false) st = .next st ∧
    (∀ c x p, st.ctxById c = some x → c ≠ 0xFF → st.partByNum x.part = some p → (st.tile t).tr.tip = false → (st.tile t).up = true →
      (st.slot t k).ctx = some c → x.slot = k → t ∈ x.tiles → (st.tile t).slotOfCtx c = some k → (st.tile t).running = some k →
      (st.tile t).inRuntime = false → (st.tile t).scrub = [] →
      let ends (e : Instr) : Prop := ∃ (u : State) (y : Partition), exec e st = .next u ∧ u.ctxById c = none ∧
        (∀ v ∈ x.tiles, (u.slot v k).ctx = none) ∧ u.partByNum x.part = some y ∧ y.statuses = p.statuses ++ [(c, 0x13)] ∧
        (u.tile t).inRuntime = true ∧ (u.tile t).tr.fcause.toNat % 2 ^ 8 = 0x13 ∧ (u.tile t).recorder.frozen = true
      (∀ g : Segment, (st.slot t k).seg n = some g → 64 * i < g.size → g.state ≠ .backed → g.state ≠ .recalling false →
        ends (.sramScrub (.segment t k n i) true)) ∧
      ((st.acc t a).owner = c → i < 64 → ends (.sramScrub (.accum t a i) true)) ∧
      ends (.sramScrub (.slotState t k) true)) ∧
    (∃ u, exec (.sramScrub (.free t) true) st = .next u ∧ SameMemory st u ∧ u.ctxs = st.ctxs ∧ (u.tile t).recorder.frozen = true ∧
      (u.tower (towerOf t)).recorder.frozen = true ∧ (u.tile t).slots = (st.tile t).slots) ∧
    (AccCanonical st → (st.acc t a).owner = 0xFF → i < 64 → ∃ u, exec (.sramScrub (.accum t a i) true) st = .next u ∧ SameMemory st u ∧
      (∀ j, j < 512 → ((u.acc t a).row (BitVec.ofNat 5 (i / 2))).getLsbD (512 * (i % 2) + j) = false) ∧
      (u.acc t a).sideOf (BitVec.ofNat 5 (i / 2)) = 0 ∧
      (∀ b, b ≠ a → u.acc t b = st.acc t b) ∧ (u.tile t).recorder.frozen = true) ∧
    (∀ p, p.fatal = none →
      let falls (e : Instr) (code : BitVec 8) : Prop := ∃ (u : State) (y : Partition), exec e st = .next u ∧ SameMemory st u ∧
        u.partByNum p.setup.num = some y ∧ y.fatal = some (code, st.tick, 0) ∧
        (∀ v ∈ p.tiles, (u.tile v).up = false ∧ (u.tile v).recorder.frozen = true) ∧ ∀ v, v ∉ p.tiles → u.tile v = st.tile v
      (st.partOfTower w = some p → st.partByNum p.setup.num = some p → falls (.sramScrub (.partition w) true) 2) ∧
      (st.partByNum a = some p → falls (.smcWatchdogExpiry a) 4))

/-! ## Module and partitions -/

/-- R287, Table 15.4, R280: a turn of the bring-up takes it to the step that follows, unless it has ended or failed. Step 2 that fails
keeps the rejected digest; step 4 sets the failing lanes aside, and reports each channel with more than 8 and leaves its tower out;
step 5 sets fuse bits and excludes columns; step 6 clears every recorder and all memory, and leaves no partition (R288). Fuse bits are
never cleared, and nothing else changes. What the steps find is free (the
model's choice, log 84). -/
def Claims.BringUpTurns : Prop :=
  ∀ (st : State) (r : List Turn), st.agenda = .bringUp :: r →
    let b := st.bring
    let n := b.step + 1
    let tr := b.found
    ∃ u, step st = .next u ∧ u.agenda = r ∧
      { u with
        bring := b, towers := st.towers, tiles := st.tiles, parts := st.parts
        agenda := st.agenda, moves := st.moves, fresh := st.fresh } = st ∧
      (b.step ≠ 5 ∨ b.goal ≤ b.step → u.tiles = st.tiles ∧ u.parts = st.parts) ∧
      (b.step = 5 → b.step < b.goal → u.parts = [] ∧ (∀ t, u.tile t = { st.tile t with recorder := Recorder.reset }) ∧
        ∀ w, (u.tower w).recorder = Recorder.reset ∧ (u.tower w).zeroed = [] ∧
          ∀ x, look 0 (u.tower w).gddr.bytes x = 0 ∧ look 0 (u.tower w).layer.bytes x = 0) ∧
      (b.step = 0 → u.bring.step = 1 ∧ u.bring.goal ∈ [6, 1, 2, 4, 5] ∧ u.towers = st.towers) ∧
      (0 < b.step → b.goal ≤ b.step → u.bring = b ∧ u.towers = st.towers) ∧
      (0 < b.step → b.step < b.goal →
        u.bring.step = n ∧ u.bring.goal = b.goal ∧ (u.bring.failed = true ↔ n = b.goal ∧ n ≠ 6) ∧
        (n = 2 → b.goal = 2 → u.bring.digest = tr.rejected) ∧
        (n = 4 → (∀ l ∈ tr.lanes, 8 < l.2.2.2.length → (l.1, l.2.1, l.2.2.1) ∈ u.bring.short ∧
            u.bring.leftOut.getLsbD l.1.toNat = true) ∧
          ∀ w, (u.tower w).lanes = (tr.lanes.filter fun l => l.1 = w).map fun l => ⟨l.2.1, l.2.2.1, l.2.2.2.take 8, none⟩) ∧
        (n ≠ 4 → u.bring.leftOut = b.leftOut ∧ ∀ w, (u.tower w).lanes = (st.tower w).lanes) ∧
        (n = 5 → u.bring.excluded = tr.badTiles ∧ ∀ x ∈ tr.retired, ∀ i, x.2.getLsbD i = true → (u.tower x.1).fuse.getLsbD i = true) ∧
        (n ≠ 5 → u.bring.excluded = b.excluded ∧ ∀ w, (u.tower w).fuse = (st.tower w).fuse)) ∧
      ∀ w i, (st.tower w).fuse.getLsbD i = true → (u.tower w).fuse.getLsbD i = true

/-- R264, R265, R267, R268, R276, R278, R280, R287, R138: module reset, a partition's set-up and its end, a pre-copy round. Module reset
begins the bring-up, at step 1 of Table 15.4, and keeps the fuse maps. A set-up partition's memory reads zeros, its tiles have not
started, and it holds no column with every layer in the fuse map; after the end of its reservation it is gone, with its contexts,
sessions and objects, and its memory reads zeros. Two partitions share no tower, port, mesh slot or class. The model's choices: which
step of the bring-up fails (log 84), a set-up that breaks a rule changes nothing (log 83), which round of the pre-copy is the final one
(log 3). -/
def Claims.Partitions : Prop :=
  ∀ (st : State) (p : PartSetup) (n : BitVec 8),
    (∀ pass, ∃ goal, (if pass = true then goal = 6 else goal ∈ [1, 2, 4, 5]) ∧ exec (.moduleReset pass) st = .next { State.reset with
      bring := { step := 1, failed := decide (goal = 1), goal := goal, found := Config.training st.fresh }
      towers := Vector.ofFn fun i => { Tower.reset with fuse := (st.tower (BitVec.ofNat 3 i.val)).fuse }
      agenda := st.agenda, moves := st.moves, fresh := st.fresh + 1 }) ∧
    (let ok := st.bring.step = 6 ∧ (∀ q ∈ st.parts, q.setup.num ≠ p.num ∧ q.setup.towers &&& p.towers = 0 ∧
          q.setup.ports &&& p.ports = 0 ∧ q.setup.meshMask &&& p.meshMask = 0 ∧ ∀ c ∈ p.classes, c ∉ q.setup.classes) ∧
        p.towers ≠ 0 ∧ p.chips.toNat ≤ 8 ∧ p.chip.toNat < p.chips.toNat ∧ (∀ r ∈ p.routes, r.2 ≤ 64) ∧
        (∀ m ∈ p.s2, p.towers.getLsbD m.tower.toNat = true ∧ ∀ w pg, m.phys = .gddr w pg → mayMap p w pg.val = true) ∧
        p.towers &&& st.bring.leftOut = 0 ∧ ∃ t : BitVec 8, p.towers.getLsbD (towerOf t).toNat = true ∧ st.usable t = true;
      (¬ ok → exec (.partitionSetUp p) st = .next st) ∧
      (ok → (∀ c ∈ st.ctxs, c.part ≠ p.num) → ∃ (u : State) (q : Partition), exec (.partitionSetUp p) st = .next u ∧
        u.parts = st.parts ++ [q] ∧ q.setup = p ∧ (∀ t, t ∈ q.tiles ↔ p.towers.getLsbD (towerOf t).toNat = true ∧ st.usable t = true) ∧
        q.key = true ∧ q.runtime = none ∧ q.fatal = none ∧ q.timeoutUs = 200 ∧ q.statuses = [] ∧
        u.ctxs = st.ctxs ∧
        (∀ w : BitVec 3, p.towers.getLsbD w.toNat = true → (∀ x, look 0 (u.tower w).gddr.bytes x = 0 ∧ look 0 (u.tower w).layer.bytes x = 0) ∧
          (u.tower w).mmu.root = none ∧ (u.tower w).fuse = (st.tower w).fuse ∧
          (u.tower w).mmu.s2 = (p.s2.filter fun m => m.tower == w).map fun m => (m.ipaPage, m.phys)) ∧
        (∀ t : BitVec 8, p.towers.getLsbD (towerOf t).toNat = true → (u.tile t).up = false ∧ ∀ k, (u.slot t k).ctx = none) ∧
        ∀ w : BitVec 3, p.towers.getLsbD w.toNat = false → u.tower w = st.tower w)) ∧
    (st.partByNum n = none → exec (.endOfTheReservation n) st = .next st) ∧
    (∀ q, st.partByNum n = some q → ∃ u, exec (.endOfTheReservation n) st = .next u ∧ u.partByNum n = none ∧
      (∀ c ∈ u.ctxs, c.part ≠ q.setup.num) ∧ (∀ x ∈ u.host.sessions, x.part ≠ n) ∧ (∀ o ∈ u.host.objs, o.part ≠ n) ∧
      (∀ w : BitVec 3, q.setup.towers.getLsbD w.toNat = true → (∀ x, look 0 (u.tower w).gddr.bytes x = 0 ∧
        look 0 (u.tower w).layer.bytes x = 0) ∧ (u.tower w).fuse = (st.tower w).fuse) ∧
      (∀ t : BitVec 8, q.setup.towers.getLsbD (towerOf t).toNat = true → (u.tile t).up = false ∧ (u.tile t).col.events = 0 ∧ (u.tile t).col.cycles = 0 ∧ ∀ k, (u.slot t k).ctx = none) ∧
      ∀ m, m ≠ n → (u.partByNum m).map (·.setup) = (st.partByNum m).map (·.setup)) ∧
    ∃ f, exec (.preCopyRound n) st = .next (({ st with fresh := st.fresh + 1 } : State).modPart n fun q => { q with pre := { q.pre with
      active := true, final := f, ring := [], round := [] } })

/-! ## The host's commands -/

/-- R252, R274, R275, R276, R287: which commands are acted on. One that fails authentication is dropped and counted; before the
bring-up has ended all but STATUS are answered BUSY; a SEQ already passed, or more than 64 ahead, is answered BADSEQ, and one
ahead is kept until its turn; a command to no partition of the session is answered RANGE; after a fatal error the dump is read,
and other commands are answered STATE. -/
def Claims.CommandOrder : Prop :=
  ∀ (c : HostCmd) (st : State) (op : Nat) (i : Instr),
    (op, i) ∈ [(1, Instr.load c), (2, .launch c), (3, .segput c), (4, .segget c), (5, .kvput c), (6, .status c), (7, .attest c),
      (7, .attestOpen c), (8, .resetpart c)] →
    let reply (code : Nat) : Ans := .next (st.replyTo op c.part.toNat c.seq c.session code [])
    let h := st.host
    let replies := ¬ (st.bring.failed = true ∧ st.bring.step = 1)
    (st.bring.failed = true ∧ st.bring.step = 1 → exec i st = .next st) ∧
    (c.authentic = false → replies → exec i st = .next { st with host := { h with authDrops := h.authDrops + 1, authDue := true } }) ∧
    (c.authentic = true → h.authDue = false → replies → st.bring.step ≠ 6 → op ≠ 6 → exec i st = reply 5) ∧
    (c.authentic = true → h.authDue = false → replies → st.bring.step ≠ 6 → ∃ bs, exec (.status c) st =
      .next (st.replyTo 6 c.part.toNat c.seq c.session 0 bs)) ∧
    (∀ x, c.authentic = true → h.authDue = false → st.bring.step = 6 → c.session ≠ 0 → st.sessionOf c.session = some x →
      (c.seq.toNat < x.next.toNat ∨ x.next.toNat + 64 < c.seq.toNat → exec i st = reply 1) ∧
      (c.seq = x.next → st.stalledSeq c = true → exec i st = reply 1) ∧
      (x.next.toNat < c.seq.toNat → c.seq.toNat ≤ x.next.toNat + 64 → (∀ y ∈ x.held, y.2.seq ≠ c.seq) →
        exec i st = .next (st.modSession x.id fun y => { y with held := y.held ++ [(BitVec.ofNat 8 op, c)] }))) ∧
    (c.authentic = true → h.authDue = false → st.bring.step = 6 → c.session = 0 → (∀ p ∈ st.parts, p.setup.num.setWidth 16 ≠ c.part) →
      exec i st = .next (st.finishCmd (BitVec.ofNat 8 op) c 4 [])) ∧
    (∀ p f, c.authentic = true → h.authDue = false → st.bring.step = 6 → c.session = 0 → (∀ x, st.sessionOf 0 = some x →
        x.part = p.setup.num) → st.parts.find? (fun q => decide (q.setup.num.setWidth 16 = c.part)) = some p → p.fatal = some f →
      (op ∈ [1, 2, 3, 5, 7] → exec i st = .next (st.finishCmd (BitVec.ofNat 8 op) c 3 [])) ∧
      (∀ off, (Config.getTarget c.body).1 = .dump off → off + (Config.getTarget c.body).2 ≤ 2 ^ 29 → exec (.segget c) st =
        .next (st.finishCmd 4 c 0 ((List.range (Config.getTarget c.body).2).map fun j => st.dumpAt p f.1 f.2.1 f.2.2 (off + j))))) ∧
    (∀ (t : State) (o : BitVec 8) (code : Nat) (bs : List Byte), ∃ u, t.finishCmd o c code bs = u ∧
      u.host.outbox = t.host.outbox ++ [⟨BitVec.ofNat 8 (o.toNat + 0x80), c.part, c.seq, c.session, BitVec.ofNat 32 code, bs⟩] ∧
      (∀ x, t.sessionOf c.session = some x → ∃ y, u.sessionOf c.session = some y ∧ y.next = x.next + 1) ∧
      { u with host := t.host, agenda := t.agenda } = t)

/-- R252, R267, R270, R271, R274, R276, R268, R339: LOAD of an image and of a runtime, LAUNCH, KVPUT, STATUS, ATTEST and its open
form, and RESETPART, after which a partition holds the tiles that can still be used (R138). Bodies, digests, reports and session numbers
are values that no rule gives (log 18), and an owner marked down stays so over RESETPART (the model's choice, log 71). -/
def Claims.CommandResults : Prop :=
  ∀ (c : HostCmd) (st : State) (p : Partition), Acts st c p →
    let done (t : State) (o : BitVec 8) (code : Nat) (bs : List Byte) : Ans := .next (t.finishCmd o c code bs)
    let h := st.host
    let stored (kind : BitVec 8) (img : List Byte) : State := { st with host := { h with
      objs := h.objs ++ [⟨h.nextHandle, p.setup.num, kind, img⟩], nextHandle := h.nextHandle + 1 } }
    (∀ img, c.body = 0 :: img → exec (.load c) st = done ((stored 0 img).modPart p.setup.num fun q => { q with
      digests := q.digests ++ [Config.digest img] }) 1 0 (leBytes 4 h.nextHandle.toNat)) ∧
    (∀ img, c.body = 1 :: img →
      (p.runtime.isSome = true → exec (.load c) st = done st 1 3 []) ∧
      (p.runtime = none → runtimeImage img = false → exec (.load c) st = done st 1 4 []) ∧
      (p.runtime = none → runtimeImage img = true → ∃ u : State, exec (.load c) st = done u 1 0 (leBytes 4 h.nextHandle.toNat) ∧
        SameMemory { st with tiles := u.tiles } u ∧
        ∀ t ∈ p.tiles, let y := u.tile t
          y.up = true ∧ y.inRuntime = true ∧ y.priv = .s ∧ y.rt.pc = BitVec.ofNat 64 (rdN img 28 4) ∧ y.rt.gr 4 = BitVec.ofNat 64 t.toNat ∧
          y.tr.tip = true ∧ y.tr.tvec.toNat = rdN img 28 4 / 4 * 4 ∧ y.running = none ∧ ∀ k, (y.slot k).ctx = none)) ∧
    (480 < c.body.length → exec (.launch c) st = done st 2 4 []) ∧
    (c.body.length ≤ 480 → p.cmdRing = none → exec (.launch c) st = done st 2 5 []) ∧
    (∀ r k t, c.body.length ≤ 480 → p.cmdRing = some r → st.ringPost (r.setWidth 64) 512 (ringRecord c) = some (k, t) →
      exec (.launch c) st = .next ((t.ringNotice p).seqDone c)) ∧
    (let b := Config.kvBody c.body
      ∀ x, st.ctxById b.ctx = some x →
        (p.setup.kv = false → exec (.kvput c) st = done st 5 3 []) ∧
        (p.setup.kv = true → x.part = p.setup.num → (∃ t ∈ x.tiles, towerOf t = b.tower) → b.k.length = 256 → b.v.length = 256 →
          let e := st.slotEnt b.tower x b.slot.toNat
          seValid e = true → ∀ y z n t, st.appendPlan b.tower x.id e b.layer.toNat b.head.toNat = .ok (y, z, n, t) →
            let row (a : Nat) : Option Lane := st.laneTest b.tower (16384 * a + 256 * (seLen e % 64)) 256
            (row y = none → row z = none →
              exec (.kvput c) st = done (t.appendStore b.tower x.id (seLen e) y z n b.k b.v hostWho) 5 0 []) ∧
            (row y ≠ none ∨ row z ≠ none → exec (.kvput c) st = .next (st.modPart p.setup.num fun q => { q with
              stalledCmds := q.stalledCmds ++ [(5, c)] })))) ∧
    exec (.status c) st = done st 6 0 (Config.statusBytes (st.statusOf (some p))) ∧
    (∃ r, exec (.attest c) st = done { st with fresh := st.fresh + 1 } 7 0 r) ∧
    (∃ (u : State) (x : Session), exec (.attestOpen c) st = .next u ∧ SameMemory st u ∧ u.tiles = st.tiles ∧ x ∈ u.host.sessions ∧
      x.part = p.setup.num ∧ u.host.outbox = h.outbox ++ [⟨0x87, BitVec.ofNat 16 c.part.toNat, c.seq, x.id, 0, []⟩]) ∧
    (∃ (u : State) (q : Partition), exec (.resetpart c) st = done u 8 0 [] ∧ (∀ y ∈ u.ctxs, y.part ≠ p.setup.num) ∧
      (∀ o ∈ u.host.objs, o.part ≠ p.setup.num) ∧ (∀ z, u.partByNum p.setup.num = some z → z.setup = p.setup ∧ z.runtime = none ∧
        z.statuses = [] ∧ z.faultRing = none ∧ z.down = p.down ∧
        ∀ t, t ∈ z.tiles ↔ p.setup.towers.getLsbD (towerOf t).toNat = true ∧ st.usable t = true) ∧ u.partByNum p.setup.num = some q ∧
      (∀ w : BitVec 3, p.setup.towers.getLsbD w.toNat = true → ∀ x, look 0 (u.tower w).gddr.bytes x = 0 ∧ look 0 (u.tower w).layer.bytes x = 0) ∧
      ∀ t : BitVec 8, p.setup.towers.getLsbD (towerOf t).toNat = true → (u.tile t).up = false ∧ ∀ k, (u.slot t k).ctx = none)

/-- R262, R263, R438, R252: SEGPUT and SEGGET of a segment and of virtual addresses. A write changes its own bytes, a read
answers the bytes; poisoned words are answered as zeros under POISON with their bitmap; a page that is taken goes to the host,
one just moved answers MOVED or HELD; a dump is there only after a fatal error. The model's choices (log 18): what the target in a body
is, STATE for a GIVE of a page that the host does not hold, and RANGE for a write to the dump. -/
def Claims.CommandMemory : Prop :=
  ∀ (c : HostCmd) (st : State) (p : Partition), Acts st c p → MemoryCanonical st →
    let fin (o : BitVec 8) (code : Nat) (bs : List Byte) : State := st.finishCmd o c code bs
    let bs := (Config.putTarget c.body).2
    let n := (Config.getTarget c.body).2
    let seg (x : BitVec 8) (t : BitVec 8) (m : BitVec 12) (off len : Nat) (k : BitVec 2) (g : Segment) : Prop :=
      ∃ y, st.ctxById x = some y ∧ y.part = p.setup.num ∧ t ∈ y.tiles ∧ y.slot = k ∧ (st.slot t k).seg m = some g ∧ off + len ≤ g.size
    let page (v : W64) (len acc : Nat) (x : Xl) (w : BitVec 3) (pg : Fin 393216) : Prop := v.toNat < 2 ^ 54 ∧ vaChip v = p.setup.chip ∧
      p.setup.towers.getLsbD (vaTower v).toNat = true ∧ 0 < len ∧ vaOff v % 65536 + len ≤ 65536 ∧ Maps st (vaTower v) (vaOff v) acc x ∧
      x.phys = .gddr w pg ∧ (st.tower (vaTower v)).mmu.repStores.any (·.page == x.ipa) = false
    let pages (v : W64) : List (Nat × Nat) := st.rangePages (vaTower v) (vaOff v) n
    (∀ x t m off k g, (Config.putTarget c.body).1 = .seg x t m off → seg x t m off bs.length k g →
      (g.store.partPoison off bs.length = [] → ∃ u, exec (.segput c) st = .next u ∧ Wrote st u t k g.num off bs ∧
        SameButMemory u (fin 3 0 [])) ∧
      (g.store.partPoison off bs.length ≠ [] → exec (.segput c) st = .next ((st.freezePoison t (segPtr m off).toNat).finishCmd 3 c 9 []))) ∧
    (∀ v x w pg, (Config.putTarget c.body).1 = .va v → c.flags.getLsbD 0 = false → page v bs.length 1 x w pg → x.rpl = false →
      st.storesOf (.host c) = false →
      (st.tower w).gddr.partPoison (pg.val * 65536 + vaOff v % 65536) bs.length = [] → ∃ u, exec (.segput c) st = .next u ∧
        WroteG st u w (pg.val * 65536 + vaOff v % 65536) bs ∧ u.host = (fin 3 0 []).host ∧ u.tiles = st.tiles) ∧
    (∀ v x w pg, (Config.putTarget c.body).1 = .va v → c.flags.getLsbD 0 = true → page v bs.length 1 x w pg →
      exec (.segput c) st = .next (fin 3 3 [])) ∧
    (∀ x t m off k g, (Config.getTarget c.body).1 = .seg x t m off → seg x t m off n k g →
      (g.store.poisoned off n = [] → ∃ u, exec (.segget c) st = .next u ∧ SameMemory st u ∧
        SameButMemory u (fin 4 0 (g.store.read off n))) ∧
      (g.store.poisoned off n ≠ [] → ∃ u l, exec (.segget c) st = .next u ∧ SameMemory st u ∧ u.host.outbox = st.host.outbox ++
          [⟨0x84, c.part, c.seq, c.session, 9, ((List.range n).map fun i => if (off + i) / 16 ∈ g.store.poison then 0
            else look 0 g.store.bytes (off + i)) ++ l⟩] ∧ l.length % 8 = 0 ∧ ∀ i, i / 8 < l.length →
          ((l.getD (i / 8) 0).getLsbD (i % 8) = true ↔ off / 16 + i ∈ g.store.poison ∧ i < (off % 16 + n + 15) / 16))) ∧
    (∀ v x w pg, (Config.getTarget c.body).1 = .va v → page v n 0 x w pg →
      let a := pg.val * 65536 + vaOff v % 65536
      (st.tower w).gddr.poisoned a n = [] →
      (c.flags.getLsbD 0 = false → ∃ u, exec (.segget c) st = .next u ∧ SameMemory st u ∧ u.tiles = st.tiles ∧
        u.host = (fin 4 0 ((st.tower w).gddr.read a n)).host) ∧
      (c.flags.getLsbD 0 = true → (∀ h ∈ (st.tower (vaTower v)).mmu.holds, h.page ∉ (pages v).map (·.1)) →
        ∃ u, exec (.segget c) st = .next u ∧ u.host = (fin 4 0 ((st.tower w).gddr.read a n)).host ∧
          (∀ y ∈ pages v, ∀ t m, (st.tower (vaTower v)).mmu.stage2 y.2 = some (.gddr t m) →
            (u.tower (vaTower v)).mmu.stage2 y.2 = some .host ∧
            (u.tower (vaTower v)).mmu.holds.contains ⟨y.1, true, 0, 0⟩ = true) ∧
          (vaOff v / 65536, x.ipa) ∈ pages v ∧
          ∀ o, o < 65536 → look 0 (u.tower w).gddr.bytes (pg.val * 65536 + o) = 0)) ∧
    (∀ v h, (Config.getTarget c.body).1 = .va v → v.toNat < 2 ^ 54 → vaChip v = p.setup.chip → vaOff v + n ≤ 2 ^ 48 →
      p.setup.towers.getLsbD (vaTower v).toNat = true → c.flags.getLsbD 0 = true →
      (st.tower (vaTower v)).mmu.holds.find? (fun h => ((pages v).map (·.1)).contains h.page) = some h →
      exec (.segget c) st = .next (if h.host then fin 4 8 [] else fin 4 7 (leBytes 1 h.tower.toNat))) ∧
    (∀ off, (Config.getTarget c.body).1 = .dump off → exec (.segget c) st = .next (fin 4 3 [])) ∧
    (∀ off, (Config.putTarget c.body).1 = .dump off → exec (.segput c) st = .next (fin 3 4 []))

/-! ## Claims that are stated together -/

/-- R352, R313, R52: IOPI, and the stack check of iopi.add into g2. -/
def Obligations.IopiResults : Prop := Claims.IopiResult ∧ Claims.StackCheckTraps

/-- R93, R94, R100, R323, R359, R360, R361: what segment loads do and where they stop. -/
def Obligations.SegmentLoads : Prop := Claims.LoadResults ∧ Claims.LoadStops

/-- R393, R93, R94, R323: what segment stores do and where they stop. -/
def Obligations.SegmentStores : Prop := Claims.StoreResults ∧ Claims.StoreStops

/-- R359, R393, R324, R69, R189, R254: loads and stores through a capability on this chip, stores to replicated pages, and loads
and stores that another chip answers. -/
def Obligations.GlobalAccesses : Prop :=
  Claims.GlobalLoads ∧ Claims.GlobalStores ∧ Claims.ReplicatedStores ∧ Claims.RemoteLoads ∧ Claims.RemoteStores

/-- R69, R254, R333: what an access through a capability stops on, and the capability instructions. -/
def Obligations.CapabilityRules : Prop := Claims.CapabilityChecks ∧ Claims.CapabilityForms

/-- R331, R304, R354, R355, R362, R56 to R58, R386: branches, jumps, loops and repeats. -/
def Obligations.ControlFlow : Prop := Claims.BranchResults ∧ Claims.LoopResults ∧ Claims.RepeatResults

/-- R335, R384, R343, R385: CMD, the pops and PUSHD. -/
def Obligations.QueueOperations : Prop :=
  Claims.CommandPush ∧ Claims.QueuePops ∧ Claims.DeferralPush ∧ Claims.RuntimeQueues

/-- R389, R390, R176 to R179, R329, R330: semaphores and barrier objects. -/
def Obligations.Synchronisation : Prop :=
  Claims.SemaphoreResults ∧ Claims.BarrierArrivals ∧ Claims.BarrierWaits ∧ Claims.BarrierLooks ∧ Claims.RuntimeSems

/-- R394, R50, Tables 3.2 to 3.6, 5.3, 10.3, 13.2 to 13.4, 16.1: SYSR and SYSW. -/
def Obligations.SystemRegisters : Prop := Claims.SystemReads ∧ Claims.UserWrites ∧ Claims.SystemWrites ∧ Claims.ControlWrites

/-- R236, R237, R240, R252: taking an exception, from a kernel and from the runtime. -/
def Obligations.TrapEntries : Prop := Claims.TrapEntry ∧ Claims.RuntimeFaults

/-- R241, R242, R245, R246: returns from the runtime and the end of a context. -/
def Obligations.ReturnsAndEnds : Prop := Claims.ReturnResults ∧ Claims.ContextEnd

/-- R269 and the rules of the calls: what each firmware call does and answers. -/
def Obligations.FirmwareResults : Prop := Claims.FirmwareCalls ∧ Claims.FirmwareActions

/-- R269, R272, R92: the launch call, and what a launch makes. -/
def Obligations.LaunchResults : Prop := Claims.LaunchCall ∧ Claims.LaunchResult

/-- R106, R107, R95, R96, R387: SEGOP. -/
def Obligations.SegmentInstructions : Prop := Claims.SegmentDefine ∧ Claims.SegmentControl ∧ Claims.RuntimeSegments

/-- R223, R391, R392, R225, R358, R207 to R209: slot tables, KV operations and mask slots. -/
def Obligations.KvAndMasks : Prop :=
  Claims.SlotTables ∧ Claims.KvOperations ∧ Claims.MaskLoads ∧ Claims.RuntimeTables

/-- R424, R402, R152, R156, R425: shuffles, packing, extraction, BX encodings, online softmax. -/
def Obligations.VectorMoves : Prop := Claims.VectorShuffles ∧ Claims.VectorFormats

/-- R130, R131, R420, R408, R400, R406: reductions of lanes. -/
def Obligations.Reductions : Prop := Claims.VectorReductions ∧ Claims.IntegerReduction

/-- R409, R412, R414, R415, R64, R66, R407, R428: vector loads and stores, gathers, deferral. -/
def Obligations.VectorMemoryResults : Prop := Claims.VectorMemory ∧ Claims.VectorDeferral

/-- R132 to R139: what MMA computes, and where it waits or stops. -/
def Obligations.MmaResults : Prop := Claims.MmaResult ∧ Claims.MmaStops

/-- R141, R142, R143, R369, R132, R254: drains. -/
def Obligations.DrainResult : Prop := Claims.DrainStores ∧ Claims.DrainAnswer

/-- R229 to R232, R339 to R342: the four instructions of the decode engine. -/
def Obligations.DecodeResults : Prop := Claims.DecodeAppend ∧ Claims.DecodeAttention

/-- R34 to R39, R138, R179, R188, R384, R390, R429: ends of waits, probes, the watchdog. -/
def Obligations.WaitResults : Prop := Claims.WaitEnds ∧ Claims.ProbesAndWatchdog

/-- R44, R237, R245, R249, R296: stops of a slot and the completion of a launch. -/
def Obligations.StopsAndCompletion : Prop := Claims.StopResults ∧ Claims.LaunchCompletion

/-- R99 to R103, R189, R194, R254 to R263, R268: the porter, requests of other chips, the fabric, lines. -/
def Obligations.MemoryEvents : Prop := Claims.PorterMoves ∧ Claims.RemoteRequests ∧ Claims.FabricAndLines

/-- R277 to R286, R298: column supply and errors. -/
def Obligations.HardwareEvents : Prop := Claims.ColumnSupply ∧ Claims.ErrorEvents

/-- R264 to R268, R276, R278, R280, R287: bring-up, module reset, partitions. -/
def Obligations.ModuleAndPartitions : Prop := Claims.BringUpTurns ∧ Claims.Partitions

/-- R252, R262, R263, R270 to R276, R438: the host's commands. -/
def Obligations.HostCommands : Prop := Claims.CommandOrder ∧ Claims.CommandResults ∧ Claims.CommandMemory
end

