-- ==== Sys2Proof/Laws/Memory.lean ====
section
/-! SUPPORT. The laws of memory: what a write leaves to be read, and that every operation on byte stores keeps the canonical
form. -/

namespace Sys2Proof.Machine

/-! ## Keyed lists in canonical form -/

theorem canonFrom_mono [BEq α] {d : α} {a b : Nat} (h : a ≤ b) : ∀ {l : List (Nat × α)}, canonFrom d b l = true → canonFrom d a l = true
  | [], _ => rfl
  | (k, v) :: r, hc => by
    simp only [canonFrom, Bool.and_eq_true, decide_eq_true_eq] at hc ⊢
    exact ⟨⟨by omega, hc.1.2⟩, hc.2⟩

/-- A key below the first one is not listed. -/
theorem look_below [BEq α] {d : α} : ∀ {l : List (Nat × α)} {lo n : Nat}, canonFrom d lo l = true → n < lo → look d l n = d
  | [], _, _, _, _ => rfl
  | (k, v) :: r, lo, n, hc, hn => by
    simp only [canonFrom, Bool.and_eq_true, decide_eq_true_eq] at hc
    have hk : n ≠ k := by omega
    rw [look, if_neg hk]
    exact look_below hc.2 (by omega)

/-- A read of a key after a write of a key. -/
theorem look_put [BEq α] [LawfulBEq α] {d : α} (x : α) (n m : Nat) : ∀ {l : List (Nat × α)} {lo : Nat}, canonFrom d lo l = true →
    look d (put d l n x) m = if m = n then x else look d l m
  | [], _, _ => by
    by_cases hx : x = d
    · subst hx; by_cases hm : m = n <;> simp [put, look, hm]
    · have : (x == d) = false := by simpa using hx
      by_cases hm : m = n <;> simp [put, look, hm, this]
  | (k, v) :: r, lo, hc => by
    simp only [canonFrom, Bool.and_eq_true, decide_eq_true_eq] at hc
    by_cases h1 : n < k
    · by_cases hx : x = d
      · subst hx
        simp only [put, h1, if_true, beq_self_eq_true]
        by_cases hm : m = n
        · subst hm
          rw [if_pos rfl, look, if_neg (by omega)]
          exact look_below hc.2 (by omega)
        · rw [if_neg hm]
      · have hb : (x == d) = false := by simpa using hx
        simp only [put, h1, if_true, hb, Bool.false_eq_true, if_false]
        by_cases hm : m = n <;> simp [look, hm]
    · by_cases h2 : n = k
      · subst h2
        by_cases hx : x = d
        · subst hx
          simp only [put, Nat.lt_irrefl, if_false, if_true, beq_self_eq_true]
          by_cases hm : m = n
          · subst hm; rw [if_pos rfl]; exact look_below hc.2 (by omega)
          · rw [if_neg hm, look, if_neg hm]
        · have hb : (x == d) = false := by simpa using hx
          simp only [put, Nat.lt_irrefl, if_false, if_true, hb, Bool.false_eq_true]
          by_cases hm : m = n <;> simp [look, hm]
      · simp only [put, h1, h2, if_false, look]
        by_cases hm : m = k
        · have : m ≠ n := by omega
          simp [hm, show k ≠ n by omega]
        · rw [if_neg hm, if_neg hm, look_put x n m hc.2]

/-- A write keeps the canonical form. -/
theorem canonFrom_put [BEq α] [LawfulBEq α] {d : α} (x : α) (n : Nat) : ∀ {l : List (Nat × α)} {lo : Nat}, lo ≤ n →
    canonFrom d lo l = true → canonFrom d lo (put d l n x) = true
  | [], lo, hn, _ => by
    by_cases hx : x = d
    · simp [put, hx, canonFrom]
    · have hb : (x == d) = false := by simpa using hx
      simp [put, hb, canonFrom, hn]
  | (k, v) :: r, lo, hn, hc => by
    have hc0 := hc
    simp only [canonFrom, Bool.and_eq_true, decide_eq_true_eq] at hc
    by_cases h1 : n < k
    · by_cases hx : x = d
      · simp only [put, h1, if_true, hx, beq_self_eq_true]; exact hc0
      · have hb : (x == d) = false := by simpa using hx
        simp only [put, h1, if_true, hb, Bool.false_eq_true, if_false, canonFrom, Bool.and_eq_true, decide_eq_true_eq]
        exact ⟨⟨hn, by simp⟩, ⟨by omega, hc.1.2⟩, hc.2⟩
    · by_cases h2 : n = k
      · subst h2
        by_cases hx : x = d
        · simp only [put, Nat.lt_irrefl, if_false, if_true, hx, beq_self_eq_true]
          exact canonFrom_mono (by omega) hc.2
        · have hb : (x == d) = false := by simpa using hx
          simp only [put, Nat.lt_irrefl, if_false, if_true, hb, Bool.false_eq_true, canonFrom, Bool.and_eq_true,
            decide_eq_true_eq]
          exact ⟨⟨hn, by simp⟩, hc.2⟩
      · simp only [put, h1, h2, if_false, canonFrom, Bool.and_eq_true, decide_eq_true_eq]
        exact ⟨hc.1, canonFrom_put x n (by omega) hc.2⟩

theorem canonFrom_filter [BEq α] {d : α} (f : Nat × α → Bool) : ∀ {l : List (Nat × α)} {lo : Nat}, canonFrom d lo l = true →
    canonFrom d lo (l.filter f) = true
  | [], _, _ => rfl
  | (k, v) :: r, lo, hc => by
    simp only [canonFrom, Bool.and_eq_true, decide_eq_true_eq] at hc
    have ih := canonFrom_filter f hc.2
    rw [List.filter_cons]
    split
    · simp only [canonFrom, Bool.and_eq_true, decide_eq_true_eq]; exact ⟨hc.1, ih⟩
    · exact canonFrom_mono (by omega) ih

/-- Dropping what an engine may still have read keeps the tiles' canonical form. -/
theorem canonFrom_dropPrior (p : Prior → Bool) : ∀ {l : List (Nat × AccTile)} {lo : Nat}, canonFrom AccTile.reset lo l = true →
    canonFrom AccTile.reset lo (dropPrior p l) = true
  | [], _, _ => rfl
  | (k, v) :: r, lo, hc => by
    simp only [canonFrom, Bool.and_eq_true, decide_eq_true_eq] at hc
    have ih : canonFrom AccTile.reset (k + 1) (dropPrior p r) = true := canonFrom_dropPrior p hc.2
    unfold dropPrior at ih ⊢
    rw [List.map_cons, List.filter_cons]
    split
    · rename_i h
      simp only [decide_eq_true_eq] at h
      simp only [canonFrom, Bool.and_eq_true, decide_eq_true_eq, beq_eq_false_iff_ne, Bool.not_eq_true', ne_eq]
      exact ⟨⟨hc.1.1, h⟩, ih⟩
    · exact canonFrom_mono (by omega) ih

/-! ## Rising lists -/

theorem risingFrom_mono {a b : Nat} (h : a ≤ b) : ∀ {l : List Nat}, risingFrom b l = true → risingFrom a l = true
  | [], _ => rfl
  | k :: r, hc => by
    simp only [risingFrom, Bool.and_eq_true, decide_eq_true_eq] at hc ⊢
    exact ⟨by omega, hc.2⟩

theorem risingFrom_insertN (n : Nat) : ∀ {l : List Nat} {lo : Nat}, lo ≤ n → risingFrom lo l = true →
    risingFrom lo (insertN l n) = true
  | [], lo, hn, _ => by simp [insertN, risingFrom, hn]
  | k :: r, lo, hn, hc => by
    have hc0 := hc
    simp only [risingFrom, Bool.and_eq_true, decide_eq_true_eq] at hc
    by_cases h1 : n < k
    · simp only [insertN, h1, if_true, risingFrom, Bool.and_eq_true, decide_eq_true_eq]
      exact ⟨hn, by omega, hc.2⟩
    · by_cases h2 : n = k
      · simp only [insertN, h2, if_true]; rw [if_neg (Nat.lt_irrefl _)]; exact hc0
      · simp only [insertN, h1, h2, if_false, risingFrom, Bool.and_eq_true, decide_eq_true_eq]
        exact ⟨hc.1, risingFrom_insertN n (by omega) hc.2⟩

theorem risingFrom_eraseN (n : Nat) : ∀ {l : List Nat} {lo : Nat}, risingFrom lo l = true → risingFrom lo (eraseN l n) = true
  | [], _, _ => rfl
  | k :: r, lo, hc => by
    simp only [risingFrom, Bool.and_eq_true, decide_eq_true_eq] at hc
    by_cases h : n = k
    · simp only [eraseN, h, if_true]; exact risingFrom_mono (by omega) hc.2
    · simp only [eraseN, h, if_false, risingFrom, Bool.and_eq_true, decide_eq_true_eq]
      exact ⟨hc.1, risingFrom_eraseN n hc.2⟩

theorem risingFrom_filter (f : Nat → Bool) : ∀ {l : List Nat} {lo : Nat}, risingFrom lo l = true → risingFrom lo (l.filter f) = true
  | [], _, _ => rfl
  | k :: r, lo, hc => by
    simp only [risingFrom, Bool.and_eq_true, decide_eq_true_eq] at hc
    have ih := risingFrom_filter f hc.2
    rw [List.filter_cons]
    split
    · simp only [risingFrom, Bool.and_eq_true, decide_eq_true_eq]; exact ⟨hc.1, ih⟩
    · exact risingFrom_mono (by omega) ih

theorem risingFrom_foldl_insertN (us : List Nat) : ∀ {l : List Nat}, risingFrom 0 l = true → risingFrom 0 (us.foldl insertN l) = true := by
  induction us with
  | nil => exact id
  | cons u r ih => intro l h; exact ih (risingFrom_insertN u (Nat.zero_le _) h)

theorem risingFrom_foldl_eraseN (us : List Nat) : ∀ {l : List Nat}, risingFrom 0 l = true → risingFrom 0 (us.foldl eraseN l) = true := by
  induction us with
  | nil => exact id
  | cons u r ih => intro l h; exact ih (risingFrom_eraseN u h)

/-! ## Bytes -/

theorem memory_wf_writeBytes (bs : List Byte) : ∀ {m : List Host.Cell} {a : Nat}, Memory.wf m = true →
    Memory.wf (writeBytes m a bs) = true := by
  induction bs with
  | nil => exact id
  | cons b r ih => intro m a h; exact ih (canonFrom_put b a (Nat.zero_le _) h)

/-- A byte after a write of bytes: the byte written, or the byte that was there. -/
theorem look_writeBytes (bs : List Byte) : ∀ {m : List Host.Cell} {a : Nat} (n : Nat), Memory.wf m = true →
    look 0 (writeBytes m a bs) n = if a ≤ n ∧ n < a + bs.length then bs.getD (n - a) 0 else look 0 m n := by
  induction bs with
  | nil => intro m a n _; rw [if_neg (by simp only [List.length_nil]; omega)]; rfl
  | cons b r ih =>
    intro m a n h
    rw [writeBytes, ih n (canonFrom_put b a (Nat.zero_le _) h), look_put b a n h]
    simp only [List.length_cons]
    by_cases h1 : n = a
    · subst h1
      rw [if_neg (by omega), if_pos rfl, if_pos (by omega)]
      simp
    · by_cases h2 : a + 1 ≤ n ∧ n < a + 1 + r.length
      · rw [if_pos h2, if_pos (by omega)]
        have : n - a = (n - (a + 1)) + 1 := by omega
        rw [this, List.getD_cons_succ]
      · rw [if_neg h2, if_neg h1, if_neg (by omega)]

theorem readBytes_length (m : List Host.Cell) : ∀ (a n : Nat), (readBytes m a n).length = n
  | _, 0 => rfl
  | a, n + 1 => by simp [readBytes, readBytes_length m (a + 1) n]

theorem readBytes_getD (m : List Host.Cell) : ∀ (a n i : Nat), i < n → (readBytes m a n).getD i 0 = look 0 m (a + i)
  | _, 0, _, h => absurd h (Nat.not_lt_zero _)
  | a, n + 1, 0, _ => by simp [readBytes]
  | a, n + 1, i + 1, h => by
    rw [readBytes, List.getD_cons_succ, readBytes_getD m (a + 1) n i (by omega)]
    congr 1; omega

/-- Reading what a write has just stored gives the bytes stored. -/
theorem readBytes_writeBytes {m : List Host.Cell} (h : Memory.wf m = true) (a : Nat) (bs : List Byte) :
    readBytes (writeBytes m a bs) a bs.length = bs := by
  apply List.ext_getElem
  · exact readBytes_length _ _ _
  · intro i h1 h2
    have e1 := readBytes_getD (writeBytes m a bs) a bs.length i h2
    rw [look_writeBytes bs (a + i) h, if_pos (by omega)] at e1
    simp only [List.getD_eq_getElem?_getD, List.getElem?_eq_getElem h1, Option.getD_some] at e1
    rw [e1]
    simp [h2]

/-- Reading a range that a write does not touch gives what it gave before. -/
theorem readBytes_writeBytes_apart {m : List Host.Cell} (h : Memory.wf m = true) (a : Nat) (bs : List Byte) (b n : Nat)
    (hd : b + n ≤ a ∨ a + bs.length ≤ b) : readBytes (writeBytes m a bs) b n = readBytes m b n := by
  apply List.ext_getElem
  · simp [readBytes_length]
  · intro i h1 h2
    have hi : i < n := by simpa [readBytes_length] using h2
    have e1 := readBytes_getD (writeBytes m a bs) b n i hi
    have e2 := readBytes_getD m b n i hi
    rw [look_writeBytes bs (b + i) h, if_neg (by omega)] at e1
    simp only [List.getD_eq_getElem?_getD, List.getElem?_eq_getElem h1, List.getElem?_eq_getElem h2, Option.getD_some] at e1 e2
    rw [e1, e2]

/-! ## Stores -/

theorem store_wf_iff (m : Store) : m.wf = true ↔ Memory.wf m.bytes = true ∧ risingFrom 0 m.tags = true ∧ risingFrom 0 m.poison = true := by
  simp [Store.wf, and_assoc]

theorem store_wf_empty : Store.wf {} = true := rfl

/-- A write to a store keeps the canonical form. -/
theorem store_wf_write {m : Store} (h : m.wf = true) (a : Nat) (bs : List Byte) (w : Who) : (m.write a bs w).wf = true := by
  rw [store_wf_iff] at h ⊢
  exact ⟨memory_wf_writeBytes bs h.1, risingFrom_foldl_eraseN _ h.2.1, risingFrom_foldl_eraseN _ h.2.2⟩

theorem store_wf_tag {m : Store} (h : m.wf = true) (n : Nat) : Store.wf { m with tags := insertN m.tags n } = true := by
  rw [store_wf_iff] at h ⊢
  exact ⟨h.1, risingFrom_insertN n (Nat.zero_le _) h.2.1, h.2.2⟩

theorem store_wf_poison {m : Store} (h : m.wf = true) (us : List Nat) :
    Store.wf { m with poison := us.foldl insertN m.poison } = true := by
  rw [store_wf_iff] at h ⊢
  exact ⟨h.1, h.2.1, risingFrom_foldl_insertN us h.2.2⟩

theorem store_wf_heal {m : Store} (h : m.wf = true) (us : List Nat) :
    Store.wf { m with poison := us.foldl eraseN m.poison } = true := by
  rw [store_wf_iff] at h ⊢
  exact ⟨h.1, h.2.1, risingFrom_foldl_eraseN us h.2.2⟩

/-- Race records and release tags are no part of the form. -/
theorem store_wf_raceRecord {m : Store} (h : m.wf = true) (r : Race) (t : BitVec 8) (write : Bool) (us : List Nat) :
    (raceRecord r m t write us).wf = true := by
  unfold raceRecord; split <;> exact h

theorem store_wf_dropPage {m : Store} (h : m.wf = true) (pg : Nat) : (m.dropPage pg).wf = true := by
  rw [store_wf_iff] at h ⊢
  exact ⟨canonFrom_filter _ h.1, risingFrom_filter _ h.2.1, risingFrom_filter _ h.2.2⟩

theorem memory_wf_foldl_put (l : List (Nat × Byte)) : ∀ {m : List Host.Cell}, Memory.wf m = true →
    Memory.wf (l.foldl (fun m e => put 0 m e.1 e.2) m) = true := by
  induction l with
  | nil => exact id
  | cons e r ih => intro m h; exact ih (canonFrom_put e.2 e.1 (Nat.zero_le _) h)

theorem store_wf_takePage {m : Store} (h : m.wf = true) (o : Store) (src dst : Nat) : (m.takePage o src dst).wf = true := by
  have hd := (store_wf_iff _).mp (store_wf_dropPage h dst)
  rw [store_wf_iff]
  exact ⟨memory_wf_foldl_put _ hd.1, risingFrom_foldl_insertN _ hd.2.1, risingFrom_foldl_insertN _ hd.2.2⟩

/-- A byte of a store after a write. -/
theorem look_store_write {m : Store} (h : m.wf = true) (a : Nat) (bs : List Byte) (w : Who) (n : Nat) :
    look 0 (m.write a bs w).bytes n = if a ≤ n ∧ n < a + bs.length then bs.getD (n - a) 0 else look 0 m.bytes n :=
  look_writeBytes bs n ((store_wf_iff m).mp h).1

theorem store_read_write {m : Store} (h : m.wf = true) (a : Nat) (bs : List Byte) (w : Who) :
    (m.write a bs w).read a bs.length = bs := readBytes_writeBytes ((store_wf_iff m).mp h).1 a bs

/-- Reset's memory is in canonical form. -/
theorem reset_memWf : State.reset.memWf = true := by decide +kernel

end Sys2Proof.Machine
end

