-- ==== Sys2Proof/Laws/State.lean ====
section
/-! SUPPORT. One lemma for each field and each update of the state, so that no later proof unfolds a record update. -/

namespace Sys2Proof.Machine

/-! ## Vectors indexed by numbers -/

@[simp] theorem vget_vset_same (i : BitVec w) (x : α) (v : Vector α (2 ^ w)) : vget i (vset i x v) = x := by
  simp [vget, vset]

theorem vget_vset_ne {i j : BitVec w} (h : i ≠ j) (x : α) (v : Vector α (2 ^ w)) : vget j (vset i x v) = vget j v := by
  have h2 : i.toNat ≠ j.toNat := fun e => h (BitVec.eq_of_toNat_eq e)
  simp [vget, vset, h2]

theorem vget_vset (i j : BitVec w) (x : α) (v : Vector α (2 ^ w)) :
    vget j (vset i x v) = if i = j then x else vget j v := by
  by_cases h : i = j
  · subst h; simp
  · simp [h, vget_vset_ne h]

@[simp] theorem vset_vset (i : BitVec w) (x y : α) (v : Vector α (2 ^ w)) : vset i y (vset i x v) = vset i y v := by
  simp [vset]

@[simp] theorem vset_vget (i : BitVec w) (v : Vector α (2 ^ w)) : vset i (vget i v) v = v := by
  simp [vset, vget]

/-! ## setTile -/

@[simp] theorem setTile_tower (s : State) (t : BitVec 8) (x : Tile) (w : BitVec 3) : (s.setTile t x).tower w = s.tower w := rfl
@[simp] theorem setTile_tick (s : State) (t : BitVec 8) (x : Tile) : (s.setTile t x).tick = s.tick := rfl
@[simp] theorem setTile_bring (s : State) (t : BitVec 8) (x : Tile) : (s.setTile t x).bring = s.bring := rfl
@[simp] theorem setTile_towers (s : State) (t : BitVec 8) (x : Tile) : (s.setTile t x).towers = s.towers := rfl
@[simp] theorem setTile_parts (s : State) (t : BitVec 8) (x : Tile) : (s.setTile t x).parts = s.parts := rfl
@[simp] theorem setTile_ctxs (s : State) (t : BitVec 8) (x : Tile) : (s.setTile t x).ctxs = s.ctxs := rfl
@[simp] theorem setTile_host (s : State) (t : BitVec 8) (x : Tile) : (s.setTile t x).host = s.host := rfl
@[simp] theorem setTile_cur (s : State) (t : BitVec 8) (x : Tile) : (s.setTile t x).cur = s.cur := rfl
@[simp] theorem setTile_agenda (s : State) (t : BitVec 8) (x : Tile) : (s.setTile t x).agenda = s.agenda := rfl
@[simp] theorem setTile_moves (s : State) (t : BitVec 8) (x : Tile) : (s.setTile t x).moves = s.moves := rfl
@[simp] theorem setTile_fresh (s : State) (t : BitVec 8) (x : Tile) : (s.setTile t x).fresh = s.fresh := rfl

@[simp] theorem tile_setTile_same (s : State) (t : BitVec 8) (x : Tile) : (s.setTile t x).tile t = x :=
  vget_vset_same t x s.tiles

theorem tile_setTile_ne {t u : BitVec 8} (h : t ≠ u) (s : State) (x : Tile) : (s.setTile t x).tile u = s.tile u :=
  vget_vset_ne h x s.tiles

@[simp] theorem setTile_setTile (s : State) (t : BitVec 8) (x y : Tile) : (s.setTile t x).setTile t y = s.setTile t y :=
  congrArg (fun v : Vector Tile 256 => { s with tiles := v }) (vset_vset t x y s.tiles)

@[simp] theorem setTile_tile (s : State) (t : BitVec 8) : s.setTile t (s.tile t) = s :=
  congrArg (fun v : Vector Tile 256 => { s with tiles := v }) (vset_vget t s.tiles)

/-! ## modTile -/

@[simp] theorem modTile_tower (s : State) (t : BitVec 8) (f : Tile → Tile) (w : BitVec 3) :
    (s.modTile t f).tower w = s.tower w := rfl
@[simp] theorem modTile_tick (s : State) (t : BitVec 8) (f : Tile → Tile) : (s.modTile t f).tick = s.tick := rfl
@[simp] theorem modTile_bring (s : State) (t : BitVec 8) (f : Tile → Tile) : (s.modTile t f).bring = s.bring := rfl
@[simp] theorem modTile_towers (s : State) (t : BitVec 8) (f : Tile → Tile) : (s.modTile t f).towers = s.towers := rfl
@[simp] theorem modTile_parts (s : State) (t : BitVec 8) (f : Tile → Tile) : (s.modTile t f).parts = s.parts := rfl
@[simp] theorem modTile_ctxs (s : State) (t : BitVec 8) (f : Tile → Tile) : (s.modTile t f).ctxs = s.ctxs := rfl
@[simp] theorem modTile_host (s : State) (t : BitVec 8) (f : Tile → Tile) : (s.modTile t f).host = s.host := rfl
@[simp] theorem modTile_cur (s : State) (t : BitVec 8) (f : Tile → Tile) : (s.modTile t f).cur = s.cur := rfl
@[simp] theorem modTile_agenda (s : State) (t : BitVec 8) (f : Tile → Tile) : (s.modTile t f).agenda = s.agenda := rfl
@[simp] theorem modTile_moves (s : State) (t : BitVec 8) (f : Tile → Tile) : (s.modTile t f).moves = s.moves := rfl
@[simp] theorem modTile_fresh (s : State) (t : BitVec 8) (f : Tile → Tile) : (s.modTile t f).fresh = s.fresh := rfl

@[simp] theorem tile_modTile_same (s : State) (t : BitVec 8) (f : Tile → Tile) : (s.modTile t f).tile t = f (s.tile t) :=
  tile_setTile_same s t _

theorem tile_modTile_ne {t u : BitVec 8} (h : t ≠ u) (s : State) (f : Tile → Tile) : (s.modTile t f).tile u = s.tile u :=
  tile_setTile_ne h s _

@[simp] theorem modTile_modTile (s : State) (t : BitVec 8) (f g : Tile → Tile) :
    (s.modTile t f).modTile t g = s.modTile t fun x => g (f x) := by
  simp [State.modTile]

theorem modTile_self {s : State} {t : BitVec 8} {f : Tile → Tile} (h : f (s.tile t) = s.tile t) : s.modTile t f = s := by
  rw [State.modTile, h, setTile_tile]

/-! ## setTower and modTower -/

@[simp] theorem setTower_tile (s : State) (t : BitVec 3) (x : Tower) (u : BitVec 8) : (s.setTower t x).tile u = s.tile u := rfl
@[simp] theorem setTower_ctxs (s : State) (t : BitVec 3) (x : Tower) : (s.setTower t x).ctxs = s.ctxs := rfl
@[simp] theorem setTower_parts (s : State) (t : BitVec 3) (x : Tower) : (s.setTower t x).parts = s.parts := rfl
@[simp] theorem setTower_cur (s : State) (t : BitVec 3) (x : Tower) : (s.setTower t x).cur = s.cur := rfl

@[simp] theorem tower_setTower_same (s : State) (t : BitVec 3) (x : Tower) : (s.setTower t x).tower t = x :=
  vget_vset_same t x s.towers

theorem tower_setTower_ne {t u : BitVec 3} (h : t ≠ u) (s : State) (x : Tower) : (s.setTower t x).tower u = s.tower u :=
  vget_vset_ne h x s.towers

@[simp] theorem modTower_tile (s : State) (t : BitVec 3) (f : Tower → Tower) (u : BitVec 8) :
    (s.modTower t f).tile u = s.tile u := rfl
@[simp] theorem modTower_tick (s : State) (t : BitVec 3) (f : Tower → Tower) : (s.modTower t f).tick = s.tick := rfl
@[simp] theorem modTower_tiles (s : State) (t : BitVec 3) (f : Tower → Tower) : (s.modTower t f).tiles = s.tiles := rfl
@[simp] theorem modTower_parts (s : State) (t : BitVec 3) (f : Tower → Tower) : (s.modTower t f).parts = s.parts := rfl
@[simp] theorem modTower_ctxs (s : State) (t : BitVec 3) (f : Tower → Tower) : (s.modTower t f).ctxs = s.ctxs := rfl
@[simp] theorem modTower_host (s : State) (t : BitVec 3) (f : Tower → Tower) : (s.modTower t f).host = s.host := rfl
@[simp] theorem modTower_cur (s : State) (t : BitVec 3) (f : Tower → Tower) : (s.modTower t f).cur = s.cur := rfl
@[simp] theorem modTower_agenda (s : State) (t : BitVec 3) (f : Tower → Tower) : (s.modTower t f).agenda = s.agenda := rfl
@[simp] theorem modTower_moves (s : State) (t : BitVec 3) (f : Tower → Tower) : (s.modTower t f).moves = s.moves := rfl
@[simp] theorem modTower_fresh (s : State) (t : BitVec 3) (f : Tower → Tower) : (s.modTower t f).fresh = s.fresh := rfl

@[simp] theorem tower_modTower_same (s : State) (t : BitVec 3) (f : Tower → Tower) :
    (s.modTower t f).tower t = f (s.tower t) := tower_setTower_same s t _

theorem tower_modTower_ne {t u : BitVec 3} (h : t ≠ u) (s : State) (f : Tower → Tower) :
    (s.modTower t f).tower u = s.tower u := tower_setTower_ne h s _

/-! ## Slots -/

@[simp] theorem slot_setSlot_same (x : Tile) (k : BitVec 2) (y : Slot) : (x.setSlot k y).slot k = y :=
  vget_vset_same k y x.slots

theorem slot_setSlot_ne {k j : BitVec 2} (h : k ≠ j) (x : Tile) (y : Slot) : (x.setSlot k y).slot j = x.slot j :=
  vget_vset_ne h y x.slots

@[simp] theorem tileSetSlot_running (x : Tile) (k : BitVec 2) (y : Slot) : (x.setSlot k y).running = x.running := rfl
@[simp] theorem tileSetSlot_inRuntime (x : Tile) (k : BitVec 2) (y : Slot) : (x.setSlot k y).inRuntime = x.inRuntime := rfl
@[simp] theorem tileSetSlot_tr (x : Tile) (k : BitVec 2) (y : Slot) : (x.setSlot k y).tr = x.tr := rfl
@[simp] theorem tileSetSlot_trctl (x : Tile) (k : BitVec 2) (y : Slot) : (x.setSlot k y).trctl = x.trctl := rfl
@[simp] theorem tileSetSlot_rt (x : Tile) (k : BitVec 2) (y : Slot) : (x.setSlot k y).rt = x.rt := rfl
@[simp] theorem tileSetSlot_rtAgt (x : Tile) (k : BitVec 2) (y : Slot) : (x.setSlot k y).rtAgt = x.rtAgt := rfl
@[simp] theorem tileSetSlot_priv (x : Tile) (k : BitVec 2) (y : Slot) : (x.setSlot k y).priv = x.priv := rfl
@[simp] theorem tileSetSlot_up (x : Tile) (k : BitVec 2) (y : Slot) : (x.setSlot k y).up = x.up := rfl
@[simp] theorem tileSetSlot_acc (x : Tile) (k : BitVec 2) (y : Slot) : (x.setSlot k y).acc = x.acc := rfl
@[simp] theorem tileSetSlot_col (x : Tile) (k : BitVec 2) (y : Slot) : (x.setSlot k y).col = x.col := rfl
@[simp] theorem tileSetSlot_recorder (x : Tile) (k : BitVec 2) (y : Slot) : (x.setSlot k y).recorder = x.recorder := rfl
@[simp] theorem tileSetSlot_stopping (x : Tile) (k : BitVec 2) (y : Slot) : (x.setSlot k y).stopping = x.stopping := rfl

@[simp] theorem tileSetSlot_setSlot (x : Tile) (k : BitVec 2) (y z : Slot) : (x.setSlot k y).setSlot k z = x.setSlot k z :=
  congrArg (fun v : Vector Slot 4 => { x with slots := v }) (vset_vset k y z x.slots)

@[simp] theorem tileSetSlot_slot (x : Tile) (k : BitVec 2) : x.setSlot k (x.slot k) = x :=
  congrArg (fun v : Vector Slot 4 => { x with slots := v }) (vset_vget k x.slots)

@[simp] theorem setSlot_slot_same (s : State) (t : BitVec 8) (k : BitVec 2) (y : Slot) : (s.setSlot t k y).slot t k = y := by
  simp [State.setSlot, State.slot]

@[simp] theorem modSlot_slot_same (s : State) (t : BitVec 8) (k : BitVec 2) (f : Slot → Slot) :
    (s.modSlot t k f).slot t k = f (s.slot t k) := setSlot_slot_same s t k _

theorem modSlot_slot_tile {t u : BitVec 8} (h : t ≠ u) (s : State) (k j : BitVec 2) (f : Slot → Slot) :
    (s.modSlot t k f).slot u j = s.slot u j := by
  simp [State.modSlot, State.setSlot, State.slot, tile_modTile_ne h]

theorem modSlot_slot_slot {k j : BitVec 2} (h : k ≠ j) (s : State) (t u : BitVec 8) (f : Slot → Slot) :
    (s.modSlot t k f).slot u j = s.slot u j := by
  by_cases e : t = u
  · subst e; simp [State.modSlot, State.setSlot, State.slot, slot_setSlot_ne h]
  · exact modSlot_slot_tile e s k j f

@[simp] theorem modSlot_tower (s : State) (t : BitVec 8) (k : BitVec 2) (f : Slot → Slot) (w : BitVec 3) :
    (s.modSlot t k f).tower w = s.tower w := rfl
@[simp] theorem modSlot_towers (s : State) (t : BitVec 8) (k : BitVec 2) (f : Slot → Slot) :
    (s.modSlot t k f).towers = s.towers := rfl
@[simp] theorem modSlot_tick (s : State) (t : BitVec 8) (k : BitVec 2) (f : Slot → Slot) : (s.modSlot t k f).tick = s.tick := rfl
@[simp] theorem modSlot_parts (s : State) (t : BitVec 8) (k : BitVec 2) (f : Slot → Slot) : (s.modSlot t k f).parts = s.parts := rfl
@[simp] theorem modSlot_ctxs (s : State) (t : BitVec 8) (k : BitVec 2) (f : Slot → Slot) : (s.modSlot t k f).ctxs = s.ctxs := rfl
@[simp] theorem modSlot_host (s : State) (t : BitVec 8) (k : BitVec 2) (f : Slot → Slot) : (s.modSlot t k f).host = s.host := rfl
@[simp] theorem modSlot_cur (s : State) (t : BitVec 8) (k : BitVec 2) (f : Slot → Slot) : (s.modSlot t k f).cur = s.cur := rfl
@[simp] theorem modSlot_moves (s : State) (t : BitVec 8) (k : BitVec 2) (f : Slot → Slot) : (s.modSlot t k f).moves = s.moves := rfl
@[simp] theorem modSlot_fresh (s : State) (t : BitVec 8) (k : BitVec 2) (f : Slot → Slot) : (s.modSlot t k f).fresh = s.fresh := rfl
@[simp] theorem modSlot_agenda (s : State) (t : BitVec 8) (k : BitVec 2) (f : Slot → Slot) : (s.modSlot t k f).agenda = s.agenda := rfl

@[simp] theorem modSlot_tile_same (s : State) (t : BitVec 8) (k : BitVec 2) (f : Slot → Slot) :
    (s.modSlot t k f).tile t = (s.tile t).setSlot k (f (s.slot t k)) := by
  simp [State.modSlot, State.setSlot]

theorem modSlot_tile_ne {t u : BitVec 8} (h : t ≠ u) (s : State) (k : BitVec 2) (f : Slot → Slot) :
    (s.modSlot t k f).tile u = s.tile u := tile_modTile_ne h s _

@[simp] theorem modSlot_modSlot (s : State) (t : BitVec 8) (k : BitVec 2) (f g : Slot → Slot) :
    (s.modSlot t k f).modSlot t k g = s.modSlot t k fun x => g (f x) := by
  simp [State.modSlot, State.setSlot, State.modTile, State.slot]

/-- A slot after a change of a slot. -/
theorem slot_modSlot (s : State) (t u : BitVec 8) (k j : BitVec 2) (f : Slot → Slot) :
    (s.modSlot t k f).slot u j = if u = t ∧ j = k then f (s.slot t k) else s.slot u j := by
  by_cases h : t = u
  · subst h
    by_cases e : k = j
    · subst e; simp
    · rw [if_neg (fun x => e x.2.symm), modSlot_slot_slot e]
  · rw [if_neg (fun x => h x.1.symm), modSlot_slot_tile h]

/-- What a change of a slot leaves of a tile. -/
theorem modSlot_tile (s : State) (t u : BitVec 8) (k : BitVec 2) (f : Slot → Slot) :
    (s.modSlot t k f).tile u = if u = t then (s.tile t).setSlot k (f (s.slot t k)) else s.tile u := by
  by_cases h : t = u
  · subst h; simp
  · rw [if_neg (fun x => h x.symm), modSlot_tile_ne h]

@[simp] theorem modSlot_inRt (s : State) (t : BitVec 8) (k : BitVec 2) (f : Slot → Slot) : (s.modSlot t k f).inRt = s.inRt := by
  simp only [State.inRt, modSlot_cur, modSlot_tile]; split <;> simp_all

@[simp] theorem modSlot_curSlot (s : State) (t : BitVec 8) (k : BitVec 2) (f : Slot → Slot) :
    (s.modSlot t k f).curSlot = s.curSlot := by
  simp only [State.curSlot, modSlot_cur, modSlot_tile]; split <;> simp_all

@[simp] theorem modSlot_seqSlot (s : State) (t : BitVec 8) (k : BitVec 2) (f : Slot → Slot) :
    (s.modSlot t k f).seqSlot = s.seqSlot := by
  have h1 : ((s.modSlot t k f).tile s.cur).inRuntime = (s.tile s.cur).inRuntime := by rw [modSlot_tile]; split <;> simp_all
  have h2 : ((s.modSlot t k f).tile s.cur).tr = (s.tile s.cur).tr := by rw [modSlot_tile]; split <;> simp_all
  simp only [State.seqSlot, modSlot_curSlot, modSlot_cur, h1, h2]

theorem modSlot_running (s : State) (t u : BitVec 8) (k : BitVec 2) (f : Slot → Slot) :
    ((s.modSlot t k f).tile u).running = (s.tile u).running := by
  rw [modSlot_tile]; split <;> simp_all

theorem modSlot_inRuntime (s : State) (t u : BitVec 8) (k : BitVec 2) (f : Slot → Slot) :
    ((s.modSlot t k f).tile u).inRuntime = (s.tile u).inRuntime := by
  rw [modSlot_tile]; split <;> simp_all

/-- A change of a slot that leaves its sequencer side leaves the moving sequencer's bank. -/
theorem modSlot_bank {s : State} {t : BitVec 8} {k : BitVec 2} {f : Slot → Slot} (h : (f (s.slot t k)).sq = (s.slot t k).sq) :
    (s.modSlot t k f).bank = s.bank := by
  simp only [State.bank, modSlot_inRt, modSlot_cur, modSlot_curSlot, slot_modSlot, modSlot_tile]
  split
  · split <;> simp_all
  · split
    · rename_i e; rw [h, ← e.1, ← e.2]
    · rfl

theorem modSlot_seqAgt {s : State} {t : BitVec 8} {k : BitVec 2} {f : Slot → Slot} (h : (f (s.slot t k)).sq = (s.slot t k).sq) :
    (s.modSlot t k f).seqAgt = s.seqAgt := by
  simp only [State.seqAgt, modSlot_inRt, modSlot_cur, modSlot_curSlot, slot_modSlot, modSlot_tile]
  split
  · split <;> simp_all
  · split
    · rename_i e; rw [h, ← e.1, ← e.2]
    · rfl

theorem modSlot_self {s : State} {t : BitVec 8} {k : BitVec 2} {f : Slot → Slot} (h : f (s.slot t k) = s.slot t k) :
    s.modSlot t k f = s := by
  rw [State.modSlot, h]
  exact modTile_self (tileSetSlot_slot _ _)

/-! ## The bank of the moving sequencer -/

@[simp] theorem setBank_cur (s : State) (b : Bank) : (s.setBank b).cur = s.cur := by
  unfold State.setBank; split <;> rfl
@[simp] theorem setBank_ctxs (s : State) (b : Bank) : (s.setBank b).ctxs = s.ctxs := by
  unfold State.setBank; split <;> rfl
@[simp] theorem setBank_parts (s : State) (b : Bank) : (s.setBank b).parts = s.parts := by
  unfold State.setBank; split <;> rfl
@[simp] theorem setBank_towers (s : State) (b : Bank) : (s.setBank b).towers = s.towers := by
  unfold State.setBank; split <;> rfl
@[simp] theorem setBank_tower (s : State) (b : Bank) (w : BitVec 3) : (s.setBank b).tower w = s.tower w := by
  unfold State.setBank; split <;> rfl
@[simp] theorem setBank_host (s : State) (b : Bank) : (s.setBank b).host = s.host := by
  unfold State.setBank; split <;> rfl
@[simp] theorem setBank_tick (s : State) (b : Bank) : (s.setBank b).tick = s.tick := by
  unfold State.setBank; split <;> rfl
@[simp] theorem setBank_moves (s : State) (b : Bank) : (s.setBank b).moves = s.moves := by
  unfold State.setBank; split <;> rfl
@[simp] theorem setBank_fresh (s : State) (b : Bank) : (s.setBank b).fresh = s.fresh := by
  unfold State.setBank; split <;> rfl
@[simp] theorem setBank_agenda (s : State) (b : Bank) : (s.setBank b).agenda = s.agenda := by
  unfold State.setBank; split <;> rfl

@[simp] theorem setBank_inRt (s : State) (b : Bank) : (s.setBank b).inRt = s.inRt := by
  unfold State.setBank; split <;> simp [State.inRt]

@[simp] theorem setBank_curSlot (s : State) (b : Bank) : (s.setBank b).curSlot = s.curSlot := by
  unfold State.setBank; split <;> simp [State.curSlot]

@[simp] theorem setBank_seqSlot (s : State) (b : Bank) : (s.setBank b).seqSlot = s.seqSlot := by
  unfold State.setBank; split <;> simp [State.seqSlot, State.curSlot]

@[simp] theorem setBank_bank (s : State) (b : Bank) : (s.setBank b).bank = b := by
  unfold State.bank
  rw [setBank_inRt, setBank_curSlot, setBank_cur]
  unfold State.setBank
  split <;> simp

theorem setBank_of_rt {s : State} (h : s.inRt = true) (b : Bank) : s.setBank b = s.modTile s.cur fun t => { t with rt := b } :=
  if_pos h

theorem setBank_of_slot {s : State} (h : s.inRt = false) (b : Bank) :
    s.setBank b = s.modSlot s.cur s.curSlot fun k => { k with sq := { k.sq with bank := b } } := by
  simp [State.setBank, h]

@[simp] theorem setBank_setBank (s : State) (a b : Bank) : (s.setBank a).setBank b = s.setBank b := by
  by_cases h : s.inRt = true
  · rw [setBank_of_rt (s := s.setBank a) ((setBank_inRt s a).trans h), setBank_cur, setBank_of_rt h, setBank_of_rt h]
    simp
  · simp only [Bool.not_eq_true] at h
    rw [setBank_of_slot (s := s.setBank a) ((setBank_inRt s a).trans h), setBank_cur, setBank_curSlot, setBank_of_slot h,
      setBank_of_slot h]
    simp

@[simp] theorem setBank_same (s : State) : s.setBank s.bank = s := by
  by_cases h : s.inRt = true
  · rw [setBank_of_rt h]
    exact modTile_self (by simp [State.bank, h])
  · simp only [Bool.not_eq_true] at h
    rw [setBank_of_slot h]
    exact modSlot_self (by simp [State.bank, h])

@[simp] theorem setBank_seqAgt (s : State) (b : Bank) : (s.setBank b).seqAgt = s.seqAgt := by
  unfold State.seqAgt
  rw [setBank_inRt, setBank_curSlot, setBank_cur]
  unfold State.setBank
  split <;> simp

theorem modBank_eq (s : State) (f : Bank → Bank) : s.modBank f = s.setBank (f s.bank) := rfl

end Sys2Proof.Machine
end

