-- ==== Sys2Proof/Laws/Run.lean ====
section
/-! SUPPORT. How computations of units run, how sequencer instructions and engine units end: one lemma for each shared
operation. -/

namespace Sys2Proof.Machine

open Sys2Proof.Safety

/-! ## Computations -/

theorem bind_ok {m : M α} {f : α → M β} {s t : State} {a : α} (h : m s = .ok a t) : (m >>= f) s = f a t := by
  simp [bind, EStateM.bind, h]

theorem bind_error {m : M α} {f : α → M β} {s t : State} {e : Stop} (h : m s = .error e t) : (m >>= f) s = .error e t := by
  simp [bind, EStateM.bind, h]

@[simp] theorem run_pure (a : α) (s : State) : (pure a : M α) s = .ok a s := rfl
@[simp] theorem run_get (s : State) : (get : M State) s = .ok s s := rfl
@[simp] theorem run_set (t s : State) : (set t : M Unit) s = .ok () t := rfl
@[simp] theorem run_modS (f : State → State) (s : State) : modS f s = .ok () (f s) := rfl
@[simp] theorem run_fault (c : Cause) (v i : W64) (s : State) : (fault c v i : M α) s = .error (.fault c v i none) s := rfl
@[simp] theorem run_waitFor (o : WaitObj) (s : State) : (waitFor o : M α) s = .error (.wait o) s := rfl

theorem run_faultIf_neg {p : Prop} [Decidable p] (h : ¬p) (c : Cause) (v i : W64) (s : State) :
    faultIf p c v i s = .ok () s := by simp [faultIf, h]

theorem run_faultIf_pos {p : Prop} [Decidable p] (h : p) (c : Cause) (v i : W64) (s : State) :
    faultIf p c v i s = .error (.fault c v i none) s := by simp [faultIf, h]

theorem run_illegalIf_neg {p : Prop} [Decidable p] (h : ¬p) (s : State) : illegalIf p s = .ok () s := by
  simp [illegalIf, h]

@[simp] theorem run_writeG (n : BitVec 5) (v : W64) (s : State) : writeG n v s = .ok () (s.modBank (·.setG n v)) := rfl

@[simp] theorem bind_pure_unit (m : M α) (f : α → M β) (s : State) (a : α) (t : State) (h : m s = .ok a t) :
    (m >>= f) s = f a t := bind_ok h

/-! ## Registers of a bank -/

/-- Different logical numbers name different places (R53). -/
theorem physG_inj (r : BitVec 6) (a b : BitVec 5) (h : physG r a = physG r b) : a = b := by
  have ha := a.isLt
  have hb := b.isLt
  apply BitVec.eq_of_toNat_eq
  unfold physG at h
  split at h <;> split at h
  · rw [h]
  · have := congrArg BitVec.toNat h; simp only [BitVec.toNat_ofNat] at this; omega
  · have := congrArg BitVec.toNat h; simp only [BitVec.toNat_ofNat] at this; omega
  · have := congrArg BitVec.toNat h; simp only [BitVec.toNat_ofNat] at this; omega

theorem physP_inj (r : BitVec 6) (a b : BitVec 3) (h : physP r a = physP r b) : a = b := by
  have ha := a.isLt
  have hb := b.isLt
  have hz : ∀ x : BitVec 3, x ≠ 0 → x.toNat ≠ 0 := fun x hx e => hx (BitVec.eq_of_toNat_eq e)
  have h0 : (0 : BitVec 3).toNat = 0 := rfl
  unfold physP at h
  split at h <;> split at h
  · simp [*]
  · rename_i h1 h2
    have := congrArg BitVec.toNat h; simp only [BitVec.toNat_ofNat, h0] at this; omega
  · rename_i h1 h2
    have := congrArg BitVec.toNat h; simp only [BitVec.toNat_ofNat, h0] at this; omega
  · rename_i h1 h2
    have := hz a h1
    have := hz b h2
    apply BitVec.eq_of_toNat_eq
    have := congrArg BitVec.toNat h; simp only [BitVec.toNat_ofNat] at this; omega

theorem gr_setG (b : Bank) (d n : BitVec 5) (v : W64) : (b.setG d v).gr n = if n = d ∧ d ≠ 0 then v else b.gr n := by
  unfold Bank.setG Bank.gr
  by_cases hd : d = 0
  · simp [hd]
  · by_cases hn : n = 0
    · subst hn
      simp only [hd, if_false, if_true]
      rw [if_neg]
      exact fun e => hd e.1.symm
    · simp only [hd, hn, if_false, not_false_eq_true, and_true, ne_eq]
      by_cases e : n = d
      · subst e; simp
      · rw [if_neg e, vget_vset_ne]
        intro h; exact e (physG_inj _ _ _ h).symm

theorem fr_setF (b : Bank) (d n : BitVec 5) (v : Word) : (b.setF d v).fr n = if n = d then v else b.fr n := by
  unfold Bank.setF Bank.fr
  by_cases e : n = d
  · subst e; simp
  · rw [if_neg e]
    exact vget_vset_ne (fun h => e (physG_inj _ _ _ h).symm) _ _

@[simp] theorem setG_rpt (b : Bank) (d : BitVec 5) (v : W64) : (b.setG d v).rpt = b.rpt := by unfold Bank.setG; split <;> rfl
@[simp] theorem setG_pc (b : Bank) (d : BitVec 5) (v : W64) : (b.setG d v).pc = b.pc := by unfold Bank.setG; split <;> rfl
@[simp] theorem setG_rrb (b : Bank) (d : BitVec 5) (v : W64) : (b.setG d v).rrb = b.rrb := by unfold Bank.setG; split <;> rfl
@[simp] theorem setG_lstat (b : Bank) (d : BitVec 5) (v : W64) : (b.setG d v).lstat = b.lstat := by unfold Bank.setG; split <;> rfl
@[simp] theorem setG_loopOrder (b : Bank) (d : BitVec 5) (v : W64) : (b.setG d v).loopOrder = b.loopOrder := by
  unfold Bank.setG; split <;> rfl
@[simp] theorem setG_loopEnd (b : Bank) (d : BitVec 5) (v : W64) : (b.setG d v).loopEnd = b.loopEnd := by
  unfold Bank.setG; split <;> rfl
@[simp] theorem setG_cap (b : Bank) (d : BitVec 5) (v : W64) : (b.setG d v).cap = b.cap := by unfold Bank.setG; split <;> rfl
@[simp] theorem setG_f (b : Bank) (d : BitVec 5) (v : W64) : (b.setG d v).f = b.f := by unfold Bank.setG; split <;> rfl
@[simp] theorem setG_p (b : Bank) (d : BitVec 5) (v : W64) : (b.setG d v).p = b.p := by unfold Bank.setG; split <;> rfl
@[simp] theorem setG_fpmode (b : Bank) (d : BitVec 5) (v : W64) : (b.setG d v).fpmode = b.fpmode := by
  unfold Bank.setG; split <;> rfl

@[simp] theorem setP_rpt (b : Bank) (d : BitVec 3) (v : Bool) : (b.setP d v).rpt = b.rpt := by unfold Bank.setP; split <;> rfl
@[simp] theorem setP_pc (b : Bank) (d : BitVec 3) (v : Bool) : (b.setP d v).pc = b.pc := by unfold Bank.setP; split <;> rfl
@[simp] theorem setP_lstat (b : Bank) (d : BitVec 3) (v : Bool) : (b.setP d v).lstat = b.lstat := by unfold Bank.setP; split <;> rfl
@[simp] theorem setP_loopOrder (b : Bank) (d : BitVec 3) (v : Bool) : (b.setP d v).loopOrder = b.loopOrder := by
  unfold Bank.setP; split <;> rfl
@[simp] theorem setP_loopEnd (b : Bank) (d : BitVec 3) (v : Bool) : (b.setP d v).loopEnd = b.loopEnd := by
  unfold Bank.setP; split <;> rfl

/-! ## Retiring -/

theorem loopEnds_none (s : State) (pc : W64) (l : List (BitVec 2))
    (h : ∀ n ∈ l, lsAct s.bank.lstat n = true → vget n s.bank.loopEnd ≠ pc) : s.loopEnds [pc] false l = s := by
  induction l with
  | nil => rfl
  | cons n r ih =>
    have hn := h n (by simp)
    have : lsAct s.bank.lstat n = false ∨ [pc].contains (vget n s.bank.loopEnd) = false := by
      cases e : lsAct s.bank.lstat n with
      | false => exact .inl rfl
      | true => exact .inr (by simpa using hn e)
    rw [State.loopEnds, if_pos this]
    exact ih fun m hm => h m (by simp [hm])

/-- An instruction that no rpt repeats and after which no pass ends goes on to the next word. -/
theorem retire_setBank (s : State) (b : Bank) (h : b.rpt = none) (hp : NoPassEnd b) : (s.setBank b).retire = onward s b := by
  rw [State.retire, setBank_bank, h]
  simp only [State.advance, setBank_bank, setBank_setBank]
  rw [loopEnds_none]
  · rfl
  · intro n hn ha
    rw [setBank_bank] at ha ⊢
    exact hp n hn ha

theorem retire_plain (s : State) (h : s.bank.rpt = none) (hp : NoPassEnd s.bank) : s.retire = onward s s.bank := by
  have := retire_setBank s s.bank h hp
  rwa [setBank_same] at this

/-! ## Register instructions -/

theorem seqReg_off (q : BitVec 3) (s : State) (f : Bank → Bank) (hq : s.bank.pr q = false) : seqReg q s f = .next s.retire := by
  simp [seqReg, hq]

theorem seqReg_plain (q : BitVec 3) (s : State) (f : Bank → Bank) (hq : s.bank.pr q = true)
    (h : (f s.bank).rpt = none) (hp : NoPassEnd (f s.bank)) : seqReg q s f = .next (onward s (f s.bank)) := by
  rw [seqReg, if_pos hq, modBank_eq, retire_setBank s _ h hp]

theorem noPassEnd_of_eq {a b : Bank} (h : NoPassEnd a) (h1 : b.loopOrder = a.loopOrder) (h2 : b.lstat = a.lstat)
    (h3 : b.loopEnd = a.loopEnd) (h4 : b.pc = a.pc) : NoPassEnd b := by
  unfold NoPassEnd at *
  rw [h1, h2, h3, h4]
  exact h

/-! ## The moving sequencer as an agent -/

@[simp] theorem myAgt_seqMe (s : State) : s.myAgt s.seqMe = s.seqAgt := by
  unfold State.myAgt State.seqMe State.seqAgt State.inRt State.seqSlot
  by_cases h : (s.tile s.cur).inRuntime = true
  · simp [h]
  · simp [h, State.agt]

theorem setMyAgt_seqMe (s : State) (a : Agt) : s.setMyAgt s.seqMe a = s.setSeqAgt a := by
  unfold State.setMyAgt State.seqMe State.setSeqAgt State.inRt State.seqSlot
  by_cases h : (s.tile s.cur).inRuntime = true
  · simp [h]
  · simp [h, State.setAgt]

theorem setSeqAgt_same (s : State) : s.setSeqAgt s.seqAgt = s := by
  unfold State.setSeqAgt State.seqAgt
  by_cases h : s.inRt = true
  · rw [if_pos h, if_pos h]; exact modTile_self rfl
  · rw [if_neg h, if_neg h]; exact modSlot_self rfl

theorem endMyWait_rest (s : State) (w : Who) (h : s.seqAgt.wait = none) : s.endMyWait s.seqMe w = s := by
  simp [State.endMyWait, h]

theorem clearRemote_rest (s : State) (h : AtRest s.seqAgt) : s.clearRemote s.seqMe = s := by
  obtain ⟨h1, h2, h3, h4, h5, h6, h7, h8⟩ := h
  unfold State.clearRemote
  simp only [endMyWait_rest s noWho h1]
  rw [setMyAgt_seqMe, myAgt_seqMe]
  have : ({ s.seqAgt with
      got := [], pend := none, used := 0, absent := none, tested := false, out := none, layers := none } : Agt) = s.seqAgt := by
    rw [← h2, ← h3, ← h4, ← h5, ← h6, ← h7, ← h8]
  rw [this, setSeqAgt_same]

theorem startSeq_rest (s : State) (h : AtRest s.seqAgt) : s.startSeq = s := by
  have : ({ s.seqAgt with used := 0 } : Agt) = s.seqAgt := by rw [← h.2.2.2.1]
  rw [State.startSeq, this, setSeqAgt_same]

/-- A sequencer computation under its predicate that ends well retires. -/
theorem seqM_ok {q : BitVec 3} {s t : State} {m : M Unit} (hq : s.bank.pr q = true) (hs : AtRest s.seqAgt)
    (hm : m s = .ok () t) (ht : AtRest t.seqAgt) : seqM q s m = .next t.retire := by
  rw [seqM, if_pos hq, startSeq_rest s hs, hm]
  simp only [seqEnd]
  rw [clearRemote_rest t ht]

theorem seqM_off {q : BitVec 3} {s : State} {m : M Unit} (hq : s.bank.pr q = false) : seqM q s m = .next s.retire := by
  simp [seqM, hq]

theorem seqJ_ok {q : BitVec 3} {s t : State} {m : M Unit} (hq : s.bank.pr q = true) (hs : AtRest s.seqAgt)
    (hm : m s = .ok () t) : seqJ q s m = .next t := by
  rw [seqJ, if_pos hq, startSeq_rest s hs, hm]

theorem seqJ_off {q : BitVec 3} {s : State} {m : M Unit} (hq : s.bank.pr q = false) : seqJ q s m = .next s.retire := by
  simp [seqJ, hq]

/-- A sequencer computation that only writes the bank. -/
theorem seqM_bank {q : BitVec 3} {s : State} {m : M Unit} {b : Bank} (hq : s.bank.pr q = true) (hs : AtRest s.seqAgt)
    (hm : m s = .ok () (s.setBank b)) (hr : b.rpt = none) (hp : NoPassEnd b) : seqM q s m = .next (onward s b) := by
  rw [seqM_ok hq hs hm (by rw [setBank_seqAgt]; exact hs), retire_setBank s b hr hp]

end Sys2Proof.Machine
end

