-- ==== Sys2Proof/Laws/Access.lean ====
section
/-! SUPPORT. What accesses to segments do (R94, R98, R193, R323, R393): one lemma for each shared operation. -/

namespace Sys2Proof.Machine

open Sys2Proof.Safety

/-- A segment found by number has that number. -/
theorem slot_seg_num {k : Slot} {n : BitVec 12} {g : Segment} (h : k.seg n = some g) : g.num = n := by
  have := List.find?_some h
  simpa using this

theorem findSeg_num {s : State} {m : Me} {n : BitVec 12} {t : BitVec 8} {k : BitVec 2} {g : Segment}
    (h : s.findSeg m n = some (t, k, g)) : g.num = n := by
  unfold State.findSeg at h
  split at h
  · cases h
  · split at h
    · rename_i x hx
      cases h
      exact slot_seg_num hx
    · split at h
      · cases h
      · obtain ⟨u, _, hu⟩ := List.exists_of_findSome?_eq_some h
        split at hu
        · cases hu
        · split at hu
          · cases hu
          · split at hu
            · rename_i x hx
              split at hu
              · cases hu; exact slot_seg_num hx
              · cases hu
            · cases hu

/-- The segment found stands in the slot that is named. -/
theorem findSeg_slot {s : State} {m : Me} {n : BitVec 12} {t : BitVec 8} {k : BitVec 2} {g : Segment}
    (h : s.findSeg m n = some (t, k, g)) : (s.slot t k).seg n = some g := by
  unfold State.findSeg at h
  split at h
  · cases h
  · split at h
    · rename_i x hx
      cases h
      exact hx
    · split at h
      · cases h
      · obtain ⟨u, _, hu⟩ := List.exists_of_findSome?_eq_some h
        split at hu
        · cases hu
        · split at hu
          · cases hu
          · split at hu
            · rename_i x hx
              split at hu
              · cases hu; exact hx
              · cases hu
            · cases hu

/-- Checks 1 to 4 of R94 pass. -/
theorem run_segCheck {s : State} {m : Me} {p : W64} {n align : Nat} {w r : Bool} {t : BitVec 8} {k : BitVec 2} {g : Segment}
    (h : Reachable s m p n align w r t k g) : segCheck m p n align s = .ok (⟨t, k, g.num, ptrOff p⟩, g) s := by
  unfold segCheck
  rw [bind_ok (run_faultIf_neg (by simp [h.mid]) ..), bind_ok (run_get s)]
  simp only [h.live]
  rw [bind_ok (run_faultIf_neg (by have := h.holds; omega) ..), bind_ok (run_faultIf_neg ?_ ..)]
  · rfl
  · intro ⟨h1, h2⟩
    cases h.aligned with
    | inl e => exact h1 e
    | inr e => exact h2 e

/-- The state after an access that passed: a sweep counts it (R194), the touch (R98), the race record (R193). -/
def accessed (s : State) (m : Me) (r : SegRef) (g : Segment) (n : Nat) (write race : Bool) : State :=
  let s0 := if g.check && race && !s.raceOn m then s.raceSupp m else s
  let s1 := s0.touch r
  if g.check && race && s1.raceOn m then
    s1.modSegStore r fun x => raceRecord (s1.slot m.tile m.slot).race x m.tile write (unitsOf 64 r.off n)
  else s1

theorem run_raceCheck_ok {s : State} {m : Me} {g : Segment} {p : W64} {a n : Nat} {w : Bool}
    (h : s.raceOn m = true → raceFind (s.slot m.tile m.slot).race g.store m.tile w (unitsOf 64 a n) = none) :
    raceCheck m g.store p a n w s = .ok () (if s.raceOn m then s else s.raceSupp m) := by
  unfold raceCheck
  rw [bind_ok (run_get s)]
  by_cases e : s.raceOn m = true
  · simp only [e, if_true]
    unfold raceRange
    rw [bind_ok (run_get s), h e]
    rfl
  · simp [e]

theorem run_modIf (c : Bool) (f : State → State) (s : State) :
    (if c = true then modS f else pure ()) s = .ok () (if c = true then f s else s) := by
  split <;> rfl

theorem run_resident {m : Option Me} {t : BitVec 8} {k : BitVec 2} {g : Segment} (h : g.state = .resident) (s : State) :
    resident m t k g s = .ok () s := by
  simp [resident, h]

theorem run_segUse {s : State} {m : Me} {p : W64} {n : Nat} {w r : Bool} {q : SegRef} {g : Segment}
    (hrace : g.check = true → r = true → s.raceOn m = true →
      raceFind (s.slot m.tile m.slot).race g.store m.tile w (unitsOf 64 q.off n) = none)
    (hres : g.state = .resident) : segUse m p q g n w r s = .ok () (accessed s m q g n w r) := by
  unfold segUse accessed
  by_cases h : (g.check && r) = true
  · have h1 : g.check = true := by simp_all
    have h2 : r = true := by simp_all
    simp only [h1, h2, Bool.and_self, if_true]
    rw [bind_ok (run_raceCheck_ok (hrace h1 h2)), bind_ok (run_resident hres _), bind_ok (run_modS _ _), bind_ok (run_get _)]
    rw [run_modIf]
    by_cases e : s.raceOn m = true
    · simp [e]
    · simp only [Bool.not_eq_true] at e
      simp [e]
  · have h0 : (g.check && r) = false := by simpa using h
    simp only [h0, Bool.false_and, Bool.false_eq_true, if_false]
    rw [bind_ok (run_resident hres _), bind_ok (run_modS _ _), bind_ok (run_get _)]
    rfl

/-- An access that meets what R94, R193 and R100 ask passes. -/
theorem run_segAccess {s : State} {m : Me} {p : W64} {n align : Nat} {w r : Bool} {t : BitVec 8} {k : BitVec 2} {g : Segment}
    (h : Reachable s m p n align w r t k g) :
    segAccess m p n align w r s = .ok ⟨t, k, g.num, ptrOff p⟩ (accessed s m ⟨t, k, g.num, ptrOff p⟩ g n w r) := by
  unfold segAccess
  rw [bind_ok (run_segCheck h)]
  simp only
  rw [bind_ok (run_segUse h.norace h.resident)]
  rfl

/-! ## What an access leaves -/

@[simp] theorem modSeg_bank (s : State) (t : BitVec 8) (k : BitVec 2) (n : BitVec 12) (f : Segment → Segment) :
    (s.modSeg t k n f).bank = s.bank := modSlot_bank rfl
@[simp] theorem modSeg_seqAgt (s : State) (t : BitVec 8) (k : BitVec 2) (n : BitVec 12) (f : Segment → Segment) :
    (s.modSeg t k n f).seqAgt = s.seqAgt := modSlot_seqAgt rfl
@[simp] theorem modSeg_cur (s : State) (t : BitVec 8) (k : BitVec 2) (n : BitVec 12) (f : Segment → Segment) :
    (s.modSeg t k n f).cur = s.cur := rfl
@[simp] theorem modSeg_seqMe (s : State) (t : BitVec 8) (k : BitVec 2) (n : BitVec 12) (f : Segment → Segment) :
    (s.modSeg t k n f).seqMe = s.seqMe := by simp [State.seqMe, State.modSeg]
@[simp] theorem modSeg_tower (s : State) (t : BitVec 8) (k : BitVec 2) (n : BitVec 12) (f : Segment → Segment) (w : BitVec 3) :
    (s.modSeg t k n f).tower w = s.tower w := rfl

@[simp] theorem raceSupp_bank (s : State) (m : Me) : (s.raceSupp m).bank = s.bank := by
  unfold State.raceSupp; split
  · exact modSlot_bank rfl
  · rfl
@[simp] theorem raceSupp_seqAgt (s : State) (m : Me) : (s.raceSupp m).seqAgt = s.seqAgt := by
  unfold State.raceSupp; split
  · exact modSlot_seqAgt rfl
  · rfl
@[simp] theorem raceSupp_cur (s : State) (m : Me) : (s.raceSupp m).cur = s.cur := by unfold State.raceSupp; split <;> rfl
@[simp] theorem raceSupp_seqMe (s : State) (m : Me) : (s.raceSupp m).seqMe = s.seqMe := by
  unfold State.raceSupp; split
  · simp [State.seqMe]
  · rfl
@[simp] theorem raceSupp_tower (s : State) (m : Me) (w : BitVec 3) : (s.raceSupp m).tower w = s.tower w := by
  unfold State.raceSupp; split <;> rfl

theorem accessed_bank (s : State) (m : Me) (r : SegRef) (g : Segment) (n : Nat) (w x : Bool) :
    (accessed s m r g n w x).bank = s.bank := by
  unfold accessed; simp only [State.touch, State.modSegStore]
  split <;> split <;> simp

theorem accessed_seqAgt (s : State) (m : Me) (r : SegRef) (g : Segment) (n : Nat) (w x : Bool) :
    (accessed s m r g n w x).seqAgt = s.seqAgt := by
  unfold accessed; simp only [State.touch, State.modSegStore]
  split <;> split <;> simp

theorem accessed_cur (s : State) (m : Me) (r : SegRef) (g : Segment) (n : Nat) (w x : Bool) :
    (accessed s m r g n w x).cur = s.cur := by
  unfold accessed; simp only [State.touch, State.modSegStore]
  split <;> split <;> simp

theorem accessed_seqMe (s : State) (m : Me) (r : SegRef) (g : Segment) (n : Nat) (w x : Bool) :
    (accessed s m r g n w x).seqMe = s.seqMe := by
  unfold accessed; simp only [State.touch, State.modSegStore]
  split <;> split <;> simp

/-! ## Memory through the state -/

theorem sameMemory_refl (s : State) : SameMemory s s := ⟨fun _ _ _ _ => rfl, fun _ _ => rfl, fun _ _ => rfl⟩

theorem sameMemory_trans {s t u : State} (h : SameMemory s t) (g : SameMemory t u) : SameMemory s u :=
  ⟨fun a b c d => (g.seg a b c d).trans (h.seg a b c d), fun a b => (g.layer a b).trans (h.layer a b),
   fun a b => (g.gddr a b).trans (h.gddr a b)⟩

/-- A segment of a list after a change of one of them. -/
theorem find_modSegs (f : Segment → Segment) (hf : ∀ g, (f g).num = g.num) (n m : BitVec 12) : ∀ l : List Segment,
    (modSegs l n f).find? (·.num == m) = (l.find? (·.num == m)).map fun g => if g.num == n then f g else g
  | [] => rfl
  | g :: r => by
    have ih := find_modSegs f hf n m r
    unfold modSegs at ih ⊢
    simp only [List.map_cons, List.find?_cons]
    have : ((if (g.num == n) = true then f g else g).num == m) = (g.num == m) := by split <;> simp [hf]
    rw [this]
    split
    · simp
    · exact ih

theorem slot_seg_modSeg (s : State) (t u : BitVec 8) (k j : BitVec 2) (n m : BitVec 12) (f : Segment → Segment)
    (hf : ∀ g, (f g).num = g.num) : ((s.modSeg t k n f).slot u j).seg m =
      if u = t ∧ j = k ∧ m = n then ((s.slot u j).seg m).map f else (s.slot u j).seg m := by
  unfold State.modSeg
  rw [slot_modSlot]
  by_cases h : u = t ∧ j = k
  · obtain ⟨rfl, rfl⟩ := h
    simp only [and_self, if_true, true_and]
    have e := find_modSegs f hf n m (s.slot u j).mem.segs
    unfold Slot.seg
    rw [e]
    cases hh : (s.slot u j).mem.segs.find? (·.num == m) with
    | none => simp
    | some g =>
      have hg : g.num = m := slot_seg_num (k := s.slot u j) hh
      by_cases hm : m = n <;> simp [hg, hm]
  · rw [if_neg h, if_neg (fun x => h ⟨x.1, x.2.1⟩)]

theorem slot_seg_mod_same {s : State} (r : SegRef) {g : Segment} (f : Segment → Segment)
    (h : (s.slot r.tile r.slot).seg r.num = some g) (hf : ∀ x, (f x).num = x.num) :
    ((s.modSeg r.tile r.slot r.num f).slot r.tile r.slot).seg r.num = some (f g) := by
  rw [slot_seg_modSeg s _ _ _ _ _ _ f hf, if_pos ⟨rfl, rfl, rfl⟩, h]
  rfl

theorem segStore_of_seg {s : State} {r : SegRef} {g : Segment} (h : (s.slot r.tile r.slot).seg r.num = some g) :
    s.segStore r = g.store := by
  simp [State.segStore, h]

/-- A change of a slot that leaves its segments leaves memory. -/
theorem sameMemory_modSlot {s : State} {t : BitVec 8} {k : BitVec 2} {f : Slot → Slot}
    (h : (f (s.slot t k)).mem.segs = (s.slot t k).mem.segs) : SameMemory s (s.modSlot t k f) :=
  ⟨fun u j n a => by
    rw [slot_modSlot]
    split
    · rename_i e; obtain ⟨rfl, rfl⟩ := e; simp only [Slot.seg, h]
    · rfl, fun _ _ => rfl, fun _ _ => rfl⟩

/-- A change of a segment that leaves its bytes leaves memory. -/
theorem sameMemory_modSeg {s : State} {t : BitVec 8} {k : BitVec 2} {n : BitVec 12} {f : Segment → Segment}
    (hf : ∀ g, (f g).num = g.num) (hb : ∀ g, (f g).store.bytes = g.store.bytes) : SameMemory s (s.modSeg t k n f) :=
  ⟨fun u j m a => by
    rw [slot_seg_modSeg s t u k j n m f hf]
    split
    · cases (s.slot u j).seg m <;> simp [hb]
    · rfl, fun _ _ => rfl, fun _ _ => rfl⟩

theorem sameMemory_raceSupp (s : State) (m : Me) : SameMemory s (s.raceSupp m) := by
  unfold State.raceSupp; split
  · exact sameMemory_modSlot rfl
  · exact sameMemory_refl s

theorem raceRecord_bytes (r : Race) (m : Store) (t : BitVec 8) (w : Bool) (us : List Nat) : (raceRecord r m t w us).bytes = m.bytes := by
  unfold raceRecord; split <;> rfl

theorem sameMemory_accessed (s : State) (m : Me) (r : SegRef) (g : Segment) (n : Nat) (w x : Bool) :
    SameMemory s (accessed s m r g n w x) := by
  unfold accessed
  simp only
  have h0 : SameMemory s (if g.check && x && !s.raceOn m then s.raceSupp m else s) := by
    split
    · exact sameMemory_raceSupp s m
    · exact sameMemory_refl s
  have h1 : ∀ u : State, SameMemory u (u.touch r) := fun u => sameMemory_modSeg (fun _ => rfl) (fun _ => rfl)
  generalize (if g.check && x && !s.raceOn m then s.raceSupp m else s) = u at h0 ⊢
  have h2 := sameMemory_trans h0 (h1 u)
  split
  · exact sameMemory_trans h2 (sameMemory_modSeg (f := fun z => { z with
      store := raceRecord ((u.touch r).slot m.tile m.slot).race z.store m.tile w (unitsOf 64 r.off n) })
      (fun _ => rfl) (fun z => raceRecord_bytes ..))
  · exact h2

theorem sameMemory_setBank (s : State) (b : Bank) : SameMemory s (s.setBank b) := by
  by_cases h : s.inRt = true
  · rw [setBank_of_rt h]
    refine ⟨fun u k n a => ?_, fun _ _ => rfl, fun _ _ => rfl⟩
    by_cases e : s.cur = u
    · subst e; simp [State.slot, Tile.slot]
    · simp [State.slot, tile_modTile_ne e]
  · simp only [Bool.not_eq_true] at h
    rw [setBank_of_slot h]
    exact sameMemory_modSlot rfl

/-! ## Reads and writes -/

theorem accessed_store (s : State) (m : Me) (r : SegRef) (g : Segment) (n : Nat) (w x : Bool)
    (h : (s.slot r.tile r.slot).seg r.num = some g) :
    ((accessed s m r g n w x).segStore r).bytes = g.store.bytes ∧ ((accessed s m r g n w x).segStore r).poison = g.store.poison ∧
    ((accessed s m r g n w x).segStore r).tags = g.store.tags := by
  have h1 : ((if g.check && x && !s.raceOn m then s.raceSupp m else s).slot r.tile r.slot).seg r.num = some g := by
    split
    · unfold State.raceSupp
      split
      · rw [slot_modSlot]; split
        · rename_i e; obtain ⟨e1, e2⟩ := e; simp only [Slot.seg]; rw [← e1, ← e2]; exact h
        · exact h
      · exact h
    · exact h
  unfold accessed
  generalize (if g.check && x && !s.raceOn m then s.raceSupp m else s) = u at h1
  have h2 : ((u.touch r).slot r.tile r.slot).seg r.num = some { g with touch := u.moves } :=
    slot_seg_mod_same _ _ h1 (fun _ => rfl)
  simp only
  split
  · have h3 := slot_seg_mod_same r (fun z => { z with
      store := raceRecord ((u.touch r).slot m.tile m.slot).race z.store m.tile w (unitsOf 64 r.off n) }) h2 (fun _ => rfl)
    have h4 := segStore_of_seg h3
    unfold State.modSegStore
    rw [h4]
    refine ⟨raceRecord_bytes .., ?_, ?_⟩
    · simp only; unfold raceRecord; split <;> rfl
    · simp only; unfold raceRecord; split <;> rfl
  · rw [segStore_of_seg h2]
    exact ⟨rfl, rfl, rfl⟩

/-- A read that passes answers the bytes of the segment and changes only the bookkeeping of the access (R323, R251). -/
theorem run_segRead {s : State} {m : Me} {p : W64} {n align : Nat} {t : BitVec 8} {k : BitVec 2} {g : Segment}
    (h : Reachable s m p n align false true t k g) (hp : g.store.poisoned (ptrOff p) n = []) :
    segRead m p n align s = .ok (g.store.read (ptrOff p) n) (accessed s m ⟨t, k, g.num, ptrOff p⟩ g n false true) := by
  have hg : (s.slot t k).seg g.num = some g := by
    have := findSeg_slot h.live
    rwa [← findSeg_num h.live] at this
  have e := accessed_store s m ⟨t, k, g.num, ptrOff p⟩ g n false true hg
  unfold segRead
  rw [bind_ok (run_get _), bind_ok (run_segAccess h), bind_ok (run_get _)]
  have hz : ((accessed s m ⟨t, k, g.num, ptrOff p⟩ g n false true).segPoison ⟨t, k, g.num, ptrOff p⟩ n).isEmpty = true := by
    unfold State.segPoison
    have : ∀ a b : Store, a.poison = b.poison → a.poisoned (ptrOff p) n = b.poisoned (ptrOff p) n := by
      intro a b hab; simp [Store.poisoned, hab]
    rw [this _ _ e.2.1, hp]
    rfl
  simp only [hz, Bool.not_true, Bool.false_eq_true, if_false]
  rw [bind_ok (run_get _)]
  have : ∀ a b : Store, a.bytes = b.bytes → a.read (ptrOff p) n = b.read (ptrOff p) n := by
    intro a b hab; simp [Store.read, hab]
  rw [this _ _ e.1]
  rfl

/-- The state after a write that passes. -/
def stored (s : State) (m : Me) (r : SegRef) (g : Segment) (bs : List Byte) (race : Bool) : State :=
  let s1 := accessed s m r g bs.length true race
  s1.modSegStore r fun x => x.write r.off bs (s1.who m)

/-- A write that passes (R323, R393). -/
theorem run_segWrite {s : State} {m : Me} {p : W64} {bs : List Byte} {align : Nat} {t : BitVec 8} {k : BitVec 2} {g : Segment}
    (h : Reachable s m p bs.length align true true t k g) (hp : g.store.partPoison (ptrOff p) bs.length = []) :
    segWrite m p bs align s = .ok () (stored s m ⟨t, k, g.num, ptrOff p⟩ g bs true) := by
  have hg : (s.slot t k).seg g.num = some g := by
    have := findSeg_slot h.live
    rwa [← findSeg_num h.live] at this
  have e := accessed_store s m ⟨t, k, g.num, ptrOff p⟩ g bs.length true true hg
  unfold segWrite segPartPoison
  rw [bind_ok (run_get _), bind_ok (run_segAccess h)]
  have hz : (((accessed s m ⟨t, k, g.num, ptrOff p⟩ g bs.length true true).segStore ⟨t, k, g.num, ptrOff p⟩).partPoison
      (ptrOff p) bs.length).isEmpty = true := by
    have : ∀ a b : Store, a.poison = b.poison → a.partPoison (ptrOff p) bs.length = b.partPoison (ptrOff p) bs.length := by
      intro a b hab; simp [Store.partPoison, Store.poisoned, hab]
    rw [this _ _ e.2.1, hp]
    rfl
  rw [bind_ok (a := ()) (t := accessed s m ⟨t, k, g.num, ptrOff p⟩ g bs.length true true)]
  · rfl
  · rw [bind_ok (run_get _)]
    simp [hz]

theorem stored_bank (s : State) (m : Me) (r : SegRef) (g : Segment) (bs : List Byte) (x : Bool) :
    (stored s m r g bs x).bank = s.bank := by
  unfold stored State.modSegStore; simp [accessed_bank]

theorem stored_seqAgt (s : State) (m : Me) (r : SegRef) (g : Segment) (bs : List Byte) (x : Bool) :
    (stored s m r g bs x).seqAgt = s.seqAgt := by
  unfold stored State.modSegStore; simp [accessed_seqAgt]

end Sys2Proof.Machine
end

