-- ==== Sys2Proof/Laws/Bus.lean ====
section
/-! SUPPORT. The parity groups of a beat of the vertical bus (R283, R284): what fails is that of the lanes that arrived wrong. -/

namespace Sys2Proof.Machine

theorem parityOf_from (l : List Nat) (x : BitVec w) (p : Bool) :
    l.foldl (fun p i => p != x.getLsbD i) p = (p != parityOf l x) := by
  induction l generalizing p with
  | nil => simp [parityOf]
  | cons i l ih =>
    simp only [parityOf, List.foldl_cons]
    rw [ih, ih]
    cases p <;> cases x.getLsbD i <;> cases parityOf l x <;> rfl

theorem parityOf_cons (i : Nat) (l : List Nat) (x : BitVec w) : parityOf (i :: l) x = (x.getLsbD i != parityOf l x) := by
  rw [parityOf, List.foldl_cons, parityOf_from]
  cases x.getLsbD i <;> rfl

theorem parityOf_xor (l : List Nat) (x y : BitVec w) : parityOf l (x ^^^ y) = (parityOf l x != parityOf l y) := by
  induction l with
  | nil => rfl
  | cons i l ih =>
    rw [parityOf_cons, parityOf_cons, parityOf_cons, ih, BitVec.getLsbD_xor]
    cases x.getLsbD i <;> cases y.getLsbD i <;> cases parityOf l x <;> cases parityOf l y <;> rfl

theorem busParity_xor (x y : BitVec 128) : busParity (x ^^^ y) = busParity x ^^^ busParity y := by
  simp only [busParity, parityOf_xor, show List.range 4 = [0, 1, 2, 3] from rfl, List.foldl_cons, List.foldl_nil]
  generalize parityOf ((List.range 32).map (32 * 0 + ·)) x = a0
  generalize parityOf ((List.range 32).map (32 * 1 + ·)) x = a1
  generalize parityOf ((List.range 32).map (32 * 2 + ·)) x = a2
  generalize parityOf ((List.range 32).map (32 * 3 + ·)) x = a3
  generalize parityOf ((List.range 32).map (32 * 0 + ·)) y = b0
  generalize parityOf ((List.range 32).map (32 * 1 + ·)) y = b1
  generalize parityOf ((List.range 32).map (32 * 2 + ·)) y = b2
  generalize parityOf ((List.range 32).map (32 * 3 + ·)) y = b3
  revert a0 a1 a2 a3 b0 b1 b2 b3
  decide

/-- The groups that fail at the receiver are those of the lanes that arrived wrong, whatever data the beat carries. -/
theorem busFails_beat (d : BitVec 128) (f : BitVec 132) : busFails (busBeat d ^^^ f) = busFails f := by
  have hl : (busBeat d ^^^ f).setWidth 128 = d ^^^ f.setWidth 128 := by
    ext i hi
    simp only [busBeat, BitVec.getElem_setWidth, BitVec.getLsbD_xor, BitVec.getLsbD_append, BitVec.getElem_xor]
    simp [hi]
  have hh : ((busBeat d ^^^ f) >>> 128).setWidth 4 = busParity d ^^^ ((f >>> 128).setWidth 4 : BitVec 4) := by
    ext i hi
    have h : (busParity d ++ d).getLsbD (128 + i) = (busParity d)[i] := by
      rw [BitVec.getLsbD_append, if_neg (by omega), Nat.add_sub_cancel_left, BitVec.getLsbD_eq_getElem]
    simp [busBeat, h]
  simp only [busFails, hl, hh, busParity_xor]
  generalize busParity d = a
  generalize busParity (f.setWidth 128) = b
  generalize (f >>> 128).setWidth 4 = c
  revert a b c
  decide

end Sys2Proof.Machine
end

