-- ==== Sys2Proof/Laws/Frame.lean ====
section
/-! SUPPORT. What a state is without its memory, and that accesses change only memory. -/

namespace Sys2Proof.Machine

open Sys2Proof.Safety

theorem vset_map {α β : Type} (f : α → β) (i : BitVec w) (x : α) (v : Vector α (2 ^ w)) : (vset i x v).map f = vset i (f x) (v.map f) := by
  simp [vset, Vector.map_set]

theorem vget_map {α β : Type} (f : α → β) (i : BitVec w) (v : Vector α (2 ^ w)) : vget i (v.map f) = f (vget i v) := by
  simp [vget]

theorem bare_tile (s : State) (t : BitVec 8) : (bare s).tile t = bareTile (s.tile t) := vget_map ..

theorem bare_slot (s : State) (t : BitVec 8) (k : BitVec 2) : (bare s).slot t k = bareSlot (s.slot t k) := by
  unfold State.slot; rw [bare_tile]; exact vget_map ..

theorem bare_tower (s : State) (w : BitVec 3) : (bare s).tower w = bareTower (s.tower w) := vget_map ..

theorem bare_setTile (s : State) (t : BitVec 8) (x : Tile) : bare (s.setTile t x) = (bare s).setTile t (bareTile x) := by
  unfold bare State.setTile; simp only [vset_map]

theorem bare_setTower (s : State) (t : BitVec 3) (x : Tower) : bare (s.setTower t x) = (bare s).setTower t (bareTower x) := by
  unfold bare State.setTower; simp only [vset_map]

theorem bareTile_setSlot (x : Tile) (k : BitVec 2) (y : Slot) : bareTile (x.setSlot k y) = (bareTile x).setSlot k (bareSlot y) := by
  unfold bareTile Tile.setSlot; simp only [vset_map]

theorem bare_setSlot (s : State) (t : BitVec 8) (k : BitVec 2) (y : Slot) :
    bare (s.setSlot t k y) = (bare s).setSlot t k (bareSlot y) := by
  unfold State.setSlot State.modTile; rw [bare_setTile, bareTile_setSlot, bare_tile]

theorem bare_modTile (s : State) (t : BitVec 8) (f : Tile → Tile) : bare (s.modTile t f) = (bare s).setTile t (bareTile (f (s.tile t))) :=
  bare_setTile ..

theorem bare_modTower (s : State) (t : BitVec 3) (f : Tower → Tower) : bare (s.modTower t f) = (bare s).setTower t (bareTower (f (s.tower t))) :=
  bare_setTower ..

theorem bare_modSlot (s : State) (t : BitVec 8) (k : BitVec 2) (f : Slot → Slot) :
    bare (s.modSlot t k f) = (bare s).setSlot t k (bareSlot (f (s.slot t k))) := bare_setSlot ..

theorem setSlot_slot (s : State) (t : BitVec 8) (k : BitVec 2) : s.setSlot t k (s.slot t k) = s := by
  have := modSlot_self (s := s) (t := t) (k := k) (f := id) rfl
  exact this

/-- A change of a slot that bare does not see. -/
theorem bare_modSlot_self {s : State} {t : BitVec 8} {k : BitVec 2} {f : Slot → Slot}
    (h : bareSlot (f (s.slot t k)) = bareSlot (s.slot t k)) : bare (s.modSlot t k f) = bare s := by
  rw [bare_modSlot, h, ← bare_slot, setSlot_slot]

theorem bare_modTower_self {s : State} {t : BitVec 3} {f : Tower → Tower}
    (h : bareTower (f (s.tower t)) = bareTower (s.tower t)) : bare (s.modTower t f) = bare s := by
  rw [bare_modTower, h, ← bare_tower]
  unfold State.setTower State.tower
  simp

/-- A change of segments that bare does not see. -/
theorem bare_modSeg (s : State) (t : BitVec 8) (k : BitVec 2) (n : BitVec 12) (f : Segment → Segment)
    (h : ∀ g, bareSeg (f g) = bareSeg g) : bare (s.modSeg t k n f) = bare s := by
  unfold State.modSeg
  refine bare_modSlot_self ?_
  unfold bareSlot modSegs
  simp only [List.map_map]
  congr 2
  apply List.map_congr_left
  intro g _
  simp only [Function.comp]
  split
  · exact h g
  · rfl

theorem bare_inRt (s : State) : (bare s).inRt = s.inRt := by
  unfold State.inRt
  show ((bare s).tile s.cur).inRuntime = _
  rw [bare_tile]; rfl

theorem bare_curSlot (s : State) : (bare s).curSlot = s.curSlot := by
  unfold State.curSlot
  show (((bare s).tile s.cur).running).getD 0 = _
  rw [bare_tile]; rfl

theorem bare_setBank (s : State) (b : Bank) : bare (s.setBank b) = (bare s).setBank b := by
  unfold State.setBank
  rw [bare_inRt, bare_curSlot]
  split
  · rw [bare_modTile]
    show _ = (bare s).modTile s.cur _
    unfold State.modTile
    rw [bare_tile]; rfl
  · rw [bare_modSlot]
    show _ = (bare s).modSlot s.cur _ _
    unfold State.modSlot
    rw [bare_slot]; rfl

theorem bare_onward {s t : State} (h : bare s = bare t) (b : Bank) : bare (onward s b) = bare (onward t b) := by
  unfold onward; rw [bare_setBank, bare_setBank, h]

theorem bare_raceSupp (s : State) (m : Me) : bare (s.raceSupp m) = bare s := by
  unfold State.raceSupp; split
  · exact bare_modSlot_self rfl
  · rfl

theorem bare_accessed (s : State) (m : Me) (r : SegRef) (g : Segment) (n : Nat) (w x : Bool) : bare (accessed s m r g n w x) = bare s := by
  unfold accessed
  simp only
  have h0 : bare (if g.check && x && !s.raceOn m then s.raceSupp m else s) = bare s := by
    split
    · exact bare_raceSupp s m
    · rfl
  generalize (if g.check && x && !s.raceOn m then s.raceSupp m else s) = u at h0
  have h1 : bare (u.touch r) = bare s := (bare_modSeg u r.tile r.slot r.num (fun z => { z with touch := u.moves }) (fun _ => rfl)).trans h0
  split
  · refine (bare_modSeg (u.touch r) r.tile r.slot r.num (fun z => { z with
      store := raceRecord ((u.touch r).slot m.tile m.slot).race z.store m.tile w (unitsOf 64 r.off n) }) ?_).trans h1
    intro z; rfl
  · exact h1

theorem bare_stored (s : State) (m : Me) (r : SegRef) (g : Segment) (bs : List Byte) (x : Bool) : bare (stored s m r g bs x) = bare s := by
  refine Eq.trans ?_ (bare_accessed s m r g bs.length true x)
  unfold stored State.modSegStore
  simp only
  generalize accessed s m r g bs.length true x = u
  refine bare_modSeg u r.tile r.slot r.num (fun z => { z with store := z.store.write r.off bs (u.who m) }) ?_
  intro z; rfl

/-- Memory after a write that passes (R323, R393). -/
theorem wrote_stored {s : State} {m : Me} {t : BitVec 8} {k : BitVec 2} {n : BitVec 12} {a : Nat} {g : Segment} {bs : List Byte} {x : Bool}
    (hg : (s.slot t k).seg n = some g) (hw : g.store.wf = true) : Wrote s (stored s m ⟨t, k, n, a⟩ g bs x) t k n a bs := by
  have hs := sameMemory_accessed s m ⟨t, k, n, a⟩ g bs.length true x
  have e := accessed_store s m ⟨t, k, n, a⟩ g bs.length true x hg
  unfold stored State.modSegStore
  simp only
  generalize accessed s m ⟨t, k, n, a⟩ g bs.length true x = u at hs e
  refine ⟨?_, fun w y => hs.layer w y, fun w y => hs.gddr w y⟩
  intro v j q y
  rw [slot_seg_modSeg u t v k j n q (fun z => { z with store := z.store.write a bs (u.who m) }) (fun _ => rfl)]
  by_cases h : v = t ∧ j = k ∧ q = n
  · obtain ⟨rfl, rfl, rfl⟩ := h
    have h2 := hs.seg v j q y
    rw [hg] at h2
    cases hu : (u.slot v j).seg q with
    | none => rw [hu] at h2; simp at h2
    | some g1 =>
      have hb : g1.store.bytes = g.store.bytes := by
        have := e.1
        rw [segStore_of_seg (r := ⟨v, j, q, a⟩) hu] at this
        exact this
      simp only [and_self, if_true, Option.map_some, true_and]
      have : look 0 (g1.store.write a bs (u.who m)).bytes y = look 0 (g.store.write a bs (u.who m)).bytes y := by
        simp only [Store.write, hb]
      rw [this, look_store_write hw, hg]
      split <;> rfl
  · rw [if_neg h, if_neg (fun x => h ⟨x.1, x.2.1, x.2.2.1⟩)]
    exact hs.seg v j q y

/-- A live segment of a canonical memory has a canonical store. -/
theorem memWf_seg {s : State} (h : s.memWf = true) {t : BitVec 8} {k : BitVec 2} {n : BitVec 12} {g : Segment}
    (hg : (s.slot t k).seg n = some g) : g.store.wf = true := by
  unfold State.memWf at h
  simp only [Bool.and_eq_true, List.all_eq_true] at h
  have h1 := h.1 (s.tile t) (by unfold State.tile vget; simp)
  have h2 := h1 (s.slot t k) (by unfold State.slot Tile.slot vget; simp)
  exact h2 g (List.mem_of_find?_eq_some hg)

end Sys2Proof.Machine
end

