-- ==== Sys2Proof/Laws/Unit.lean ====
section
/-! SUPPORT. How units of an engine end, and what accumulator accesses do: one lemma for each shared operation. -/

namespace Sys2Proof.Machine

open Sys2Proof.Safety

/-! ## TSTAT and what a reader may see of it -/

@[simp] theorem tstatSync_tstat (k : Slot) (t : BitVec 8) (n : W64) : (k.tstatSync t n).tstat = k.tstat := rfl
@[simp] theorem tstatSync_ctx (k : Slot) (t : BitVec 8) (n : W64) : (k.tstatSync t n).ctx = k.ctx := rfl
@[simp] theorem tstatSync_sq (k : Slot) (t : BitVec 8) (n : W64) : (k.tstatSync t n).sq = k.sq := rfl
@[simp] theorem tstatSync_mem (k : Slot) (t : BitVec 8) (n : W64) : (k.tstatSync t n).mem = k.mem := rfl
@[simp] theorem tstatSync_vs (k : Slot) (t : BitVec 8) (n : W64) : (k.tstatSync t n).vs = k.vs := rfl
@[simp] theorem tstatSync_ps (k : Slot) (t : BitVec 8) (n : W64) : (k.tstatSync t n).ps = k.ps := rfl
@[simp] theorem tstatSync_xs (k : Slot) (t : BitVec 8) (n : W64) : (k.tstatSync t n).xs = k.xs := rfl

theorem TstatEff.on_null {e : TstatEff} (h : e.plain = true ∧ e.flags = 0) (t : W64) : e.on t = t := by
  obtain ⟨h1, h2⟩ := h
  simp only [TstatEff.plain, Bool.and_eq_true, Option.isNone_iff_eq_none, Bool.not_eq_true'] at h1
  obtain ⟨⟨⟨h3, h4⟩, h5⟩, h6⟩ := h1
  simp [TstatEff.on, h2, h3, h4, h5, h6]

/-- What an entry of an agent makes of TSTAT (R143). -/
theorem modTstat_tstat (s : State) (m : Me) (e : TstatEff) :
    ((s.modTstat m e).slot m.tile m.slot).tstat = e.on (s.slot m.tile m.slot).tstat := by
  unfold State.modTstat
  split
  · next h => rw [TstatEff.on_null h]
  · simp only [slot_modSlot]; rfl

/-! ## Engines of the running slot -/

theorem engine_setEngine (k : Slot) (e : Eng) (g : Engine) (h : e ≠ .dec) : (k.setEngine e g).engine e = g := by
  cases e <;> simp_all [Slot.setEngine, Slot.engine]

theorem setEngine_engine (k : Slot) (e : Eng) : k.setEngine e (k.engine e) = k := by
  cases e <;> rfl

theorem setEngine_setEngine (k : Slot) (e : Eng) (a b : Engine) : (k.setEngine e a).setEngine e b = k.setEngine e b := by
  cases e <;> rfl

@[simp] theorem modEng_cur (s : State) (e : Eng) (f : Engine → Engine) : (s.modEng e f).cur = s.cur := rfl
@[simp] theorem modEng_curSlot (s : State) (e : Eng) (f : Engine → Engine) : (s.modEng e f).curSlot = s.curSlot := by
  simp [State.modEng]
@[simp] theorem modEng_tower (s : State) (e : Eng) (f : Engine → Engine) (w : BitVec 3) : (s.modEng e f).tower w = s.tower w := rfl
@[simp] theorem modEng_ctxs (s : State) (e : Eng) (f : Engine → Engine) : (s.modEng e f).ctxs = s.ctxs := rfl

theorem eng_modEng (s : State) (e : Eng) (f : Engine → Engine) (h : e ≠ .dec) : (s.modEng e f).eng e = f (s.eng e) := by
  unfold State.eng
  rw [modEng_curSlot, modEng_cur]
  unfold State.modEng
  rw [modSlot_slot_same, engine_setEngine _ _ _ h]

theorem modEng_self (s : State) (e : Eng) (f : Engine → Engine) (h : f (s.eng e) = s.eng e) : s.modEng e f = s := by
  unfold State.modEng
  refine modSlot_self ?_
  have : f ((s.slot s.cur s.curSlot).engine e) = (s.slot s.cur s.curSlot).engine e := h
  rw [this, setEngine_engine]

/-- The agent state of an engine of the running slot. -/
theorem agt_eng (s : State) (e : Eng) (h : e ≠ .dec) : s.agt s.cur s.curSlot (Eng.agent e) = (s.eng e).agt := by
  cases e <;> simp_all [State.agt, Eng.agent, State.eng, Slot.engine]

theorem myAgt_meOf (s : State) (e : Eng) (h : e ≠ .dec) : s.myAgt (s.meOf e) = (s.eng e).agt := by
  unfold State.myAgt State.meOf
  rw [if_neg (by cases e <;> simp_all [Eng.agent]), agt_eng s e h]

theorem setMyAgt_self (s : State) (e : Eng) (h : e ≠ .dec) : s.setMyAgt (s.meOf e) (s.eng e).agt = s := by
  unfold State.setMyAgt State.meOf
  rw [if_neg (by cases e <;> simp_all [Eng.agent])]
  cases e <;> simp_all [Eng.agent, State.setAgt, State.eng, Slot.engine] <;> exact modSlot_self rfl

theorem clearRemote_unit (s : State) (e : Eng) (h : e ≠ .dec) (hr : AtRest (s.eng e).agt) : s.clearRemote (s.meOf e) = s := by
  obtain ⟨h1, h2, h3, h4, h5, h6, h7, h8⟩ := hr
  have hw : s.endMyWait (s.meOf e) noWho = s := by simp [State.endMyWait, myAgt_meOf s e h, h1]
  unfold State.clearRemote
  simp only [hw]
  rw [myAgt_meOf s e h]
  have : ({ (s.eng e).agt with
      got := [], pend := none, used := 0, absent := none, tested := false, out := none, layers := none } : Agt) = (s.eng e).agt := by
    rw [← h2, ← h3, ← h4, ← h5, ← h6, ← h7, ← h8]
  rw [this, setMyAgt_self s e h]

/-- A unit that completes: the engine stands at its next unit (R31, Table 13.5). -/
theorem engM_ok {e : Eng} {s t : State} {m : M Unit} (he : e ≠ .dec) (hs : UnitOf e s) (hm : m s = .ok () t) (ht : UnitOf e t) :
    engM e s m = .next (nextUnit e t) := by
  have h0 : (s.modEng e fun _ => { s.eng e with agt := { (s.eng e).agt with used := 0 } }) = s := by
    refine modEng_self s e _ ?_
    have : ({ (s.eng e).agt with used := 0 } : Agt) = (s.eng e).agt := by rw [← hs.rest.2.2.2.1]
    rw [this]
  unfold engM
  simp only
  rw [h0, hm]
  simp only [engEnd]
  rw [clearRemote_unit t e he ht.rest]
  unfold nextUnit State.modEng
  have hn : ((t.slot t.cur t.curSlot).engine e).rpt = none := ht.norpt
  simp only [State.modSlot, Engine.unitDone, hn]

/-! ## The accumulator store -/

theorem look_put_acc (t : Tile) (n m : BitVec 8) (a : AccTile) (h : canonFrom AccTile.reset 0 t.acc = true) :
    (t.setAcc n a).accOf m = if m = n then a else t.accOf m := by
  unfold Tile.setAcc Tile.accOf
  rw [look_put a n.toNat m.toNat h]
  by_cases e : m = n
  · simp [e]
  · rw [if_neg (fun x => e (BitVec.eq_of_toNat_eq x)), if_neg e]

/-- A touch of a tile that is free or one's own (R145). -/
theorem run_touchAcc {s : State} {m : Me} {n : BitVec 8}
    (h : (s.acc m.tile n).owner = 0xFF ∨ (s.acc m.tile n).owner = s.ctxId m.tile m.slot) :
    touchAcc m n s = .ok () (if (s.acc m.tile n).owner = s.ctxId m.tile m.slot then s
      else s.modAcc m.tile n fun _ => AccTile.cleared (s.ctxId m.tile m.slot)) := by
  unfold touchAcc
  rw [bind_ok (run_get s)]
  by_cases e : (s.acc m.tile n).owner = s.ctxId m.tile m.slot
  · simp [e]
  · have e2 : (s.acc m.tile n).owner = 0xFF := h.resolve_right e
    rw [if_neg e, if_neg e, if_pos e2]
    rfl

/-- A read of a row that is not poisoned and that no other engine is writing (R59, R62, R251). -/
theorem run_readAcc {s : State} {m : Me} {n : BitVec 8} {r : BitVec 5} (h : bit (s.acc m.tile n).poison r.toNat = false)
    (hs : Settled (s.acc m.tile n) m.agent r) : readAcc m n r s = .ok ((s.acc m.tile n).row r) s := by
  have hc : accClean m n r s = .ok () s := by
    unfold accClean
    rw [bind_ok (run_get s)]
    simp [h]
  have hu : accUnit m n r s = .ok ((s.acc m.tile n).row r, (s.acc m.tile n).sideOf r) s := by
    unfold accUnit
    rw [bind_ok (run_get s)]
    cases e : lookO (s.acc m.tile n).prior r.toNat with
    | none => rfl
    | some p => simp [Option.filter, hs p e]
  unfold readAcc readUnit
  rw [bind_ok (a := ((s.acc m.tile n).row r, (s.acc m.tile n).sideOf r)) (t := s)]
  · rfl
  · rw [bind_ok hc]; exact hu

/-- A write of a row (R62, R149). -/
theorem run_writeAcc (s : State) (m : Me) (n : BitVec 8) (r : BitVec 5) (v : Row) (sd : Word) :
    writeAcc m n r v sd s = .ok () (s.modAcc m.tile n (·.putBy m.agent r v sd)) := rfl

end Sys2Proof.Machine
end

