-- ==== Sys2Proof/Tests/Slice0.lean ====
section
/-! SUPPORT. Tests of the model's author: terms that the check refuses, words of the manual's examples, single steps on a
small state, and for every claim with hypotheses a state and operands that meet them. Expected results come from the
manual's examples and tables, or from hand calculation. -/

namespace Sys2Proof.Tests

set_option Elab.async false

open Sys2Proof Sys2Proof.Machine Sys2Proof.Safety

set_option maxRecDepth 8000

/-! ## Ill-formed terms -/

/-- Every condition of the well-formedness check of sequencer words refuses a term. -/
theorem test_wf_refuses_seq : (([.iop 0 1 2 3 0, .iop 0 1 2 3 0x11, .iop 0 1 2 3 0x16, .plog 0 1 2 3 0, .plog 0 1 2 3 7, .plog 0 1 2 3 6,
    .fop 0 1 2 3 0, .fop 0 1 2 3 7, .fma 0 1 2 3 0, .fma 0 1 2 3 5, .fcvt 0 1 2 0, .fcvt 0 1 2 11, .lds 0 1 2 3 1 0, .ldg 0 1 2 3 1 3,
    .ldq 0 0 2 0, .ldq 0 5 2 0, .stq 0 0 2 0, .stq 0 7 2 0, .amo 0 4 5 0 0 0 0 0 10, .amo 0 4 5 1 0 0 0 0 0, .amo 0 4 5 16 0 1 0 0 0,
    .amo 0 5 6 0 0 0 0 0 9, .amo 0 0 6 0 0 0 0 0 9, .br 0 1 0, .jal 0 1 0, .loop 0 0 5 0, .loopRot 0 0 5 1 0, .loopRot 0 0 5 7 1,
    .cmd 0 0 1 2 1 0 0 0, .cmd 0 0 1 2 0 0 1 0, .popr 0 5 3, .evpop 0 1, .evpop 0 31, .sysr 0 5 3 0, .sysw 0 5 0x21, .sysw 0 5 0x45,
    .sysw 0 5 0x70, .trap 0 1, .trap 0 9] : List Instr).all fun i => !i.wf) = true := by decide +kernel

/-- The same for vector, press and transfer words. -/
theorem test_wf_refuses_engines : (([.vlds 0 1 3 1 0, .vop 0 1 2 0 0, .vop 0 1 2 0x16 0, .vfma 0 1 2 0 1 0, .vfma 0 1 2 0 3 0, .vun 0 1 0 0, .vun 0 1 0xC 0,
    .vcvt 0 1 2 0 0 0, .vcvt 0 1 0 0 6 0, .vred 0 1 2 0, .vscan 0 1 4 0, .vshuf 0 1 2 5 0, .vshuf 0 1 2 1 0, .vsop 0 1 0 0 0, .vsop 0 1 0x11 0 0,
    .vsop 0 1 1 1 8, .vshape 7 0, .vshape 0 1, .vpredLogic 1 2 3 0 0, .vpredLogic 1 2 3 5 0, .vdefer 0 1 2 4 0 0, .vundef 0 1 2 4,
    .vguard 0 4, .vguard 0 33, .vbxenc 1 2 3 3, .vbxenc 1 2 1 0, .vbxdec 1 2 3 3, .vbxdec 1 2 1 0, .vsoft 1 2 1 0, .vsoft 1 2 2 0,
    .vdot 0 1 2 0 2 0, .mfmt 15 0, .xred 0 1 2 3 0 0 0 0 7, .xbar 0 1 0 25, .xdesc 0 0 0 0 0 3, .xdescSlot 0 0 3, .xdescSlot 0 1 0,
    .xdescSlot 0 2 0] : List Instr).all fun i => !i.wf) = true := by decide +kernel

/-- A word with a field that must be zero, an unused opcode and an unused function code decode to nothing. -/
theorem test_decode_rejects : (([(.seq, 0x00180000), (.seq, 0x00144718), (.seq, 0xFC000000), (.seq, 0x68400000), (.seq, 0x18108106),
    (.vec, 0xFC000000), (.mat, 0xF8000000), (.xfr, 0x60000000), (.dec, 0xFFFFFFFF)] : List (Section × Word)).all fun x =>
      match decodeWord x.1 x.2 with
      | .ok _ => false
      | .error _ => true) = true := by decide +kernel

/-! ## Words of the manual's examples -/

/-- The words of a section decode to the instructions beside them. -/
def decodes (c : Section) (l : List (Word × Instr)) : Bool := l.all fun x =>
  match decodeWord c x.1 with
  | .ok i => decide (i = x.2) && decide (encode i = some x.1)
  | .error _ => false

/-- Registers, predicates, floats and control flow, as their reference entries write them. -/
theorem test_decode_registers : decodes .seq [(0x0C040003, .addpc 0 1 3), (0x100C8504, .cmp 0 3 4 5 4), (0x1404C840, .cmpi 0 1 6 2 64),
    (0x30082302, .fcmp 0 2 1 3 2), (0x2C10A601, .fma 0 4 5 6 1), (0x2810A601, .fop 0 4 5 6 1), (0x040843A0, .iopi 0 2 2 0 0x3A0),
    (0x041D1007, .iopi 0 7 8 4 7), (0x0833FFC0, .lui 0 12 0x3FFC0), (0x20018000, .pload 0 12), (0x180C2201, .plog 0 3 1 2 1),
    (0x18108006, .plog 0 4 4 0 6), (0x1C300000, .psave 0 12), (0x2414C702, .sel 0 5 6 7 2), (0x2414C70A, .selF 0 5 6 7 2),
    (0x6C00000A, .jal 0 0 10), (0x70058010, .jalr 0 1 12 16), (0x780076D0, .rpt 0 7 3 3 2), (0x68C00005, .br 1 1 5)] = true := by decide +kernel

/-- Loads, stores, atomics and capabilities. -/
theorem test_decode_memory : decodes .seq [(0x58188369, .amo 0 6 4 3 0 1 1 0 9), (0x58188090, .amo 0 6 4 0 1 0 0 1 0),
    (0x5C248020, .capld 0 9 4 32), (0x64250C04, .capopPerm 0 9 8 12), (0x60248020, .capst 0 9 4 32), (0x400C9008, .flds 0 3 4 8),
    (0x440C9008, .fsts 0 3 4 8), (0x48248306, .ldg 0 9 4 3 1 2), (0x50308010, .ldq 0 12 4 16), (0x38244FFC, .lds 0 9 2 1 1 0x3FC),
    (0x38251000, .lds 0 9 8 2 0 0)] = true := by decide +kernel

/-- Queues, synchronisation and the system instructions. -/
theorem test_decode_system : decodes .seq [(0xBC008002, .accopClaim 0 4), (0xBC148205, .accopSave 0 5 4 2), (0x8C00C700, .bara 0 6 7),
    (0x9000C800, .barw 0 6 8), (0x7D008557, .cmd 1 0 4 5 2 1 3 1), (0x98300000, .evpop 0 12), (0x9400000A, .fenceFull 0 2),
    (0x94000003, .fenceLayer 0 0), (0x94000005, .fenceRel 0 1), (0xC400A002, .kvopDrop 0 5), (0xC410A601, .kvopFork 0 4 5 6),
    (0xC41CA603, .kvopLook 0 7 5 6), (0xC800A40B, .mskldParam 0 5 0 1 3), (0xC8000211, .mskldProg 0 1 2 1), (0xC8008800, .mskldRuns 0 4 0 0),
    (0xC8280C01, .mskldStat 0 10 0 0 1), (0x80380000, .popr 0 14 0), (0x803C0002, .popr 0 15 2), (0x84008501, .pushd 0 4 5),
    (0xB4010000, .rangePop 0), (0xB4000042, .rangePush 0 0x42), (0xB814C701, .segopDef 0 5 6 7), (0xB8156005, .segopQuery 0 5 11),
    (0xA0140050, .sysr 0 5 0 0x50), (0xA0144050, .sysr 0 5 2 0x50), (0xA400C021, .syswQuota 0 6), (0xA8000003, .flush 0),
    (0xA8000005, .tlbinv 0), (0xCC140001, .tstat 0 5), (0xCC14C002, .tstatClr 0 5 6), (0xB014C009, .waiti 0 5 6 9)] = true := by decide +kernel

/-- Vector words. -/
theorem test_decode_vector : decodes .vec [(0x48000080, .vaddr 0 0 128), (0x49880001, .vaddrGet 3 1), (0x48A20001, .vaddrLen 1 2 1),
    (0x88100008, .vamax 1 0 1 0), (0x3C200500, .vbcst 2 0 5 0 0), (0x3C200110, .vbcstS 2 1 0), (0x6C020C10, .vbxdec 0 8 12 2),
    (0x68800C00, .vbxenc 8 0 12 0), (0x8C308000, .vclass 3 2 0), (0x0C100110, .vcmp 1 0 1 2 0), (0x14400520, .vcvt 4 0 5 0 4 0),
    (0x5482C122, .vdefer 8 1 3 1 4 2), (0x84108368, .vdot 1 2 3 1 5 0), (0x04414668, .vfma 4 5 6 1 5 0), (0x34428500, .vgath 4 1 2 5 0),
    (0x6400004C, .vguard 1 12), (0x24420300, .vld 4 1 3 0), (0x2D080008, .vlds 2 0 2 0 8), (0x7C200100, .vmaskb 2 0 1 0),
    (0x40204300, .vmovsGet 2 1 3 0), (0x40108340, .vmovsPut 1 2 3 0 0), (0x00002020, .vop 0 0 32 4 0), (0x5C306080, .vpack 3 1 1 2 0 0),
    (0x50304208, .vpredLogic 3 1 2 1 0), (0x50110030, .vpredLt 1 4 0), (0x18100008, .vred 1 0 1 0), (0x7407DB60, .vrpt 31 3 3 3),
    (0x1C20C030, .vscan 2 3 6 0), (0x38428500, .vscat 4 1 2 5 0), (0x10200118, .vsel 2 0 1 3 0), (0x20204310, .vshuf 2 1 3 2 0),
    (0x78400801, .vsoft 4 0 8 1), (0x4480C002, .vsop 1 0 1 1 2), (0x450C0064, .vsopLi 2 100), (0x440D0001, .vsopSetrm 1),
    (0x28140000, .vst 1 2 0 0), (0x308C0010, .vsts 1 0 3 16), (0x08000028, .vun 0 0 5 0), (0x5882C100, .vundef 8 1 3 1),
    (0x60610000, .vxtrd 6 2 0 0)] = true := by decide +kernel

/-- Press and transfer words. -/
theorem test_decode_press : decodes .mat [(0x604C8400, .mcpy 9 2 1), (0x18201000, .mdrain 4 4 0 0), (0x40114010, .mfifoPush 2 5),
    (0x10200400, .mfmt 4 1), (0x38007C00, .mfoldStrict 15), (0x08004000, .mlddOd 1), (0x00000428, .mma 0 0 1 0 1 0 1 0),
    (0x00240808, .mma 4 16 2 0 0 0 1 0), (0x48081000, .mmsk 0 1 0 0 1), (0x48007000, .mmsk 0 0 1 1 1), (0x68634800, .mrpt 3 3 2 2),
    (0x280088C0, .mwmul 0 2 2 3 0 0), (0x20180000, .mzero 3)] = true := by decide +kernel

/-- Transfer and decode words. -/
theorem test_decode_transfer : (decodes .xfr [(0x00208000, .xcopy 0 1 4 0 0 0), (0x08428080, .xgath 0 2 20 0 1 0), (0x12028000, .xscat 2 0 20 0 0 0),
    (0x19606000, .xidx 1 3 3), (0x204081A0, .xfill 2 4 1 1 0 1), (0x284060F0, .xred 0 2 3 0 1 1 1 1 0), (0x34A80280, .xlayer 4 5 64 2 1 0),
    (0x38C02380, .xrem 0 6 1 3 1 0), (0x40002009, .xbar 1 0 0 9), (0x48000000, .xevt), (0x50608004, .xdesc 3 4 0 0 0 2), (0x58000101, .xwait 1 1),
    (0x50000005, .xdescSlot 0 0 2)] && decodes .dec [(0, .dattn), (0x20000000, .dappend), (0x40000000, .dstat), (0x60000000, .dbar)]) = true := by
  decide +kernel

/-! ## A small state

One context in slot 0 of tile 0, at PRIV U, with STACK and two segments, its sequencer and engines at rest. -/

def cells (a : Nat) (bs : List Byte) : List Host.Cell := (((List.range bs.length).map (a + ·)).zip bs).filter fun x => x.2 ≠ 0

def segOf (n size frame : Nat) (bytes : List Host.Cell) : Segment :=
  { num := BitVec.ofNat 12 n, size := size, span := 0, check := false, pin := false, shared := false, state := .resident,
    frame := frame, backing := 0, touch := 0, store := { bytes := bytes } }

def part0 : Partition := { freshPart { (default : PartSetup) with towers := 1, chips := 1 } (tilesOf 0) with runtime := some ([0], 0) }

/-- An object of EXPECTED e, PHASE p, ARRIVED a. -/
def obj (e p a : Nat) : List Byte := leBytes 16 (p + 2 ^ 32 * e + 2 ^ 64 * a)

/-- Segment 5: data at 0x10, an object at 0x800, a deferral queue of 4 places at 0x1000, HEAD 5 and TAIL 7. -/
def st0 : State :=
  let s := { (State.reset.modTile 0 fun t => { t with up := true, inRuntime := false, priv := .u, running := some 0, sliceLeft := 100 }) with
      ctxs := [oneWord 0], parts := [part0], bring := { step := 6, goal := 6 } }
  s.modSlot 0 0 fun k => { k with
    ctx := some 0
    mem := { k.mem with
      segs := [segOf 0 4096 0 [], segOf 5 65536 4 (cells 0x10 (leBytes 16 0x0102030405060708A1A2A3A4A5A6A7A8) ++
        cells 0x800 (obj 100 1 90) ++ cells 0x1000 (leBytes 8 5 ++ leBytes 8 7 ++ leBytes 4 4)), segOf 6 65536 68 []]
      quota := 0x100000 }
    sq := { k.sq with hasIter := true, bank := { k.sq.bank with pc := 0x40 } } }

def setG (s : State) (l : List (Nat × Nat)) : State :=
  s.setBank (l.foldl (fun b x => b.setG (BitVec.ofNat 5 x.1) (BitVec.ofNat 64 x.2)) s.bank)

/-- The address of offset a of segment 5. -/
def in5 (a : Nat) : Nat := 5 * 2 ^ 52 + a

def seg5 (s : State) : Segment := ((s.slot 0 0).seg 5).getD default

/-- Codes of 64 plain words. -/
def code64 (s : State) (w : Word) : State := { s with ctxs := s.ctxs.map fun c => { c with code := { c.code with seq := List.replicate 64 w } } }

theorem rest_of {a : Agt} (h : a = {}) : AtRest a := by subst h; unfold AtRest; decide

theorem plain_of {s : State} (h : s.bank.rpt = none ∧ s.bank.loopOrder = [] ∧ s.seqAgt = {}) : Plain s :=
  ⟨h.1, by simp [NoPassEnd, h.2.1], rest_of h.2.2⟩

theorem executes_of {s : State} {q : BitVec 3} (h : (s.bank.rpt = none ∧ s.bank.loopOrder = [] ∧ s.seqAgt = {}) ∧ s.bank.pr q = true) :
    Executes s q := ⟨plain_of h.1, h.2⟩

theorem reachable_of {s : State} {m : Me} {p : W64} {n al : Nat} {w r : Bool} {t : BitVec 8} {k : BitVec 2} {g : Segment}
    (h : ptrMid p = 0 ∧ s.findSeg m (ptrSeg p) = some (t, k, g) ∧ ptrOff p + n ≤ g.size ∧ (al = 0 ∨ ptrOff p % al = 0) ∧
      g.check = false ∧ g.state = .resident) : Reachable s m p n al w r t k g := by
  obtain ⟨mid, live, holds, aligned, free, res⟩ := h
  exact ⟨mid, live, holds, aligned, by simp [free], res⟩

/-- st0 with the addresses of the data (g5), of the object (g6), of the queue (g7) and of the last bytes of segment 5 (g8). -/
def stA : State := setG st0 [(5, in5 0x10), (6, in5 0x800), (7, in5 0x1000), (8, in5 0xFFF0), (9, 0x1122334455667788), (10, 10), (11, 11)]

theorem executes_stA : Executes stA 0 := executes_of (by decide +kernel)

theorem memory_stA : MemoryCanonical stA := by unfold MemoryCanonical; decide +kernel

/-! ## Witnesses: decoding, steps, registers -/

theorem witness_DecodeOfEncode : (Instr.amo 0 6 4 3 0 1 1 0 9).wf = true ∧ (Instr.amo 0 6 4 3 0 1 1 0 9).sect = some .seq ∧
    encode (.amo 0 6 4 3 0 1 1 0 9) = some 0x58188369 := by decide +kernel

theorem witness_EncodeOfDecode : decodeWord .mat 0x18201000 = .ok (.mdrain 4 4 0 0) := by rfl

theorem witness_IopResult : Executes stA 0 ∧ ∀ f ∈ [1, 2, 3, 4, 5, 6, 7, 8, 9, 10, 11, 12, 13, 14, 15, 16, 21],
    (intTable f 7 0).isSome = true := ⟨executes_stA, by decide +kernel⟩

theorem next_of {o : Host.Outcome State Fault Refusal} (f : State → Bool) (h : (match o with
    | .next t => f t
    | _ => false) = true) : ∃ t, o = .next t ∧ f t = true := by
  cases o <;> simp_all

/-- st0 with 64 words iopi.add g6, g6, 4 as its code, and a turn of its sequencer. -/
def stTurn : State := { code64 stA 0x0418C004 with agenda := [.seq 0] }

/-- A sequencer's turn at a word of its code, in a repeat of that word, and at a word that is none. -/
theorem witness_StepRunsDecoded_seq : (stTurn.tile 0).up = true ∧ (stTurn.tile 0).running = some 0 ∧ (stTurn.tile 0).stopping = none ∧
    (let u := taken stTurn [] 0
    (u.slot 0 u.curSlot).sq.hasIter = true ∧ u.seqAgt.wait = none ∧ u.bank.rpt = none ∧ wordIn u.seqCode u.bank.pc = some 0x0418C004) ∧
    (let s := stTurn.setBank { stTurn.bank with rpt := some ⟨4, 3, 3, 2, 3⟩ }
    let u := taken s [] 0
    u.bank.rpt = some ⟨4, 3, 3, 2, 3⟩ ∧ wordIn u.seqCode (u.bank.pc + 4) = some 0x0418C004) ∧
    (let u := taken { code64 stA 0xFFFFFFFF with agenda := [.seq 0] } [] 0
    wordIn u.seqCode u.bank.pc = some 0xFFFFFFFF) := by decide +kernel

theorem test_reserved_word_is_none : (match decodeWord .seq 0xFFFFFFFF with
    | .ok _ => false
    | .error _ => true) = true := by decide +kernel

/-- st0 whose engines are at the first unit of an entry. -/
def stE : State := stA.modSlot 0 0 fun k => { k with
  vec := { k.vec with cur := some oneEntry }
  mat := { k.mat with cur := some oneEntry }
  xfr := { k.xfr with cur := some oneEntry } }

theorem witness_StepRunsDecoded_engine : let s := { stE with agenda := [.eng 0 .vec], ctxs := [oneWord 0x00002020] }
    (s.tile 0).enginesRun = true ∧ let u := taken s [] 0
    (u.eng .vec).agt.wait = none ∧ (u.eng .vec).cur = some oneEntry ∧ u.ctxOf 0 u.curSlot = some (oneWord 0x00002020) ∧
    unitWord .vec ((oneWord 0x00002020).code.block .vec 0) (u.eng .vec).unit (u.eng .vec).rpt = some 0x00002020 := by decide +kernel

theorem witness_StepRunsDecoded_decode : let s := { (stE.modTower 0 fun w => { w with dec := { w.dec with cur := some { e := oneEntry } } }) with
      agenda := [.dec 0], ctxs := [oneWord 0x20000000] }
    (s.tower 0).dec.cur = some { e := oneEntry } ∧ (s.tower 0).dec.agt.wait = none ∧ let u := taken s [] 0
    u.decRuns oneEntry = true ∧ u.ctxById 0 = some (oneWord 0x20000000) ∧ ((oneWord 0x20000000).code.block .dec 0)[0]? = some 0x20000000 := by
  decide +kernel

theorem reset_tile (t : BitVec 8) : State.reset.tile t = Tile.reset := by simp [State.reset, State.tile, vget]

theorem reset_slot (t : BitVec 8) (k : BitVec 2) : State.reset.slot t k = Slot.reset := by
  simp [State.slot, reset_tile, Tile.slot, Tile.reset, vget]

/-- The state after reset is one that the invariant holds of. -/
theorem reset_sound : Sound State.reset where
  memory := by unfold MemoryCanonical; decide +kernel
  acc := by intro t; rw [reset_tile]; decide +kernel
  vp0 := by intro t k; rw [reset_slot]; decide +kernel
  shape := by intro t k; rw [reset_slot]; decide +kernel

/-- After reset, a tile whose runtime is one word iopi.add g6, g6, 4, and its turn. -/
def stRun : State :=
  { (State.reset.modTile 0 fun t => { t with up := true, inRuntime := true, priv := .s }) with
    parts := [{ part0 with runtime := some ([0x0418C004], 0) }], agenda := [.seq 0] }

theorem stRun_tile (t : BitVec 8) (h : t ≠ 0) : stRun.tile t = Tile.reset := by
  rw [← reset_tile t]
  exact tile_modTile_ne (Ne.symm h) State.reset fun t => { t with up := true, inRuntime := true, priv := .s }

theorem sound_stRun : Sound stRun where
  memory := by unfold MemoryCanonical; decide +kernel
  acc := by
    intro t
    by_cases h : t = 0
    · subst h; decide +kernel
    · rw [stRun_tile t h]; decide +kernel
  vp0 := by
    intro t k
    by_cases h : t = 0
    · subst h; revert k; decide +kernel
    · rw [State.slot, stRun_tile t h]; revert k; decide +kernel
  shape := by
    intro t k
    by_cases h : t = 0
    · subst h; revert k; decide +kernel
    · rw [State.slot, stRun_tile t h]; revert k; decide +kernel

theorem witness_StepKeepsSound : Sound stRun ∧ ∃ t, step stRun = .next t ∧ decide (t.bank.gr 6 = 4) = true :=
  ⟨sound_stRun, next_of _ (by decide +kernel)⟩

theorem witness_KernelKeepsTrapState : (Instr.iop 0 4 9 10 1).sect = some .seq ∧ stA.inRt = false ∧ (stA.tile stA.cur).priv = .u ∧
    ∃ t, exec (.iop 0 4 9 10 1) stA = .next t ∧ decide ((t.tile stA.cur).inRuntime = false) = true :=
  ⟨rfl, by decide +kernel, by decide +kernel, next_of _ (by decide +kernel)⟩

theorem witness_FalsePredicateOnlyAdvances : (Instr.iop 1 4 9 10 1).wf = true ∧ encode (.iop 1 4 9 10 1) = some 0x00912A01 ∧
    stA.bank.pr (BitVec.ofNat 3 ((0x00912A01 : BitVec 32).toNat / 2 ^ 23)) = false ∧ encode (.rpt 1 7 3 3 2) = some 0x788076D0 ∧
    (0x788076D0 : BitVec 32).toNat / 2 ^ 26 = 0x1E ∧ lsRptv stTurn.bank.lstat = false ∧ wordIn stTurn.seqCode (stTurn.bank.pc + 4) = some 0x0418C004 ∧
    rptForbids 0x0418C004 = false := by decide +kernel

/-- A fetch outside the code section, and a CMD of a block that the image holds, into an empty queue. -/
theorem witness_FalsePredicateOnlyAdvances_fetch : (let s := { code64 stA 0 with agenda := [.seq 0] }
    let u := taken (s.setBank { s.bank with pc := 256 }) [] 0
    u.seqAgt.wait = none ∧ u.bank.rpt = none ∧ wordIn u.seqCode u.bank.pc = none) ∧ ExecutesK stA 0 ∧
    stA.ctxOf stA.cur stA.curSlot = some (oneWord 0) ∧ ((stA.slot stA.cur stA.curSlot).cmdQ .vec).items.length < 16 :=
  ⟨by decide +kernel, ⟨executes_stA, by decide +kernel⟩, by decide +kernel⟩

/-- iopi.add into g2 at the largest and the smallest value of the check, and one above it; another register. -/
theorem witness_IopiResults : Executes stA 0 ∧ (∀ f : BitVec 3, (intTable (immTable f 0x3FF).1 7 (immTable f 0x3FF).2).isSome = true) ∧
    StackHolds stA 4096 ∧ StackHolds stA 0 ∧ ¬ StackHolds stA 4097 ∧ ¬ StackHolds stA (BitVec.ofNat 64 (2 ^ 52)) :=
  ⟨executes_stA, by decide +kernel, by unfold StackHolds; decide +kernel, by unfold StackHolds; decide +kernel,
    by unfold StackHolds; decide +kernel, by unfold StackHolds; decide +kernel⟩

theorem witness_Executes : Executes stA 0 ∧ ∀ f ∈ [1, 2, 3, 4, 5, 6, 21], (fp32.arith 0 f 0x40200000 0).isSome = true :=
  ⟨executes_stA, by decide +kernel⟩

/-! ## Witnesses: loads and stores -/

theorem readable_of {s : State} {m : Me} {p : W64} {n al : Nat} {t : BitVec 8} {k : BitVec 2} {g : Segment}
    (h : (ptrMid p = 0 ∧ s.findSeg m (ptrSeg p) = some (t, k, g) ∧ ptrOff p + n ≤ g.size ∧ (al = 0 ∨ ptrOff p % al = 0) ∧
      g.check = false ∧ g.state = .resident) ∧ g.store.poisoned (ptrOff p) n = []) : Readable s m p n al t k g := ⟨reachable_of h.1, h.2⟩

theorem writable_of {s : State} {m : Me} {p : W64} {n al : Nat} {t : BitVec 8} {k : BitVec 2} {g : Segment}
    (h : (ptrMid p = 0 ∧ s.findSeg m (ptrSeg p) = some (t, k, g) ∧ ptrOff p + n ≤ g.size ∧ (al = 0 ∨ ptrOff p % al = 0) ∧
      g.check = false ∧ g.state = .resident) ∧ g.store.partPoison (ptrOff p) n = []) : Writable s m p n al t k g := ⟨reachable_of h.1, h.2⟩

/-- Accesses of each size at the data, and of 16 bytes at the end of the segment. -/
theorem witness_SegmentLoads : Executes stA 0 ∧ Readable stA stA.seqMe (stA.bank.gr 5 + BitVec.ofInt 64 ((7 : BitVec 10).toInt)) 1 1 0 0 (seg5 stA) ∧
    Readable stA stA.seqMe (stA.bank.gr 5) 8 8 0 0 (seg5 stA) ∧ Readable stA stA.seqMe (stA.bank.gr 5) 4 4 0 0 (seg5 stA) ∧
    Readable stA stA.seqMe (stA.bank.gr 8) 16 16 0 0 (seg5 stA) :=
  ⟨executes_stA, readable_of (by decide +kernel), readable_of (by decide +kernel), readable_of (by decide +kernel), readable_of (by decide +kernel)⟩

theorem witness_SegmentStores : Executes stA 0 ∧ MemoryCanonical stA ∧
    Writable stA stA.seqMe (stA.bank.gr 5 + BitVec.ofInt 64 ((7 : BitVec 10).toInt)) 1 1 0 0 (seg5 stA) ∧
    Writable stA stA.seqMe (stA.bank.gr 5) 4 4 0 0 (seg5 stA) ∧ Writable stA stA.seqMe (stA.bank.gr 8) 16 16 0 0 (seg5 stA) :=
  ⟨executes_stA, memory_stA, writable_of (by decide +kernel), writable_of (by decide +kernel), writable_of (by decide +kernel)⟩

def tableBytes : List Host.Cell := cells 0 (leBytes 8 0x1001) ++ cells 0x1000 (leBytes 8 0x2001) ++ cells 0x2000 (leBytes 8 0x3001) ++
  cells 0x3008 (leBytes 8 0x1000D) ++ cells 0x70060 (leBytes 8 0x1122334455667788) ++ cells 0x70800 (obj 100 1 90)

/-- Stage-1 tables in page 0 and following of GDDR 7 that map page 1 to IPA page 1, and that to GDDR page 7. -/
def mapped (s : State) : State := s.modTower 0 fun t => { t with
  gddr := { t.gddr with bytes := tableBytes }
  mmu := { t.mmu with root := some 0, s2 := [(0, .gddr 0 0), (1, .gddr 0 7)] } }

/-- A capability of n bytes from a base, with permissions. -/
def capOf (base n perms : Nat) : Cap := ⟨BitVec.ofNat 128 (base + n * 2 ^ 54 + perms * 2 ^ 80), true⟩

/-- The translation of page 1. -/
def xl0 : Xl := ⟨.gddr 0 7, 1, false, false⟩

/-- stA with the tables, in g5 the address of data in page 1, in g6 that of an object, and a capability of page 1 in cap3. -/
def stG : State := let s := setG (mapped stA) [(5, 0x10060), (6, 0x10800)]; s.setBank (s.bank.setCap 3 (capOf 0x10000 0x1000 0x9B))

theorem executes_stG : Executes stG 0 := executes_of (by decide +kernel)

theorem memory_stG : MemoryCanonical stG := by unfold MemoryCanonical; decide +kernel

/-- What the tables of mapped give for page 1. -/
def e0 : TlbEntry := ⟨1, true, true, false, false, 1, false⟩

/-- The hypotheses of a global access on page 1, as one decidable fact. -/
theorem global_of {s : State} {m : Me} {c : Cap} {va : W64} {n acc : Nat} {need : List Nat} {w : BitVec 3} {a : Nat} (p : Partition)
    (h : (c.tag = true ∧ c.malformed = false ∧ c.tenant = s.partid m.tile % 2 ^ 16 ∧ (c.base ≤ va.toNat ∧ va.toNat + n ≤ c.base + c.len) ∧
      need.all c.has = true ∧ vaChip va = s.chipOf m.tile) ∧
      (s.partOf m.tile = some p ∧ (vaChip va).toNat < p.setup.chips.toNat ∧ p.setup.towers.getLsbD (vaTower va).toNat = true) ∧
      (0 < n ∧ vaOff va % 65536 + n ≤ 65536) ∧ s.stage1 (vaTower va) (vaOff va) = .inr e0 ∧
      (match s.finishXl (vaTower va) e0 acc with
      | .ok x => decide (x = xl0)
      | _ => false) = true ∧ (s.tower (vaTower va)).mmu.tlb = [] ∧ (w = 0 ∧ a = 7 * 65536 + vaOff va % 65536) ∧
      (s.tower (vaTower va)).mmu.repStores.any (·.page == 1) = false) : Global s m c va n acc need xl0 w a := by
  obtain ⟨⟨h1, h2, h3, h4, h5, h6⟩, h7, h8, h9, h10, h11, ⟨rfl, h12⟩, h13⟩ := h
  refine ⟨h1, h2, h3, h4, h5, h6, ⟨p, h7⟩, h8, ⟨e0, h9, ?_, .inr (by rw [h11]; rfl)⟩, ⟨7, rfl, h12⟩, h13⟩
  revert h10
  cases s.finishXl (vaTower va) e0 acc <;> simp

theorem noGRace_of {s : State} {m : Me} {c : Cap} {x : Xl} {w : BitVec 3} {a n : Nat} {r : Bool} (h : (c.has pCHECKED || x.chk) = false) :
    NoGRace s m c x w a n r := by simp [NoGRace, h]

/-- A load and a store of 8 bytes of page 1, and a load of its capability's last 4 bytes. -/
theorem witness_GlobalAccesses : Executes stG 0 ∧ MemoryCanonical stG ∧
    Global stG stG.seqMe (stG.bank.capr 3) (stG.bank.gr 5) 8 0 [pREAD] xl0 0 0x70060 ∧
    Global stG stG.seqMe (stG.bank.capr 3) (stG.bank.gr 5) 8 1 [pWRITE] xl0 0 0x70060 ∧
    NoGRace stG stG.seqMe (stG.bank.capr 3) xl0 0 0x70060 8 true ∧ (stG.tower 0).gddr.poisoned 0x70060 8 = [] ∧
    (let s := setG stG [(5, 0x10FFC)]
    Executes s 0 ∧ Global s s.seqMe (s.bank.capr 3) (s.bank.gr 5) 4 0 [pREAD] xl0 0 0x70FFC ∧ (s.bank.gr 5).toNat % 4 = 0) :=
  ⟨executes_stG, memory_stG, global_of part0 (by decide +kernel), global_of part0 (by decide +kernel), noGRace_of (by decide +kernel),
    by decide +kernel, executes_of (by decide +kernel), global_of part0 (by decide +kernel), by decide +kernel⟩

/-- stG in a partition of two chips, with an address and a capability of chip 1. -/
def stFar : State :=
  let s := setG { stG with parts := [{ part0 with setup := { part0.setup with chips := 2, farTowers := [(1, 1)] } }] } [(5, 2 ^ 51 + 0x10060)]
  s.setBank (s.bank.setCap 3 (capOf (2 ^ 51 + 0x10000) 0x1000 0x9B))

theorem witness_GlobalAccesses_remote : let va := stFar.bank.gr 5
    let c := stFar.bank.capr 3
    stFar.bank.pr 0 = true ∧ stFar.bank.rpt = none ∧ stFar.bank.loopOrder = [] ∧ c.tag = true ∧ c.malformed = false ∧
    c.tenant = stFar.partid stFar.cur % 2 ^ 16 ∧ c.base ≤ va.toNat ∧ va.toNat + 8 ≤ c.base + c.len ∧ c.has pREAD = true ∧
    c.has pREMOTE = true ∧ c.has pCHECKED = false ∧ va.toNat % 8 = 0 ∧ stFar.partOf stFar.cur = stFar.parts.head? ∧ vaChip va = 1 ∧
    stFar.seqAgt = {} ∧ ((stFar.parts.head?.map fun p => setupReaches p.setup va) = some true) ∧
    (∀ m ∈ [false, true], let r : RemoteReply := { id := 3, cause := 0, finfo := 0, bs := leBytes 8 9, setter := noWho, met := m }
    let s := stFar.setSeqAgt { stFar.seqAgt with got := [r] }
    s.seqAgt.wait = none ∧ s.seqAgt.got = [r] ∧ s.seqAgt.layers = none ∧ s.seqAgt.pend = none ∧ s.seqAgt.absent = none ∧
      s.seqAgt.tested = false ∧ (leBytes 8 9).length = 8) := by decide +kernel

/-- A capability for each check, at the edges of its region where the check is a range. -/
theorem witness_CapabilityRules : Executes stG 0 ∧ (let va := stG.bank.gr 5
    let other : Cap := ⟨BitVec.ofNat 128 (0x10000 + 0x1000 * 2 ^ 54 + 0x9B * 2 ^ 80 + 5 * 2 ^ 88), true⟩
    (⟨(capOf 0x10000 0x1000 0x9B).raw, false⟩ : Cap).tag = false ∧ (⟨BitVec.ofNat 128 (0x10000 + 2 ^ 54 + 35 * 2 ^ 74), true⟩ : Cap).malformed = true ∧
    other.malformed = false ∧ other.tenant ≠ stG.partid stG.cur % 2 ^ 16 ∧
    (let c := capOf 0x10061 0x1000 0x9B; va.toNat < c.base ∧ c.malformed = false ∧ c.tenant = stG.partid stG.cur % 2 ^ 16) ∧
    (let c := capOf 0x10000 0x67 0x9B; c.base + c.len < va.toNat + 8 ∧ c.malformed = false) ∧
    (let c := capOf 0x10000 0x68 0x9A; va.toNat + 8 ≤ c.base + c.len ∧ c.has pREAD = false) ∧
    (let c := stG.bank.capr 3; c.has pREAD = true ∧ vaChip va = stG.chipOf stG.cur ∧ (va + 4).toNat % 8 ≠ 0) ∧
    (let c := capOf (2 ^ 51 + 0x10000) 0x1000 (0x9B - 2 ^ pREMOTE); vaChip (stFar.bank.gr 5) ≠ stFar.chipOf stFar.cur ∧ c.has pREAD = true ∧
      c.has pREMOTE = false)) := ⟨executes_stG, by decide +kernel⟩

/-- Derivations at offset 0, at the whole length, past it, and at the end of the address space. -/
theorem witness_CapabilityRules_derive : Executes stG 0 ∧ (let c := stG.bank.capr 3
    c.tag = true ∧ c.malformed = false ∧ c.has pDERIVE = true ∧ c.len = 0x1000 ∧ c.base + c.len < 2 ^ 54 ∧
    (let t := capOf (2 ^ 54 - 1) 1 0x9B; t.tag = true ∧ t.malformed = false ∧ t.base + 1 = 2 ^ 54 ∧ 1 ≤ t.len ∧ t.has pDERIVE = true) ∧
    (stG.bank.capr 4).tag = false ∧ (capOf 0x10000 0x1000 (0x9B - 2 ^ pDERIVE)).has pDERIVE = false) := ⟨executes_stG, by decide +kernel⟩

/-- AMO on the data of segment 5 and of page 1; a compare and swap that finds the value, and one that does not. -/
theorem witness_AtomicResults : Executes stA 0 ∧ Reachable stA stA.seqMe (stA.bank.gr 5) 8 8 true false 0 0 (seg5 stA) ∧
    (seg5 stA).store.poisoned (ptrOff (stA.bank.gr 5)) 8 = [] ∧ leNat ((seg5 stA).store.read (ptrOff (stA.bank.gr 5)) 8) = 0xA1A2A3A4A5A6A7A8 ∧
    Global stG stG.seqMe (stG.bank.capr 3) (stG.bank.gr 5) 8 2 [pREAD, pWRITE, pATOMIC] xl0 0 0x70060 ∧
    (stG.tower 0).gddr.poisoned 0x70060 8 = [] :=
  ⟨executes_stA, reachable_of (by decide +kernel), by decide +kernel, by decide +kernel, global_of part0 (by decide +kernel), by decide +kernel⟩

/-! ## Witnesses: control flow, queues, synchronisation -/

/-- A jump to a multiple of 4 and one that is none; counts 0, 1, 2^32 and one above; words that RPT may and may not repeat. -/
theorem witness_ControlFlow : Executes stA 0 ∧ (stA.bank.gr 8 + BitVec.ofInt 64 ((4 : BitVec 13).toInt)).toNat % 4 = 0 ∧
    (stA.bank.gr 8 + BitVec.ofInt 64 ((2 : BitVec 13).toInt)).toNat % 4 ≠ 0 ∧
    (let s := setG stA [(4, 0), (5, 1), (6, 2 ^ 32), (7, 2 ^ 32 + 1)]
    (s.bank.gr 4).toNat = 0 ∧ (s.bank.gr 5).toNat = 1 ∧ (s.bank.gr 6).toNat = 2 ^ 32 ∧ 2 ^ 32 < (s.bank.gr 7).toNat) ∧
    wordIn stA.seqCode (stA.bank.pc + 4) = none ∧
    wordIn stTurn.seqCode (stTurn.bank.pc + 4) = some 0x0418C004 ∧ rptForbids 0x0418C004 = false ∧ rptForbids 0xA8000003 = true ∧
    (let s := stTurn.setBank { stTurn.bank with lstat := setBit (BitVec.ofNat 64 (5 * 2 ^ 40)) 32 true }
    lsRptv s.bank.lstat = true ∧ lsRpti s.bank.lstat = 5 ∧ s.bank.pr 1 = false ∧ lsRptv stTurn.bank.lstat = false) ∧ (⟨4, 3, 3, 2, 2⟩ : Rpt).i.toNat + 1 < (⟨4, 3, 3, 2, 2⟩ : Rpt).cnt.toNat :=
  ⟨executes_stA, by decide +kernel⟩

/-- A loop whose body ends at the next word: with passes left, at its last pass, and rotating in its fill and its drain. -/
def stLoop (lc lo hi st : Nat) (rot : Bool) : State :=
  let b := stA.bank
  stA.setBank { b with
    loopOrder := [2], loopEnd := vset (2 : BitVec 2) (b.pc + 4) b.loopEnd, lc := vset (2 : BitVec 2) (BitVec.ofNat 32 lc) b.lc
    lstat := (if rot then 0x400000 else 0) ||| lsSetHi (lsSetLo (lsSetAct b.lstat 2 true) 2 lo) 2 hi ||| BitVec.ofNat 64 (st * 2 ^ 54) }

theorem witness_PassEnds : (let s := stLoop 5 1 1 0 false
    s.bank.pr 0 = true ∧ s.bank.rpt = none ∧ s.bank.loopOrder = [2] ∧ lsAct s.bank.lstat 2 = true ∧ vget (2 : BitVec 2) s.bank.loopEnd = s.bank.pc + 4 ∧
    bits (s.tile s.cur).trctl 13 12 = 0 ∧ lsRot s.bank.lstat 2 = false ∧ vget (2 : BitVec 2) s.bank.lc ≠ 0) ∧
    vget (2 : BitVec 2) (stLoop 0 1 1 0 false).bank.lc = 0 ∧
    (let l := (stLoop 0 3 3 2 true).bank; lsRot l.lstat 2 = true ∧ vget (2 : BitVec 2) l.lc = 0 ∧ lsLo l.lstat 2 = 3 ∧ lsHi l.lstat 2 = 3 ∧ lsSt l.lstat 2 = 2) ∧
    (let l := (stLoop 9 1 2 2 true).bank; vget (2 : BitVec 2) l.lc = 9 ∧ lsHi l.lstat 2 < lsSt l.lstat 2 + 1 ∧ lsLo l.lstat 2 ≤ 6) ∧
    (let l := (stLoop 0 6 7 6 true).bank; lsRot l.lstat 2 = true ∧ lsLo l.lstat 2 = 6 ∧ lsHi l.lstat 2 = 7 ∧ lsSt l.lstat 2 = 6) := by decide +kernel

theorem executesK_stA : ExecutesK stA 0 := ⟨executes_stA, by decide +kernel⟩

/-- Queues of the slot changed. -/
def qd (s : State) (f : Queues → Queues) : State := s.modSlot 0 0 fun k => { k with q := f k.q }

/-- A command queue with room, a full one, a block the image does not hold; the FIFOs of the sequencer empty and not; a
deferral queue with room, a full one, and an address off its boundary. -/
theorem witness_QueueOperations : ExecutesK stA 0 ∧ stA.ctxOf stA.cur stA.curSlot = some (oneWord 0) ∧
    ((stA.slot stA.cur stA.curSlot).cmdQ .mat).items.length < 16 ∧ ((oneWord 0).code.blocks .mat).length = 1 ∧
    (stA.tower (towerOf stA.cur)).dec.q.items.length < 64 ∧
    (let s := stA.modSlot 0 0 fun k => k.setCmdQ .vec { k.cmdQ .vec with items := List.replicate 16 oneEntry }
    ((s.slot s.cur s.curSlot).cmdQ .vec).items.length = 16 ∧ s.seqAgt.grant = false) ∧
    (stA.slot stA.cur stA.curSlot).q.vecSeq.items = [] ∧ (stA.slot stA.cur stA.curSlot).q.ev.items = [] ∧
    (let s := qd stA fun q => { q with matSeq := { q.matSeq with items := [⟨5, default, []⟩] }, ev := { q.ev with items := [⟨2 ^ 64 + 7, default, []⟩] } }
    (s.slot s.cur s.curSlot).q.matSeq.items = [⟨5, default, []⟩] ∧ (s.slot s.cur s.curSlot).q.ev.items = [⟨2 ^ 64 + 7, default, []⟩]) :=
  ⟨executesK_stA, by decide +kernel⟩

theorem witness_QueueOperations_pushd : Executes stA 0 ∧ MemoryCanonical stA ∧ (stA.bank.gr 7).toNat % 64 = 0 ∧ (stA.bank.gr 5).toNat % 64 ≠ 0 ∧
    (seg5 stA).size ≤ 2 ^ 23 ∧ (seg5 stA).store.poisoned 0x1000 192 = [] ∧ leNat ((seg5 stA).store.read 0x1010 4) = 4 ∧
    leNat ((seg5 stA).store.read 0x1000 8) = 5 ∧ leNat ((seg5 stA).store.read 0x1008 8) = 7 ∧
    Reachable stA stA.seqMe (stA.bank.gr 7) (64 + 32 * 4) 16 true true 0 0 (seg5 stA) := by
  refine ⟨executes_stA, memory_stA, ?_, ?_, ?_, ?_, ?_, ?_,
    ?_, reachable_of (?_)⟩ <;> decide +kernel

/-- The slot's semaphores set. -/
def semd (s : State) (n : BitVec 3) (c : BitVec 16) : State := s.modSlot 0 0 fun k => { k with sems := { k.sems with count := vset n c k.sems.count } }

/-- Counts 0, 1, 65,534 and 65,535; arrivals of 0 bytes, up to EXPECTED, and past it; a phase that differs and one that
does not. -/
theorem witness_Synchronisation : ExecutesK stA 0 ∧ MemoryCanonical stA ∧ vget (3 : BitVec 3) (stA.slot 0 0).sems.count = 0 ∧
    (stA.slot 0 0).sems.waiters = [] ∧ vget (3 : BitVec 3) ((semd stA 3 1).slot 0 0).sems.count = 1 ∧
    vget (3 : BitVec 3) ((semd stA 3 0xFFFF).slot 0 0).sems.count = 0xFFFF ∧
    (barrierOf ((seg5 stA).store.read 0x800 16)).expected = 100 ∧ (barrierOf ((seg5 stA).store.read 0x800 16)).phase = 1 ∧
    (barrierOf ((seg5 stA).store.read 0x800 16)).arrived = 90 ∧ (stA.bank.gr 10).toNat = 10 ∧ (stA.bank.gr 11).toNat = 11 ∧
    (stA.bank.gr 12).toNat = 0 ∧ (seg5 stA).store.poisoned 0x800 16 = [] ∧ Reachable stA stA.seqMe (stA.bank.gr 6) 16 16 true false 0 0 (seg5 stA) ∧
    Reachable stA stA.seqMe (stA.bank.gr 6) 16 16 false false 0 0 (seg5 stA) ∧
    Global stG stG.seqMe (stG.bank.capr 3) (stG.bank.gr 6) 16 2 [pREAD, pWRITE, pATOMIC] xl0 0 0x70800 ∧
    Global stG stG.seqMe (stG.bank.capr 3) (stG.bank.gr 6) 16 0 [pREAD] xl0 0 0x70800 ∧ (stG.tower 0).gddr.poisoned 0x70800 16 = [] := by
  refine ⟨executesK_stA, memory_stA, ?_, ?_, ?_, ?_, ?_, ?_,
    ?_, ?_, ?_, ?_, ?_, reachable_of (?_),
    reachable_of (?_), global_of part0 (?_), global_of part0 (?_), ?_⟩ <;> decide +kernel

/-- A tile in the runtime, in S, that came from a trap of slot 0, its partition's runtime one word. -/
def stR : State := stA.modTile 0 fun t => { t with
  inRuntime := true
  priv := .s
  rt := { t.rt with pc := 0x20 }
  tr := { t.tr with fcause := 0x18, epc := 0x44, tvec := 0x1234, slice := 77 } }

theorem executes_stR : Executes stR 0 := executes_of (by decide +kernel)

/-- No item of xlayer outstanding, and one; a kernel and the runtime; WAITI with and without a condition. -/
theorem witness_FencesAndWaits : Executes stA 0 ∧ stA.inRt = false ∧ (stA.slot stA.cur stA.curSlot).mem.layerOut = 0 ∧
    (let s := stA.modSlot 0 0 fun k => { k with mem := { k.mem with layerOut := 1 } }; (s.slot s.cur s.curSlot).mem.layerOut ≠ 0 ∧ s.inRt = false) ∧
    (stA.waitiConds stA.cur stA.curSlot &&& 0x1F) = 0 ∧
    (let s := qd stA fun q => { q with ev := { q.ev with items := [⟨7, default, []⟩] } }; s.waitiConds s.cur s.curSlot &&& 0x1F ≠ 0) ∧
    stA.bank.gr 0 = 0 ∧ stA.ctxOf stA.cur stA.curSlot = some (oneWord 0) ∧ bits (stA.tile stA.cur).trctl 13 12 ≠ 1 ∧
    Executes stR 0 ∧ stR.inRt = true ∧ stR.bank.gr 0 = 0 ∧ (setG stR [(5, 9)]).bank.gr 5 ≠ 0 := by
  refine ⟨executes_stA, ?_, ?_, ?_, ?_, ?_, ?_, ?_,
    ?_, executes_stR, ?_⟩ <;> decide +kernel

/-- An agent of slot 0 of tile 0 waits for an object. -/
def stWait (a : Agent) (w : Wait) (s : State) : State := s.setAgt 0 0 a { s.agt 0 0 a with wait := some w }

/-- The transfer unit has an entry queued: one of an xlayer step of 3 items, and one of none. -/
def stLf (i : Instr) : State := { stA.modSlot 0 0 fun k => { k with q := { k.q with xfr := { k.q.xfr with items := [oneEntry] } } } with
  ctxs := [oneWord ((encode i).getD 0)] }

theorem witness_FencesAndWaits_layer : (stLf (.xlayer 1 2 3 0 0 0)).layerDue 0 0 = true ∧ (stLf (.xcopy 1 2 3 0 0 0)).layerDue 0 0 = false ∧
    (let s := stWait .seq { obj := .layerFence } (stLf (.xlayer 1 2 3 0 0 0)); s.waitingOn 0 .seq = some (0, { obj := .layerFence })) := by
  decide +kernel

/-- A register of both modes, one of S alone, a number of no register; S and U. -/
theorem witness_SystemRegisters : Executes stA 0 ∧ (stA.tile stA.cur).priv = .u ∧ (stA.sysreg 0x000).isSome = true ∧ sysPriv 0x000 = false ∧
    (stA.sysreg 0x010).isSome = true ∧ sysPriv 0x010 = true ∧ stA.sysreg 0xFFF = none ∧ Executes stR 0 ∧ (stR.tile stR.cur).priv ≠ .u ∧
    (stR.slot stR.cur stR.seqSlot).ctx.isSome = true := by
  refine ⟨executes_stA, ?_, ?_, ?_, ?_, ?_, ?_, executes_stR,
    ?_⟩ <;> decide +kernel

/-! ## Witnesses: traps, returns, the runtime -/

theorem witness_TrapEntries : stA.inRt = false ∧ (stA.tile stA.cur).running = some 0 ∧ (stA.slot stA.cur 0).faults = [] ∧
    (stA.slot stA.cur 0).atBoundary = true ∧ (stA.slot stA.cur 0).sq.hasIter = true ∧ stA.bank.rpt = none ∧ (stA.tile stA.cur).tr.tip = false ∧
    stA.bank.pr 0 = true ∧ stA.bank.loopOrder = [] := by decide +kernel

/-- A fault of the runtime, and a double fault in a partition without a fatal error. -/
theorem witness_TrapEntries_runtime : stR.inRt = true ∧ (stR.tile stR.cur).tr.tip = false ∧
    (let s := stR.modTile 0 fun t => { t with tr := { t.tr with fcause := BitVec.ofNat 64 (2 ^ 63 + 0x18) } }
    s.inRt = true ∧ (s.tile s.cur).tr.tip = true ∧ s.partOf s.cur = some part0 ∧ part0.fatal = none) ∧
    (let s := stR.modTile 0 fun t => { t with priv := .m }
    s.inRt = true ∧ (s.tile s.cur).priv = .m ∧ s.partOf s.cur = some part0) := by decide +kernel

theorem witness_ReturnsAndEnds : stR.inRt = true ∧ Executes stR 0 ∧ (stR.tile stR.cur).priv ≠ .u ∧
    (let x := stR.tile stR.cur
    BitVec.ofNat 2 (x.tr.fcause.toNat / 2 ^ 48) = 0 ∧ (x.slot 0).ctx.isSome = true ∧ (x.slot 0).faults = [] ∧ (x.slot 0).held = none ∧ (x.slot 0).sq.pending = false ∧ x.scrub = []) ∧ stR.bank.gr 0 = (0 : BitVec 2).setWidth 64 ∧
    (setG stR [(5, 4)]).bank.gr 5 = 4 ∧ (stR.slot stR.cur 0).ctx = some 0 ∧ stR.ctxById 0 = some (oneWord 0) ∧
    stR.partByNum (oneWord 0).part = some part0 :=
  ⟨by decide +kernel, executes_stR, by decide +kernel⟩

/-- stR with stage-1 tables, g4 and g5 set. -/
def stF (x y : Nat) : State := setG (mapped stR) [(4, x), (5, y)]

/-- Legal and illegal arguments at the edges of their ranges. -/
theorem witness_FirmwareResults : (stF 0 0).inRt = true ∧ Executes (stF 0 0) 0 ∧ (stF 0 0).partOf (stF 0 0).cur = some part0 ∧
    (part0.setup.towers.getLsbD 0 = true ∧ part0.setup.towers.getLsbD 1 = false ∧ (2 ^ 48 - 4096) % 4096 = 0) ∧
    (let x := (stF 0x10040 0x10000).bank.gr 4
    x.toNat < 2 ^ 54 ∧ vaChip x = part0.setup.chip ∧ part0.setup.towers.getLsbD (vaTower x).toNat = true ∧ x.toNat % 64 = 0) ∧
    vaOff ((stF (2 ^ 48 - 65536) 65536).bank.gr 4) + ((stF (2 ^ 48 - 65536) 65536).bank.gr 5).toNat = 2 ^ 48 ∧
    ((stF 10 0).bank.gr 4).toNat = 10 ∧ ((stF 10000 0).bank.gr 4).toNat = 10000 ∧ ((stF 9 0).bank.gr 4).toNat < 10 ∧
    10000 < ((stF 10001 0).bank.gr 4).toNat ∧ part0.faultRing = none ∧ ((stF 0x10041 0).bank.gr 4).toNat % 64 ≠ 0 ∧
    vaChip ((stF (2 ^ 51) 0).bank.gr 4) ≠ part0.setup.chip ∧ part0.setup.towers.getLsbD (vaTower ((stF (2 ^ 48) 0).bank.gr 4)).toNat = false ∧
    2 ^ 48 < vaOff ((stF (2 ^ 48 - 65536) 65537).bank.gr 4) + ((stF (2 ^ 48 - 65536) 65537).bank.gr 5).toNat ∧
    part0.setup.towers.getLsbD ((stF 0 8).bank.gr 5).toNat = false :=
  ⟨by decide +kernel, executes_of (by decide +kernel), by decide +kernel⟩

/-- REFUSE with and without its record, MIGRATE to the page's own tower, to another one, and under a hold; RECREAD into a
segment of 64 KiB. -/
theorem witness_FirmwareResults_actions : (part0.towerList = [0] ∧ ((stF 0 0).tower 0).mmu.posted = []) ∧
    (let s := (stF 5 0).modTower 0 fun w => { w with mmu := { w.mmu with posted := [⟨1, some 5, 0⟩] } }
    (s.tower 0).mmu.posted.filter (·.slot == some (s.bank.gr 4).toNat) = [⟨1, some 5, 0⟩]) ∧
    (let s := stF 0x10000 0
    let x := s.bank.gr 4
    vaChip x = part0.setup.chip ∧ s.stage1 (vaTower x) (vaOff x) = .inr e0 ∧ (s.tower (vaTower x)).mmu.stage2 e0.ipa = some (.gddr 0 7) ∧
    (s.tower (vaTower x)).mmu.holds.find? (·.page == vaOff x / 65536) = none) ∧
    (let s := { stF 0x10000 1 with parts := [{ part0 with setup := { part0.setup with towers := 3 } }] }
    (s.partOf s.cur).map (·.setup.towers) = some 3 ∧ (s.bank.gr 5).toNat = 1 ∧ s.memWf = true) ∧
    (let s := (stF 0x10000 0).modTower 0 fun w => { w with mmu := { w.mmu with holds := [⟨1, false, 3, 9⟩] } }
    (s.tower 0).mmu.holds.find? (·.page == vaOff (s.bank.gr 4) / 65536) = some ⟨1, false, 3, 9⟩) ∧
    ((stF 0 (in5 0)).memWf = true ∧ part0.setup.towers.getLsbD (0 / 32) = true) ∧
    ((0x107 : BitVec 64).toNat - 0x100 < 8 ∧ part0.setup.towers.getLsbD (0x100 - 0x100) = true ∧ part0.setup.towers.getLsbD (0x107 - 0x100) = false ∧
      (stF 0x100 (in5 0)).memWf = true ∧ 0x100 ≤ ((stF 0x100 (in5 0)).bank.gr 4).toNat) ∧
    Reachable (stF 0 (in5 0)) (stF 0 (in5 0)).seqMe ((stF 0 (in5 0)).bank.gr 5) 65536 0 true false 0 0 (seg5 (stF 0 (in5 0))) := by
  refine ⟨?_, ?_, ?_, ?_, ?_, ?_, ?_, reachable_of (?_)⟩ <;> decide +kernel

/-- An object of one word, one S level of one point, and STACK of 4 KiB (R80 to R87). -/
def image : List Byte :=
  [0x4F, 0x56, 0x4F, 0x31] ++ leBytes 2 1 ++ leBytes 2 1 ++ leBytes 16 1 ++ leBytes 2 1 ++ leBytes 2 0 ++ leBytes 4 0 ++ leBytes 4 132 ++
  leBytes 4 144 ++ leBytes 4 164 ++ leBytes 4 200 ++ leBytes 4 264 ++ leBytes 4 260 ++ leBytes 4 280 ++ List.replicate 68 0 ++
  leBytes 4 0x0418C004 ++ leBytes 4 1 ++ [1, 0, 0, 0] ++ leBytes 4 1 ++ List.replicate 20 0 ++
  leBytes 4 1 ++ leBytes 4 0 ++ leBytes 4 4096 ++ [0xFF, 0, 0, 0] ++ leBytes 4 0 ++ [0xFF, 0, 0, 0] ++ List.replicate 12 0 ++
  List.replicate 60 0 ++ leBytes 4 0 ++ leBytes 4 0 ++ leBytes 4 128 ++ leBytes 4 4 ++ leBytes 4 0

/-- A LAUNCH body: object 9, towers 1, one tile each, weight 1. -/
def launchBody : List Byte := leBytes 4 9 ++ [1, 1, 1, 0, 0] ++ List.replicate 7 0

/-- stF with the image loaded as object 9, and in page 1 at 0x20 a record header with its body. -/
def stL : State :=
  let s := (stF 0x10040 1).modTower 0 fun t => { t with
    gddr := { t.gddr with bytes := t.gddr.bytes.filter (·.1 < 0x70000) ++ cells 0x70020 (leBytes 4 0 ++ leBytes 4 16 ++ leBytes 8 3 ++ leBytes 8 4 ++
      List.replicate 8 0 ++ launchBody) } }
  { s with host := { s.host with objs := [⟨9, 0, 0, image⟩] } }

theorem witness_LaunchResults : stL.inRt = true ∧ Executes stL 0 ∧ stL.partOf stL.cur = some part0 ∧ (stL.bank.gr 5).toNat < 4 ∧
    (stL.bank.gr 4).toNat < 2 ^ 54 ∧ vaChip (stL.bank.gr 4) = part0.setup.chip ∧ part0.setup.towers.getLsbD (vaTower (stL.bank.gr 4)).toNat = true ∧
    (stL.devRead (stL.bank.gr 4 - 32) 32).map (fun h => leNat ((h.drop 4).take 4)) = some 16 ∧ stL.devRead (stL.bank.gr 4) 16 = some launchBody ∧
    (segRecs image).map (fun r => (r.num, r.home, r.size)) = [(0, 0xFF, 4096)] :=
  ⟨by decide +kernel, executes_of (by decide +kernel), by decide +kernel⟩

/-- A launch that fails with a value, and one that fails without: no such object, and no empty slot. -/
theorem witness_LaunchResults_error : (match stL.launch part0 (leBytes 4 8 ++ launchBody.drop 4) 16 1 0 0 0 with
    | .error e => decide (e = (1, some 0))
    | .ok _ => false) = true ∧ (match stL.launch part0 launchBody 16 0 0 0 0 with
    | .error e => e.1 == 0x0C && e.2.isNone
    | .ok _ => false) = true := by decide +kernel

theorem launch_ok {s : State} {p : Partition} {body : List Byte} {len : Nat} {k : BitVec 2} {q session seq : W64} {o : Obj}
    {tiles : List (BitVec 8)}
    (h1 : (s.host.objs.find? fun o => o.handle.toNat = rdN body 0 4 ∧ o.kind = 0 ∧ o.part = p.setup.num) = some o)
    (h2 : ¬ (rdN body 9 7 ≠ 0 ∨ 32 < rdN body 7 1 ∨ 8 < rdN body 8 1 ∨ rdN body 5 1 = 0 ∨ 32 < rdN body 5 1 ∨ rdN body 6 1 = 0 ∨
      16 < rdN body 6 1 ∨ BitVec.ofNat 8 (rdN body 4 1) = 0 ∨ len < 16 + 8 * rdN body 7 1 + 16 * rdN body 8 1))
    (h3 : s.pickTiles p (BitVec.ofNat 8 (rdN body 4 1)) (rdN body 5 1) k = some tiles)
    (h4 : rdN body 7 1 = 0 ∧ rdN body 8 1 = 0 ∧ q = 0)
    (h5 : validate o.image p.setup.kv [] 0 tiles.length (tiles.map fun t => (s.slot t k).mem.quota.toNat) = none) :
    s.launch p body len k q session seq = s.makeCtx p o.image [] [] tiles k none (rdN body 6 1) session seq := by
  obtain ⟨h6, h7, rfl⟩ := h4
  unfold State.launch
  rw [h6, h7] at h2
  simp only [h1, h3, h6, h7, if_pos, Option.getD_none, List.range_zero, List.map_nil, h5]
  exact if_neg h2

/-- The launch of the image succeeds whenever the free `.accuse` range (log 9) passes check 11. -/
theorem witness_LaunchResults_made (h : (Config.accuse image).1 + (Config.accuse image).2 ≤ 256) :
    ∃ x, stL.launch part0 launchBody 16 1 0 0 0 = .ok x := by
  have hc : chkAcc image = none := by simp only [chkAcc]; exact if_neg (by omega)
  have hv : validate image part0.setup.kv [] 0 1 [(stL.slot 0 1).mem.quota.toNat] = none := by
    unfold validate; simp only [hc]; decide +kernel
  have hm : (match stL.makeCtx part0 image [] [] [0] 1 none 1 0 0 with
    | .ok _ => true
    | .error _ => false) = true := by decide +kernel
  rw [launch_ok (o := ⟨9, 0, 0, image⟩) (tiles := [0]) (by decide +kernel) (by decide +kernel) (by decide +kernel) (by decide +kernel) hv]
  change ∃ x, stL.makeCtx part0 image [] [] [0] 1 none 1 0 0 = .ok x
  revert hm
  cases stL.makeCtx part0 image [] [] [0] 1 none 1 0 0 <;> simp

/-! ## Witnesses: segments, accumulators, ranges, tables -/

def quotaAt (s : State) (q : Nat) : State := s.modSlot 0 0 fun k => { k with mem := { k.mem with quota := BitVec.ofNat 24 q } }

/-- The smallest and the largest size, sizes and attributes that are illegal, the free number 1, a pinned segment that
does not fit. -/
theorem witness_SegmentInstructions : ExecutesK stA 0 ∧ stA.ctxOf stA.cur stA.curSlot = some (oneWord 0) ∧
    (0x800000 % 64 = 0 ∧ 64 ≤ 0x800000) ∧ 1 ∉ stA.usedNums (oneWord 0) ∧
    stA.backingUse (towerOf stA.cur) + 0x800000 ≤ 24 * 2 ^ 30 ∧
    (stA.slot stA.cur stA.curSlot).pinned 0 + 64 + (oneWord 0).code.spareB ≤ (stA.slot stA.cur stA.curSlot).mem.quota.toNat ∧
    (let s := quotaAt stA 63
    (s.slot s.cur s.curSlot).mem.quota.toNat < (s.slot s.cur s.curSlot).pinned 0 + 64 + (oneWord 0).code.spareB) :=
  ⟨executesK_stA, by decide +kernel⟩

/-- A segment that is live and none that is; STACK and another; entries that hold the context and none. -/
theorem witness_SegmentInstructions_control : ExecutesK stA 0 ∧ (let p := stA.bank.gr 5
    ptrMid p = 0 ∧ stA.findSeg stA.seqMe (ptrSeg p) = some (0, 0, seg5 stA) ∧ (seg5 stA).num ≠ 0 ∧ (seg5 stA).state = .resident ∧
    (stA.slot 0 0).pinned 5 + (seg5 stA).size + stA.spareOf 0 0 ≤ (stA.slot 0 0).mem.quota.toNat ∧
    ((quotaAt stA 65535).slot 0 0).mem.quota.toNat < ((quotaAt stA 65535).slot 0 0).pinned 5 + 65536 + (quotaAt stA 65535).spareOf 0 0 ∧
    (stA.holders stA.cur stA.curSlot fun _ => true) = [] ∧ (stE.holders stE.cur stE.curSlot fun _ => true) ≠ [] ∧
    stA.findSeg stA.seqMe 9 = none ∧ (stA.findSeg stA.seqMe 0).isSome = true ∧ (stA.bank.gr 0).toNat < 6 ∧ (stA.bank.gr 10).toNat ≥ 6) :=
  ⟨executesK_stA, by decide +kernel⟩

/-! ### Accumulators, ranges, tables -/

/-- Accumulator tile 10 of tile 0 free or owned, its rows 3 and 5 written. -/
def accd (s : State) (o : BitVec 8) : State :=
  s.modAcc 0 10 fun _ => { ((AccTile.reset.put 3 (BitVec.ofNat 1024 0x3F80000042280000) 0x00C1A040).put 5 7 0) with owner := o }

theorem canon_of {s r : State} (h : ∀ t, (s.tile t).acc = (r.tile t).acc) (c : AccCanonical r) : AccCanonical s := fun t => by rw [h t]; exact c t

theorem noacc_of {s : State} (h : (s.tiles.toList.all fun x => x.acc.isEmpty) = true) (t : BitVec 8) : (s.tile t).acc = [] := by
  have := List.all_eq_true.mp h (s.tile t) (by simp [State.tile, vget])
  simpa using this

theorem noacc_stG (t : BitVec 8) : (stG.tile t).acc = [] := noacc_of (by decide +kernel) t

/-- A state that lists accumulators in tile 0 only. -/
theorem canon_mod {s : State} {n : BitVec 8} {f : AccTile → AccTile} (h : ∀ t, (s.tile t).acc = [])
    (c : canonFrom AccTile.reset 0 ((s.modAcc 0 n f).tile 0).acc = true) : AccCanonical (s.modAcc 0 n f) := fun t => by
  by_cases e : t = 0
  · rw [e]; exact c
  · rw [State.modAcc, tile_modTile_ne (Ne.symm e), h]; rfl

theorem canon_accd (o : BitVec 8) (h : o = 0 ∨ o = 0xFF ∨ o = 9) : AccCanonical (accd stG o) :=
  canon_mod noacc_stG (by obtain rfl | rfl | rfl := h <;> decide +kernel)

/-- The tile owned by the context, free, and of another context. -/
theorem witness_AccumulatorControl (o : BitVec 8) (ho : o = 0 ∨ o = 0xFF ∨ o = 9) : Executes (accd stG o) 0 ∧
    ((accd stG o).bank.gr 10).toNat < 256 ∧ (accd stG o).inRt = false ∧ ((accd stG o).acc 0 10).owner = o ∧
    (accd stG o).ctxId 0 0 = 0 ∧ ((accd stG o).holders 0 0 fun _ => true) = [] := by
  obtain rfl | rfl | rfl := ho <;> exact ⟨executes_of (by decide +kernel), by decide +kernel⟩

/-- Tile 10 of another context, in S, an address 16 B aligned in g5, a capability of 16 KiB. -/
def stAcc : State :=
  let s := setG ((accd stG 9).modTile 0 fun t => { t with priv := .s }) [(5, 0x10020), (11, 0xFF), (12, 0)]
  s.setBank (s.bank.setCap 3 (capOf 0x10000 0x4000 0x9B))

/-- ACCOP set, save and load of the whole 4,224 bytes in S. -/
theorem witness_AccumulatorControl_image : Executes stAcc 0 ∧ (stAcc.tile stAcc.cur).priv ≠ .u ∧ (stAcc.bank.gr 5).toNat % 16 = 0 ∧
    stAcc.bank.gr 11 = (0xFF : BitVec 8).setWidth 64 ∧ stAcc.bank.gr 12 = (0 : BitVec 8).setWidth 64 ∧ (stAcc.tile 0).slotOfCtx 0 ≠ none ∧
    (stAcc.acc 0 10).poison = 0 ∧ xl0.rpl = false ∧ (stAcc.tower 0).gddr.partPoison 0x70020 4224 = [] ∧
    (stAcc.tower 0).gddr.poisoned 0x70020 4224 = [] ∧ stAcc.memWf = true ∧
    Global stAcc stAcc.seqMe (stAcc.bank.capr 3) (stAcc.bank.gr 5) 4224 1 [pWRITE] xl0 0 0x70020 ∧
    Global stAcc stAcc.seqMe (stAcc.bank.capr 3) (stAcc.bank.gr 5) 4224 0 [pREAD] xl0 0 0x70020 ∧
    NoGRace stAcc stAcc.seqMe (stAcc.bank.capr 3) xl0 0 0x70020 4224 true := by
  refine ⟨executes_of (?_), ?_, ?_, ?_, ?_, ?_, ?_,
    ?_, ?_, ?_, ?_, global_of part0 (?_),
    global_of part0 (?_), noGRace_of (?_)⟩ <;> decide +kernel

def ranged (n : Nat) : State := stA.modSlot 0 0 fun k => { k with ranges := List.replicate n 7 }

/-- An empty label stack, one label, 15 labels, a full stack; the runtime. -/
theorem witness_RangesAndStatus : Executes (ranged 0) 0 ∧ Executes (ranged 15) 0 ∧ Executes (ranged 16) 0 ∧ Executes stR 0 ∧
    ((ranged 0).slot (ranged 0).cur (ranged 0).seqSlot).ranges = [] ∧ ((ranged 15).slot 0 0).ranges.length < 16 ∧
    16 ≤ ((ranged 16).slot 0 0).ranges.length ∧ ((ranged 1).slot 0 0).ranges = [] ++ [7] ∧ (ranged 1).inRt = false ∧ stR.inRt = true ∧
    ((stA.slot 0 0).tstatSync stA.cur stA.tick).effs = [] ∧
    (let l : List TstatEff := [{ agent := .mat, issue := 3, since := some 37, flags := 2 }, { agent := .vec, issue := 4, since := some 36, flags := 4 }]
    let s := { stA.modSlot 0 0 fun k => { k with effs := l, tstat := 6 } with tick := 100 }
    let z := (s.slot 0 s.seqSlot).tstatSync s.cur s.tick
    z.effs = l.take 1 ∧ z.seen = 4) ∧
    (let l : List TstatEff := [{ agent := .vec, issue := 3, stamp := 9, flags := 2 }, { agent := .vec, issue := 4, stamp := 10, fchg := true }]
    let s := stA.modSlot 0 0 fun k => { k with effs := l, tstat := tstatOn l 0, knows := [(0, [(agentKey 0 .vec, 10)])] }
    let z := (s.slot 0 s.seqSlot).tstatSync s.cur s.tick
    z.effs = l.drop 1 ∧ z.seen = 2) :=
  ⟨executes_of (by decide +kernel), executes_of (by decide +kernel), executes_of (by decide +kernel), executes_stR, by decide +kernel⟩

/-- stA with slot-table entry 17 set and an image in segment 5 at 0x1000. -/
def stS (old new : Nat) (a b : Nat) : State :=
  let s := stA.modSlot 0 0 fun k => { k with
    mem := { k.mem with segs := k.mem.segs.map fun g => if g.num = 5 then { g with store := g.store.write 0x1000 (leBytes 64 new) {} } else g } }
  setG (s.setSlotEnt 0 (oneWord 0) 17 (BitVec.ofNat 512 old)) [(5, a), (6, b)]

/-- An entry of sequence 3, length 5, bucket 2, forked at 5 from 44. -/
def ent17 : Nat := 3 + 5 * 2 ^ 32 + 2 ^ 64 + 2 ^ 67 + 44 * 2 ^ 96 + 5 * 2 ^ 128

/-- Indexes at both ends, LEN below and at the capacity; images of the same sequence, of another one, and an empty one. -/
theorem witness_KvAndMasks_slots : ExecutesK (stS ent17 0 17 7) 0 ∧ (stS ent17 0 17 7).ctxOf 0 0 = some (oneWord 0) ∧
    (let s := stS ent17 0 17 7
    (s.bank.gr 5).toNat = 17 ∧ (s.bank.gr 6).toNat = 7 ∧ seValid (s.slotEnt 0 (oneWord 0) 17) = true ∧
    (s.bank.gr 6).toNat < seCap (s.slotEnt 0 (oneWord 0) 17) ∧ Agent.dec ∉ s.holders s.cur s.curSlot fun _ => true) ∧
    seCap (BitVec.ofNat 512 ent17) ≤ 65536 ∧ seValid (0 : SlotEnt) = false ∧ ((stS ent17 0 255 0).bank.gr 5).toNat = 255 ∧
    (∀ new ∈ [3 + 7 * 2 ^ 32 + 2 ^ 64, 4 + 7 * 2 ^ 32 + 2 ^ 64, 0], let s := stS ent17 new (in5 0x1000) 17
      let g := (s.slot 0 0).seg 5
      let img : SlotEnt := BitVec.ofNat 512 (leNat ((g.getD default).store.read 0x1000 64))
      s.memWf = true ∧ imageOk img = true ∧ (seValid img = true ∧ seSeq (BitVec.ofNat 512 ent17) = seSeq img →
        seBucket (BitVec.ofNat 512 ent17) = seBucket img)) ∧
    (let s := stS ent17 (4 + 7 * 2 ^ 32 + 2 ^ 64) (in5 0x1000) 17
    Readable s s.seqMe (s.bank.gr 5) 64 64 0 0 (seg5 s)) := by
  refine ⟨⟨executes_of (?_), ?_⟩, ?_, ?_, ?_, ?_,
    ?_, ?_, readable_of (?_)⟩ <;> decide +kernel

/-- Entries 17 (a parent of 5 tokens, no fork) and 18 (an empty child): a fork at 5, one past the parent's own fork point,
a drop and a look. -/
theorem witness_KvAndMasks_kv : let par := 3 + 5 * 2 ^ 32 + 2 ^ 64
    let s := setG ((stS par 0 0 0).setSlotEnt 0 (oneWord 0) 18 (BitVec.ofNat 512 (9 + 2 ^ 64))) [(5, 17 + 256 * 18), (6, 5), (7, 17), (8, 17 + 2 ^ 22)]
    let f := setG ((stS (par + 2 ^ 67 + 44 * 2 ^ 96 + 2 * 2 ^ 128) 0 0 0).setSlotEnt 0 (oneWord 0) 18 (BitVec.ofNat 512 (9 + 2 ^ 64))) [(5, 17 + 256 * 18), (6, 5)]
    s.inRt = false ∧ (s.bank.gr 5).toNat < 65536 ∧ seValid (s.slotEnt 0 (oneWord 0) 17) = true ∧ seValid (s.slotEnt 0 (oneWord 0) 18) = true ∧
    seForked (s.slotEnt 0 (oneWord 0) 18) = false ∧ seLen (s.slotEnt 0 (oneWord 0) 18) = 0 ∧ 5 ≤ seLen (s.slotEnt 0 (oneWord 0) 17) ∧
    seForked (s.slotEnt 0 (oneWord 0) 17) = false ∧ (s.bank.gr 7).toNat < 256 ∧ (s.bank.gr 8).toNat < 2 ^ 23 ∧ (s.bank.gr 6).toNat ≤ 65535 ∧
    seForked (f.slotEnt 0 (oneWord 0) 17) = true ∧ seFork (f.slotEnt 0 (oneWord 0) 17) < 5 ∧
    (match s.forkAll 0 0 (s.slotEnt 0 (oneWord 0) 17) 9 0 (s.who s.seqMe) with
      | .ok _ => true
      | .error _ => false) = true := by decide +kernel

/-- stA with a mask block that the checks admit (0) and one they refuse (1), and runs in segment 5 at 0x1000. -/
def stM : State :=
  let c := { oneWord 0 with code := { (oneWord 0).code with msk := [1024, 0x70000000, 0x70000000], blkMsk := [⟨0, 2, []⟩, ⟨2, 1, []⟩] } }
  let s := setG { stA with ctxs := [c] } [(4, 2 ^ 23 - 1), (3, 2 ^ 64 - 2 ^ 23), (2, 2 ^ 23), (5, in5 0x1000)]
  s.modSlot 0 0 fun k => { k with
    mem := { k.mem with segs := k.mem.segs.map fun g => if g.num = 5 then { g with store := g.store.write 0x1000 (leBytes 4 3 ++ leBytes 4 4 ++ leBytes 4 9 ++ leBytes 4 100) {} } else g } }

theorem witness_KvAndMasks_masks : ExecutesK stM 0 ∧ Agent.mat ∉ stM.holders stM.cur stM.curSlot (fun _ => true) ∧
    Agent.dec ∉ stM.holders stM.cur stM.curSlot (fun _ => true) ∧
    ((stM.ctxOf 0 0).bind fun c => c.code.mskBlock 0) = some [1024, 0x70000000] ∧ maskCheck 0 [] [1024, 0x70000000] = none ∧
    ((stM.ctxOf 0 0).bind fun c => c.code.mskBlock 1) = some [0x70000000] ∧ (maskCheck 0 [] [0x70000000]).isSome = true ∧
    (stM.bank.gr 4).toInt < 2 ^ 23 ∧ -(2 ^ 23) ≤ (stM.bank.gr 3).toInt ∧ 2 ^ 23 ≤ (stM.bank.gr 2).toInt ∧
    leNat ((seg5 stM).store.read 0x1000 4) = 3 ∧ (seg5 stM).size ≤ 2 ^ 23 ∧
    badStart 1 none ((List.range 3).map fun i => leNat ((seg5 stM).store.read (0x1000 + 4 + 4 * i) 4)) = none ∧
    Readable stM stM.seqMe (stM.bank.gr 5) (4 + 4 * 3) 4 0 0 (seg5 stM) := by
  refine ⟨⟨executes_of (?_), ?_⟩, ?_, ?_, ?_, ?_,
    ?_, ?_, ?_, ?_, ?_, ?_, ?_,
    ?_, readable_of (?_)⟩ <;> decide +kernel

theorem witness_PrivilegeChecks : Executes stA 0 ∧ (stA.tile stA.cur).priv = .u := ⟨executes_stA, by decide +kernel⟩

/-! ## Witnesses: the vector engine -/

/-- Element type et, window tiles 10 and 11 free; vp1 holds some lanes, vp2 none; ad2 the address 0x1000 of segment 5 with a
step of 128. -/
def stV (et : Nat) : State :=
  vecSet (accd stG 0xFF) fun v => { v with
    shape := BitVec.ofNat 12 (et * 256 + 10)
    vp := (v.vp.set 1 0xF0F1F2F3A5A5A5A5DEADBEEF12345678).set 2 0
    vs := Vector.ofFn fun i => BitVec.ofNat 64 (i.val * 1000003 + 5)
    ad := v.ad.set 2 (BitVec.ofNat 128 (2 ^ 57 * 128 + 2 ^ 40 * 5 + 0x1000))
    guard := 13 }

theorem canon_vecSet {s : State} (c : AccCanonical s) (f : VecState → VecState) : AccCanonical (vecSet s f) := canon_of (fun t => by
  unfold vecSet; rw [modSlot_tile]; split
  · next h => rw [h, tileSetSlot_acc]
  · rfl) c

theorem unit_of {s : State} {e : Eng} (h : (s.eng e).rpt = none ∧ (s.eng e).agt = {}) : UnitOf e s := ⟨h.1, rest_of h.2⟩

theorem settled_of {a : AccTile} (h : a.prior = []) (g : Agent) (r : BitVec 5) : Settled a g r := by
  intro p hp; simp [h, lookO] at hp

theorem rows_of {s : State} {u : Vu} {l r : List (BitVec 6)} (hc : AccCanonical s) (h : ((s.eng .vec).rpt = none ∧ (s.eng .vec).agt = {}) ∧
    (l.all fun n => (s.acc s.cur (u.tile n)).owner == s.ctxId s.cur s.curSlot || (s.acc s.cur (u.tile n)).owner == 0xFF) = true ∧
    (r.all fun n => !((s.acc s.cur (u.tile n)).poison).getLsbD (n.toNat % 32) && decide ((s.acc s.cur (u.tile n)).prior = [])) = true) :
    Rows s u l r :=
  ⟨unit_of h.1, hc, fun n hn => by simpa [mayOwn] using List.all_eq_true.mp h.2.1 n hn,
    fun n hn => by
      have c := List.all_eq_true.mp h.2.2 n hn
      rw [Bool.and_eq_true, Bool.not_eq_true', decide_eq_true_eq] at c
      exact ⟨c.1, settled_of c.2 _ _⟩⟩

theorem canon_stV (et : Nat) : AccCanonical (stV et) := canon_vecSet (canon_accd 0xFF (by decide)) _

theorem kept_of {s : State} {u : Vu} {n : BitVec 6} {b : Nat} {f : Nat → Bool}
    (h : ((s.acc s.cur (u.tile n)).poison).getLsbD (n.toNat % 32) = false ∧ (s.acc s.cur (u.tile n)).prior = []) : Kept s u n b f :=
  .inr ⟨h.1, settled_of h.2 _ _⟩

/-- Rows of both tiles of the window, all lanes, FP32: the operands of every lane instruction, of shuffles, of reductions. -/
theorem rows_stV (p : BitVec 3) (hp : p = 0 ∨ p = 1 ∨ p = 2) : Rows (stV 0) ((stV 0).vu p) [40, 5, 3] [40, 5, 3] :=
  rows_of (canon_stV 0) (by obtain rfl | rfl | rfl := hp <;> decide +kernel)

theorem witness_VectorLaneResults : Rows (stV 0) ((stV 0).vu 1) [40, 5, 3] [40, 5, 3] ∧ Kept (stV 0) ((stV 0).vu 1) 3 4 ((stV 0).vu 1).act ∧
    ((stV 0).vu 1).et = 0 ∧ ((stV 0).vu 1).n = 32 ∧ (laneFn 0 0 1).isSome = true ∧ (laneUn 0 0 1).isSome = true ∧ (laneFmt 0).isSome = true :=
  ⟨rows_stV 1 (by decide), kept_of (by decide +kernel), by decide +kernel⟩

/-- The same for 8-bit integers, whose 128 lanes reach the last index of VBCST and VMOVS. -/
theorem witness_VectorLaneResults_int8 : Rows (stV 5) ((stV 5).vu 1) [40, 5, 3] [40, 5, 3] ∧ Kept (stV 5) ((stV 5).vu 1) 3 1 ((stV 5).vu 1).act ∧
    ((stV 5).vu 1).et = 5 ∧ (127 : BitVec 7).toNat < ((stV 5).vu 1).n ∧ laneInt 5 = true ∧ laneFmt 5 = none :=
  ⟨rows_of (canon_stV 5) (by decide +kernel), kept_of (by decide +kernel), by decide +kernel⟩

/-- What each type refuses: a function with no entry in its table, VFMA of ETYPE 6, a class of an integer type, a tile of
another context. -/
theorem witness_VectorFaults : Rows (stV 0) ((stV 0).vu 0) [40, 5, 3] [] ∧ laneFn 0 0 31 = none ∧ laneUn 0 0 31 = none ∧
    Rows (stV 6) ((stV 6).vu 0) [40, 5, 3] [] ∧ ((stV 6).vu 0).et = 6 ∧ Rows (stV 5) ((stV 5).vu 0) [40, 3] [] ∧ laneFmt 5 = none ∧
    (let s := vecSet (accd stG 9) fun v => { v with shape := 10 }
    UnitOf .vec s ∧ ¬ mayOwn s ((s.vu 0).tile 3)) :=
  ⟨rows_of (canon_stV 0) (by decide +kernel), rfl, rfl, rows_of (canon_stV 6) (by decide +kernel), by decide +kernel,
    rows_of (canon_stV 5) (by decide +kernel), rfl, unit_of (by decide +kernel), by unfold mayOwn; decide +kernel⟩

theorem witness_VectorMoves_shuffles : ((stV 0).vu 1).et ≠ 6 ∧ Kept (stV 0) ((stV 0).vu 1) 3 ((stV 0).vu 1).b ((stV 0).vu 1).act ∧
    Rows (stV 0) ((stV 0).vu 1) [40, 5, 3] [40, 5] :=
  ⟨by decide +kernel, kept_of (by decide +kernel), rows_of (canon_stV 0) (by decide +kernel)⟩

/-- VBXENC and VBXDEC of rows 8 to 11, VPACK of the most lanes that fit with G = 13, VXTRD of rows 2 and 3, VSOFT over lanes
and over no active lane whose maximum is minus infinity. -/
theorem witness_VectorMoves_formats : Rows (stV 0) ((stV 0).vu 0) [8, 9, 10, 11, 3, 5] [8, 9, 10, 11] ∧
    Rows (stV 0) ((stV 0).vu 0) (40 :: 5 :: [8, 9, 10, 11]) [40, 5] ∧
    (let s := stV 4; let u := s.vu 1
    laneInt u.et = true ∧ u.v.guard.toNat % 64 = 13 ∧ 31 + 1 ≤ u.n ∧ 13 * (7 + (31 + 1)) ≤ 1024 ∧ Rows s u [40, 3] [40] ∧ Rows s u [2, 3, 7] [2, 3] ∧
      Kept s u 7 u.b u.act) ∧
    Rows (stV 0) ((stV 0).vu 1) [40, 5, 3] [40, 5] ∧
    (let s := rowSet (owning (stV 0) 10) ((stV 0).vu 2) 5 (BitVec.ofNat 1024 0xFF800000) 0
    laneAt s (s.vu 2) 4 5 0 = 0xFF800000 ∧ (List.range 32).filter (s.vu 2).act = []) := by
  refine ⟨rows_of (canon_stV 0) (?_), rows_of (canon_stV 0) (?_),
    ⟨?_, ?_, ?_, ?_, rows_of (canon_stV 4) (?_),
      rows_of (canon_stV 4) (?_), kept_of (?_)⟩, rows_of (canon_stV 0) (?_), ?_⟩ <;> decide +kernel

/-- Reductions of floats and of integers; conversions with parts at both ends: FP32 to 8 bits, 8 bits to FP32. -/
theorem witness_Reductions : Rows (stV 0) ((stV 0).vu 1) [40, 5, 3] [40, 5, 3] ∧ (redFn 0 0 1).isSome = true ∧
    Rows (stV 5) ((stV 5).vu 1) [40, 5, 3] [40, 5, 3] ∧ laneInt ((stV 5).vu 1).et = true ∧ ((stV 5).vu 1).et ≠ 6 ∧
    3 < max (32 / laneCount 5) (laneCount 5 / 32) ∧ 3 < max (128 / laneCount 0) (laneCount 0 / 128) ∧
    Kept (stV 0) ((stV 0).vu 1) 3 4 ((stV 0).vu 1).act := by
  refine ⟨rows_stV 1 (by decide), rfl, rows_of (canon_stV 5) (?_), ?_, ?_, ?_,
    ?_, kept_of (?_)⟩ <;> decide +kernel

theorem vp0_stV : ((stV 0).tiles.toList.all fun t => t.slots.toList.all fun k => k.vs.pred 0 == BitVec.allOnes 128) = true := by decide +kernel

theorem vp0_of {s : State} (h : (s.tiles.toList.all fun t => t.slots.toList.all fun k => k.vs.pred 0 == BitVec.allOnes 128) = true) : Vp0Ones s := by
  intro t k
  have a := List.all_eq_true.mp h (s.tile t) (by simp [State.tile, vget])
  have b := List.all_eq_true.mp a ((s.tile t).slot k) (by simp [Tile.slot, vget])
  simpa [State.slot] using b

/-- A mask program that the slot holds, and none; the largest positions. -/
theorem witness_VectorPredicates : UnitOf .vec (stV 0) ∧ Vp0Ones (stV 0) ∧ Rows (stV 0) ((stV 0).vu 1) [40, 5] [40, 5] ∧
    (let s := (stV 0).modSlot 0 0 fun k => { k with masks := k.masks.set 1 { MaskSlot.reset with prog := [0x00000400, 0x70000000] } }
    let k := vget (1 : BitVec 3) (s.slot 0 0).masks
    k.prog ≠ [] ∧ (vget (2 : BitVec 3) (s.slot 0 0).masks).prog = [] ∧ (s.vecSt.scalar 3).toNat < 2 ^ 48 ∧
    ((List.range 32).all fun i => (k.truth ((s.vecSt.scalar 3).toNat % 2 ^ 24 : Nat) (((s.vecSt.scalar 3).toNat / 2 ^ 24 + i : Nat))).isSome) = true) :=
  ⟨unit_of (by decide +kernel), vp0_of vp0_stV, rows_of (canon_stV 0) (by decide +kernel), by decide +kernel⟩

/-- The unit, and operands at the edges of each range: pointers, steps, lengths and positions, SHAPE values. -/
theorem witness_VectorScalars : UnitOf .vec (stV 0) ∧ Rows (stV 0) ((stV 0).vu 0) [40] [40] ∧ (31 : BitVec 6).toNat + 64 * 0 < ((stV 0).vu 0).n ∧
    (intTable 1 ((stV 0).vecSt.scalar 3) 7).isSome = true ∧ ptrMid (BitVec.ofNat 64 (in5 0x10)) = 0 ∧ ptrMid (2 ^ 30) ≠ 0 ∧
    adLegal 0 (2 ^ 23 - 1) 0 = true ∧ adLegal 2 (2 ^ 22) 0 = true ∧ adLegal 2 3 0 = false ∧ adLegal 1 5 4 = true ∧ adLegal 1 5 5 = false ∧
    (BitVec.ofInt 64 (-(2 ^ 23))).toInt = -(2 ^ 23) ∧ (BitVec.ofNat 64 (2 ^ 23)).toInt = 2 ^ 23 ∧
    (0x6FE / 2 ^ 8 ≤ 6 ∧ 0x6FE % 2 = 0 ∧ 6 < 0x700 / 2 ^ 8 ∧ 0x0FF % 2 = 1) :=
  ⟨unit_of (by decide +kernel), rows_of (canon_stV 0) (by decide +kernel), by decide +kernel⟩

theorem memory_stV : MemoryCanonical (stV 0) := by unfold MemoryCanonical; decide +kernel

def vmRows : List (BitVec 6) := [31, 32]

/-- VLDS and VSTS of 8 bytes, VLD and VST of two rows at the address of ad2, VGATH and VSCAT by the lanes of row 3. -/
theorem witness_VectorMemoryResults : UnitOf .vec (stV 0) ∧ MemoryCanonical (stV 0) ∧
    Rows (stV 0) ((stV 0).vu 1) vmRows vmRows ∧ Rows (stV 0) ((stV 0).vu 1) [31, 9] [31, 9] ∧ Kept (stV 0) ((stV 0).vu 1) 9 4 ((stV 0).vu 1).act ∧
    (let s := stV 0
    let ad := vget (2 : BitVec 3) s.vecSt.ad
    s.findSeg (s.meOf .vec) (adSeg ad) = some (0, 0, seg5 s) ∧ (seg5 s).state = .resident ∧ (seg5 s).size ≤ 2 ^ 23 ∧ (seg5 s).check = false ∧
    ((List.range 2).all fun j => let a := adAddr (adAfter ad j)
      decide (0 ≤ a ∧ a % 16 = 0 ∧ a + 128 ≤ (seg5 s).size ∧ (seg5 s).store.poisoned a.toNat 128 = [])) = true ∧
    ((List.range 32).all fun l => let a := adAddr ad + (laneAt s (s.vu 1) 4 9 l * 4 : Nat)
      decide (0 ≤ a ∧ a % 4 = 0 ∧ a + 4 ≤ (seg5 s).size ∧ (seg5 s).store.poisoned a.toNat 4 = [])) = true) ∧
    (let s := vecSet (stV 0) fun v => v.setScalar 3 (BitVec.ofNat 64 (in5 0x1000))
    Readable s (s.meOf .vec) (s.vecSt.scalar 3 + BitVec.ofInt 64 (24 : BitVec 17).toInt) 8 8 0 0 (seg5 s) ∧
    Writable s (s.meOf .vec) (s.vecSt.scalar 3 + BitVec.ofInt 64 (24 : BitVec 17).toInt) 8 8 0 0 (seg5 s)) :=
  ⟨unit_of (by decide +kernel), memory_stV, rows_of (canon_stV 0) (by decide +kernel), rows_of (canon_stV 0) (by decide +kernel),
    kept_of (by decide +kernel), by decide +kernel, readable_of (by decide +kernel), writable_of (by decide +kernel)⟩

/-- A deferral queue of 4 places at ad2 with HEAD 5 and TAIL 7 (stA): VDEFER of one row, VUNDEF of two records. -/
theorem witness_VectorMemoryResults_defer : Rows (stV 0) ((stV 0).vu 1) [31] [31] ∧ (let s := stV 0
    let ad := vget (2 : BitVec 3) s.vecSt.ad
    let q := (adAddr ad).toNat
    let cap := leNat ((seg5 s).store.read (q + 16) 4)
    (s.vu 1).et ≠ 6 ∧ cap = 4 ∧ 0 ≤ adAddr ad ∧ q % 64 = 0 ∧ q + 64 + 32 * cap ≤ (seg5 s).size ∧
    s.findSeg (s.meOf .vec) (adSeg ad) = some (0, 0, seg5 s) ∧ (seg5 s).state = .resident ∧ (seg5 s).size ≤ 2 ^ 23 ∧
    Quiet s (s.meOf .vec) (seg5 s) true q (64 + 32 * cap)) := by
  refine ⟨rows_of (canon_stV 0) (by decide +kernel), ?_, ?_, ?_, ?_, ?_, ?_, ?_, ?_, fun h => absurd h ?_, ?_⟩ <;> decide +kernel

/-- Queues with 7 and with 8 elements, an empty one and a row in it. -/
theorem witness_VectorFifos : Rows (stV 0) ((stV 0).vu 0) [40] [40] ∧ Rows (stV 0) ((stV 0).vu 1) [3] [] ∧
    Kept (stV 0) ((stV 0).vu 1) 3 4 ((stV 0).vu 1).act ∧ (31 : BitVec 6).toNat < ((stV 0).vu 0).n ∧
    ((stV 0).slot 0 0).q.matVec.items = [] ∧ ((stV 0).slot 0 0).q.vecSeq.items.length < 8 ∧
    (let s := qd (stV 0) fun q => { q with
      vecSeq := { q.vecSeq with items := List.replicate 8 ⟨0, default, []⟩ }
      vecMat := { q.vecMat with items := List.replicate 8 ⟨0, default, []⟩ }
      matVec := { q.matVec with items := [⟨5, default, []⟩] } }
    ((s.slot 0 0).q.vecSeq.items.length = 8 ∧ (s.slot 0 0).q.vecMat.items.length = 8 ∧ (s.myAgt (s.meOf .vec)).grant = false) ∧
      (s.slot 0 0).q.matVec.items.length = 1) :=
  ⟨rows_of (canon_stV 0) (by decide +kernel), rows_of (canon_stV 0) (by decide +kernel), kept_of (by decide +kernel), by decide +kernel⟩
/-! ## Witnesses: the press -/

def seg6 (s : State) : Segment := ((s.slot 0 0).seg 6).getD default

/-- An operand descriptor (Table 7.3). -/
def odOf (seg off stride fmt hdr adv : Nat) : BitVec 128 :=
  BitVec.ofNat 128 (seg * 2 ^ 116 + off * 2 ^ 93 + stride * 2 ^ 76 + fmt * 2 ^ 69 + hdr * 2 ^ 46 + adv * 2 ^ 30)

/-- Format record 1 is w, OD 3 and OD 4 hold operands in segments 5 and 6, source slot 3 names tile 10 in format f, and an
entry with operands x and y. -/
def stP (w f : Nat) (x y : W64) : State :=
  let code (c : Code) : Code := { c with fmt := [0, BitVec.ofNat 32 w] }
  matSet (State.modSlot { stV 0 with ctxs := (stV 0).ctxs.map fun c => { c with code := code c.code } } 0 0 fun k => { k with
      mat := { k.mat with cur := some { oneEntry with x := x, y := y } } }) fun p => { p with
    od := (p.od.set 3 (odOf 5 0x2000 1 (w % 16) 0x4000 0)).set 4 (odOf 6 16 2 (w / 16 % 16) 256 0)
    asl := p.asl.set 3 (BitVec.ofNat 16 (10 * 256 + f * 64)) }

theorem canon_slot {s : State} (c : AccCanonical s) (t : BitVec 8) (k : BitVec 2) (f : Slot → Slot) : AccCanonical (s.modSlot t k f) :=
  canon_of (fun u => by
    rw [modSlot_tile]; split
    · next h => rw [h, tileSetSlot_acc]
    · rfl) c

theorem canon_ctxs {s : State} (c : AccCanonical s) (l : List Context) : AccCanonical { s with ctxs := l } := fun t => c t

theorem canon_stP (w f : Nat) (x y : W64) : AccCanonical (stP w f x y) := canon_slot (canon_slot (canon_ctxs (canon_stV 0) _) _ _ _) _ _ _

theorem tiles_of {s : State} {l r : List (BitVec 8)} (hc : AccCanonical s) (h : ((s.eng .mat).rpt = none ∧ (s.eng .mat).agt = {}) ∧
    (l.all fun n => (s.acc s.cur n).owner == s.ctxId s.cur s.curSlot || (s.acc s.cur n).owner == 0xFF) = true ∧
    (r.all fun n => decide ((s.acc s.cur n).poison = 0 ∧ (s.acc s.cur n).prior = [])) = true) : Tiles s l r :=
  ⟨unit_of h.1, hc, fun n hn => by simpa [mayOwn] using List.all_eq_true.mp h.2.1 n hn, fun n hn => by
    have c := of_decide_eq_true (List.all_eq_true.mp h.2.2 n hn)
    exact ⟨c.1, fun _ => settled_of c.2 _ _⟩⟩

/-- An operand whose rows and headers lie in one segment without race detection. -/
theorem fetchable_of {s : State} {n : BitVec 4} {f k : Nat} {t : Bool} (d : BitVec 128) (g : Segment) (hd : vget n s.matSt.od = d)
    (hs : s.findSeg (s.meOf .mat) (odSeg d) = some (0, 0, g) ∧ g.check = false ∧ g.state = .resident ∧ g.span.toNat = odSpan d)
    (h : odFmt d = f ∧ lookO s.matSt.held n.toNat = none ∧ (odOff d % 16 = 0 ∧ (isBx f = true → odHdr d % 8 = 0)))
    (hr : ((List.range (if t then k else 32)).all fun r => let p := segPtr (odSeg d) (odOff d + 16 * odStride d * r)
      ptrMid p == 0 && ptrSeg p == odSeg d && decide (ptrOff p + (if t then 32 else k) * fmtBits f / 8 ≤ g.size) &&
        (g.store.poisoned (ptrOff p) ((if t then 32 else k) * fmtBits f / 8)).isEmpty) = true)
    (hh : isBx f = false ∨ ((List.range 32).all fun r => let p := segPtr (odSeg d) (odHdr d + 8 * r)
      ptrMid p == 0 && ptrSeg p == odSeg d && decide (ptrOff p + 2 * (k / 32) ≤ g.size) &&
        (g.store.poisoned (ptrOff p) (2 * (k / 32))).isEmpty) = true) : Fetchable s n f k t := by
  subst hd
  obtain ⟨h1, h2, h3, h4⟩ := hs
  refine ⟨h.1, h.2.1, fun u j g' e => ?_, h.2.2, fun r hr' => ⟨0, 0, g, ?_⟩, fun hb r hr' => ⟨0, 0, g, ?_⟩⟩
  · rw [h1] at e; injection e with e; injection e with _ e; injection e with _ e; rw [← e]; exact h4
  · have := List.all_eq_true.mp hr r (List.mem_range.mpr hr')
    simp only [Bool.and_eq_true, beq_iff_eq, decide_eq_true_eq, List.isEmpty_iff] at this
    obtain ⟨⟨⟨a, b⟩, c⟩, e⟩ := this
    exact ⟨⟨a, by rw [b]; exact h1, c, .inl rfl, by simp [h2], h3⟩, e⟩
  · have := List.all_eq_true.mp (hh.resolve_left (by simp [hb])) r (List.mem_range.mpr hr')
    simp only [Bool.and_eq_true, beq_iff_eq, decide_eq_true_eq, List.isEmpty_iff] at this
    obtain ⟨⟨⟨a, b⟩, c⟩, e⟩ := this
    exact ⟨⟨a, by rw [b]; exact h1, c, .inl rfl, by simp [h2], h3⟩, e⟩

/-- Operands at both sides of each range; a descriptor, a source slot, a capability, room for a status element and none. -/
theorem witness_PressSettings : UnitOf .mat (stP 0 0 0 0) ∧ ((stP 0 0 (2 ^ 32 - 1) (2 ^ 32)).curEntry .mat).x.toNat < 2 ^ 32 ∧
    2 ^ 32 ≤ ((stP 0 0 (2 ^ 32 - 1) (2 ^ 32)).curEntry .mat).y.toNat ∧ ((stP 0 0 (2 ^ 24 - 1) (2 ^ 24)).curEntry .mat).x.toNat < 2 ^ 24 ∧
    ¬ ((stP 0 0 (2 ^ 24 - 1) (2 ^ 24)).curEntry .mat).y.toNat < 2 ^ 24 ∧
    (let s := stP 0 0 (BitVec.ofNat 64 (in5 0x3000)) 0
    let g := { seg5 s with store := (seg5 s).store.write 0x3030 (leBytes 16 (odOf 6 1024 3 5 64 0).toNat) {} }
    odFmt (BitVec.ofNat 128 (leNat (g.store.read 0x3030 16))) = 5 ∧ (BitVec.ofNat 128 (leNat (g.store.read 0x3030 16))).toNat % 2 ^ 30 = 0) ∧
    (odFmt (odOf 6 1024 3 7 64 0) = 7 ∧ (odOf 6 1024 3 5 64 0 + 1).toNat % 2 ^ 30 ≠ 0 ∧ (odOf 6 1024 3 5 64 0 + 2 ^ 29).toNat % 2 ^ 30 ≠ 0 ∧
      (0x0B20 : BitVec 16).toNat % 64 ≠ 0 ∧ (0x0B40 : BitVec 16).toNat % 64 = 0) ∧
    (let s := stP 0 0 (BitVec.ofNat 64 (in5 0x3000)) 0
    Readable s (s.meOf .mat) ((s.curEntry .mat).x + BitVec.ofNat 64 (16 * 3)) 16 16 0 0 (seg5 s) ∧
    Readable s (s.meOf .mat) ((s.curEntry .mat).x + BitVec.ofNat 64 (256 + 2 * 3)) 2 2 0 0 (seg5 s) ∧
    leNat ((seg5 s).store.read (ptrOff ((s.curEntry .mat).x + BitVec.ofNat 64 (256 + 2 * 3))) 2) % 64 = 0) ∧
    ((capOf 0x10000 0x1000 0x9B).malformed = false ∧ (capOf 0x10000 0x1000 0x9B).tenant = (stP 0 0 0 0).partid 0 % 2 ^ 16) ∧
    ((stP 0 0 0 0).slot 0 0).q.matSeq.items.length < 8 ∧
    (let s := qd (stP 0 0 0 0) fun q => { q with matSeq := { q.matSeq with items := List.replicate 8 ⟨0, default, []⟩ } }
    (s.slot 0 0).q.matSeq.items.length = 8 ∧ (s.myAgt (s.meOf .mat)).grant = false) := by
  refine ⟨unit_of (?_), ?_, ?_, ?_, ?_, ?_, ?_,
    ⟨readable_of (?_), readable_of (?_), ?_⟩, ?_⟩ <;> decide +kernel

/-- The first tile of a source slot at 252 and at 253, queues with a row and none, room and none, a tile of another context,
arrivals at an object. -/
theorem witness_PressRows : Tiles (stP 0 0 0 0) [11, 200] [11] ∧ (252 ≤ 0xFC00 / 2 ^ 8 ∧ 0xFC00 / 2 ^ 8 ≤ 252 ∧ 252 < 0xFD00 / 2 ^ 8) ∧
    ((stP 0 0 0 0).slot 0 0).q.matVec.items.length < 8 ∧ ((stP 0 0 0 0).slot 0 0).q.vecMat.items = [] ∧
    (let s := qd (stP 0 0 0 0) fun q => { q with
      matVec := { q.matVec with items := List.replicate 8 ⟨0, default, []⟩ }
      vecMat := { q.vecMat with items := [⟨5, default, []⟩] } }
    (s.slot 0 0).q.matVec.items.length = 8 ∧ (s.myAgt (s.meOf .mat)).grant = false ∧ (s.slot 0 0).q.vecMat.items.length = 1) ∧
    (UnitOf .mat (accd stE 9) ∧ ¬ mayOwn (accd stE 9) 10) ∧
    (let s := stP 0 0 (BitVec.ofNat 64 (in5 0x800)) 10
    (s.curEntry .mat).y.toNat < 2 ^ 32 ∧ (barrierOf ((seg5 s).store.read 0x800 16)).arrived + (s.curEntry .mat).y.toNat ≤
      (barrierOf ((seg5 s).store.read 0x800 16)).expected ∧ (seg5 s).store.poisoned (ptrOff (s.curEntry .mat).x) 16 = [] ∧ s.memWf = true) ∧
    (let s := stP 0 0 (BitVec.ofNat 64 (in5 0x800)) 10
    Reachable s (s.meOf .mat) (s.curEntry .mat).x 16 16 true false 0 0 (seg5 s)) := by
  refine ⟨tiles_of (canon_stP 0 0 0 0) (?_), ?_, ?_, ?_, ?_,
    ⟨unit_of (?_), by unfold mayOwn; decide +kernel⟩, ?_, reachable_of (?_)⟩ <;> decide +kernel

/-- A step with both operands of format 1 from memory, all layers available. -/
theorem witness_MmaResults : fmtRec (stP 0x11 0 0 0) 1 = some 0x11 ∧ Tiles (stP 0x11 0 0 0) [11] [11] ∧ (stP 0x11 0 0 0).layers 0 ≠ 0 ∧
    (stP 0x11 0 0 0).matSt.policy = .adaptive ∧ Fetchable (stP 0x11 0 0 0) 3 1 128 false ∧ Fetchable (stP 0x11 0 0 0) 4 1 128 false ∧
    StatusRoom (stP 0x11 0 0 0) 1 :=
  ⟨by decide +kernel, tiles_of (canon_stP 0x11 0 0 0) (by decide +kernel), by decide +kernel, by decide +kernel,
    fetchable_of (odOf 5 0x2000 1 1 0x4000 0) (seg5 (stP 0x11 0 0 0)) (by decide +kernel) (by decide +kernel) (by decide +kernel) (by decide +kernel) (by decide +kernel),
    fetchable_of (odOf 6 16 2 1 256 0) (seg6 (stP 0x11 0 0 0)) (by decide +kernel) (by decide +kernel) (by decide +kernel) (by decide +kernel) (by decide +kernel),
    fun _ => .inl (by decide +kernel)⟩

/-- A step whose A is a source slot of format 1 over tiles 10 to 13, and one masked by a program with carry off: a chunk
that is full, partly set, and empty. -/
theorem witness_MmaResults_source : convFmt (vget (3 : BitVec 4) (stP 0x11 0 0 0).matSt.asl) = 1 ∧
    (vget (3 : BitVec 4) (stP 0x11 0 0 0).matSt.asl).toNat / 2 ^ 8 ≤ 252 ∧ srcTiles (vget (3 : BitVec 4) (stP 0x11 0 0 0).matSt.asl) 32 = [10, 11, 12, 13] ∧
    Tiles (stP 0x11 0 0 0) [10, 11, 12, 13, 14] [10, 11, 12, 13, 14] := by
  refine ⟨?_, ?_, ?_, tiles_of (canon_stP 0x11 0 0 0) (?_)⟩ <;> decide +kernel

theorem witness_MmaResults_mask : ∀ k ∈ [(40, Cls.full), (90, .partly), (140, .empty)],
    let s := (stP 0x11 0 0 0).modSlot 0 0 fun x => { x with masks := x.masks.set 2 { MaskSlot.reset with prog := [0x00000400, 0x70000000] } }
    let p : PressState := { s.matSt with mslot := 2, mqPos := 100, mkPos := BitVec.ofNat 24 k.1 }
    let ms := vget p.mslot (s.slot 0 0).masks
    p.carry = false ∧ ms.prog ≠ [] ∧ p.classed ms = some (k.2, []) ∧
      ((List.range 32).all fun i => (List.range 32).all fun j => (p.bitmap ms i j).isSome) = true := by decide +kernel

/-- No layer of the column, a fsel above 14, a strict policy that no layers meet. -/
theorem witness_MmaResults_stops : UnitOf .mat (stP 0x11 0 0 0) ∧ (stP 0x11 0 0 0).layers 0 ≠ 0 ∧
    (let s := (stP 0x11 0 0 0).modTile 0 fun t => { t with col := { t.col with throttled := 15 } }
    s.layers 0 = 0) ∧
    fmtRec (matSet (stP 0x11 0 0 0) fun p => { p with fmtBase := 15 }) 15 = none ∧
    (let s := matSet ((stP 0x11 0 0 0).modTile 0 fun t => { t with col := { t.col with throttled := 1 } }) fun p => { p with policy := .strict 3 }
    s.layers 0 ≠ 0 ∧ (3 : BitVec 4) &&& s.layers 0 ≠ 3) ∧ mayOwn (stP 0x11 0 0 0) 11 := by
  refine ⟨unit_of (?_), ?_, ?_, ?_, ?_, by unfold mayOwn; decide +kernel⟩ <;> decide +kernel

/-- The context's tile 10 with the rows 5 and 20 packed with G = g, the pair of rows 8 and 9 packed as a pair. -/
def stW (g : Nat) (fatal : Bool) : State := (stP 0 0 0 0).modAcc 0 10 fun x => { x with
  owner := (stP 0 0 0 0).ctxId 0 0
  side := (((x.side.set 5 (sideband 7 5 g false fatal 0)).set 20 (sideband 3 6 g false false 0)).set 8 (sideband 9 12 g true fatal 3)).set 9
    (sideband 9 12 g true fatal 3) }

/-- Sidebands that pass the guard check, that fail it, and that are not packed; layers available. -/
theorem witness_WideMultiply : (stP 0 0 0 0).layers 0 ≠ 0 ∧ StatusRoom (stP 0 0 0 0) 0 ∧ Tiles (stP 0 0 0 0) [10] [10] ∧
    (let x := (stW 40 true).acc 0 10
    sbG (x.sideOf 5) = 40 ∧ sbG (x.sideOf 20) = 40 ∧ sbP (x.sideOf 5) = false ∧ sbP (x.sideOf 20) = false ∧ sbP (x.sideOf 8) = true ∧
      sbG (x.sideOf 8) = 40 ∧ x.sideOf 9 = x.sideOf 8 ∧ 3 < 511 ∧ 5 + 6 + 2 + 1 ≤ 40) ∧
    (let x := (stW 13 true).acc 0 10
    sbG (x.sideOf 5) = 13 ∧ ¬ 5 + 6 + 2 + 1 ≤ 13 ∧ sbF (x.sideOf 5) = true) ∧ sbG (((stP 0 0 0 0).acc 0 10).sideOf 5) = 0 :=
  ⟨by decide +kernel, fun h => absurd h (by decide), tiles_of (canon_stP 0 0 0 0) (by decide +kernel), by decide +kernel⟩

/-- A drain to rows of FP32 in segment 5, with the merge word in segment 6, of a tile without a NaN and of one with. -/
theorem witness_DrainResult : let s := matSet (stP 0x11 0 0 0) fun p => { p with amt := .seg (BitVec.ofNat 64 (6 * 2 ^ 52 + 0x100)), od := p.od.set 3 (odOf 5 0x2000 8 0 0 0) }
    Tiles s [10] [10] ∧ s.memWf = true ∧ fmtRec s 1 = some 0x11 ∧ odFmt (vget (3 : BitVec 4) s.matSt.od) = 0 ∧
    (seg5 s).span.toNat = odSpan (vget (3 : BitVec 4) s.matSt.od) ∧
    (∀ i, i < 32 → Writable s (s.meOf .mat) (segPtr 5 (0x2000 + 16 * 8 * i)) 128 0 0 0 (seg5 s)) ∧
    Reachable s (s.meOf .mat) (BitVec.ofNat 64 (6 * 2 ^ 52 + 0x100)) 4 4 true true 0 0 (seg6 s) ∧ (seg6 s).store.poisoned 0x100 4 = [] ∧
    (0, 0, (seg6 s).num) ≠ ((0 : BitVec 8), (0 : BitVec 2), (seg5 s).num) ∧ (fp32.read 0x42280000).isNan = false ∧ (fp32.read 0x7FC00000).isNan = true := by
  refine ⟨tiles_of (canon_slot (canon_stP 0x11 0 0 0) _ _ _) ?_, ?_, ?_, ?_, ?_, fun i hi => writable_of ?_, reachable_of ?_, ?_⟩
  case refine_6 => revert i; decide +kernel
  all_goals decide +kernel

/-! ## Witnesses: transfers -/

/-- Row 0 of a descriptor of each kind: in segment 5, in page 1, in the DRAM layer, in a segment of tile 0. -/
def rowBase (k : Nat) : W64 := if k = 0 ∨ k = 3 then BitVec.ofNat 64 (in5 0x2000) else if k = 1 then 0x10100 else 0x200

/-- stG with the capability of page 1 in descriptors 1 (kind ks) and 2 (kind kd) of rows of 32 B, an index list of words in
descriptor 3 and of links in 4 fed to the step, an object in slot 4, an entry with operands x and y. -/
def stX (ks kd : Nat) (x y : W64) : State :=
  let c := capOf 0x10000 0x1000 0x9B
  let s := xferSet stG fun z => { z with
    xd := (((z.xd.set 1 (mkXd 32 (BitVec.ofNat 2 ks) true 48 (rowBase ks) c)).set 2 (mkXd 32 (BitVec.ofNat 2 kd) true 64 (rowBase kd + 0x400) c)).set 3
      (mkXd 4 0 true 4 (BitVec.ofNat 64 (in5 0x3000)) {})).set 4 (mkXd 4 0 true 8 (BitVec.ofNat 64 (in5 0x3100)) {})
    bo := z.bo.set 4 ⟨BitVec.ofNat 64 (in5 0x800), true, false⟩ }
  s.modSlot 0 0 fun k => { k with
    xfr := { k.xfr with cur := some { oneEntry with x := x, y := y }, xidx := some (3, 4, 3) }
    mem := { k.mem with segs := k.mem.segs.map fun g => if g.num = 5 then { g with store := g.store.write 0x3000 (leBytes 4 1 ++ leBytes 4 (2 ^ 31 + 1)) {} } else g } }

theorem memory_stX : MemoryCanonical (stX 0 0 0 0) := by unfold MemoryCanonical; decide +kernel

/-- Operands of each kind: a capability in segment 5, a remote name with and without zeros; an event queue with 63 records
and a full one; a valid slot and one that is not. -/
theorem witness_TransferSettings : UnitOf .xfr (stX 0 0 0 0) ∧ EventRoom (stX 0 0 0 0) (stX 0 0 0 0).xfrMe ∧
    ¬ EventRoom (qd (stX 0 0 0 0) fun q => { q with ev := { q.ev with items := List.replicate 64 ⟨0, default, []⟩ } }) (stX 0 0 0 0).xfrMe ∧
    (rowBase 3).toNat / 2 ^ 23 % 2 ^ 18 = 0 ∧ (2 ^ 23) / 2 ^ 23 % 2 ^ 18 ≠ 0 ∧
    (let s := stX 0 0 (BitVec.ofNat 64 (in5 0x3000)) 0
    Readable s s.xfrMe (s.curEntry .xfr).x 16 16 0 0 (seg5 s)) ∧
    (((stX 0 0 0 0).xd 3).rowLen = 4 ∧ ((stX 0 0 0 0).xd 4).rowLen ≠ 0 ∧ ((stX 0 0 0 0).xd 1).rowLen ≠ 4) ∧
    ((stX 0 0 0 0).bo 4).valid = true ∧ ((stX 0 0 0 0).bo 4).remote = false ∧ ((stX 0 0 0 0).bo 5).valid = false ∧ (stX 0 0 0 0).xstep.phase = 0 ∧
    Reachable (stX 0 0 0 0) (stX 0 0 0 0).xfrMe ((stX 0 0 0 0).bo 4).ptr 16 16 true false 0 0 (seg5 (stX 0 0 0 0)) ∧
    MemoryCanonical (stX 0 0 0 0) ∧ (seg5 (stX 0 0 0 0)).store.poisoned 0x800 16 = [] ∧
    (let o := barrierOf ((seg5 (stX 0 0 0 0)).store.read 0x800 16)
    o.arrived + 10 ≤ o.expected ∧ o.phase = 1) := by
  refine ⟨unit_of (?_), .inl (?_), by unfold EventRoom Room; decide +kernel, ?_, ?_,
    readable_of (?_), ?_, ?_, ?_, ?_, ?_,
    reachable_of (?_), memory_stX, ?_⟩ <;> decide +kernel

/-- A step before item 0 with legal and illegal descriptors, after its last item with 10 bytes written, with a record to post,
and at its end with room and without. -/
theorem witness_TransferTurns : UnitOf .xfr (stX 0 0 0 0) ∧ (stX 0 0 0 0).xstep.recs = [] ∧ (stX 0 0 0 0).xstep.phase = 0 ∧
    (stX 0 0 0 0).xstep.item = 0 ∧ ((stX 0 0 0 0).xd 2).rowLen = ((stX 0 0 0 0).xd 1).rowLen ∧ ((stX 0 0 0 0).xd 0).rowLen = 0 ∧
    (let s := (stX 0 0 0 0).modX fun q => { q with item := 3, wrote := [(0x100, 8), (0x104, 6)] }
    (3 : BitVec 8).toNat ≤ s.xstep.item ∧ distinctBytes s.xstep.wrote + s.xstep.extra = 10) ∧
    (let s := (stX 0 0 0 0).modX fun q => { q with item := 1, recs := [(1, 5)] }
    s.xstep.recs = (1, 5) :: []) ∧
    (let s := (stX 0 0 0 0).modX fun q => { q with sent := some { wrote := [(5, 32)] } }
    s.xstep.recs = [] ∧ s.xstep.sent = some { wrote := [(5, 32)] }) ∧
    (let s := (stX 0 0 0 0).modX fun q => { q with phase := 1 }
    s.xstep.recs = [] ∧ s.xstep.phase ≠ 0 ∧ Room s s.xfrMe (s.slot 0 0).q.xfrSeq.items.length 8) ∧
    ¬ Room (stX 0 0 0 0) (stX 0 0 0 0).xfrMe 8 8 := by
  refine ⟨unit_of (?_), ?_, ?_, ?_, ?_, ?_, ?_,
    ?_, ?_, ⟨?_, ?_, .inl (?_)⟩, by unfold Room; decide +kernel⟩ <;> decide +kernel

/-- Rows read and rows written of each kind, by item 0 of a step of 3 items. -/
theorem witness_TransferItems : UnitOf .xfr (stX 0 0 0 0) ∧ MemoryCanonical (stX 0 0 0 0) ∧ (stX 0 0 0 0).xstep.item < (3 : BitVec 8).toNat ∧
    RowRead (stX 0 0 0 0) (stX 0 0 0 0) ((stX 0 0 0 0).xd 1) (((stX 0 0 0 0).xd 1).row 0) 32 ((seg5 (stX 0 0 0 0)).store.read 0x2000 32) ∧
    RowOpen (stX 0 0 0 0) (stX 0 0 0 0) ((stX 0 0 0 0).xd 2) (((stX 0 0 0 0).xd 2).row 0) (List.replicate 32 7) (.seg 0 0 5 0x2400) :=
  ⟨unit_of (by decide +kernel), memory_stX, by decide +kernel,
    .inl ⟨by decide +kernel, rfl, 0, 0, seg5 (stX 0 0 0 0), readable_of (by decide +kernel), by decide +kernel⟩,
    .inl ⟨by decide +kernel, rfl, 0, 0, seg5 (stX 0 0 0 0), writable_of (by decide +kernel), by
      rw [show (seg5 (stX 0 0 0 0)).num = 5 by decide +kernel, show ptrOff (((stX 0 0 0 0).xd 2).row 0) = 0x2400 by decide +kernel]⟩⟩

theorem witness_TransferItems_cap : let s := stX 1 1 0 0
    RowRead s (xlated s 0 0x10100) (s.xd 1) ((s.xd 1).row 0) 32 ((s.tower 0).gddr.read 0x70100 32) ∧
    RowOpen s ((xlated s 0 0x10500).pieceWrite 0 xl0 0x500 (List.replicate 32 7) (s.who s.xfrMe)) (s.xd 2) ((s.xd 2).row 0) (List.replicate 32 7)
      (.gddr 0 0x70500) := by
  refine ⟨.inr (.inl ⟨by decide +kernel, ?_, xl0, 0, 0x70100, global_of part0 (by decide +kernel), noGRace_of (by decide +kernel), by decide +kernel, ?_⟩),
    .inr (.inl ⟨by decide +kernel, xl0, 0, 0x70500, global_of part0 (by decide +kernel), by decide +kernel, noGRace_of (by decide +kernel),
      by decide +kernel, rfl, ?_⟩)⟩
  · rw [show ((stX 1 1 0 0).xd 1).row 0 = (0x10100 : W64) by decide +kernel]; rfl
  · rfl
  · rw [show ((stX 1 1 0 0).xd 2).row 0 = (0x10500 : W64) by decide +kernel]; rfl

theorem witness_TransferItems_layer : let s := stX 2 2 0 0
    RowRead s s (s.xd 1) ((s.xd 1).row 0) 32 ((s.tower 0).layer.read 0x200 32) ∧ ((s.xd 2).row 0).toNat + 32 ≤ 2 ^ 33 ∧ ((s.xd 2).row 0).toNat % 16 = 0 := by
  refine ⟨.inr (.inr ⟨by decide +kernel, rfl, ?_, by decide +kernel, by decide +kernel, ?_, ?_⟩), by decide +kernel⟩
  · unfold AsyncOpen; decide +kernel
  · rw [show ((stX 2 2 0 0).xd 1).row 0 = (0x200 : W64) by decide +kernel]; rfl
  · rw [show ((stX 2 2 0 0).xd 1).row 0 = (0x200 : W64) by decide +kernel]
    have h : ((stX 2 2 0 0).tower (towerOf (stX 2 2 0 0).cur)).layer.poison = [] ∧ ((stX 2 2 0 0).tower (towerOf (stX 2 2 0 0).cur)).badReads = [] ∧
      ((stX 2 2 0 0).tower (towerOf (stX 2 2 0 0).cur)).biterrs = [] := by decide +kernel
    intro u _
    rw [h.1, h.2.1, h.2.2]
    simp

/-- A poisoned source row, an index word, a row for another tile of the context (XREM), sums of FP16 with their row of FP32,
the wait that an acknowledgement ends. -/
theorem witness_TransferItems_others : let s := stX 0 3 0 0
    (let g := { seg5 s with store := { (seg5 s).store with poison := [0x200] } }
    g.store.poisoned 0x2000 32 ≠ []) ∧
    (s.fed 3 = some (s.xd 3, s.xd 4) ∧ leNat ((seg5 s).store.read 0x3000 4) < 2 ^ 31 ∧ 2 ^ 31 ≤ leNat ((seg5 s).store.read 0x3004 4)) ∧
    (let w := (s.xd 2).row 0
    w.toNat / 2 ^ 23 % 2 ^ 18 = 0 ∧ rmChip w = s.chipOf s.cur ∧ (s.slot s.cur s.curSlot).ctx = some 0 ∧ (s.tile (rmTile w)).slotOfCtx 0 = some 0 ∧
      (s.slot (rmTile w) 0).seg (ptrSeg w) = some (seg5 s) ∧ ptrOff w + 32 ≤ (seg5 s).size ∧ (seg5 s).state = .resident ∧
      (seg5 s).store.partPoison (ptrOff w) 32 = [] ∧ (seg5 s).check = false) ∧ (8 % 2 = 0 ∧ 16 = 4 * (8 / 2)) ∧
    (let u := waitsFor s s.xfrMe (.xremAck 0 5)
    (u.tile 0).running = some 0 ∧ (u.slot 0 0).xfr.agt.wait.isSome = true) := by decide +kernel

/-! ## Witnesses: the decode engine -/

/-- The decode engine of tower 0 runs an entry of context 0 with operands x and y, its slot of sequence 3 holding len
tokens; two blocks of the KV store are named for layer 7, head 2. -/
def stD (x y : W64) (len : Nat) (begun : Bool) : State :=
  let ent : Entry := { oneEntry with x := x, y := y }
  let alloc (k : KvTables) (v : Nat) : KvTables := match k.alloc (kvName 3 7 2 0 v) 1 with
    | .ok (_, k1) => k1
    | _ => k
  (stA.modTower 0 fun t => { t with
    kv := alloc (alloc t.kv 0) 1
    dec := { t.dec with cur := some { e := ent, run := some ⟨BitVec.ofNat 512 (3 + len * 2 ^ 32 + 2 ^ 64), MaskSlot.reset⟩, begun := begun } } })

def stD0 : State := stD (BitVec.ofNat 64 (in5 0x2000)) (7 * 256 + 2 * 65536) 1 false

theorem decoding_stD0 : ∃ d, Decoding stD0 d (oneWord 0) ∧ d.run.isSome = true :=
  ⟨((stD0.tower 0).dec.cur).getD default, ⟨by decide +kernel, by decide +kernel, by unfold AtRest; decide +kernel⟩, by decide +kernel⟩

/-- Plans that end in two blocks and, at the first token of a block the store has not, in the record of a miss. -/
theorem witness_DecodeResults : (∃ d, Decoding stD0 d (oneWord 0) ∧ d.run.isSome = true) ∧ MemoryCanonical stD0 ∧
    Writable stD0 stD0.decMe (BitVec.ofNat 64 (in5 0x2000)) 64 64 0 0 (seg5 stD0) ∧
    Readable stD0 stD0.decMe (BitVec.ofNat 64 (in5 0x2000)) 512 0 0 0 (seg5 stD0) ∧
    Reachable stD0 stD0.decMe (BitVec.ofNat 64 (in5 0x800)) 16 16 true false 0 0 (seg5 stD0) ∧
    (7 * 256 + 2 * 65536 < 2 ^ 22 ∧ in5 0x2000 % 16 = 0 ∧ EventRoom stD0 stD0.decMe) ∧
    (match stD0.appendPlan 0 0 (BitVec.ofNat 512 (3 + 2 ^ 32 + 2 ^ 64)) 7 2 with
      | .ok (a, b, _, _) => decide (a ≠ b)
      | .error _ => false) = true ∧
    (match stD0.appendPlan 0 0 (BitVec.ofNat 512 (9 + 2 ^ 32 + 2 ^ 64)) 7 2 with
      | .ok _ => false
      | .error _ => true) = true :=
  ⟨decoding_stD0, by unfold MemoryCanonical; decide +kernel, writable_of (by decide +kernel), readable_of (by decide +kernel),
    reachable_of (by decide +kernel), ⟨by decide, by decide, .inl (by decide +kernel)⟩, by decide +kernel⟩

/-- A channel under its lane test carries no row of a token (R284). -/
theorem witness_DecodeResults_laneTest : (stD0.laneTest 0 256 256).isNone = true ∧
    (let s := stD0.modTower 0 fun w => w.setLane { w.lane false 16 with testing := some default }
    (s.laneTest 0 256 256).isSome = true) := by decide +kernel

/-- DATTN before its first turn, with blocks left and with none. -/
theorem witness_DecodeResults_attention : (∃ d, Decoding stD0 d (oneWord 0) ∧ d.run.isSome = true) ∧
    Reachable stD0 stD0.decMe (BitVec.ofNat 64 (in5 0x2000)) 1024 64 true true 0 0 (seg5 stD0) ∧ (seg5 stD0).store.poisoned 0x2000 1024 = [] ∧
    seValid (BitVec.ofNat 512 (3 + 2 ^ 32 + 2 ^ 64)) = true ∧ (7 * 256 + 2 * 65536) / 2 ^ 25 % 2 ^ 7 = 0 ∧
    ((stD0.tower 0).dec.cur.map (·.begun)) = some false ∧
    (leNat (((seg5 stD0).store.read 0x2000 1024).drop 776 |>.take 4) = 0 ∧ 0 ≤ 1 / 64 ∧ 1 / 64 < 1) ∧
    (let l := BitVec.ofNat 512 (3 + 2 ^ 32 + 2 ^ 64)
    (stD0.kvLook 0 0 none l 7 2 0 0).1.isSome = true ∧ ((stD0.kvLook 0 0 none l 7 2 0 0).2.kvLook 0 0 none l 7 2 0 1).1.isSome = true ∧
      (stD0.laneTest 0 0 256).isNone = true) ∧
    ((stD0.tower 0).layer.poison = [] ∧ (stD0.tower 0).badReads = [] ∧ (stD0.tower 0).biterrs = []) :=
  ⟨decoding_stD0, reachable_of (by decide +kernel), by decide +kernel⟩
/-! ## Witnesses: entries, waits, stops, the walker -/

/-- A context whose vector block 0 names segment 5 and the segment of operand x, block 1 none; spare room 100. -/
def cxB : Context := { oneWord 0 with code := { (oneWord 0).code with
  blkVec := [⟨0, 1, [BitVec.ofNat 16 (2 ^ 14 + 5), BitVec.ofNat 16 (2 * 2 ^ 14)]⟩, ⟨0, 1, []⟩], spareB := 100 } }

/-- Entries of blocks b and 1 at the head of the vector engine's queue, with tokens w and r; QUOTA q, semaphore 3 at n. -/
def stN (q b : Nat) (w r : Option (BitVec 3)) (adm : Bool) (n : Nat) : State :=
  ({ stA with ctxs := [cxB] } : State).modSlot 0 0 fun k => { k with
    vec := { k.vec with admitted := adm }
    mem := { k.mem with quota := BitVec.ofNat 24 q }
    sems := { k.sems with count := k.sems.count.set 3 (BitVec.ofNat 16 n) }
    q := { k.q with vec := { k.q.vec with
      items := [{ oneEntry with blk := BitVec.ofNat 6 b, x := BitVec.ofNat 64 (6 * 2 ^ 52), issue := 5, wtok := w, stok := r }, { oneEntry with blk := 1, issue := 6 }] } } }

/-- An entry that declares nothing, one whose segments fit with nothing to spare, one that lacks a byte. -/
theorem witness_EntryStages : (let s := stN 0 1 none none false 0
    (s.headReady .vec).isSome = true ∧ s.headAdmitted .vec = false ∧ s.ctxOf 0 s.curSlot = some cxB ∧
    ((s.headReady .vec).map fun e => declares cxB.code .vec e) = some false) ∧
    (let s := stN 131172 0 none none false 0
    ((s.headReady .vec).map fun e => declared cxB.code .vec e) = some [BitVec.ofNat 64 (5 * 2 ^ 52), BitVec.ofNat 64 (6 * 2 ^ 52)] ∧ s.granted (s.stageMe .vec) = false ∧
    s.unadmitted 0 0 = ((s.headReady .vec).toList.map fun e => (Eng.vec, e)) ++ [(Eng.vec, { oneEntry with blk := 1, issue := 6 })] ∧
    (s.slot 0 0).mem.quota.toNat = 65536 + 65536 + cxB.code.spareB) := by decide +kernel

/-- A token that is there, and one that is not; an entry whose block has run, with and without a signal; a decode entry
whose slot does not run. -/
theorem witness_EntryStages_tokens : (let s := stN 0 1 (some 3) none true 1
    (s.headReady .vec).map (·.wtok) = some (some 3) ∧ s.headAdmitted .vec = true ∧ (s.myAgt (s.stageMe .vec)).wait = none ∧
    (vget (3 : BitVec 3) (s.slot 0 0).sems.count).toNat = 1 ∧ (s.slot 0 0).sems.waiters = []) ∧
    ((vget (3 : BitVec 3) ((stN 0 1 (some 3) none true 0).slot 0 0).sems.count).toNat ≤ 0) ∧
    (let s := (stN 0 1 none none true 7).modSlot 0 0 fun k => { k with vec := { k.vec with cur := some { oneEntry with stok := some 3 }, unit := 1 } }
    (s.blockDone .vec).map (·.stok) = some (some 3) ∧ vget (3 : BitVec 3) (s.slot 0 0).sems.count ≠ 0xFFFF) ∧
    (let s := (stD0.modTile 0 fun t => { t with running := none })
    ((s.tower 0).dec.cur.map fun h => s.decRuns h.e) = some false) := by decide +kernel

/-- A wait of each kind whose condition holds, and one of each whose condition does not. -/
theorem witness_WaitResults : ((stWait .vec { obj := .pop 7 } stA).waitingOn 0 .vec = some (0, { obj := .pop 7 })) ∧
    (stA.slot 0 0).q.vecMat.items.length = 0 ∧ (stA.slot 0 0).q.matVec.items.length < 8 ∧ ((stA.slot 0 0).cmdQ .mat).items.length < 16 ∧
    (stA.tower 0).dec.q.items.length < 64 ∧ stA.layerDue 0 0 = false ∧ stA.writeTest 0 = none ∧
    (stA.modTower 0 fun w => w.setLane { w.lane true 5 with testing := some { (default : BusBeat) with write := true } }).writeTest 0 = some 5 ∧
    (stA.holders 0 0 fun _ => true) = [] ∧ stA.layers 0 ≠ 0 ∧
    (stA.modTile 0 fun t => { t with col := { t.col with throttled := 15 } }).layers 0 = 0 ∧
    (let s := (stWait .vec { obj := .sem 3 } (stN 0 1 none none true 7)).modSlot 0 0 fun k => { k with sems := { k.sems with waiters := [(2, .mat, 8), (3, .vec, 9)] } }
    s.waitingOn 0 .vec = some (0, { obj := .sem 3 }) ∧ (s.slot 0 0).sems.waiters.find? (fun z => z.1 == 3) = some (3, .vec, 9) ∧
      vget (3 : BitVec 3) (s.slot 0 0).sems.count ≠ 0 ∧ (State.headReady { s with cur := 0 } .vec).isSome = true) ∧
    (stA.waitingOn 0 .seq = none ∧ stA.waitingOn 0 .mat = none) := by decide +kernel

/-- WAITI with a condition that holds, with one that does not, and at its limit. -/
theorem witness_WaitResults_waiti : let s := stWait .seq { obj := .waiti 0x1F 5, since := 5 } (code64 stA (match encode (.waiti 0 4 5 6) with
      | some w => w
      | none => 0))
    s.waitingOn 0 .seq = some (0, { obj := .waiti 0x1F 5, since := 5 }) ∧ (match decodeWord .seq s.wordAt with
      | .ok i => decide (i = .waiti 0 4 5 6)
      | .error _ => false) = true ∧ (s.slot 0 0).sq.bank.rpt = none ∧ (s.slot 0 0).sq.bank.loopOrder = [] ∧ (5 : BitVec 64).toNat ≤ 5 ∧
    (5 : BitVec 64) ≠ 0 := by decide +kernel

def probe0 : Probe := { obj := .push 9, half := 0, edges := 0, found := [(true, false)], todo := [] }

/-- Waits of 512 cycles and fewer, of a whole watchdog period; probes that found a cycle with a queue edge and without. -/
theorem witness_WaitResults_probes : (let w : Wait := { obj := .push 9, blocked := 512, cycles := (stA.tile 0).wdog }
    (stWait .vec w stA).waitingOn 0 .vec = some (0, w) ∧ w.obj.blocks = true ∧ w.obj.counts = true ∧ (stA.tile 0).wdog ≤ w.cycles ∧ w.probe = none) ∧
    (let w : Wait := { obj := .push 9, blocked := 700, probe := some probe0 }
    (stWait .vec w stA).waitingOn 0 .vec = some (0, w) ∧ probe0.todo = [] ∧ probe0.found.any (·.1) = true ∧ (stA.slot 0 0).q.ev.spare = false) ∧
    ([(false, false)].any (fun f : Bool × Bool => f.1 || f.2) = false) ∧ ((stA.slot 0 0).seg 5).isSome = true ∧ 511 < 512 ∧ 0 < (stA.tile 0).wdog := by
  decide +kernel

/-- A slice of 5 cycles that has run out; a tile that stops, before and at 4,096 cycles, with engines at rest and not; one
with a fault to report. -/
def stSl (p : Option Stopping) : State := stA.modTile 0 fun t => { t with tr := { t.tr with slice := 5, tvec := 0x1230 }, sliceLeft := 0, stopping := p }

theorem witness_StopsAndCompletion : (let x := (stSl none).tile 0
    x.up = true ∧ x.inRuntime = false ∧ x.running = some 0 ∧ x.tr.slice ≠ 0 ∧ x.sliceLeft = 0 ∧ x.stopping = none ∧ x.tr.tip = false) ∧
    (stA.tile 0).sliceLeft ≠ 0 ∧ ((stSl (some {})).slot 0 0).faults = [] ∧
    (let z := (stSl (some {})).slot 0 0
    z.vec.quiet false = true ∧ z.mat.quiet false = true ∧ z.xfr.quiet false = true ∧ (stSl (some {})).decQuiet 0 0 false = true) ∧
    (stD0.modTile 0 fun t => { t with stopping := some {} }).decQuiet 0 0 false = false ∧
    (let z := (stE.modTile 0 fun t => { t with stopping := some {} }).slot 0 0
    (z.vec.quiet false && z.mat.quiet false && z.xfr.quiet false) = false) ∧
    (let s := stA.modSlot 0 0 fun k => { k with faults := [stA.unitRec 0 0 .vec .layout 0 0 none] }
    (s.slot 0 0).faults.length = 1 ∧ (s.slot 0 0).atBoundary = true ∧ (s.tile 0).tr.tip = false) := by decide +kernel

/-- Levels D of 3 and S of 2, a capability parameter. -/
def cxW : Context := { oneWord 0 with
  code := { (oneWord 0).code with levels := [⟨0, 0, 3⟩, ⟨1, 0, 2⟩], entry := 0x80 }
  caps := [⟨5, true⟩]
  handed := []
  started := 0
  done := 0 }

def stWk (done : Nat) : State :=
  { ((stA.modSlot 0 0 fun k => { k with sq := { k.sq with hasIter := false } }).modTower 0 fun t => { t with wrr := [(0, 3)] }) with
    ctxs := [{ cxW with handed := if done = 0 then [] else [(0, done)], started := done, done := done }] }

theorem witness_WalkerResults : (let ls : List Level3 := [⟨0, 0, 3⟩, ⟨1, 0, 2⟩]
    (ls.all fun l => l.kind == 0 || l.kind == 1) = true ∧ 0 < 1 ∧ 0 < 5 ∧ 5 < pointCount ls 1 0) ∧
    (let st := stWk 0
    (st.tower 0).wrr = (0, 2 + 1) :: [] ∧ st.canHand 0 0 = true ∧ st.ctxById 0 = some cxW ∧ st.freeTile cxW 0 = some 0 ∧ cxW.spread.length ≤ 8 ∧
      cxW.caps.length ≤ 16) := by decide +kernel

/-- A launch whose 6 points are done, and one that is not. -/
theorem witness_StopsAndCompletion_launch : (let st := stWk 6
    ((st.ctxOf 0 0).map fun c => st.launchDone c) = some true ∧ (st.slot 0 0).held = none ∧ (st.tile 0).running = some 0 ∧
      (st.tile 0).inRuntime = false ∧ (st.tile 0).stopping = none) ∧
    (let st := stWk 0
    ((st.ctxOf 0 0).map fun c => st.launchDone c) = some false) := by decide +kernel
/-! ## Witnesses: events of memory and of the hardware, the host -/

def inSeg5 (s : State) (f : Segment → Segment) : State := s.modSlot 0 0 fun k => { k with
  mem := { k.mem with segs := k.mem.segs.map fun g => if g.num = 5 then f g else g } }

/-- A recall whose room is there and one whose room is not; pushes that end; a segment that a compaction moves. -/
theorem witness_MemoryEvents : firstFit [(0, 1), (5, 3)] 4 = some 1 ∧
    (let s := inSeg5 stA fun g => { g with state := .recalling true, frame := 0 }
    let g := (seg5 s)
    (s.slot 0 0).seg 5 = some g ∧ g.state = .recalling true ∧ (s.slot 0 0).leaving = 0 ∧ (firstFit (s.tile 0).usedRuns (frames g.size)).isSome = true) ∧
    (let s := quotaAt (inSeg5 (stA.modSlot 0 0 fun k => { k with mem := { k.mem with segs := k.mem.segs.map fun g => if g.num = 6 then { g with state := .pushing true } else g } })
      fun g => { g with state := .recalling true, frame := 0 }) 65536
    ¬ ((s.slot 0 0).leaving = 0 ∨ (s.slot 0 0).res + (s.slot 0 0).leaving + (seg5 s).size ≤ (s.slot 0 0).mem.quota.toNat)) ∧
    (let s := inSeg5 stA fun g => { g with state := .pushing true }
    (seg5 s).state = .pushing true ∧ s.poolUse 0 true ≤ (s.tower 0).poolCap) ∧
    (stA.tile 0).compaction = none ∧ ((inSeg5 stA fun g => { g with frame := 300 }).tile 0).compaction.isSome = true := by decide +kernel

/-- stG in a partition of two chips. -/
def stRem : State := { stG with parts := [{ part0 with setup := { part0.setup with chips := 2 } }] }

def reqOf (va : Nat) (op : RemoteOp) : RemoteReq := { (default : RemoteReq) with fromChip := 1, va := BitVec.ofNat 54 va, op := op, id := 77 }

/-- A read of 8 bytes of page 1, an arrival at the object there, one in segment 5; a request of a page that is not the
chip's. -/
theorem witness_MemoryEvents_remote : stRem.serves (reqOf 0x10060 (.read 8)) = true ∧ stRem.serves (reqOf (3 * 2 ^ 51) (.read 8)) = false ∧
    MemoryCanonical stRem ∧ Maps stRem 0 0x10060 0 xl0 ∧ Maps stRem 0 0x10060 1 xl0 ∧ Maps stRem 0 0x10060 2 xl0 ∧
    ((stRem.tower 0).mmu.repStores.any (·.page == 1) = false ∧ (stRem.tower 0).gddr.poisoned 0x70060 8 = [] ∧
      (stRem.tower 0).gddr.partPoison 0x70060 8 = []) ∧
    (let o := barrierOf ((stRem.tower 0).gddr.read 0x70800 16)
    o.arrived + 10 ≤ o.expected) ∧
    stRem.serves (reqOf 0 (.arriveSeg 0 0 (BitVec.ofNat 64 (in5 0x800)) 10)) = true ∧
    (stRem.tile 0).slotOfCtx 0 = some 0 ∧ (stRem.slot 0 0).seg (ptrSeg (BitVec.ofNat 64 (in5 0x800))) = some (seg5 stRem) ∧
    (seg5 stRem).state = .resident ∧ 0x800 + 16 ≤ (seg5 stRem).size := by
  have m (acc : Nat) (h : (match stRem.finishXl 0 e0 acc with
      | .ok x => decide (x = xl0)
      | _ => false) = true) : Maps stRem 0 0x10060 acc xl0 := by
    refine ⟨e0, by decide +kernel, ?_, .inr (by decide +kernel)⟩
    revert h
    cases stRem.finishXl 0 e0 acc <;> simp
  exact ⟨by decide +kernel, by decide +kernel, by unfold MemoryCanonical; decide +kernel, m 0 (by decide +kernel), m 1 (by decide +kernel),
    m 2 (by decide +kernel), by decide +kernel⟩

/-- A checked page and a checked segment. -/
theorem witness_MemoryEvents_checked : (let s := stRem.modTower 0 fun t => { t with mmu := { t.mmu with tlb := [{ e0 with chk := true }] } }
    (match s.finishXl 0 { e0 with chk := true } 0 with
      | .ok x => x.chk && decide (x.phys = .gddr 0 7) && !x.rpl
      | _ => false) = true ∧ (s.tower 0).mmu.tlb.find? (·.page == 0x10060 / 65536) = some { e0 with chk := true }) ∧
    (let s := inSeg5 stRem fun g => { g with check := true }
    s.serves (reqOf 0 (.put 0 0 (BitVec.ofNat 64 (in5 0x2000)) [1])) = true ∧ (seg5 s).check = true ∧ (seg5 s).state = .resident) := by
  decide +kernel

/-- A request of the sequencer that has timed out, and one cycle before; a replica locked for longer than 4,500 cycles. -/
theorem witness_MemoryEvents_fabric : (let s := stRem.setAgt 0 0 .seq { stRem.agt 0 0 .seq with wait := some { obj := .remote 77 5 }, pend := some 77 }
    let s := { s with tick := 450007, host := { s.host with outReqs := [⟨77, 0, 1, 0, 0, 5, .read 8, 0, 0, none, 7⟩] } }
    (s.partOf 0).map (·.timeoutUs) = some 200 ∧ (s.tile 0).inRuntime = false ∧ (s.tile 0).running = some 0 ∧ (s.agt 0 0 .seq).pend = some 77 ∧
      (s.host.outReqs.find? (·.id == 77)).map (·.tile) = some 0 ∧ 200 * 2250 ≤ (s.tick - 7).toNat ∧ (s.tick - 8).toNat < 200 * 2250) ∧
    (let q : RepStore := { (default : RepStore) with page := 1, writer := .agent 0 (some 0) .vec, locked := [(0, 7)], cycles := 4501 }
    let s := stA.modTower 0 fun x => { x with mmu := { x.mmu with repStores := [q] } }
    (s.tower 0).mmu.repStores.find? (fun q => q.page == 1 && !q.locked.isEmpty && decide (4500 < q.cycles)) = some q ∧ (s.tile 0).running = some 0 ∧
      (s.tile 0).inRuntime = false ∧ 1 ∉ (s.tower 0).mmu.unrep) ∧
    (stA.tower 0).mmu.repStores = [] ∧ (true, 7) ∉ (stA.tower 0).zeroed ∧
    ((({ stA with ctxs := [{ oneWord 0 with sweeping := true }] } : State).ctxById 0).map (·.sweeping) = some true) ∧
    (stA.ctxById 0).map (·.sweeping) = some false := by decide +kernel

/-- A column with clocks at rest and stretched, a press with a step in flight; words with errors and poison; beats carried
by a retry and by none, a lane under test. -/
theorem witness_HardwareEvents : ((stA.tile 0).col.stretching = false ∧ (stA.tile 0).col.stretchLeft = 0) ∧
    (stE.tile 0).enginesRun = true ∧ (stE.tile 0).running = some 0 ∧ (stE.slot 0 0).mat.cur ≠ none ∧ (stE.layers 0).getLsbD 3 = true ∧
    (let s := stA.modTower 0 fun w => { w with biterrs := [(7, 3)], layer := { w.layer with poison := [9] } }
    (9 ∈ (s.tower 0).layer.poison ∧ 7 ∉ (s.tower 0).layer.poison) ∧ (s.tower 0).biterrs.find? (fun e => decide (e.1 = 7)) = some (7, 3)) ∧
    ((stA.tower 0).lane false 5).testing = none ∧ ((stA.tower 0).lane false 5).spares.length < 8 ∧
    (let b : BusBeat := { (default : BusBeat) with chan := 5 }
    let s := stA.modTower 0 fun w => w.setLane { w.lane false 5 with testing := some b }
    ((s.tower 0).lane b.asynch b.chan).testing = some b) ∧
    (let b : BusBeat := { (default : BusBeat) with chan := 5, word := 69, flipped := 1 }
    b.asynch = false ∧ b.chan.toNat = b.word.toNat % 64 ∧ busFails b.flipped = 1 ∧ busFails (1 <<< 131) = 8 ∧ busFails 3 = 0 ∧
      ({ b with word := 70 } : BusBeat).word.toNat % 64 ≠ 5 ∧ (∀ n ∈ [0, 31, 128], (busFails b.flipped).getLsbD (laneGroup n) = true) ∧
      ∀ n ∈ [32, 127, 129, 131], (busFails b.flipped).getLsbD (laneGroup n) = false) ∧
    stA.layerSent 0 = false ∧ (stA.modSlot 0 0 fun k => { k with mem := { k.mem with layerOut := 1 } }).layerSent 0 = true ∧
    (stA.parts.find? fun p => decide ((0 : BitVec 5).toNat < 18) && p.setup.ports.getLsbD 0) = none ∧
    (let s := { stA with parts := [{ part0 with setup := { part0.setup with ports := 1 } }] }
    (s.parts.find? fun p => decide ((0 : BitVec 5).toNat < 18) && p.setup.ports.getLsbD 0).isSome = true) := by decide +kernel

/-- A context's segment, accumulator tile and slot state; a tile of no owner; a partition without a fatal error. -/
theorem witness_ScrubAndFatal : (stA.ctxById 0 = some (oneWord 0) ∧ (0 : BitVec 8) ≠ 0xFF ∧ (stA.partByNum (oneWord 0).part) = some part0 ∧
      (stA.tile 0).tr.tip = false ∧ (stA.tile 0).up = true ∧ (stA.slot 0 0).ctx = some 0 ∧ (oneWord 0).slot = 0 ∧ 0 ∈ (oneWord 0).tiles ∧
      (stA.tile 0).slotOfCtx 0 = some 0 ∧ (stA.tile 0).running = some 0 ∧ (stA.tile 0).inRuntime = false ∧ (stA.slot 0 0).xfr.agt.wait = none ∧
      (stA.tile 0).scrub = [] ∧ 64 * 1023 < (seg5 stA).size) ∧ ((accd stG 0).acc 0 10).owner = 0 ∧ ((accd stG 0xFF).acc 0 10).owner = 0xFF ∧
    AccCanonical (accd stG 0xFF) ∧ part0.fatal = none ∧ stA.partOfTower 0 = some part0 := by
  refine ⟨?_, ?_, ?_, canon_accd 0xFF (by decide), ?_⟩ <;> decide +kernel

/-- A set-up of towers 1 and 2 beside partition 0, one that shares tower 0 with it, and the end of a reservation. -/
theorem witness_ModuleAndPartitions : stA.bring.step = 6 ∧
    (let p : PartSetup := { (default : PartSetup) with num := 9, towers := 6, chips := 2, chip := 1 }
    (∀ q ∈ stA.parts, q.setup.num ≠ p.num ∧ q.setup.towers &&& p.towers = 0 ∧ q.setup.ports &&& p.ports = 0 ∧
      q.setup.meshMask &&& p.meshMask = 0 ∧ ∀ c ∈ p.classes, c ∉ q.setup.classes) ∧ p.towers ≠ 0 ∧ p.chips.toNat ≤ 8 ∧
      p.chip.toNat < p.chips.toNat ∧ (∀ r ∈ p.routes, r.2 ≤ 64) ∧ p.s2 = [] ∧ p.towers &&& stA.bring.leftOut = 0 ∧
      (p.towers.getLsbD (towerOf 32).toNat = true ∧ stA.usable 32 = true) ∧ mayMap p 1 (393216 - 8193) = true ∧
      mayMap p 1 (393216 - 8192) = false ∧ mayMap p 2 (393216 - 1) = true ∧ ∀ c ∈ stA.ctxs, c.part ≠ p.num) ∧
    (let p : PartSetup := { (default : PartSetup) with num := 9, towers := 3, chips := 1 }
    ¬ ∀ q ∈ stA.parts, q.setup.towers &&& p.towers = 0) ∧ stA.partByNum 9 = none ∧ (stA.partByNum 0).isSome = true := by decide +kernel

def cmdOf (body : List Byte) : HostCmd := { part := 0, seq := 9, session := 0, flags := 0, authentic := true, body := body }

theorem acts_stA (body : List Byte) : Acts stA (cmdOf body) part0 where
  authentic := rfl
  due := by decide +kernel
  up := by decide +kernel
  order := .inl rfl
  part := by
    have h : (stA.parts.find? fun q => decide (q.setup.num.setWidth 16 = (0 : BitVec 16))) = some part0 := by decide +kernel
    exact h
  known := by
    intro x hx
    have h : stA.sessionOf 0 = none := by decide +kernel
    exact absurd (h.symm.trans hx) (by simp)
  fatal := by decide +kernel

/-- Commands before the bring-up, of a session at both ends of the 64 that may come early, and to no partition. -/
theorem witness_HostCommands_order : (cmdOf []).authentic = true ∧ stA.host.authDue = false ∧ stA.bring.step = 6 ∧ State.reset.bring.step ≠ 6 ∧
    State.reset.host.authDue = false ∧
    (let s := { stA with host := { stA.host with sessions := [⟨77, 0, 2, []⟩] } }
    (s.sessionOf 77).map (·.next) = some 2 ∧ 1 < 2 ∧ 2 + 64 < 67 ∧ 66 ≤ 2 + 64) ∧
    (∀ p ∈ stA.parts, p.setup.num.setWidth 16 ≠ (99 : BitVec 16)) ∧
    (let s := { stA with parts := [{ part0 with stalledCmds := [(3, cmdOf [])] }] }
    s.stalledSeq (cmdOf []) = true) ∧
    (let s := { stA with parts := [{ part0 with fatal := some (2, 7, 0) }] }
    (s.parts.find? fun q => decide (q.setup.num.setWidth 16 = (cmdOf []).part)).map (·.fatal) = some (some (2, 7, 0))) := by decide +kernel

/-- LOAD of an image; LAUNCH bodies of 480 and 481 bytes without and with a ring; a runtime that no rule's header marks. -/
theorem witness_HostCommands_results : (∀ body, Acts stA (cmdOf body) part0) ∧ (cmdOf (0 :: image)).body = 0 :: image ∧ part0.runtime.isSome = true ∧
    ((cmdOf (List.replicate 480 0)).body.length ≤ 480 ∧ 480 < (cmdOf (List.replicate 481 0)).body.length ∧ part0.cmdRing = none) ∧
    runtimeImage [0] = false ∧
    (let s := (mapped stA).modTower 0 fun t => { t with gddr := t.gddr.write 0x70110 (leBytes 4 4) {} }
    (s.ringPost 0x10100 512 (ringRecord (cmdOf []))).isSome = true) := ⟨acts_stA, by decide +kernel⟩

/-- KVPUT where its free body (log 18) names slot 17 of context 0 on tower 0, layer 7, head 2, with rows of 256 bytes; the
entry is valid and the store has the blocks. -/
theorem witness_HostCommands_kvput (k v : List Byte) (hk : k.length = 256) (hv : v.length = 256)
    (h : Config.kvBody [] = ⟨0, 0, 17, 7, 2, k, v⟩) : let s := stD0.setSlotEnt 0 (oneWord 0) 17 (BitVec.ofNat 512 (3 + 2 ^ 32 + 2 ^ 64))
    s.ctxById (Config.kvBody []).ctx = some (oneWord 0) ∧ (∃ t ∈ (oneWord 0).tiles, towerOf t = (Config.kvBody []).tower) ∧
    (Config.kvBody []).k.length = 256 ∧ (Config.kvBody []).v.length = 256 ∧ seValid (s.slotEnt (Config.kvBody []).tower (oneWord 0) (Config.kvBody []).slot.toNat) = true := by
  rw [h]
  have h1 : (stD0.setSlotEnt 0 (oneWord 0) 17 (BitVec.ofNat 512 (3 + 2 ^ 32 + 2 ^ 64))).ctxById 0 = some (oneWord 0) := by decide +kernel
  have h2 : 0 ∈ (oneWord 0).tiles ∧ towerOf 0 = 0 := by decide +kernel
  have h3 : seValid ((stD0.setSlotEnt 0 (oneWord 0) 17 (BitVec.ofNat 512 (3 + 2 ^ 32 + 2 ^ 64))).slotEnt 0 (oneWord 0) 17) = true := by decide +kernel
  exact ⟨h1, ⟨0, h2⟩, hk, hv, h3⟩

/-- SEGPUT and SEGGET where their free bodies (log 18) name 8 bytes of segment 5 at 16, or of page 1. -/
theorem witness_HostCommands_memory (bs : List Byte) (hb : bs.length = 8) (h : Config.putTarget [] = (.seg 0 0 5 16, bs))
    (hg : Config.getTarget [] = (.va 0x10060, 8)) : Acts stG (cmdOf []) part0 ∧ MemoryCanonical stG ∧
    (Config.putTarget (cmdOf []).body).1 = .seg 0 0 5 16 ∧
    (∃ y, stG.ctxById 0 = some y ∧ y.part = part0.setup.num ∧ (0 : BitVec 8) ∈ y.tiles ∧ y.slot = 0 ∧ (stG.slot 0 0).seg 5 = some (seg5 stG) ∧
      16 + (Config.putTarget (cmdOf []).body).2.length ≤ (seg5 stG).size) ∧ (seg5 stG).store.partPoison 16 8 = [] ∧
    (Config.getTarget (cmdOf []).body).1 = .va 0x10060 ∧ vaOff 0x10060 % 65536 + (Config.getTarget (cmdOf []).body).2 ≤ 65536 ∧
    (stG.tower 0).gddr.poisoned 0x70060 8 = [] := by
  rw [show (cmdOf []).body = [] from rfl, h, hg]
  refine ⟨?_, memory_stG, rfl, ⟨oneWord 0, ?_, ?_, ?_, ?_, ?_, by simp only [hb]; decide +kernel⟩, ?_, rfl, ?_⟩
  rotate_left
  iterate 7 decide +kernel
  · have a := acts_stA []
    exact ⟨a.authentic, by decide +kernel, by decide +kernel, .inl rfl, by
      have h : (stG.parts.find? fun q => decide (q.setup.num.setWidth 16 = (0 : BitVec 16))) = some part0 := by decide +kernel
      exact h, fun x hx => absurd ((show stG.sessionOf 0 = none by decide +kernel).symm.trans hx) (by simp), by decide +kernel⟩

/-! ## Witnesses: boundaries of the clauses on loads, stores, queues, registers -/

/-- stA with race detection on, segment 5 checked, its first 64 B written by tile 3 at a clock that tile 0 has not seen. -/
def stRace : State := (inSeg5 stA fun g => { g with check := true, store := { g.store with lw := [(0, ⟨3, 7⟩)] } }).modSlot 0 0 fun k => { k with
  race := { k.race with en := true } }

/-- Where a segment access stops: pointer bits, no such segment, one byte past the end, off its boundary, a race, a poisoned word; and
none of these at the last bytes. -/
theorem witness_SegmentStops : (Executes stA 0 ∧ Executes stRace 0 ∧ Executes (inSeg5 stA fun g => { g with store := { g.store with poison := [1] } }) 0) ∧
    ptrMid (stA.bank.gr 5 + BitVec.ofNat 64 (2 ^ 30)) ≠ 0 ∧ ptrMid (stA.bank.gr 9) ≠ 0 ∧
    stA.findSeg stA.seqMe (ptrSeg (9 * 2 ^ 52)) = none ∧
    (let p := stA.bank.gr 8 + BitVec.ofInt 64 ((1 : BitVec 10).toInt)
    stA.findSeg stA.seqMe (ptrSeg p) = some (0, 0, seg5 stA) ∧ (seg5 stA).size < ptrOff p + 16 ∧ ptrOff p + 8 ≤ (seg5 stA).size ∧ ptrOff p % 8 ≠ 0) ∧
    (let g := seg5 stRace
    raceFind (stRace.slot stRace.cur stRace.seqSlot).race g.store stRace.cur false (unitsOf 64 (ptrOff (stRace.bank.gr 5)) 8) = some (⟨3, 7⟩, false) ∧
      raceFind (stRace.slot stRace.cur stRace.seqSlot).race g.store stRace.cur true (unitsOf 64 64 8) = none ∧ g.check = true ∧
      stRace.raceOn stRace.seqMe = true) ∧
    (let g := seg5 (inSeg5 stA fun g => { g with store := { g.store with poison := [1] } })
    g.state = .resident ∧ g.check = false ∧ g.store.poisoned (ptrOff (stA.bank.gr 5)) 8 ≠ [] ∧ g.store.partPoison (ptrOff (stA.bank.gr 5)) 8 ≠ []) :=
  ⟨⟨executes_stA, executes_of (by decide +kernel), executes_of (by decide +kernel)⟩, by decide +kernel⟩

/-- The store to the other chip, before its request and with its answer. -/
theorem witness_GlobalAccesses_remoteStore : let va := stFar.bank.gr 5
    let c := stFar.bank.capr 3
    let bs := leBytes 8 (stFar.bank.gr 9).toNat
    c.has pWRITE = true ∧ c.has pREMOTE = true ∧ c.has pCHECKED = false ∧ va.toNat % 8 = 0 ∧ stFar.seqAgt = {} ∧
    (stFar.parts.head?.map fun p => p.down.contains (vaChip va)) = some false ∧
    (let s := stFar.setSeqAgt { stFar.seqAgt with got := [⟨3, 0, 0, [], noWho, [], false, 0⟩], out := some [.far va bs false] }
    s.seqAgt.wait = none ∧ s.seqAgt.got = [⟨3, 0, 0, [], noWho, [], false, 0⟩] ∧ s.seqAgt.pend = none ∧ s.seqAgt.out = some [.far va bs false] ∧
      s.storesOf (s.writerOf s.seqMe) = false) := by decide +kernel

/-- stG whose page 1 is replicated in GDDR pages 7 and 8. -/
def stRep : State := stG.modTower 0 fun t => { t with
  gddr := { t.gddr with bytes := t.gddr.bytes.map fun c => if c.1 = 0x3008 then (c.1, 0x1D) else c }
  mmu := { t.mmu with s2 := [(0, .gddr 0 0), (1, .gddr 0 7), (1, .gddr 0 8)] } }

/-- A store of 8 bytes to a replicated page. -/
theorem witness_GlobalAccesses_replicated : Executes stRep 0 ∧ MemoryCanonical stRep ∧
    Global stRep stRep.seqMe (stRep.bank.capr 3) (stRep.bank.gr 5) 8 1 [pWRITE] { xl0 with rpl := true } 0 0x70060 ∧
    (stRep.bank.gr 5).toNat % 8 = 0 ∧ (stRep.tower 0).gddr.partPoison 0x70060 8 = [] ∧ stRep.storesOf (stRep.writerOf stRep.seqMe) = false ∧
    (stRep.replicasOf 0 1).length = 2 ∧ NoGRace stRep stRep.seqMe (stRep.bank.capr 3) { xl0 with rpl := true } 0 0x70060 8 true := by
  have m : Maps stRep 0 0x10060 1 { xl0 with rpl := true } := by
    refine ⟨{ e0 with rpl := true }, by decide +kernel, ?_, .inr (by decide +kernel)⟩
    have h : (match stRep.finishXl 0 { e0 with rpl := true } 1 with
      | .ok x => decide (x = { xl0 with rpl := true })
      | _ => false) = true := by decide +kernel
    revert h
    cases stRep.finishXl 0 { e0 with rpl := true } 1 <;> simp
  refine ⟨executes_of (by decide +kernel), by unfold MemoryCanonical; decide +kernel,
    ⟨by decide +kernel, by decide +kernel, by decide +kernel, by decide +kernel, by decide +kernel, by decide +kernel,
      ⟨part0, by decide +kernel⟩, by decide +kernel, m, ⟨7, rfl, by decide +kernel⟩, by decide +kernel⟩,
    by decide +kernel, by decide +kernel, by decide +kernel, by decide +kernel, noGRace_of (by decide +kernel)⟩

/-- A forms list of the runtime bank, a full decode queue. -/
theorem witness_QueueOperations_runtime : Executes stR 0 ∧ stR.inRt = true ∧
    (let s := stA.modTower 0 fun w => { w with dec := { w.dec with q := { w.dec.q with items := List.replicate 64 { e := oneEntry } } } }
    ExecutesK s 0 ∧ ¬ (s.tower (towerOf s.cur)).dec.q.items.length < 64 ∧ s.seqAgt.grant = false) :=
  ⟨executes_stR, by decide +kernel, ⟨executes_of (by decide +kernel), by decide +kernel⟩, by decide +kernel⟩

/-- Semaphore 3 at 1 with one waiter, an engine that waits since this cycle or since an earlier one. -/
def stSem (n : Nat) : State := { (stWait .vec { obj := .sem 3, cycles := n } (semd stA 3 1)).modSlot 0 0 fun k => { k with
  sems := { k.sems with waiters := [(3, .vec, 20)] } } with tick := BitVec.ofNat 64 (20 + n) }

theorem witness_Synchronisation_waiters : ExecutesK (stSem 0) 0 ∧ ExecutesK (stSem 9) 0 ∧
    (let k := ((stSem 0).slot 0 0).sems
    vget (3 : BitVec 3) k.count = 1 ∧ (k.waiters.filter fun w => w.1 == 3).length = 1 ∧ ∀ x ∈ k.waiters, x.1 = 3 → x.2.1 ≠ .seq) ∧
    (20 : BitVec 64) = (stSem 0).tick ∧ (20 : BitVec 64) ≠ (stSem 9).tick :=
  ⟨⟨executes_of (by decide +kernel), by decide +kernel⟩, ⟨executes_of (by decide +kernel), by decide +kernel⟩, by decide +kernel⟩

/-- A BARW that waits for the object of segment 5 in the phase that it has, and in the other. -/
theorem witness_Synchronisation_looks : ∀ ph ∈ [0, 1], let x : Place := .seg ⟨0, 0, 5, 0x800⟩
    let s := (setG stA [(12, ph)]).setSeqAgt { wait := some { obj := .barrier (stA.bank.gr 6) (some x) ph } }
    s.bank.pr 0 = true ∧ s.bank.rpt = none ∧ s.bank.loopOrder = [] ∧ { s.seqAgt with wait := none } = {} ∧
      (s.bank.gr 12).toNat % 2 = ph ∧ s.seqAgt.wait.map (·.obj) = some (.barrier (s.bank.gr 6) (some x) ph) ∧
      (s.flipped x ph).isSome = (ph == 0) := by decide +kernel

/-- A program of a kernel writes LSTAT where no pass ends after the word; RACECTL of a slot without a context. -/
theorem witness_SystemRegisters_user : (stA.tile stA.cur).priv = .u ∧ stA.bank.loopOrder = [] ∧ ((stR.modSlot 0 0 fun k => { k with ctx := none }).slot
      stR.cur stR.seqSlot).ctx = none ∧ (stR.tile stR.cur).scrub = [] ∧ ((-1 : BitVec 64)).getLsbD 63 = true := by decide +kernel

/-! ## Witnesses: boundaries of the clauses on engines, waits and events -/

/-- An image of the same sequence whose BUCKET differs, with VALID and without. -/
theorem witness_KvAndMasks_bucket : ∀ v ∈ [2 ^ 64, 0], let s := stS ent17 (3 + 7 * 2 ^ 32 + v + 2 ^ 65) (in5 0x1000) 17
    let img : SlotEnt := BitVec.ofNat 512 (leNat ((seg5 s).store.read 0x1000 64))
    (s.bank.gr 6).toNat = 17 ∧ seValid (s.slotEnt 0 (oneWord 0) 17) = true ∧ seSeq (s.slotEnt 0 (oneWord 0) 17) = seSeq img ∧
      seBucket (s.slotEnt 0 (oneWord 0) 17) ≠ seBucket img := by decide +kernel

/-- A drain whose merge word lies among its rows, in page 1, and on another chip; a maximum that exists and none. -/
theorem witness_DrainResult_merges : let drains (amt : Amt) : State := matSet (stP 0x11 0 0 0) fun p => { p with
      amt := amt, od := p.od.set 3 (odOf 5 0x2000 8 0 0 0) }
    (let s := drains (.seg (BitVec.ofNat 64 (in5 0x2004)))
    Reachable s (s.meOf .mat) (BitVec.ofNat 64 (in5 0x2004)) 4 4 true false 0 0 (seg5 s) ∧ (seg5 s).store.poisoned 0x2004 4 = []) ∧
    (let s := drains (.cap 0x10100 (capOf 0x10000 0x1000 0x9B))
    s.matSt.drain = none ∧ Global s (s.meOf .mat) (capOf 0x10000 0x1000 0x9B) 0x10100 4 2 [pWRITE, pATOMIC] xl0 0 0x70100 ∧
      (s.tower 0).gddr.poisoned 0x70100 4 = []) ∧
    (let c := capOf (2 ^ 51 + 0x10000) 0x1000 0x9B
    let va : W64 := 2 ^ 51 + 0x10100
    let s := { drains (.cap va c) with parts := stFar.parts }
    c.base ≤ va.toNat ∧ va.toNat + 4 ≤ c.base + c.len ∧ [pWRITE, pATOMIC, pREMOTE].all c.has = true ∧ c.has pCHECKED = false ∧
      s.partOf s.cur = stFar.parts.head? ∧ vaChip va = 1 ∧ (stFar.parts.map fun z => (z.setup.chip, setupReaches z.setup va, z.down)) = [(0, true, [])]) ∧
    drainMax false [0x42280000] = some 0x42280000 ∧ drainMax false [0x7FC00000] = none := by
  refine ⟨⟨reachable_of (?_), ?_⟩, ⟨?_, global_of part0 (?_), ?_⟩, ?_⟩ <;> decide +kernel

/-- A drain whose merge has been answered. -/
theorem witness_DrainResult_answer : let r : RemoteReply := ⟨3, 0, 0, [0, 0, 0, 0], noWho, [], true, 0⟩
    let s := (matSet (stP 0x11 0 0 0) fun p => { p with
      amt := .cap 0x10100 (capOf 0x10000 0x1000 0x9B), drain := some ⟨[(⟨0, 0, 5, 0x2000⟩, [1, 2])], 0, false, 7⟩ }).setMyAgt ((stP 0x11 0 0 0).meOf .mat)
        { got := [r] }
    (s.eng .mat).rpt = none ∧ (s.myAgt (s.meOf .mat)).wait = none ∧ (s.myAgt (s.meOf .mat)).got = [r] ∧ (s.myAgt (s.meOf .mat)).pend = none ∧
      (s.myAgt (s.meOf .mat)).out = none ∧ (s.myAgt (s.meOf .mat)).layers = none ∧ ((s.acc s.cur 11).owner = s.ctxId s.cur s.curSlot ∨ (s.acc s.cur 11).owner = 0xFF) ∧
      r.cause = 0 ∧ s.memWf = true ∧
      s.matSt.drain = some ⟨([(0x2000, [1, 2])] : List (Nat × List Byte)).map fun e => (⟨0, 0, 5, e.1⟩, e.2), 0, false, 7⟩ ∧
      ((s.slot 0 0).seg 5).isSome = true := by decide +kernel

/-- The decode engine under M: slot 0's mask program masks nothing, everything but the diagonal, or is missing. -/
theorem witness_DecodeResults_masked : (∀ z ∈ [([0x00000400, 0x70000000], true), ([], false)], let m : MaskSlot := { MaskSlot.reset with prog := z.1 }
      decide (m.prog ≠ []) = z.2) ∧
    (let y : Nat := 7 * 256 + 2 * 65536 + 2 ^ 25
    y / 2 ^ 25 % 2 = 1 ∧ y / 2 ^ 26 % 2 ^ 6 = 0 ∧ (y + 2 ^ 26) / 2 ^ 26 % 2 ^ 6 ≠ 0) ∧
    (let m : MaskSlot := ({ MaskSlot.reset with prog := [0x00000400, 0x70000000] } : MaskSlot).withMp (BitVec.ofNat 512 (3 + 2 ^ 32 + 2 ^ 64))
    m.classOf 1 1 0 1 = some .full) ∧
    (∀ z ∈ [(Cls.empty, 200), (.partly, 64)], let m : MaskSlot := ({ MaskSlot.reset with prog := [0x00000400, 0x70000000] } : MaskSlot)
      m.classOf z.2 z.2 (if z.1 = .empty then 300 else 64) (if z.1 = .empty then 363 else 127) = some z.1) := by decide +kernel

/-- A row that the data queue has read ahead. -/
theorem witness_TransferItems_ahead : let s := (stX 0 0 0 0).modX fun q => { q with
      rows := [(0, ⟨rowBase 0, (seg5 (stX 0 0 0 0)).store.read 0x2000 32, [some (13, 0x200), some (13, 0x201)]⟩)] }
    (lookO s.xstep.rows s.xstep.item).map (·.addr) = some ((s.xd 1).row 0) ∧
      (lookO s.xstep.rows s.xstep.item).map (·.bytes) = some ((seg5 s).store.read 0x2000 32) := by decide +kernel

/-- An item's store over a unit that is read ahead: the unit is not used as it was read, and an index formed from one is dropped (R181). -/
theorem test_keepRows : let z : XStep := ((stX 0 0 0 0).modX fun q => { q with
      ahead := [(1, ⟨4, [(13, 0x300)]⟩), (2, ⟨9, [(13, 0x201)]⟩)]
      rows := [(1, ⟨rowBase 0, [], [some (13, 0x200), some (13, 0x201)]⟩)] }).keepRows ⟨0, 0, .xfr⟩ {} (BitVec.ofNat 64 (in5 0x2018)) 8 |>.xstep
    z.ahead.map (·.1) = [1] ∧ z.rows.map (·.2.units) = [[some (13, 0x200), none]] := by decide +kernel

/-- A BARW and an xwait whose object has flipped, and one whose object has not; one that another chip holds. -/
theorem witness_WaitResults_barrier : (∀ a ∈ [Agent.seq, .xfr], ∀ ph ∈ [0, 1], let x : Place := .seg ⟨0, 0, 5, 0x800⟩
      let w : Wait := { obj := .barrier (stA.bank.gr 6) (some x) ph }
      let s := stWait a w stE
      s.waitingOn 0 a = some (0, w) ∧ (s.flipped x ph).isSome = (ph == 0) ∧ (s.slot 0 0).sq.bank.rpt = none ∧ (s.slot 0 0).sq.bank.loopOrder = [] ∧
        (s.slot 0 0).xfr.rpt = none) ∧
    (let w : Wait := { obj := .barrier (2 ^ 51) none 0 }
    (stWait .seq w stE).waitingOn 0 .seq = some (0, w)) ∧
    (let w : Wait := { obj := .layer 0 }
    let s := (stWait .mat w stE).modTile 0 fun t => { t with stopping := some {} }
    (s.tile 0).running = some 0 ∧ (s.tile 0).enginesRun = true ∧ (s.tile 0).stands (s.slot 0 0) = false ∧ (s.slot 0 0).mat.agt.wait = some w ∧
      s.layers 0 ≠ 0) := by decide +kernel

/-- A probe of a full command queue, of the deferral of an admission, and of a recall; with a queue edge, a booking edge, and neither;
the spare room free and taken. -/
theorem witness_WaitResults_grants : (∀ o ∈ [WaitObj.push 0, .push 3, .push 7, .booking 64, .recall 5 0, .sem 3], ∀ f ∈ [[(true, false)], [(false, true)], [(false, false)]],
      let p : Probe := { obj := o, half := 0, edges := 0, found := f, todo := [] }
      let w : Wait := { obj := o, blocked := 700, probe := some p }
      (stWait .vec w stA).waitingOn 0 .vec = some (0, w) ∧ p.todo = [] ∧ p.obj = w.obj ∧ p.found ≠ []) ∧
    (∀ q ∈ [0, 1, 2, 3, 4, 5, 6, 7, 8, 9], spareUsed stA 0 0 (BitVec.ofNat 8 q) = false) ∧
    spareUsed (qd stA fun q => { q with ev := { q.ev with spare := true } }) 0 0 9 = true ∧ (stA.slot 0 0).mem.spare = false := by decide +kernel

/-- The end of a slice, with an agent that waits; a stop whose launch is done; a unit in progress. -/
theorem witness_StopsAndCompletion_stops : (let s := stWait .vec { obj := .pop 7 } (stSl none)
    (s.tile 0).sliceLeft = 0 ∧ (s.waitingOn 0 .vec).isSome = true ∧ (s.agt 0 0 .vec).stopsAt .vec = true) ∧
    (let z := (stSl (some { done := true })).slot 0 0
    z.sq.agt.inUnit = false ∧ z.vec.quiet false = true) ∧
    (({ out := some [] } : Agt).inUnit = true) := by decide +kernel

/-- Locks of each kind of writer that have lasted too long. -/
theorem witness_MemoryEvents_locks : ∀ z ∈ [Writer.agent 0 (some 0) .vec, .chip (reqOf 0 (.read 8)), .host (cmdOf [])],
    let q : RepStore := { (default : RepStore) with page := 1, writer := z, locked := [(0, 7)], cycles := 4501 }
    let s := stRep.modTower 0 fun x => { x with mmu := { x.mmu with repStores := [q] } }
    (s.tower 0).mmu.repStores.find? (fun q => q.page == 1 && !q.locked.isEmpty && decide (4500 < q.cycles)) = some q ∧ 1 ∉ (s.tower 0).mmu.unrep ∧
      s.storesOf z = true ∧ stRep.storesOf z = false := by decide +kernel

/-- Bring-up before its first step, at each step, at its end and where it has failed. -/
theorem witness_ModuleAndPartitions_bring : (∀ n ∈ [0, 1, 2, 3, 4, 5, 6], let s := { stA with bring := { step := n, goal := 6 }, agenda := [.bringUp] }
      s.agenda = .bringUp :: [] ∧ (n = 0 ∨ (0 < s.bring.step ∧ (s.bring.step < s.bring.goal ∨ s.bring.goal ≤ s.bring.step)))) ∧
    (let s := { stA with bring := { step := 4, goal := 4, failed := true }, agenda := [.bringUp] }
    0 < s.bring.step ∧ s.bring.goal ≤ s.bring.step) := by decide +kernel

/-- SEGPUT where no store of the command stands. -/
theorem witness_HostCommands_stores : stG.storesOf (.host (cmdOf [])) = false ∧ stA.stalledSeq (cmdOf []) = false ∧
    (∀ t ∈ part0.tiles, part0.setup.towers.getLsbD (towerOf t).toNat = true ∧ stA.usable t = true) := by decide +kernel

/-! ## Single steps, their results from the manual's examples and tables or by hand -/

/-- The step ends in a state that meets f. -/
def gives (o : Host.Outcome State Fault Refusal) (f : State → Bool) : Bool :=
  match o with
  | .next t => f t
  | _ => false

def g5Of (i : Instr) (x y : Nat) : BitVec 64 :=
  match exec i (setG stA [(6, x), (7, y)]) with
  | .next t => t.bank.gr 5
  | _ => 0

/-- Table 19.2. -/
theorem test_iop_examples : g5Of (.iop 0 5 6 7 4) 7 (2 ^ 64 - 2) = BitVec.ofInt 64 (-3) ∧ g5Of (.iop 0 5 6 7 0x0F) 7 (2 ^ 64 - 2) = 1 ∧
    g5Of (.iop 0 5 6 7 0x0D) (2 ^ 63) 4 = 0xFFFFFFFFFFFFFFFE ∧ g5Of (.iop 0 5 6 7 0x15) 3 10 = 7 := by decide +kernel

/-- A sum that wraps, a shift by 65, and the quotients that Table 17.9 lists. -/
theorem test_iop_corners : g5Of (.iop 0 5 6 7 1) (2 ^ 64 - 1) 3 = 2 ∧ g5Of (.iop 0 5 6 7 0x0C) (2 ^ 64 - 4) 65 = BitVec.ofInt 64 (-2) ∧
    g5Of (.iop 0 5 6 7 4) (2 ^ 63) (2 ^ 64 - 1) = 2 ^ 63 := by decide +kernel

/-- LUI's examples (R364), ADDPC backwards (R327), g0 that stays zero. -/
theorem test_lui_addpc : gives (exec (.lui 0 13 64) stA) (fun t => t.bank.gr 13 == 2 ^ 52 && t.bank.pc == 0x44) = true ∧
    gives (exec (.lui 0 12 0x3FFC0) stA) (fun t => t.bank.gr 12 == 0xFFF0000000000000) = true ∧
    gives (exec (.addpc 0 5 (BitVec.ofInt 18 (-2))) stA) (fun t => t.bank.gr 5 == 0x38) = true ∧
    gives (exec (.lui 0 0 64) stA) (fun t => t.bank.gr 0 == 0) = true := by decide +kernel

/-- A stack pointer below STKLIM traps with STACKLIM and keeps g2 (R52). -/
theorem test_iopi_stack : gives (exec (.iopi 0 2 2 0 (BitVec.ofInt 10 (-96))) ((setG stA [(2, 100)]).modSlot 0 0 fun k => { k with mem := { k.mem with stkLimit := 64 } }))
    (fun t => (t.slot 0 0).sq.bank.gr 2 == 100 && (t.tile 0).tr.fcause.toNat % 256 == (causeCode .stacklim).toNat) = true := by decide +kernel

/-- Conditions of one pair that is signed less and unsigned greater (Table 17.11). -/
theorem test_cmp : gives (exec (.cmp 0 3 6 7 2) (setG stA [(6, 2 ^ 64 - 1), (7, 1)])) (fun t => t.bank.pr 3) = true ∧
    gives (exec (.cmp 0 3 6 7 4) (setG stA [(6, 2 ^ 64 - 1), (7, 1)])) (fun t => !t.bank.pr 3) = true := by decide +kernel

/-- FMA's example (R348): 2^−11 + 2^−24; FOP mul rounds the tie to even. -/
theorem test_fma : let s := stA.setBank (((stA.bank.setF 4 0xBF800000).setF 5 0x3F800800).setF 6 0x3F800800)
    gives (exec (.fma 0 4 5 6 1) s) (fun t => t.bank.fr 4 == 0x3A000400) = true ∧
    gives (exec (.fop 0 4 5 6 3) s) (fun t => t.bank.fr 4 == 0x3F801000) = true := by decide +kernel

/-- A load of bytes 2 and 3 of the data, sign-extended (Table 17.12): little-endian 0xA5A6. -/
theorem test_lds : gives (exec (.lds 0 4 5 1 1 2) stA) (fun t => t.bank.gr 4 == 0xFFFFFFFFFFFFA5A6) = true ∧
    gives (exec (.lds 0 4 5 3 0 8) stA) (fun t => t.bank.gr 4 == 0x0102030405060708) = true := by decide +kernel

/-- A store of four bytes leaves its neighbours. -/
theorem test_sts : gives (exec (.sts 0 9 5 2 4) stA) (fun t => (seg5 t).store.read 0x12 8 == [0xA6, 0xA5, 0x88, 0x77, 0x66, 0x55, 0x08, 0x07]) = true := by
  decide +kernel

/-- A misaligned load and one past the end trap into the runtime. -/
theorem test_lds_traps : gives (exec (.lds 0 4 5 3 0 1) stA) (fun t => (t.tile 0).inRuntime && (t.tile 0).tr.fcause.toNat % 256 == (causeCode .align).toNat) = true ∧
    gives (exec (.lds 0 4 8 3 0 16) stA) (fun t => (t.tile 0).inRuntime && (t.tile 0).tr.fcause.toNat % 256 == (causeCode .segbound).toNat) = true := by decide +kernel

/-- An atomic add of 10 to the word at 0x10 answers the old word. -/
theorem test_amo : gives (exec (.amo 0 10 5 0 0 0 0 0 1) stA) (fun t => (seg5 t).store.read 0x10 8 == [0xB2, 0xA7, 0xA6, 0xA5, 0xA4, 0xA3, 0xA2, 0xA1] && t.bank.gr 10 == 0xA5A6A7A8) = true := by
  decide +kernel

/-- BR backwards by three words and JAL's link (R304). -/
theorem test_branches : gives (exec (.br 0 1 3) stA) (fun t => t.bank.pc == 0x34) = true ∧
    gives (exec (.jal 0 0 4) stA) (fun t => t.bank.pc == 0x50 && t.bank.gr 1 == 0x44) = true := by decide +kernel

/-- R180 at its edge: EXPECTED 64 with 48 arrived. 16 more flip the phase, 48 more raise BARRIER and leave the object. -/
theorem test_bara : let s (n : Nat) := setG (stA.modSlot 0 0 fun k => { k with mem := { k.mem with segs := k.mem.segs.map fun g =>
      if g.num = 5 then { g with store := g.store.write 0x800 (obj 64 0 48) {} } else g } }) [(4, n)]
    gives (exec (.bara 0 6 4) (s 16)) (fun t => (seg5 t).store.read 0x800 16 == obj 64 1 0) = true ∧
    gives (exec (.bara 0 6 4) (s 48)) (fun t => (seg5 t).store.read 0x800 16 == obj 64 0 48 && (t.tile 0).tr.fcause.toNat % 256 == (causeCode .barrier).toNat) = true := by
  decide +kernel

/-- A signal, a wait that takes it, a wait that finds none (R389). -/
theorem test_sems : gives (exec (.semsSig 0 3) stA) (fun t => vget (3 : BitVec 3) (t.slot 0 0).sems.count == 1) = true ∧
    gives (exec (.semsWait 0 3) (semd stA 3 1)) (fun t => vget (3 : BitVec 3) (t.slot 0 0).sems.count == 0 && t.bank.pc == 0x44) = true ∧
    gives (exec (.semsWait 0 3) stA) (fun t => t.bank.pc == 0x40 && t.seqAgt.wait.isSome) = true := by decide +kernel

/-- TRAP enters the runtime with the next word in EPC; RETS goes back (R240, R241). -/
theorem test_trap_rets : gives (exec (.trap 0 7) stA) (fun t => (t.tile 0).inRuntime && (t.tile 0).tr.epc == 0x44 && (t.tile 0).tr.fval == 7 &&
      (t.tile 0).tr.fcause.toNat % 256 == 0x18) = true ∧
    gives (exec (.rets 0) stR) (fun t => !(t.tile 0).inRuntime && (t.slot 0 0).sq.bank.pc == 0x44 && (t.tile 0).priv == .u) = true := by decide +kernel

/-- Rows with chosen lanes: a row of the window of the vector state. -/
def rowd (s : State) (n : BitVec 6) (b : Nat) (l : List Nat) : State :=
  let o := owning s ((s.vu 0).tile n)
  o.modAcc o.cur ((o.vu 0).tile n) fun a => a.put (BitVec.ofNat 5 n.toNat) (rowOfLanes b fun i => l.getD i 0) 0

def laneOf (t : State) (b : Nat) (n : BitVec 6) (i : Nat) : Nat := laneAt t (t.vu 0) b n i

/-- VCVT's example: 1.5, −2.5 and 70,000.0 to INT16 under RNE give 2, −2 and 32,767; lanes from 32 on keep theirs. -/
theorem test_vcvt : gives (exec (.vcvt 4 0 4 0 4 0) (rowd (rowd (stV 0) 0 4 [0x3FC00000, 0xC0200000, 0x4788B800]) 4 2 (List.replicate 64 7)))
    (fun t => laneOf t 2 4 0 == 2 && laneOf t 2 4 1 == 0xFFFE && laneOf t 2 4 2 == 32767 && laneOf t 2 4 31 == 0 && laneOf t 2 4 32 == 7 &&
      (t.slot 0 0).tstat.getLsbD 7) = true := by decide +kernel

/-- VDOT's example: BF16 lanes 1.0 by 2^−8 and 1.0 give 0x3F80_8000. -/
theorem test_vdot : gives (exec (.vdot 1 2 3 0 4 0) (rowd (rowd (stV 2) 2 2 (List.replicate 64 0x3F80)) 3 2 [0x3B80, 0x3F80]))
    (fun t => laneOf t 4 1 0 == 0x3F808000 && laneOf t 4 1 1 == 0) = true := by decide +kernel

/-- The example of R156: the lanes 7, −6, 5 packed forward at G = 16 are 0x4_FFFA_0007. -/
theorem test_vpack : gives (exec (.vpack 1 2 0 2 0 0) (vecSet (rowd (stV 4) 2 2 [7, 0xFFFA, 5]) fun v => { v with guard := 16 }))
    (fun t => (rowAt t (t.vu 0) 1).toNat == 0x4FFFA0007) = true := by decide +kernel

/-- The block that R121's example encodes, with 0.3 as 0x3E99_999A: header 0x0381, elements 0x18, 0x7A, 0xA6, fourteen of
0xA0, fifteen of 0x80. -/
theorem test_vbxenc : gives (exec (.vbxenc 8 0 12 0) (rowd (rowd (stV 0) 3 4 []) 0 4 ([0x40400000, 0xBF400000, 0x3E99999A] ++ List.replicate 14 0x3E800000)))
    (fun t => (rowAt t (t.vu 0) 8).toNat == leNat ([0x18, 0x7A, 0xA6] ++ List.replicate 14 0xA0 ++ List.replicate 15 0x80) &&
      (rowAt t (t.vu 0) 12).toNat == 0x0381) = true := by decide +kernel

/-- Inactive lanes keep their contents: under vp2, which holds none, nothing changes but the sideband. -/
theorem test_vop_inactive : gives (exec (.vop 3 40 5 1 2) (rowd (stV 1) 3 4 [9, 8])) (fun t => laneOf t 4 3 0 == 9 && laneOf t 4 3 1 == 8) = true ∧
    gives (exec (.vop 3 40 5 1 0) (rowd (rowd (stV 1) 40 4 [0xFFFFFFFF, 5]) 5 4 [2, 6])) (fun t => laneOf t 4 3 0 == 1 && laneOf t 4 3 1 == 11) = true := by
  decide +kernel

/-- The product of rows 3 and −5 in a pair (R154): −15 in 2,048 bits. -/
theorem test_mwmul : gives (exec (.mwmul 10 5 4 4 1 0) ((stW 40 true).modAcc 0 10 fun x => { x with
      rows := (x.rows.set 5 3).set 20 (BitVec.ofInt 1024 (-5)) }))
    (fun t => (t.acc 0 10).row 8 == BitVec.ofInt 1024 (-15) && (t.acc 0 10).row 9 == BitVec.ofInt 1024 (-1)) = true := by decide +kernel

/-- XFILL with the pattern of operand y writes 32 bytes and no other (R168). -/
theorem test_xfill : gives (exec (.xfill 2 1 0 0 0 1) (stX 0 0 0 0x11223344))
    (fun t => (seg5 t).store.read 0x23FC 12 == [0, 0, 0, 0, 0x44, 0x33, 0x22, 0x11, 0x44, 0x33, 0x22, 0x11] && (seg5 t).store.read 0x241C 8 ==
      [0x44, 0x33, 0x22, 0x11, 0, 0, 0, 0]) = true := by decide +kernel

/-- RANGE past 16 labels keeps the stack (R295). -/
theorem test_range : gives (exec (.rangePush 0 0x42) (ranged 16)) (fun t => (t.slot 0 0).ranges.length == 16) = true ∧
    gives (exec (.rangePush 0 0x42) stA) (fun t => (t.slot 0 0).ranges == [0x42]) = true := by decide +kernel

/-- The walker hands out point 0 of a launch of 3 by 2: indices in g8 and g9, the stack pointer at 4,096. -/
theorem test_walker : gives (exec (.walkerHandout 0) (stWk 0)) (fun t => (t.slot 0 0).sq.bank.pc == 0x80 && (t.slot 0 0).sq.bank.gr 8 == 0 &&
    (t.slot 0 0).sq.bank.gr 2 == 4096 && (t.slot 0 0).sq.hasIter) = true := by decide +kernel

/-- The lowest free frame takes segment 5 of 64 KiB: STACK of 4 KiB holds the frames 0 to 3 of 1 KiB (R102). -/
theorem test_recall : gives (exec (.segmentRecall 0 0 5) (inSeg5 stA fun g => { g with state := .recalling true, frame := 0 }))
    (fun t => (seg5 t).state == .resident && (seg5 t).frame == 4) = true := by decide +kernel

/-- Another chip's atomic add answers the old value and leaves the sum. -/
theorem test_remote_amo : gives (exec (.remoteRequest (reqOf 0x10060 (.amo 1 true 2 0))) stRem) (fun t =>
    (t.tower 0).gddr.read 0x70060 8 == leBytes 8 0x112233445566778A && t.host.answers.map (·.bs) == [leBytes 8 0x1122334455667788]) = true := by decide +kernel

/-- LAUNCH of 481 bytes is answered RANGE, without a command ring BUSY (R271, R274). -/
theorem test_host_launch : gives (exec (.launch (cmdOf (List.replicate 481 0))) stA) (fun t => t.host.outbox.map (·.status) == [4]) = true ∧
    gives (exec (.launch (cmdOf [])) stA) (fun t => t.host.outbox.map (·.status) == [5]) = true := by decide +kernel

/-- One turn of the bring-up from step 5 ends it (Table 15.4). -/
theorem test_bring_up : gives (step { stA with bring := { step := 5, goal := 6 }, agenda := [.bringUp] }) (fun t =>
    t.bring.step == 6 && !t.bring.failed && t.agenda.isEmpty) = true ∧
    gives (step { stA with bring := { step := 3, goal := 4 }, agenda := [.bringUp] }) (fun t => t.bring.step == 4 && t.bring.failed) = true := by
  decide +kernel

/-- A BARW goes on once PHASE differs (R179). -/
theorem test_barrier_wait_end : gives (exec (.barrierWaitEnd 0 .seq) (stWait .seq { obj := .barrier (stA.bank.gr 6) (some (.seg ⟨0, 0, 5, 0x800⟩)) 0 } stA))
    (fun t => t.bank.pc == 0x44 && t.seqAgt.wait.isNone) = true ∧
    gives (exec (.barrierWaitEnd 0 .seq) (stWait .seq { obj := .barrier (stA.bank.gr 6) (some (.seg ⟨0, 0, 5, 0x800⟩)) 1 } stA))
      (fun t => t.bank.pc == 0x40 && t.seqAgt.wait.isSome) = true := by decide +kernel

/-- A store to another chip completes with its answer, and sends nothing again (R254). -/
theorem test_remote_store : gives (exec (.stg 0 9 5 3 3) stFar) (fun t => t.host.outReqs.map (·.op) == [.write (leBytes 8 0x1122334455667788) false] &&
      t.bank.pc == 0x40) = true ∧
    (let s := stFar.setSeqAgt { got := [⟨0, 0, 0, [], noWho, [], false, 0⟩], out := some [.far (stFar.bank.gr 5) (leBytes 8 0x1122334455667788) false] }
    gives (exec (.stg 0 9 5 3 3) s) (fun t => t.host.outReqs.isEmpty && t.bank.pc == 0x44 && t.seqAgt.out.isNone) = true) := by decide +kernel

/-- MLDD of a descriptor of FMT 7, and of a source slot with a reserved bit, raises LAYOUT. -/
theorem test_mldd_layout : ∀ z ∈ [(Instr.mlddOd 3, 0x3030, (odOf 6 1024 3 7 64 0).toNat), (.mlddAs 3, 0x3106, 0x0B20)],
    let s := inSeg5 (stP 0 0 (BitVec.ofNat 64 (in5 0x3000)) 0) fun g => { g with store := g.store.write z.2.1 (leBytes 16 z.2.2) {} }
    gives (exec z.1 s) (fun t => ((t.slot 0 0).faults.map (·.cause) == [.layout] || (t.tile 0).tr.fcause.toNat % 256 == (causeCode .layout).toNat) &&
      decide ((t.slot 0 0).ps.od = (s.slot 0 0).ps.od) && decide ((t.slot 0 0).ps.asl = (s.slot 0 0).ps.asl)) = true := by decide +kernel

end Sys2Proof.Tests
end

section
/-! SUPPORT. Instructions whose predicate is 0 (R47): an SYSW of FCAUSE does more than retire. -/

namespace Sys2Proof.Machine

/-- SYSW with a false predicate retires; where it names FCAUSE, the scrubber's entry (R249) follows it all the same. -/
theorem exec_sysw_off {q : BitVec 3} {s : State} (a : BitVec 5) (n : BitVec 12) (hq : s.bank.pr q = false) :
    exec (.sysw q a n) s = .next (if n = 0x011 then s.retire.scrubNow s.retire.cur else s.retire) := by
  have hm : syswM q a n s = .next s.retire := seqM_off hq
  show execSysw q a n s = _
  rw [execSysw, hm]

/-- The reset state with tile 0 up and one entry that its scrubber owes; the runtime bank runs there, with TIP 0. -/
def stScrubOwed : State := State.reset.modTile 0 fun t => { t with up := true, scrub := [(0, 0, 0)] }

theorem scrubNow_retire_stScrubOwed_ne : stScrubOwed.retire.scrubNow stScrubOwed.retire.cur ≠ stScrubOwed.retire := by
  have owed : (stScrubOwed.retire.tile 0).scrub = [(0, 0, 0)] := by decide +kernel
  have made : ((stScrubOwed.retire.scrubNow stScrubOwed.retire.cur).tile 0).scrub = [] := by decide +kernel
  intro h
  rw [h, owed] at made
  cases made

/-- Refutes O9: an SYSW of FCAUSE (word 0xA4800011) whose predicate p1 is 0 makes the entry that the scrubber owes the tile
where TIP is 0, in the same step: execSysw asks for that entry after the instruction whether or not it has executed. -/
theorem not_falsePredicateOnlyAdvances : ¬ Obligations.FalsePredicateOnlyAdvances := by
  unfold Obligations.FalsePredicateOnlyAdvances
  rintro ⟨onlyRetires, -⟩
  have hq : stScrubOwed.bank.pr 1 = false := by decide +kernel
  have h := onlyRetires stScrubOwed (.sysw 1 0 0x011) 0xA4800011 rfl rfl rfl (by decide) hq (fun rpt => absurd rpt (by decide))
  rw [exec_sysw_off 0 0x011 hq, if_pos rfl] at h
  exact scrubNow_retire_stScrubOwed_ne (Host.Outcome.next.inj h)

end Sys2Proof.Machine
end

section
/-! SUPPORT. Bit fields (R7): what a field reads after it, or another one, has been written; and the fields of LSTAT and RRB. -/

namespace Sys2Proof.Machine

theorem getLsbD_setBits (x : BitVec w) {hi lo : Nat} (hw : hi < w) (v i : Nat) :
    (setBits x hi lo v).getLsbD i = if lo ≤ i ∧ i ≤ hi then v.testBit (i - lo) else x.getLsbD i := by
  simp only [setBits, BitVec.getLsbD_or, BitVec.getLsbD_and, BitVec.getLsbD_not, BitVec.getLsbD_ofNat,
    Nat.testBit_mul_two_pow, Nat.testBit_two_pow_sub_one, Nat.testBit_mod_two_pow]
  by_cases inField : lo ≤ i ∧ i ≤ hi
  · have : i < w ∧ i - lo < hi + 1 - lo := by omega
    simp [inField, this]
  · rw [if_neg inField]
    by_cases inWord : i < w
    · by_cases above : lo ≤ i
      · simp [inWord, above, show ¬ i - lo < hi + 1 - lo by omega]
      · simp [inWord, above]
    · simp [inWord, BitVec.getLsbD_of_ge x i (by omega)]

theorem testBit_bits (x : BitVec w) (hi lo j : Nat) : (bits x hi lo).testBit j = (decide (j < hi + 1 - lo) && x.getLsbD (j + lo)) := by
  rw [bits, Nat.testBit_mod_two_pow, Nat.testBit_div_two_pow, BitVec.testBit_toNat]

theorem bits_setBits_same (x : BitVec w) {hi lo : Nat} (hw : hi < w) (v : Nat) :
    bits (setBits x hi lo v) hi lo = v % 2 ^ (hi + 1 - lo) := by
  refine Nat.eq_of_testBit_eq fun j => ?_
  rw [testBit_bits, Nat.testBit_mod_two_pow]
  by_cases h : j < hi + 1 - lo
  · rw [getLsbD_setBits x hw, if_pos (by omega), Nat.add_sub_cancel]
  · simp [h]

theorem bits_setBits_apart (x : BitVec w) {hi lo hi' lo' : Nat} (hw : hi < w) (apart : hi < lo' ∨ hi' < lo) (v : Nat) :
    bits (setBits x hi lo v) hi' lo' = bits x hi' lo' := by
  refine Nat.eq_of_testBit_eq fun j => ?_
  rw [testBit_bits, testBit_bits]
  by_cases h : j < hi' + 1 - lo'
  · rw [getLsbD_setBits x hw, if_neg (by omega)]
  · simp [h]

/-! ## LSTAT (Table 3.6) -/

theorem lsHi_lsSetHi (l : W64) (n : BitVec 2) {v : Nat} (hv : v < 8) : lsHi (lsSetHi l n v) n = v := by
  have hn := n.isLt
  rw [lsHi, lsSetHi, bits_setBits_same l (by omega), show 8 * n.toNat + 5 + 1 - (8 * n.toNat + 3) = 3 by omega]
  exact Nat.mod_eq_of_lt hv

theorem lsLo_lsSetLo (l : W64) (n : BitVec 2) {v : Nat} (hv : v < 8) : lsLo (lsSetLo l n v) n = v := by
  have hn := n.isLt
  rw [lsLo, lsSetLo, bits_setBits_same l (by omega), show 8 * n.toNat + 2 + 1 - 8 * n.toNat = 3 by omega]
  exact Nat.mod_eq_of_lt hv

@[simp] theorem lsLo_lsSetHi (l : W64) (n : BitVec 2) (v : Nat) : lsLo (lsSetHi l n v) n = lsLo l n := by
  have hn := n.isLt
  exact bits_setBits_apart l (by omega) (by omega) v

@[simp] theorem lsSt_lsSetHi (l : W64) (n : BitVec 2) (v : Nat) : lsSt (lsSetHi l n v) n = lsSt l n := by
  have hn := n.isLt
  exact bits_setBits_apart l (by omega) (by omega) v

@[simp] theorem lsHi_lsSetLo (l : W64) (n : BitVec 2) (v : Nat) : lsHi (lsSetLo l n v) n = lsHi l n := by
  have hn := n.isLt
  exact bits_setBits_apart l (by omega) (by omega) v

@[simp] theorem lsSt_lsSetLo (l : W64) (n : BitVec 2) (v : Nat) : lsSt (lsSetLo l n v) n = lsSt l n := by
  have hn := n.isLt
  exact bits_setBits_apart l (by omega) (by omega) v

/-! ## RRB (Table 3.5) -/

theorem rotate_g (r : BitVec 6) : (rotate r).toNat % 8 = (r.toNat % 8 + 1) % 8 := by revert r; decide
theorem rotate_p (r : BitVec 6) : (rotate r).toNat / 8 = (r.toNat / 8 + 1) % 7 := by revert r; decide

end Sys2Proof.Machine
end

section
/-! SUPPORT. Predicate registers of a bank (R46, R48, R53): reads after writes, runs of writes, the packed byte. -/

namespace Sys2Proof.Machine

/-- A write of a predicate changes the predicates alone. -/
theorem setP_eq_with_p (b : Bank) (d : BitVec 3) (v : Bool) : b.setP d v = { b with p := (b.setP d v).p } := by
  unfold Bank.setP; split <;> rfl

theorem pr_setP (b : Bank) (d n : BitVec 3) (v : Bool) : (b.setP d v).pr n = if n = d ∧ d ≠ 0 then v else b.pr n := by
  by_cases hd : d = 0
  · simp [Bank.setP, hd]
  by_cases hn : n = 0
  · subst hn; rw [if_neg fun e => hd e.1.symm]; rfl
  have place : (setBit b.p (physP b.rrb d).toNat v).getLsbD (physP b.rrb n).toNat =
      if n = d then v else b.p.getLsbD (physP b.rrb n).toNat := by
    have hp := (physP b.rrb d).isLt
    rw [setBit, getLsbD_setBits b.p (by omega)]
    by_cases e : n = d
    · subst e; cases v <;> simp
    · have : (physP b.rrb n).toNat ≠ (physP b.rrb d).toNat := fun h => e (physP_inj _ _ _ (BitVec.eq_of_toNat_eq h))
      rw [if_neg (by omega), if_neg e]
  simp only [Bank.setP, Bank.pr, if_neg hd, if_neg hn]
  rw [place]
  by_cases e : n = d
  · rw [if_pos e, if_pos ⟨e, hd⟩]
  · rw [if_neg e, if_neg fun h => e h.1]

/-- p1 to pm are written from f, in order. -/
def Bank.putPreds (f : Nat → Bool) (m : Nat) (b : Bank) : Bank :=
  (List.range m).foldl (fun b i => b.setP (BitVec.ofNat 3 (i + 1)) (f (i + 1))) b

theorem unpackP_eq_putPreds (b : Bank) (v : W64) : b.unpackP v = b.putPreds (bit v) 7 := rfl

theorem stages_eq_putPreds (b : Bank) (n : BitVec 2) : b.stages n =
    b.putPreds (fun i => decide (lsLo b.lstat n ≤ i) && decide (i ≤ lsHi b.lstat n)) (lsSt b.lstat n + 1) := rfl

theorem putPreds_succ (f : Nat → Bool) (m : Nat) (b : Bank) :
    b.putPreds f (m + 1) = (b.putPreds f m).setP (BitVec.ofNat 3 (m + 1)) (f (m + 1)) := by
  simp [Bank.putPreds, List.range_succ]

theorem putPreds_eq_with_p (f : Nat → Bool) (m : Nat) (b : Bank) : b.putPreds f m = { b with p := (b.putPreds f m).p } := by
  induction m with
  | zero => rfl
  | succ m ih => rw [putPreds_succ, setP_eq_with_p, ih]

theorem pr_putPreds (f : Nat → Bool) {m : Nat} (hm : m ≤ 7) (b : Bank) (n : BitVec 3) :
    (b.putPreds f m).pr n = if 0 < n.toNat ∧ n.toNat ≤ m then f n.toNat else b.pr n := by
  induction m with
  | zero => rw [if_neg (by omega)]; rfl
  | succ m ih =>
    have hd : (BitVec.ofNat 3 (m + 1)).toNat = m + 1 := by rw [BitVec.toNat_ofNat]; omega
    have hd0 : BitVec.ofNat 3 (m + 1) ≠ 0 := fun e => by rw [e] at hd; simp at hd
    rw [putPreds_succ, pr_setP, ih (by omega)]
    by_cases e : n = BitVec.ofNat 3 (m + 1)
    · have hn : n.toNat = m + 1 := e ▸ hd
      rw [if_pos ⟨e, hd0⟩, if_pos (by omega), hn]
    · have hn : n.toNat ≠ m + 1 := fun h => e (BitVec.eq_of_toNat_eq (h.trans hd.symm))
      rw [if_neg fun h => e h.1]
      by_cases below : 0 < n.toNat ∧ n.toNat ≤ m
      · rw [if_pos below, if_pos (by omega)]
      · rw [if_neg below, if_neg (by omega)]

/-- Bit 0 is 1 and bit i is f i for i from 1 to m. -/
def packBits (f : Nat → Bool) (m : Nat) : Nat := 1 + (List.range m).foldl (fun a i => a + 2 ^ (i + 1) * b2n (f (i + 1))) 0

theorem packP_eq_packBits (b : Bank) : b.packP = packBits (fun i => b.pr (BitVec.ofNat 3 i)) 7 := rfl

theorem packBits_succ (f : Nat → Bool) (m : Nat) : packBits f (m + 1) = 2 ^ (m + 1) * b2n (f (m + 1)) + packBits f m := by
  simp only [packBits, List.range_succ, List.foldl_append, List.foldl_cons, List.foldl_nil]
  omega

theorem packBits_lt (f : Nat → Bool) (m : Nat) : packBits f m < 2 ^ (m + 1) := by
  induction m with
  | zero => exact Nat.one_lt_two
  | succ m ih =>
    have : b2n (f (m + 1)) ≤ 1 := by cases f (m + 1) <;> decide
    have := Nat.mul_le_mul_left (2 ^ (m + 1)) this
    rw [packBits_succ, Nat.pow_succ 2 (m + 1)]
    omega

theorem testBit_packBits (f : Nat → Bool) (m j : Nat) : (packBits f m).testBit j = (decide (j = 0) || (decide (j ≤ m) && f j)) := by
  induction m with
  | zero => cases j <;> simp [packBits, Nat.testBit_succ]
  | succ m ih =>
    rw [packBits_succ, Nat.testBit_two_pow_mul_add _ (packBits_lt f m)]
    by_cases h : j < m + 1
    · rw [if_pos h, ih]
      simp [show j ≤ m by omega, show j ≤ m + 1 by omega]
    · rw [if_neg h]
      by_cases e : j = m + 1
      · subst e; cases f (m + 1) <;> simp [b2n]
      · obtain ⟨k, hk⟩ : ∃ k, j - (m + 1) = k + 1 := ⟨j - (m + 1) - 1, by omega⟩
        have : ¬ (j ≤ m + 1) ∧ j ≠ 0 := by omega
        cases f (m + 1) <;> simp [b2n, hk, this, Nat.testBit_succ]

end Sys2Proof.Machine
end

section
/-! SUPPORT. Moves between registers of a bank (O12): what they leave of the bank's control flow, and their values. -/

namespace Sys2Proof.Machine

open Sys2Proof.Safety

/-- Two banks with the same program counter, loops and repeat. -/
structure SameFlow (a b : Bank) : Prop where
  rpt : b.rpt = a.rpt
  order : b.loopOrder = a.loopOrder
  lstat : b.lstat = a.lstat
  ends : b.loopEnd = a.loopEnd
  pc : b.pc = a.pc

theorem sameFlow_setG (b : Bank) (d : BitVec 5) (v : W64) : SameFlow b (b.setG d v) := by constructor <;> simp
theorem sameFlow_setF (b : Bank) (d : BitVec 5) (v : Word) : SameFlow b (b.setF d v) := ⟨rfl, rfl, rfl, rfl, rfl⟩
theorem sameFlow_putPreds (f : Nat → Bool) (m : Nat) (b : Bank) : SameFlow b (b.putPreds f m) := by
  rw [putPreds_eq_with_p]; exact ⟨rfl, rfl, rfl, rfl, rfl⟩

/-- A register instruction that executes at a plain instruction and leaves the control flow of its bank goes on to the next word. -/
theorem seqReg_executes {s : State} {q : BitVec 3} {f : Bank → Bank} {b : Bank} (h : Executes s q) (hf : f s.bank = b)
    (flow : SameFlow s.bank b) : seqReg q s f = .next (onward s b) := by
  obtain ⟨plain, hq⟩ := h
  subst hf
  exact seqReg_plain q s f hq (flow.rpt.trans plain.norpt) (noPassEnd_of_eq plain.nopass flow.order flow.lstat flow.ends flow.pc)

theorem ipc_of_norpt {b : Bank} (h : b.rpt = none) : b.ipc = b.pc := by simp [Bank.ipc, h]

/-- The value of LUI (R364). -/
theorem lui_value (i : BitVec 18) : (i.setWidth 64 <<< 46 : W64) = BitVec.ofNat 64 (i.toNat * 2 ^ 46) := by
  refine BitVec.eq_of_toNat_eq ?_
  rw [BitVec.toNat_shiftLeft, BitVec.toNat_setWidth, BitVec.toNat_ofNat, Nat.shiftLeft_eq,
    Nat.mod_eq_of_lt (Nat.lt_trans i.isLt (by decide))]

/-- The displacement of ADDPC (R327). -/
theorem addpc_value (i : BitVec 18) : (4 * i.signExtend 64 : W64) = BitVec.ofInt 64 (4 * i.toInt) := by
  rw [BitVec.ofInt_mul]; rfl

theorem packP_lt (b : Bank) : b.packP < 256 := by
  rw [packP_eq_packBits]; exact packBits_lt _ 7

/-- The packed byte holds pn in bit n (R48). -/
theorem getLsbD_packP (b : Bank) (n : BitVec 3) : (BitVec.ofNat 64 b.packP : W64).getLsbD n.toNat = b.pr n := by
  have hn := n.isLt
  rw [BitVec.getLsbD_ofNat, packP_eq_packBits, testBit_packBits, BitVec.ofNat_toNat, BitVec.setWidth_eq]
  by_cases h : n = 0
  · subst h; rfl
  · have : n.toNat ≠ 0 := fun e => h (BitVec.eq_of_toNat_eq e)
    simp [this, show n.toNat < 64 by omega, show n.toNat ≤ 7 by omega]

/-- PLOAD takes pn from bit n of its register, but p0 (R48). -/
theorem pr_unpackP (b : Bank) (v : W64) (n : BitVec 3) : (b.unpackP v).pr n = (decide (n = 0) || v.getLsbD n.toNat) := by
  have hn := n.isLt
  rw [unpackP_eq_putPreds, pr_putPreds _ (Nat.le_refl 7)]
  by_cases h : n = 0
  · subst h; rfl
  · have : n.toNat ≠ 0 := fun e => h (BitVec.eq_of_toNat_eq e)
    rw [if_pos (by omega), decide_eq_false h]
    rfl

/-- Settles O12: each form is one register instruction, whose value one lemma gives. -/
theorem moveResults : Obligations.MoveResults := by
  unfold Obligations.MoveResults
  intro s q h
  refine ⟨fun d i => ?lui, fun d i => ?addpc, fun d => ⟨BitVec.ofNat 64 s.bank.packP, ?psave, ?packed, getLsbD_packP s.bank⟩,
    fun a => ⟨s.bank.unpackP (s.bank.gr a), ?pload, ?frame, pr_unpackP s.bank _⟩, fun d a b c => ?sel, fun d a b c => ?selF,
    rfl, rfl, rfl, rfl⟩
  case lui => exact seqReg_executes h (congrArg (s.bank.setG d) (lui_value i)) (sameFlow_setG ..)
  case addpc =>
    have offset : s.bank.ipc + 4 * i.signExtend 64 = s.bank.pc + BitVec.ofInt 64 (4 * i.toInt) := by
      rw [ipc_of_norpt h.1.norpt, addpc_value]
    exact seqReg_executes h (congrArg (s.bank.setG d) offset) (sameFlow_setG ..)
  case psave => exact seqReg_executes h rfl (sameFlow_setG ..)
  case packed =>
    rw [BitVec.toNat_ofNat, Nat.mod_eq_of_lt (Nat.lt_trans (packP_lt s.bank) (by decide))]
    exact packP_lt s.bank
  case pload => exact seqReg_executes h rfl (sameFlow_putPreds ..)
  case frame => rw [unpackP_eq_putPreds, putPreds_eq_with_p]
  case sel => exact seqReg_executes h rfl (sameFlow_setG ..)
  case selF => exact seqReg_executes h rfl (sameFlow_setF ..)

end Sys2Proof.Machine
end

section
/-! SUPPORT. The end of a pass of a loop (R55, R363): one equation for each case of Bank.passEnd, and how retiring uses it. -/

namespace Sys2Proof.Machine

open Sys2Proof.Safety

/-! ## Cases of a pass end -/

/-- The last pass of a loop: LC is 0, and in a rotating loop LO and HI have met at the last stage. -/
def Bank.LastPass (b : Bank) (n : BitVec 2) : Prop :=
  vget n b.lc = 0 ∧ (lsRot b.lstat n = true → lsLo b.lstat n = lsHi b.lstat n ∧ lsHi b.lstat n = lsSt b.lstat n + 1)

theorem passEnd_again {b : Bank} {n : BitVec 2} (hrot : lsRot b.lstat n = false) (hlc : vget n b.lc ≠ 0) :
    b.passEnd n = ({ b with lc := vset n (vget n b.lc - 1) b.lc, pc := vget n b.loopStart }, true) := by
  rw [Bank.passEnd, if_pos hrot, if_pos hlc]

theorem passEnd_last {b : Bank} {n : BitVec 2} (h : b.LastPass n) :
    b.passEnd n = ({ b with lstat := lsSetAct b.lstat n false }, false) := by
  obtain ⟨hlc, met⟩ := h
  cases hrot : lsRot b.lstat n with
  | false => rw [Bank.passEnd, if_pos hrot, if_neg (not_not_intro hlc)]
  | true => rw [Bank.passEnd, if_neg (by simp [hrot]), if_pos ⟨hlc, met hrot⟩]

/-- LSTAT where a pass of a rotating loop ends (R55): LO goes up once LC is 0, then HI goes up to the last stage. -/
def loAfter (b : Bank) (n : BitVec 2) : W64 := if vget n b.lc = 0 then lsSetLo b.lstat n (lsLo b.lstat n + 1) else b.lstat

def hiAfter (l : W64) (n : BitVec 2) : W64 := if lsHi l n < lsSt l n + 1 then lsSetHi l n (lsHi l n + 1) else l

/-- The bank where a pass of a rotating loop ends, before its stage predicates are written. -/
def Bank.rotated (b : Bank) (n : BitVec 2) : Bank :=
  { b with lc := if vget n b.lc = 0 then b.lc else vset n (vget n b.lc - 1) b.lc, lstat := hiAfter (loAfter b n) n, rrb := rotate b.rrb }

/-- Stage predicates change the predicates alone. -/
theorem stages_eq_with_p (b : Bank) (n : BitVec 2) : b.stages n = { b with p := (b.stages n).p } := by
  rw [stages_eq_putPreds, ← putPreds_eq_with_p]

@[simp] theorem stages_loopStart (b : Bank) (n : BitVec 2) : (b.stages n).loopStart = b.loopStart := by rw [stages_eq_with_p]
@[simp] theorem stages_lc (b : Bank) (n : BitVec 2) : (b.stages n).lc = b.lc := by rw [stages_eq_with_p]
@[simp] theorem stages_lstat (b : Bank) (n : BitVec 2) : (b.stages n).lstat = b.lstat := by rw [stages_eq_with_p]
@[simp] theorem stages_rrb (b : Bank) (n : BitVec 2) : (b.stages n).rrb = b.rrb := by rw [stages_eq_with_p]

theorem passEnd_rotates {b : Bank} {n : BitVec 2} (hrot : lsRot b.lstat n = true) (hlast : ¬ b.LastPass n) :
    b.passEnd n = ({ (b.rotated n).stages n with pc := vget n b.loopStart }, true) := by
  have notMet : ¬ (vget n b.lc = 0 ∧ lsLo b.lstat n = lsHi b.lstat n ∧ lsHi b.lstat n = lsSt b.lstat n + 1) :=
    fun e => hlast ⟨e.1, fun _ => e.2⟩
  have start : vget n ((b.rotated n).stages n).loopStart = vget n b.loopStart := by rw [stages_loopStart]; rfl
  rw [Bank.passEnd, if_neg (by simp [hrot]), if_neg notMet, ← start]
  by_cases hlc : vget n b.lc = 0
  · rw [Bank.rotated, loAfter, if_neg (not_not_intro hlc), if_pos hlc, if_pos hlc]; rfl
  · rw [Bank.rotated, loAfter, if_pos hlc, if_neg hlc, if_neg hlc]; rfl

@[simp] theorem lsHi_loAfter (b : Bank) (n : BitVec 2) : lsHi (loAfter b n) n = lsHi b.lstat n := by unfold loAfter; split <;> simp
@[simp] theorem lsSt_loAfter (b : Bank) (n : BitVec 2) : lsSt (loAfter b n) n = lsSt b.lstat n := by unfold loAfter; split <;> simp
@[simp] theorem lsLo_hiAfter (l : W64) (n : BitVec 2) : lsLo (hiAfter l n) n = lsLo l n := by unfold hiAfter; split <;> simp
@[simp] theorem lsSt_hiAfter (l : W64) (n : BitVec 2) : lsSt (hiAfter l n) n = lsSt l n := by unfold hiAfter; split <;> simp

theorem lsSt_rotated (b : Bank) (n : BitVec 2) : lsSt (b.rotated n).lstat n = lsSt b.lstat n := by simp [Bank.rotated]

theorem lsLo_rotated {b : Bank} {n : BitVec 2} (h : lsLo b.lstat n ≤ 6) :
    lsLo (b.rotated n).lstat n = if vget n b.lc = 0 then lsLo b.lstat n + 1 else lsLo b.lstat n := by
  rw [Bank.rotated, lsLo_hiAfter, loAfter]
  split
  · exact lsLo_lsSetLo _ _ (by omega)
  · rfl

theorem lsHi_rotated {b : Bank} {n : BitVec 2} (h : lsSt b.lstat n ≤ 6) :
    lsHi (b.rotated n).lstat n = if lsHi b.lstat n < lsSt b.lstat n + 1 then lsHi b.lstat n + 1 else lsHi b.lstat n := by
  show lsHi (hiAfter (loAfter b n) n) n = _
  rw [hiAfter, lsHi_loAfter, lsSt_loAfter]
  by_cases below : lsHi b.lstat n < lsSt b.lstat n + 1
  · rw [if_pos below, if_pos below, lsHi_lsSetHi _ _ (by omega)]
  · rw [if_neg below, if_neg below, lsHi_loAfter]

/-- The stage predicates of a loop (R55). -/
theorem pr_stages {b : Bank} {n : BitVec 2} (hst : lsSt b.lstat n ≤ 6) {i : BitVec 3} (h0 : 0 < i.toNat) (h1 : i.toNat ≤ lsSt b.lstat n + 1) :
    (b.stages n).pr i = (decide (lsLo (b.stages n).lstat n ≤ i.toNat) && decide (i.toNat ≤ lsHi (b.stages n).lstat n)) := by
  rw [stages_lstat, stages_eq_putPreds, pr_putPreds _ (by omega), if_pos ⟨h0, h1⟩]

theorem pr_with_pc (b : Bank) (pc : W64) (i : BitVec 3) : ({ b with pc := pc } : Bank).pr i = b.pr i := rfl

/-! ## Retiring at the end of a body -/

@[simp] theorem setBank_trctl (s : State) (b : Bank) (t : BitVec 8) : ((s.setBank b).tile t).trctl = (s.tile t).trctl := by
  unfold State.setBank
  split
  · by_cases h : s.cur = t
    · subst h; simp
    · rw [tile_modTile_ne h]
  · rw [modSlot_tile]
    split
    · next h => subst h; rfl
    · rfl

/-- No stop is asked for at the moving sequencer, or it runs the runtime bank, which none stops (R296). -/
def NoStopAsked (s : State) : Prop := s.inRt = true ∨ bits (s.tile s.cur).trctl 13 12 = 0

theorem stopHits_false {s : State} (h : NoStopAsked s) (n : BitVec 2) : s.stopHits n = false := by
  rcases h with h | h <;> simp [State.stopHits, h]

theorem noStopAsked_setBank {s : State} (h : NoStopAsked s) (b : Bank) : NoStopAsked (s.setBank b) := by
  simpa [NoStopAsked] using h

/-- The moving sequencer stands at the last word of the body of loop n, the only one, with no repeat and no stop asked for. -/
structure AtPassEnd (s : State) (n : BitVec 2) : Prop where
  norpt : s.bank.rpt = none
  only : s.bank.loopOrder = [n]
  active : lsAct s.bank.lstat n = true
  ends : vget n s.bank.loopEnd = s.bank.pc + 4
  nostop : NoStopAsked s

/-- The pass of the only loop ends before an address, and no stop lands with it (R363). -/
theorem loopEnds_one {s : State} {n : BitVec 2} {pc : W64} {b : Bank} {back : Bool} (active : lsAct s.bank.lstat n = true)
    (ends : vget n s.bank.loopEnd = pc) (hp : s.bank.passEnd n = (b, back)) (nostop : (s.setBank b).stopHits n = false) :
    s.loopEnds [pc] false [n] = if back then s.setBank b else (s.setBank b).loopRecord 1 := by
  rw [State.loopEnds, if_neg (by simp [active, ends]), hp]
  cases back <;> simp [nostop, State.loopEnds]

/-- Retiring there is the pass end of that loop, at the bank that has gone on to the next word. -/
theorem retire_atPassEnd {s : State} {n : BitVec 2} (h : AtPassEnd s n) {b : Bank} {back : Bool}
    (hp : ({ s.bank with pc := s.bank.pc + 4 } : Bank).passEnd n = (b, back)) :
    s.retire = if back then s.setBank b else (s.setBank b).loopRecord 1 := by
  have advances : s.retire = (s.setBank { s.bank with pc := s.bank.pc + 4 }).loopEnds [s.bank.pc + 4] false [n] := by
    rw [State.retire, h.norpt, ← h.only]; rfl
  rw [advances, loopEnds_one (b := b) (back := back)]
  · rw [setBank_setBank]
  · rw [setBank_bank]; exact h.active
  · rw [setBank_bank]; exact h.ends
  · rw [setBank_bank]; exact hp
  · rw [setBank_setBank]; exact stopHits_false (noStopAsked_setBank h.nostop b) n

theorem exec_fenceAcq {s : State} {q : BitVec 3} (k : BitVec 2) (hq : s.bank.pr q = true) : exec (.fenceAcq q k) s = .next s.retire := by
  show seqReg q s id = _
  rw [seqReg, if_pos hq, modBank_eq, id_eq, setBank_same]

/-- Settles O21: by the cases of a pass end, FENCE having retired at the end of the body. -/
theorem passEnds : Obligations.PassEnds := by
  unfold Obligations.PassEnds
  intro s q n k b hq norpt only active ends nostop lc lo hi st last
  have here : AtPassEnd s n := ⟨norpt, only, active, ends, nostop⟩
  rw [exec_fenceAcq k hq]
  refine ⟨fun hrot hlc => ?again, fun hend => ?last, fun hrot hlast hlo hst => ?rotates⟩
  case again => rw [retire_atPassEnd here (passEnd_again hrot hlc)]; rfl
  case last =>
    have hl : ({ b with pc := b.pc + 4 } : Bank).LastPass n := by
      rcases hend with ⟨hrot, hlc⟩ | ⟨-, hlc, met⟩
      · exact ⟨hlc, fun h => absurd (hrot.symm.trans h) (by decide)⟩
      · exact ⟨hlc, fun _ => met⟩
    rw [retire_atPassEnd here (passEnd_last hl)]; rfl
  case rotates =>
    have hl : ¬ ({ b with pc := b.pc + 4 } : Bank).LastPass n := fun h => hlast ⟨h.1, h.2 hrot⟩
    let r : Bank := ({ b with pc := b.pc + 4 } : Bank).rotated n
    refine ⟨{ r.stages n with pc := vget n b.loopStart },
      congrArg Host.Outcome.next (retire_atPassEnd here (passEnd_rotates hrot hl)), ?_⟩
    have kept : (r.stages n).lstat = r.lstat := stages_lstat ..
    have turned : (r.stages n).rrb = rotate b.rrb := stages_rrb ..
    have st_kept : lsSt r.lstat n = st := lsSt_rotated ..
    refine ⟨?frame, rfl, stages_lc .., (congrArg (lsLo · n) kept).trans (lsLo_rotated hlo),
      (congrArg (lsHi · n) kept).trans (lsHi_rotated hst), (congrArg (BitVec.toNat · % 8) turned).trans (rotate_g _),
      (congrArg (BitVec.toNat · / 8) turned).trans (rotate_p _), fun i h0 h1 => ?stage⟩
    case frame => rw [stages_eq_with_p]; rfl
    case stage => exact (pr_with_pc ..).trans (pr_stages (by omega) h0 (by omega))

end Sys2Proof.Machine
end

section
/-! SUPPORT. Accumulator rows as a vector instruction sees them (R59, R60, R145, R398): what a touch of its tiles makes of them, and
how its reads and writes of rows run after that. -/

namespace Sys2Proof.Machine

open Sys2Proof.Safety

/-! ## What a write of accumulators leaves -/

/-- The moving tile and every slot are the same; the accumulators may differ. -/
structure SameSlots (s t : State) : Prop where
  cur : t.cur = s.cur
  curSlot : t.curSlot = s.curSlot
  slot : ∀ u k, t.slot u k = s.slot u k

theorem SameSlots.refl (s : State) : SameSlots s s := ⟨rfl, rfl, fun _ _ => rfl⟩

theorem SameSlots.trans {s t w : State} (h : SameSlots s t) (g : SameSlots t w) : SameSlots s w :=
  ⟨g.cur.trans h.cur, g.curSlot.trans h.curSlot, fun u k => (g.slot u k).trans (h.slot u k)⟩

theorem SameSlots.meOf {s t : State} (h : SameSlots s t) (e : Eng) : t.meOf e = s.meOf e := by
  rw [State.meOf, State.meOf, h.cur, h.curSlot]

theorem SameSlots.ctxId {s t : State} (h : SameSlots s t) (u : BitVec 8) (k : BitVec 2) : t.ctxId u k = s.ctxId u k := by
  rw [State.ctxId, State.ctxId, h.slot]

theorem SameSlots.eng {s t : State} (h : SameSlots s t) (e : Eng) : t.eng e = s.eng e := by
  rw [State.eng, State.eng, h.cur, h.curSlot, h.slot]

theorem unitOf_of_eng {e : Eng} {s t : State} (h : UnitOf e s) (g : t.eng e = s.eng e) : UnitOf e t :=
  ⟨by rw [g]; exact h.norpt, by rw [g]; exact h.rest⟩

theorem sameSlots_modAcc (s : State) (t n : BitVec 8) (f : AccTile → AccTile) : SameSlots s (s.modAcc t n f) := by
  have htile : ∀ u, ((s.modAcc t n f).tile u).slots = (s.tile u).slots ∧ ((s.modAcc t n f).tile u).running = (s.tile u).running := by
    intro u
    by_cases hu : t = u
    · subst hu; rw [State.modAcc, tile_modTile_same]; exact ⟨rfl, rfl⟩
    · rw [State.modAcc, tile_modTile_ne hu]; exact ⟨rfl, rfl⟩
  refine ⟨rfl, congrArg (Option.getD · 0) (htile s.cur).2, fun u k => congrArg (vget k) (htile u).1⟩

/-! ## Tiles after a touch -/

theorem acc_modAcc {s : State} (h : AccCanonical s) (t n m : BitVec 8) (f : AccTile → AccTile) :
    (s.modAcc t n f).acc t m = if m = n then f (s.acc t n) else s.acc t m := by
  rw [State.acc, State.modAcc, tile_modTile_same, look_put_acc _ _ _ _ (h t)]; rfl

theorem accCanonical_modAcc {s : State} (h : AccCanonical s) (t n : BitVec 8) (f : AccTile → AccTile) :
    AccCanonical (s.modAcc t n f) := by
  intro u
  by_cases hu : t = u
  · subst hu; rw [State.modAcc, tile_modTile_same]; exact canonFrom_put _ _ (Nat.zero_le _) (h t)
  · rw [State.modAcc, tile_modTile_ne hu]; exact h u

theorem sameSlots_owning (s : State) (n : BitVec 8) : SameSlots s (owning s n) := by
  unfold owning; split
  · exact .refl s
  · exact sameSlots_modAcc ..

theorem accCanonical_owning {s : State} (h : AccCanonical s) (n : BitVec 8) : AccCanonical (owning s n) := by
  unfold owning; split
  · exact h
  · exact accCanonical_modAcc h _ _ _

@[simp] theorem accSeen_owner (s : State) (n : BitVec 8) : (accSeen s n).owner = s.ctxId s.cur s.curSlot := by
  unfold accSeen; split
  · assumption
  · rfl

/-- A touch makes a tile what the context saw of it, and leaves the others. -/
theorem acc_owning {s : State} (h : AccCanonical s) (n m : BitVec 8) :
    (owning s n).acc s.cur m = if m = n then accSeen s n else s.acc s.cur m := by
  unfold owning accSeen
  by_cases ho : (s.acc s.cur n).owner = s.ctxId s.cur s.curSlot
  · rw [if_pos ho, if_pos ho]; split
    · next e => rw [e]
    · rfl
  · rw [if_neg ho, if_neg ho, acc_modAcc h]

/-- A touch changes nothing that the context sees. -/
theorem accSeen_owning {s : State} (h : AccCanonical s) (n m : BitVec 8) : accSeen (owning s n) m = accSeen s m := by
  have same := sameSlots_owning s n
  by_cases e : m = n
  · subst e
    rw [accSeen, same.cur, same.ctxId, same.curSlot, acc_owning h, if_pos rfl, if_pos (accSeen_owner s m)]
  · rw [accSeen, same.cur, same.ctxId, same.curSlot, acc_owning h, if_neg e]; rfl

theorem mayOwn_owning {s : State} (h : AccCanonical s) {n m : BitVec 8} (hm : mayOwn s m) : mayOwn (owning s n) m := by
  have same := sameSlots_owning s n
  rw [mayOwn, same.cur, same.ctxId, same.curSlot, acc_owning h]
  split
  · exact .inl (accSeen_owner s n)
  · exact hm

/-- The context owns the tile. -/
def Owned (s : State) (n : BitVec 8) : Prop := (s.acc s.cur n).owner = s.ctxId s.cur s.curSlot

theorem accSeen_of_owned {s : State} {n : BitVec 8} (h : Owned s n) : accSeen s n = s.acc s.cur n := if_pos h

theorem owned_owning {s : State} (h : AccCanonical s) {n m : BitVec 8} (hm : m = n ∨ Owned s m) : Owned (owning s n) m := by
  have same := sameSlots_owning s n
  rw [Owned, same.cur, same.ctxId, same.curSlot, acc_owning h]
  split
  · exact accSeen_owner s n
  · next e => exact hm.resolve_left e

/-! ## The tiles of rows -/

theorem sameSlots_owningRows (u : Vu) : ∀ (l : List (BitVec 6)) (s : State), SameSlots s (owningRows s u l)
  | [], s => .refl s
  | n :: l, s => (sameSlots_owning s (u.tile n)).trans (sameSlots_owningRows u l _)

theorem accSeen_owningRows (u : Vu) (m : BitVec 8) : ∀ (l : List (BitVec 6)) {s : State}, AccCanonical s →
    accSeen (owningRows s u l) m = accSeen s m
  | [], _, _ => rfl
  | n :: l, _, h => (accSeen_owningRows u m l (accCanonical_owning h (u.tile n))).trans (accSeen_owning h ..)

theorem owned_owningRows (u : Vu) {m : BitVec 8} : ∀ (l : List (BitVec 6)) {s : State}, AccCanonical s →
    m ∈ l.map u.tile ∨ Owned s m → Owned (owningRows s u l) m
  | [], _, _, hm => hm.resolve_left List.not_mem_nil
  | n :: l, s, h, hm => by
    refine owned_owningRows u l (s := owning s (u.tile n)) (accCanonical_owning h _) ?_
    rw [List.map_cons, List.mem_cons, or_assoc, or_left_comm] at hm
    exact hm.imp_right (owned_owning h)

/-- After the touches a tile is what the context saw of it before. -/
theorem acc_owningRows {s : State} (h : AccCanonical s) (u : Vu) {l : List (BitVec 6)} {n : BitVec 6} (hn : n ∈ l) :
    (owningRows s u l).acc s.cur (u.tile n) = accSeen s (u.tile n) := by
  have own := owned_owningRows u l h (.inl (List.mem_map_of_mem hn))
  rw [← accSeen_owningRows u (u.tile n) l h, accSeen_of_owned own, (sameSlots_owningRows u l s).cur]

theorem rowAt_owningRows {s : State} (h : AccCanonical s) (u : Vu) (l : List (BitVec 6)) (n : BitVec 6) :
    rowAt (owningRows s u l) u n = rowAt s u n := by rw [rowAt, accSeen_owningRows u _ l h, rowAt]

theorem laneAt_owningRows {s : State} (h : AccCanonical s) (u : Vu) (l : List (BitVec 6)) (b : Nat) (n : BitVec 6) (i : Nat) :
    laneAt (owningRows s u l) u b n i = laneAt s u b n i := by rw [laneAt, rowAt_owningRows h, laneAt]

theorem run_vOwn {u : Vu} : ∀ {l : List (BitVec 6)} {s : State}, AccCanonical s → u.me = s.meOf .vec →
    (∀ n ∈ l, mayOwn s (u.tile n)) → vOwn u l s = .ok () (owningRows s u l)
  | [], _, _, _, _ => rfl
  | n :: l, s, h, hu, ho => by
    have touch : touchAcc u.me (u.tile n) s = .ok () (owning s (u.tile n)) := by
      rw [hu]; exact run_touchAcc (ho n List.mem_cons_self).symm
    have rest := run_vOwn (l := l) (accCanonical_owning h (u.tile n)) (hu.trans ((sameSlots_owning s _).meOf _).symm)
      fun m hm => mayOwn_owning h (ho m (List.mem_cons_of_mem _ hm))
    exact (bind_ok touch).trans rest

/-! ## Lanes -/

/-- The lanes of a row of the window, as the context sees it. -/
def lanesOf (s : State) (u : Vu) (b : Nat) (n : BitVec 6) : List Nat := rowLanes b (rowAt s u n)

theorem getD_lanesOf (s : State) (u : Vu) {b i : Nat} (n : BitVec 6) (hi : i < 128 / b) :
    (lanesOf s u b n).getD i 0 = laneAt s u b n i := by
  rw [lanesOf, rowLanes, List.getD_eq_getElem?_getD, List.getElem?_map, List.getElem?_range hi]; rfl

theorem rowOfLanes_congr {b : Nat} {f g : Nat → Nat} (h : ∀ i, i < 128 / b → f i = g i) : rowOfLanes b f = rowOfLanes b g :=
  congrArg (lanesRow b) (List.map_congr_left fun i hi => h i (List.mem_range.mp hi))

theorem rowMerge_congr {s : State} {u : Vu} {n : BitVec 6} {b : Nat} {f g : Nat → Nat} {p q : Nat → Bool}
    (hp : ∀ i, i < 128 / b → p i = q i) (hf : ∀ i, i < 128 / b → p i = true → f i = g i) :
    rowMerge s u n b f p = rowMerge s u n b g q := by
  refine congrArg (rowSet s u n · 0) (rowOfLanes_congr fun i hi => ?_)
  rw [← hp i hi]
  split
  · next h => exact hf i hi h
  · rfl

theorem laneBytes_cases (t : Nat) : laneBytes t = 4 ∨ laneBytes t = 2 ∨ laneBytes t = 1 ∨ laneBytes t = 128 := by
  unfold laneBytes; repeat' split
  all_goals simp

theorem laneCount_pos (t : Nat) : 0 < laneCount t := by
  unfold laneCount; rcases laneBytes_cases t with h | h | h | h <;> rw [h] <;> decide

theorem foldr_lanes_zeros (b n : Nat) : (List.replicate n 0).foldr (fun x a => x % 2 ^ (8 * b) + 2 ^ (8 * b) * a) 0 = 0 := by
  induction n with
  | zero => rfl
  | succ n ih => rw [List.replicate_succ, List.foldr_cons, ih]; simp

/-- A row that is given lane 0 alone holds zero in the others. -/
theorem lanesRow_single {b : Nat} (hb : 0 < 128 / b) (v : Nat) : lanesRow b [v] = rowOfLanes b fun i => if i = 0 then v else 0 := by
  obtain ⟨n, hn⟩ : ∃ n, 128 / b = n + 1 := ⟨128 / b - 1, by omega⟩
  have lanes : ((List.range (128 / b)).map fun i => if i = 0 then v else 0) = v :: List.replicate n 0 := by
    rw [hn, List.range_succ_eq_map, List.map_cons, List.map_map]
    refine congrArg (v :: ·) (List.eq_replicate_iff.mpr ⟨by simp, fun x hx => ?_⟩)
    simpa using (List.mem_map.mp hx).choose_spec.2.symm
  rw [rowOfLanes, lanes, lanesRow, lanesRow, List.foldr_cons, List.foldr_cons, foldr_lanes_zeros]; rfl

theorem kept_congr {s : State} {u : Vu} {n : BitVec 6} {b : Nat} {p q : Nat → Bool} (h : Kept s u n b p)
    (hp : ∀ i, i < 128 / b → p i = q i) : Kept s u n b q :=
  h.imp_left fun all i hi => (hp i hi).symm.trans (all i hi)

/-! ## Reads and writes of rows after the touches -/

theorem sameSlots_rowSet (s : State) (u : Vu) (n : BitVec 6) (r : Row) (sd : Word) : SameSlots s (rowSet s u n r sd) :=
  sameSlots_modAcc ..

section
variable {s : State} {p : BitVec 3} {l r : List (BitVec 6)}

theorem run_vOwn_rows (h : Rows s (s.vu p) l r) : vOwn (s.vu p) l s = .ok () (owningRows s (s.vu p) l) :=
  run_vOwn h.canon rfl h.owned

theorem run_vRow (h : Rows s (s.vu p) l r) {n : BitVec 6} (hn : n ∈ l) (hc : cleanRow s (s.vu p) n) :
    vRow (s.vu p) n (owningRows s (s.vu p) l) = .ok (rowAt s (s.vu p) n) (owningRows s (s.vu p) l) := by
  have acc : (owningRows s (s.vu p) l).acc s.cur ((s.vu p).tile n) = accSeen s ((s.vu p).tile n) := acc_owningRows h.canon _ hn
  have clean : bit (accSeen s ((s.vu p).tile n)).poison (BitVec.ofNat 5 n.toNat).toNat = false ∧
      Settled (accSeen s ((s.vu p).tile n)) .vec (BitVec.ofNat 5 n.toNat) := by
    unfold accSeen; split
    · exact ⟨by rw [BitVec.toNat_ofNat]; exact hc.1, hc.2⟩
    · exact ⟨BitVec.getLsbD_zero, fun q hq => by cases hq⟩
  have read := run_readAcc (s := owningRows s (s.vu p) l) (m := s.meOf .vec) (n := (s.vu p).tile n) (r := BitVec.ofNat 5 n.toNat)
    (by rw [show (s.meOf .vec).tile = s.cur from rfl, acc]; exact clean.1)
    (by rw [show (s.meOf .vec).tile = s.cur from rfl, acc]; exact clean.2)
  rw [show (s.meOf .vec).tile = s.cur from rfl, acc] at read
  exact read

theorem run_vLanes (h : Rows s (s.vu p) l r) (b : Nat) {n : BitVec 6} (hn : n ∈ l) (hc : cleanRow s (s.vu p) n) :
    vLanes (s.vu p) n b (owningRows s (s.vu p) l) = .ok (lanesOf s (s.vu p) b n) (owningRows s (s.vu p) l) :=
  bind_ok (run_vRow h hn hc)

/-- A row that only some forms of an instruction read. -/
theorem run_vLanes_if (h : Rows s (s.vu p) l r) (b : Nat) {n : BitVec 6} {c : Prop} [Decidable c] (hn : n ∈ l)
    (hc : c → cleanRow s (s.vu p) n) (k : List Nat → M β) :
    (if c then vLanes (s.vu p) n b >>= k else pure [] >>= k) (owningRows s (s.vu p) l) =
      k (if c then lanesOf s (s.vu p) b n else []) (owningRows s (s.vu p) l) := by
  split
  · next hb => exact bind_ok (run_vLanes h b hn (hc hb))
  · rfl

theorem run_vPut {t : State} (h : SameSlots s t) (n : BitVec 6) (v : Row) : vPut (s.vu p) n v t = .ok () (rowSet t (s.vu p) n v 0) := by
  rw [rowSet, h.cur]; rfl

theorem run_vOld (h : Rows s (s.vu p) l r) {n : BitVec 6} {b : Nat} {sel : Nat → Bool} (hn : n ∈ l) (hk : Kept s (s.vu p) n b sel) :
    ∃ old, vOld (s.vu p) n b sel (owningRows s (s.vu p) l) = .ok old (owningRows s (s.vu p) l) ∧
      ∀ i, i < 128 / b → sel i = false → old.getD i 0 = laneAt s (s.vu p) b n i := by
  unfold vOld
  by_cases all : (List.range (128 / b)).all sel = true
  · refine ⟨_, by rw [if_pos all]; rfl, fun i hi hs => ?_⟩
    exact absurd (List.all_eq_true.mp all i (List.mem_range.mpr hi)) (by simp [hs])
  · have clean : cleanRow s (s.vu p) n := hk.resolve_left fun h => all (List.all_eq_true.mpr fun i hi => h i (List.mem_range.mp hi))
    exact ⟨_, by rw [if_neg all]; exact run_vLanes h b hn clean, fun i hi _ => getD_lanesOf s _ n hi⟩

theorem run_vMerge (h : Rows s (s.vu p) l r) {n : BitVec 6} {b : Nat} {sel : Nat → Bool} (hn : n ∈ l) (hk : Kept s (s.vu p) n b sel)
    (new : List Nat) : vMerge (s.vu p) n b new sel (owningRows s (s.vu p) l) =
      .ok () (rowMerge (owningRows s (s.vu p) l) (s.vu p) n b (fun i => new.getD i 0) sel) := by
  obtain ⟨old, run, kept⟩ := run_vOld h hn hk
  refine (bind_ok run).trans ((run_vPut (sameSlots_owningRows ..) n _).trans ?_)
  refine congrArg (fun v => EStateM.Result.ok () (rowSet _ _ n v 0)) (rowOfLanes_congr fun i hi => ?_)
  split
  · rfl
  · next hs => rw [laneAt_owningRows h.canon]; exact kept i hi (by simpa using hs)

end

/-! ## The end of a vector instruction -/

theorem eng_modTstat (s : State) (m : Me) (f : TstatEff) (e : Eng) : (s.modTstat m f).eng e = s.eng e := by
  unfold State.modTstat; split
  · rfl
  · rw [State.eng, State.eng, modSlot_cur, modSlot_curSlot, slot_modSlot]
    split
    · next h => rw [h.1, h.2]; cases e <;> rfl
    · rfl

/-- A vector instruction that has written rows and then gives its flags to TSTAT (R115). -/
theorem vecM_done {s w : State} {m : M Unit} {g : Flg} (hs : UnitOf .vec s) (hw : SameSlots s w)
    (hm : m s = .ok () (w.modTstat (w.meOf .vec) { flags := vecFlags g })) : vecM s m = .next (vecDone w g) :=
  engM_ok (by decide) hs hm (unitOf_of_eng hs ((eng_modTstat ..).trans (hw.eng .vec)))

theorem modTstat_noflags (s : State) (m : Me) : s.modTstat m { flags := vecFlags 0 } = s := if_pos ⟨rfl, by decide⟩

end Sys2Proof.Machine
end

section
/-! SUPPORT. Reductions and conversions of lanes (O38): the next state of each form. -/

namespace Sys2Proof.Machine

open Sys2Proof.Safety

/-! ## A row with lane 0 alone -/

/-- s after an instruction that touches the rows l has put v in lane 0 of row d and zeros in its other lanes. -/
def reducedTo (s : State) (u : Vu) (l : List (BitVec 6)) (d : BitVec 6) (b v : Nat) : State :=
  rowSet (owningRows s u l) u d (rowOfLanes b fun i => if i = 0 then v else 0) 0

theorem sameSlots_reducedTo (s : State) (u : Vu) (l : List (BitVec 6)) (d : BitVec 6) (b v : Nat) : SameSlots s (reducedTo s u l d b v) :=
  (sameSlots_owningRows u l s).trans (sameSlots_rowSet ..)

theorem run_vPut_single {s : State} {p : BitVec 3} (l : List (BitVec 6)) (d : BitVec 6) {b : Nat} (hb : 0 < 128 / b) (v : Nat) :
    vPut (s.vu p) d (lanesRow b [v]) (owningRows s (s.vu p) l) = .ok () (reducedTo s (s.vu p) l d b v) := by
  rw [run_vPut (sameSlots_owningRows ..), lanesRow_single hb, reducedTo]

/-! ## Trees and scans (R420) -/

/-- The active lanes of a row, by number. -/
def optLanes (s : State) (u : Vu) (n : BitVec 6) : List (Option Nat) :=
  (List.range u.n).map fun i => if u.act i then some (laneAt s u u.b n i) else none

theorem getD_lanesOf_own (s : State) (u : Vu) {i : Nat} (n : BitVec 6) (hi : i < u.n) :
    (lanesOf s u u.b n).getD i 0 = laneAt s u u.b n i := getD_lanesOf s u n hi

theorem opts_lanesOf (s : State) (u : Vu) (n : BitVec 6) : u.opts (lanesOf s u u.b n) = optLanes s u n :=
  List.map_congr_left fun i hi => by rw [getD_lanesOf_own s u n (List.mem_range.mp hi)]

theorem exec_vred {s : State} {p : BitVec 3} {d a : BitVec 6} {f : BitVec 5} {g : Nat → Nat → Nat × Flg}
    (h : Rows s (s.vu p) [a, d] [a]) (hg : redFn (s.vu p).et (s.vu p).v.vrm f.toNat = some g) :
    let t := treeRed g (Nat.log2 (s.vu p).n) (optLanes s (s.vu p) a)
    exec (.vred d a f p) s = .next (vecDone (reducedTo s (s.vu p) [a, d] d (s.vu p).b
      ((t.1.headD none).getD (redId (s.vu p).et f.toNat))) t.2) := by
  refine vecM_done h.unit (sameSlots_reducedTo ..) ?_
  dsimp only
  rw [bind_ok (run_vOwn_rows h), hg]
  dsimp only
  rw [bind_ok (run_vLanes h _ (by simp) (h.clean a (by simp))), opts_lanesOf]
  exact bind_ok (run_vPut_single _ _ (laneCount_pos _) _)

theorem getD_map_getD (l : List (Option Nat)) : (fun i => (l.map fun o => o.getD 0).getD i 0) = fun i => (l.getD i none).getD 0 :=
  funext fun i => by
    rw [List.getD_eq_getElem?_getD, List.getD_eq_getElem?_getD, List.getElem?_map]
    cases l[i]? <;> rfl

theorem exec_vscan {s : State} {p : BitVec 3} {d a : BitVec 6} {f : BitVec 5} {g : Nat → Nat → Nat × Flg}
    (h : Rows s (s.vu p) [a, d] [a]) (hk : Kept s (s.vu p) d (s.vu p).b (s.vu p).act)
    (hg : redFn (s.vu p).et (s.vu p).v.vrm f.toNat = some g) :
    let t := scanAll g (List.range (Nat.log2 (s.vu p).n)) (optLanes s (s.vu p) a)
    exec (.vscan d a f p) s = .next (vecDone (rowMerge (owningRows s (s.vu p) [a, d]) (s.vu p) d (s.vu p).b
      (fun i => (t.1.getD i none).getD 0) (s.vu p).act) t.2) := by
  refine vecM_done h.unit ((sameSlots_owningRows ..).trans (sameSlots_rowSet ..)) ?_
  dsimp only
  rw [bind_ok (run_vOwn_rows h), hg]
  dsimp only
  rw [bind_ok (run_vLanes h _ (by simp) (h.clean a (by simp))), opts_lanesOf]
  have merge := run_vMerge h (by simp) hk ((scanAll g (List.range (Nat.log2 (s.vu p).n)) (optLanes s (s.vu p) a)).1.map fun o => o.getD 0)
  rw [getD_map_getD] at merge
  exact bind_ok merge

/-! ## Dot products (R408) -/

/-- What VDOT leaves in lane 0, and its flags: products of the lanes x and y that are active, and the accumulator z under C. -/
def dotOf (u : Vu) (c : BitVec 1) (r : BitVec 3) (x y : Nat → Nat) (z : Nat) : Nat × Flg :=
  let act := (List.range u.n).filter u.act
  match laneFmt u.et with
  | some f => fp32.sum (u.rm r) ((act.map fun i => (f.read (x i)).mul (f.read (y i))) ++ if c = 1 then [fp32.read z] else [])
  | none =>
    let v := act.foldl (fun t i => t + sgn (8 * u.b) (x i) * sgn (8 * u.b) (y i)) (if c = 1 then sgn 32 z else 0)
    let t := sat v (-(2 ^ 31)) (2 ^ 31 - 1)
    ((BitVec.ofInt 32 t).toNat, if t = v then 0 else fOF)

theorem foldl_add_congr {l : List Nat} {f g : Nat → Int} (h : ∀ i ∈ l, f i = g i) (z : Int) :
    l.foldl (fun t i => t + f i) z = l.foldl (fun t i => t + g i) z := by
  rw [← List.foldl_map (f := f) (g := fun t v => t + v), List.map_congr_left h, List.foldl_map]

theorem dotOf_congr {u : Vu} {c : BitVec 1} {r : BitVec 3} {x y x' y' : Nat → Nat} {z z' : Nat} (hx : ∀ i, i < u.n → x i = x' i)
    (hy : ∀ i, i < u.n → y i = y' i) (hz : c = 1 → z = z') : dotOf u c r x y z = dotOf u c r x' y' z' := by
  have lane : ∀ i ∈ (List.range u.n).filter u.act, x i = x' i ∧ y i = y' i := fun i hi => by
    have lt := List.mem_range.mp (List.mem_filter.mp hi).1
    exact ⟨hx i lt, hy i lt⟩
  have acc {α : Type} (f : Nat → α) (o : α) : (if c = 1 then f z else o) = if c = 1 then f z' else o := by
    split
    · next h => rw [hz h]
    · rfl
  unfold dotOf
  cases laneFmt u.et with
  | some f =>
    dsimp only
    rw [acc (fun z => [fp32.read z]), List.map_congr_left fun i hi => by rw [(lane i hi).1, (lane i hi).2]]
  | none =>
    dsimp only
    rw [acc (sgn 32), foldl_add_congr fun i hi => by rw [(lane i hi).1, (lane i hi).2]]

theorem sat_eq_max_min (x : Int) {lo hi : Int} (h : lo ≤ hi) : sat x lo hi = max lo (min x hi) := by
  unfold sat; split
  · omega
  · split <;> omega

theorem dotOf_float {u : Vu} {f : Fmt} (hf : laneFmt u.et = some f) (c : BitVec 1) (r : BitVec 3) (x y : Nat → Nat) (z : Nat) :
    dotOf u c r x y z = fp32.sum (u.rm r) ((((List.range u.n).filter u.act).map fun i => (f.read (x i)).mul (f.read (y i))) ++
      if c = 1 then [fp32.read z] else []) := by rw [dotOf, hf]

theorem dotOf_int {u : Vu} (hf : laneFmt u.et = none) (c : BitVec 1) (r : BitVec 3) (x y : Nat → Nat) (z : Nat) :
    let v := ((List.range u.n).filter u.act).foldl (fun t i => t + sgn (8 * u.b) (x i) * sgn (8 * u.b) (y i)) (if c = 1 then sgn 32 z else 0)
    let w := max (-(2 ^ 31)) (min v (2 ^ 31 - 1))
    dotOf u c r x y z = ((BitVec.ofInt 32 w).toNat, if w = v then 0 else fOF) := by
  intro v w
  rw [show w = sat v (-(2 ^ 31)) (2 ^ 31 - 1) from (sat_eq_max_min v (by decide)).symm, dotOf, hf]

theorem exec_vdot {s : State} {p : BitVec 3} {d a b : BitVec 6} {c : BitVec 1} {r : BitVec 3}
    (h : Rows s (s.vu p) [a, b, d] (if c = 1 then [a, b, d] else [a, b])) (het : (s.vu p).et ≠ 6) :
    let v := dotOf (s.vu p) c r (laneAt s (s.vu p) (s.vu p).b a) (laneAt s (s.vu p) (s.vu p).b b) (laneAt s (s.vu p) 4 d 0)
    exec (.vdot d a b c r p) s = .next (vecDone (reducedTo s (s.vu p) [a, b, d] d 4 v.1) v.2) := by
  refine vecM_done h.unit (sameSlots_reducedTo ..) ?_
  have reads : ∀ n ∈ [a, b], n ∈ if c = 1 then [a, b, d] else [a, b] := fun n hn => by
    split
    · exact List.mem_append_left [d] hn
    · exact hn
  have clean : ∀ n ∈ [a, b], cleanRow s (s.vu p) n := fun n hn => h.clean n (reads n hn)
  have lanes := dotOf_congr (r := r) (fun _ hi => getD_lanesOf_own s (s.vu p) a hi) (fun _ hi => getD_lanesOf_own s (s.vu p) b hi)
    (z := (if c = 1 then lanesOf s (s.vu p) 4 d else []).getD 0 0) fun hc => by rw [if_pos hc, getD_lanesOf _ _ _ (by decide)]
  dsimp only
  rw [← lanes, bind_ok (run_vOwn_rows h), layoutIf, bind_ok (run_faultIf_neg het ..),
    bind_ok (run_vLanes h _ (by simp) (clean a (by simp))), bind_ok (run_vLanes h _ (by simp) (clean b (by simp))),
    run_vLanes_if h 4 (n := d) (by simp) fun hc => h.clean d (by simp [hc])]
  exact bind_ok (run_vPut_single [a, b, d] d (by decide) _)

/-! ## Magnitudes (R400) -/

theorem take_one_lanesOf (s : State) (u : Vu) {b : Nat} (n : BitVec 6) (hb : 0 < 128 / b) :
    (lanesOf s u b n).take 1 = [laneAt s u b n 0] := by
  obtain ⟨k, hk⟩ : ∃ k, 128 / b = k + 1 := ⟨128 / b - 1, by omega⟩
  rw [lanesOf, rowLanes, hk, List.range_succ_eq_map]; rfl

theorem exec_vamax {s : State} {p : BitVec 3} {d a : BitVec 6} {c : BitVec 1}
    (h : Rows s (s.vu p) [a, d] (if c = 1 then [a, d] else [a])) (het : (s.vu p).et ≠ 6) :
    let m := (((List.range (s.vu p).n).filter (s.vu p).act).map (laneAt s (s.vu p) (s.vu p).b a) ++
      if c = 1 then [laneAt s (s.vu p) (s.vu p).b d 0] else []).map fun v => (laneMag (s.vu p).et v).getD 0
    exec (.vamax d a c p) s = .next (vecDone (reducedTo s (s.vu p) [a, d] d (s.vu p).b (m.foldl max 0)) 0) := by
  refine vecM_done h.unit (sameSlots_reducedTo ..) ?_
  have old : (if c = 1 then lanesOf s (s.vu p) (s.vu p).b d else []).take 1 =
      if c = 1 then [laneAt s (s.vu p) (s.vu p).b d 0] else [] := by
    split
    · exact take_one_lanesOf _ _ _ (laneCount_pos _)
    · rfl
  rw [modTstat_noflags, List.foldl_map, ← old,
    ← List.map_congr_left fun i hi => getD_lanesOf_own s (s.vu p) a (List.mem_range.mp (List.mem_filter.mp hi).1)]
  dsimp only
  rw [bind_ok (run_vOwn_rows h), layoutIf, bind_ok (run_faultIf_neg het ..),
    bind_ok (run_vLanes h _ (by simp) (h.clean a (by split <;> simp))),
    run_vLanes_if h _ (n := d) (by simp) fun hc => h.clean d (by simp [hc])]
  exact run_vPut_single _ _ (laneCount_pos _) _

/-! ## Conversions (R406) -/

/-- The source lane of lane j, where part k of a row of ls lanes, or a row of ls lanes as part k, becomes a row of ld lanes. -/
def partLane (ls ld k j : Nat) : Option Nat :=
  if ld < ls then some (k * ld + j) else if k * ls ≤ j ∧ j < k * ls + ls then some (j - k * ls) else none

/-- The same as execVcvt has it, with a case of its own for rows of equally many lanes. -/
def partSource (ls ld k j : Nat) : Option Nat :=
  if ld < ls then some (k * ld + j)
  else if ls < ld then (if k * ls ≤ j ∧ j < k * ls + ls then some (j - k * ls) else none)
  else some j

/-- Where both rows have as many lanes, the one part is the whole row. -/
theorem partSource_eq_partLane {ls ld k j : Nat} (hk : k < max (ls / ld) (ld / ls)) (hj : j < ld) :
    partSource ls ld k j = partLane ls ld k j := by
  unfold partSource partLane
  split
  · rfl
  · split
    · rfl
    · obtain rfl : ls = ld := by omega
      rw [Nat.max_self, Nat.div_self (by omega)] at hk
      obtain rfl : k = 0 := by omega
      simp [hj]

theorem partLane_lt {ls ld k j i : Nat} (hk : k < max (ls / ld) (ld / ls)) (hj : j < ld) (h : partLane ls ld k j = some i) : i < ls := by
  unfold partLane at h
  split at h
  · next lt =>
    rw [Nat.div_eq_of_lt lt, Nat.max_zero] at hk
    have whole : (k + 1) * ld ≤ ls := (Nat.le_div_iff_mul_le (by omega)).mp hk
    rw [Nat.succ_mul] at whole
    cases h; omega
  · split at h
    · cases h; omega
    · cases h

/-- Lane j of a conversion that takes it from lane src j, and nothing where it is inactive or has no source lane. -/
def cvtLane (act : Nat → Bool) (src : Nat → Option Nat) (f : Nat → Nat × Flg) (j : Nat) : Nat × Flg :=
  match src j with
  | some i => if act j then f i else (0, 0)
  | none => (0, 0)

theorem cvtLane_eq (act : Nat → Bool) (src : Nat → Option Nat) (f : Nat → Nat × Flg) (j : Nat) :
    cvtLane act src f j = if act j && (src j).isSome then f ((src j).getD 0) else (0, 0) := by
  unfold cvtLane; cases src j <;> simp

/-- The lanes that execVcvt forms of lanes x: part k to ETYPE t. -/
def cvtLanes (u : Vu) (rm : Rm) (t k : Nat) (x : Nat → Nat) : List (Nat × Flg) :=
  (List.range (laneCount t)).map (cvtLane u.act (partSource u.n (laneCount t) k) fun i => convLane rm u.et t (x i))

/-- The lanes that a conversion writes. -/
def cvtSel (u : Vu) (t k j : Nat) : Bool := u.act j && (partLane u.n (laneCount t) k j).isSome

/-- What it writes in lane j. -/
def cvtVal (u : Vu) (rm : Rm) (t k : Nat) (x : Nat → Nat) (j : Nat) : Nat × Flg :=
  convLane rm u.et t (x ((partLane u.n (laneCount t) k j).getD 0))

theorem cvtLanes_eq {u : Vu} {rm : Rm} {t k : Nat} {x y : Nat → Nat} (hk : k < max (u.n / laneCount t) (laneCount t / u.n))
    (hx : ∀ i, i < u.n → x i = y i) :
    cvtLanes u rm t k x = (List.range (laneCount t)).map fun j => if cvtSel u t k j then cvtVal u rm t k y j else (0, 0) :=
  List.map_congr_left fun j hj => by
    have lt := List.mem_range.mp hj
    rw [cvtLane_eq, partSource_eq_partLane hk lt, cvtSel, cvtVal]
    cases hs : partLane u.n (laneCount t) k j with
    | none => simp
    | some i => rw [Option.getD_some, hx i (partLane_lt hk lt hs)]

theorem getD_map_ite {sel : Nat → Bool} {f : Nat → Nat × Flg} {n j : Nat} (hj : j < n) (hs : sel j = true) :
    (((List.range n).map fun j => if sel j then f j else (0, 0)).map (·.1)).getD j 0 = (f j).1 := by
  rw [List.map_map, List.getD_eq_getElem?_getD, List.getElem?_map, List.getElem?_range hj]
  simp [hs]

theorem foldl_or_map_ite (sel : Nat → Bool) (f : Nat → Nat × Flg) : ∀ (l : List Nat) (g : Flg),
    (l.map fun j => if sel j then f j else (0, 0)).foldl (fun g y => g ||| y.2) g = (l.filter sel).foldl (fun g j => g ||| (f j).2) g
  | [], _ => rfl
  | j :: l, g => by
    rw [List.map_cons, List.foldl_cons, foldl_or_map_ite sel f l]
    cases hj : sel j <;> simp [hj]

theorem exec_vcvt {s : State} {p : BitVec 3} {d a : BitVec 6} {r : BitVec 3} {k : BitVec 2} {t : BitVec 3} (h : Rows s (s.vu p) [a, d] [a])
    (het : (s.vu p).et ≠ 6) (hpart : k.toNat < max ((s.vu p).n / laneCount t.toNat) (laneCount t.toNat / (s.vu p).n))
    (hk : Kept s (s.vu p) d (laneBytes t.toNat) (cvtSel (s.vu p) t.toNat k.toNat)) :
    let sel := cvtSel (s.vu p) t.toNat k.toNat
    let cv := cvtVal (s.vu p) ((s.vu p).rm r) t.toNat k.toNat (laneAt s (s.vu p) (s.vu p).b a)
    exec (.vcvt d a r k t p) s = .next (vecDone (rowMerge (owningRows s (s.vu p) [a, d]) (s.vu p) d (laneBytes t.toNat) (fun j => (cv j).1) sel)
      (((List.range (laneCount t.toNat)).filter sel).foldl (fun g j => g ||| (cv j).2) 0)) := by
  intro sel cv
  refine vecM_done h.unit ((sameSlots_owningRows ..).trans (sameSlots_rowSet ..)) ?_
  have lanes := cvtLanes_eq (rm := (s.vu p).rm r) hpart fun _ hi => getD_lanesOf_own s (s.vu p) a hi
  have same : ∀ j, j < laneCount t.toNat →
      sel j = ((s.vu p).act j && (partSource (s.vu p).n (laneCount t.toNat) k.toNat j).isSome) := fun j hj => by
    rw [partSource_eq_partLane hpart hj]; rfl
  have merge := run_vMerge h (n := d) (by simp) (kept_congr hk same) ((cvtLanes (s.vu p) ((s.vu p).rm r) t.toNat k.toNat
    fun i => (lanesOf s (s.vu p) (s.vu p).b a).getD i 0).map (·.1))
  rw [← rowMerge_congr (f := fun j => (cv j).1) same fun j hj hs => by rw [lanes]; exact (getD_map_ite hj hs).symm] at merge
  rw [← foldl_or_map_ite, ← lanes]
  dsimp only
  rw [bind_ok (run_vOwn_rows h), layoutIf, bind_ok (run_faultIf_neg (not_or.mpr ⟨het, Nat.not_le.mpr hpart⟩) ..),
    bind_ok (run_vLanes h _ (by simp) (h.clean a (by simp)))]
  exact bind_ok merge

end Sys2Proof.Machine
end

section
/-! SUPPORT. The sum of integer lanes by the tree (R130): each combination keeps the sum of the lanes, whatever the shape of the tree. -/

namespace Sys2Proof.Machine

open Sys2Proof.Safety

/-- The wrapping sum of two lanes of w bits. -/
def addLanes (w a b : Nat) : Nat × Flg := ((a + b) % 2 ^ w, 0)

theorem laneFmt_of_int {t : Nat} (h : laneInt t = true) : laneFmt t = none := by
  unfold laneInt at h; unfold laneFmt; grind

theorem redFn_add {t : Nat} (rm : Rm) (h : laneInt t = true) : redFn t rm 1 = some (addLanes (8 * laneBytes t)) := by
  have add (a b : Nat) : (((BitVec.ofNat (8 * laneBytes t) a + BitVec.ofNat (8 * laneBytes t) b).toNat, 0) : Nat × Flg) =
      addLanes (8 * laneBytes t) a b := by simp [addLanes, Nat.add_mod]
  simp only [redFn, laneFn, laneFmt_of_int h, h, intFn]
  exact congrArg some (funext fun a => funext fun b => add a b)

/-- The sum of the lanes that are there. -/
def optSum (l : List (Option Nat)) : Nat := (l.map (·.getD 0)).sum

theorem optSum_cons (a : Option Nat) (l : List (Option Nat)) : optSum (a :: l) = a.getD 0 + optSum l := by simp [optSum]

theorem optSum_active (act : Nat → Bool) (x : Nat → Nat) : ∀ l : List Nat,
    optSum (l.map fun i => if act i then some (x i) else none) = ((l.filter act).map x).sum
  | [] => rfl
  | i :: l => by
    rw [List.map_cons, optSum_cons, optSum_active act x l]
    cases h : act i <;> simp [h]

/-- Lanes of w bits. -/
def Fit (w : Nat) (l : List (Option Nat)) : Prop := ∀ o ∈ l, o.getD 0 < 2 ^ w

/-- Lanes r with flags stand for lanes l: the same sum modulo 2^w, no flag, and lanes of w bits where those were. -/
structure SumsTo (w : Nat) (l : List (Option Nat)) (r : List (Option Nat) × Flg) : Prop where
  sum : optSum r.1 % 2 ^ w = optSum l % 2 ^ w
  noflag : r.2 = 0
  fit : Fit w l → Fit w r.1

theorem comb_add (w : Nat) (a b : Option Nat) : (comb (addLanes w) a b).1.getD 0 % 2 ^ w = (a.getD 0 + b.getD 0) % 2 ^ w ∧
    (comb (addLanes w) a b).2 = 0 ∧ (a.getD 0 < 2 ^ w → b.getD 0 < 2 ^ w → (comb (addLanes w) a b).1.getD 0 < 2 ^ w) := by
  cases a with
  | none => exact ⟨by rw [Option.getD_none, Nat.zero_add]; rfl, rfl, fun _ h => h⟩
  | some x => cases b with
    | none => exact ⟨rfl, rfl, fun h _ => h⟩
    | some y => exact ⟨Nat.mod_mod .., rfl, fun _ _ => Nat.mod_lt _ (Nat.two_pow_pos w)⟩

theorem sumsTo_treeLevel (w : Nat) : ∀ l, SumsTo w l (treeLevel (addLanes w) l)
  | [] => ⟨rfl, rfl, id⟩
  | [a] => ⟨rfl, rfl, id⟩
  | a :: b :: l => by
    obtain ⟨hsum, hflag, hfit⟩ := comb_add w a b
    have ih := sumsTo_treeLevel w l
    refine ⟨?_, ?_, fun h => ?_⟩
    · show optSum ((comb (addLanes w) a b).1 :: (treeLevel (addLanes w) l).1) % 2 ^ w = optSum (a :: b :: l) % 2 ^ w
      rw [optSum_cons, optSum_cons, optSum_cons, ← Nat.add_assoc, Nat.add_mod, hsum, ih.sum, ← Nat.add_mod]
    · show (comb (addLanes w) a b).2 ||| (treeLevel (addLanes w) l).2 = 0
      rw [hflag, ih.noflag]; rfl
    · have fit := List.forall_mem_cons.mp h
      have fit' := List.forall_mem_cons.mp fit.2
      exact List.forall_mem_cons.mpr ⟨hfit fit.1 fit'.1, ih.fit fit'.2⟩

theorem sumsTo_treeRed (w : Nat) : ∀ k l, SumsTo w l (treeRed (addLanes w) k l)
  | 0, l => ⟨rfl, rfl, id⟩
  | k + 1, l => by
    have level := sumsTo_treeLevel w l
    have rest := sumsTo_treeRed w k (treeLevel (addLanes w) l).1
    refine ⟨rest.sum.trans level.sum, ?_, fun h => rest.fit (level.fit h)⟩
    show (treeLevel (addLanes w) l).2 ||| (treeRed (addLanes w) k (treeLevel (addLanes w) l).1).2 = 0
    rw [level.noflag, rest.noflag]; rfl

theorem length_treeLevel (f : Nat → Nat → Nat × Flg) : ∀ {n : Nat} {l : List (Option Nat)}, l.length = 2 * n → (treeLevel f l).1.length = n
  | 0, l, h => by rw [List.length_eq_zero_iff.mp h]; rfl
  | n + 1, a :: b :: l, h => by
    show (treeLevel f l).1.length + 1 = n + 1
    rw [length_treeLevel f (n := n) (by simp at h; omega)]

/-- The tree over 2^k lanes leaves one. -/
theorem length_treeRed (f : Nat → Nat → Nat × Flg) : ∀ {k : Nat} {l : List (Option Nat)}, l.length = 2 ^ k → (treeRed f k l).1.length = 1
  | 0, _, h => h
  | k + 1, l, h => length_treeRed f (k := k) (length_treeLevel f (by rw [h, Nat.pow_succ']))

/-- The tree of wrapping sums over 2^k lanes of w bits gives their exact sum modulo 2^w, and no flag. -/
theorem treeRed_add {w k : Nat} {l : List (Option Nat)} (hl : l.length = 2 ^ k) (hw : Fit w l) :
    ((treeRed (addLanes w) k l).1.headD none).getD 0 = optSum l % 2 ^ w ∧ (treeRed (addLanes w) k l).2 = 0 := by
  have sums := sumsTo_treeRed w k l
  obtain ⟨o, ho⟩ := List.length_eq_one_iff.mp (length_treeRed (addLanes w) hl)
  have total := sums.sum
  have fit := sums.fit hw
  rw [ho] at total fit ⊢
  refine ⟨?_, sums.noflag⟩
  have mod : optSum [o] = o.getD 0 := List.sum_singleton
  rw [mod] at total
  exact (Nat.mod_eq_of_lt (fit o (by simp))).symm.trans total

theorem two_pow_log2_laneCount (t : Nat) : 2 ^ Nat.log2 (laneCount t) = laneCount t := by
  unfold laneCount; rcases laneBytes_cases t with h | h | h | h <;> rw [h] <;> decide

theorem fit_optLanes (s : State) (u : Vu) (n : BitVec 6) : Fit (8 * u.b) (optLanes s u n) := by
  intro o ho
  obtain ⟨i, -, rfl⟩ := List.mem_map.mp ho
  split
  · exact Nat.mod_lt _ (Nat.two_pow_pos _)
  · exact Nat.two_pow_pos _

theorem redId_int {t : Nat} (code : Nat) (h : laneInt t = true) : redId t code = 0 := by
  rw [redId, laneFmt_of_int h]

/-! ## The obligation -/

theorem vectorReductions : Claims.VectorReductions := by
  intro s d a b p u act x y opts one
  refine ⟨fun f g h hg => exec_vred h hg, fun f g h hk hg => exec_vscan h hk hg, fun c r h het => ?dot, fun c h het => exec_vamax h het,
    fun r k t h het => exec_vcvt h het⟩
  case dot =>
    have done := exec_vdot (r := r) h het
    refine ⟨fun f hf => ?_, fun hf => ?_⟩
    · rw [dotOf_float hf] at done
      exact done
    · rw [dotOf_int hf] at done
      exact done

theorem integerReduction : Claims.IntegerReduction := by
  intro s d a p u hint h
  have done := exec_vred (f := 1) h (redFn_add u.v.vrm hint)
  have lanes : (optLanes s u a).length = 2 ^ Nat.log2 u.n := by
    rw [optLanes, List.length_map, List.length_range]; exact (two_pow_log2_laneCount u.et).symm
  obtain ⟨sum, noflag⟩ := treeRed_add lanes (fit_optLanes s u a)
  rw [redId_int _ hint] at done
  refine done.trans ?_
  rw [show 8 * laneBytes (s.vu p).et = 8 * u.b from rfl, noflag, sum, optLanes, optSum_active]
  rfl

/-- Settles O38: each form runs as the lemma of its own states, and the tree of an integer sum keeps the sum of its lanes. -/
theorem reductions : Obligations.Reductions := ⟨vectorReductions, integerReduction⟩

end Sys2Proof.Machine
end

section
/-! SUPPORT. Transfer steps in states that their statements admit and the machine does not reach: a row still out at a step that sends
none, an accumulator row written by the transfer unit, layers sampled by it. -/

namespace Sys2Proof.Machine

open Sys2Proof.Safety

theorem unitOf_of_idle {e : Eng} {s : State} (norpt : (s.eng e).rpt = none) (idle : (s.eng e).agt = {}) : UnitOf e s :=
  ⟨norpt, by rw [idle]; exact ⟨rfl, rfl, rfl, rfl, rfl, rfl, rfl, rfl⟩⟩

/-! ## A row that is still out -/

/-- The reset state with slot 0 of tile 0 running and a row of its transfer unit out. -/
def stRowOut : State :=
  (State.reset.modTile 0 fun t => { t with up := true, inRuntime := false, running := some 0 }).modX fun x => { x with sent := some {} }

theorem unitOf_stRowOut : UnitOf .xfr stRowOut := unitOf_of_idle (by decide +kernel) (by decide +kernel)

/-- The LAYOUT fault of the step of stRowOut. -/
def layoutRowOut : FaultRec := stRowOut.unitRec stRowOut.cur stRowOut.curSlot .xfr .layout 0 0 none

/-- A fault waits for the acknowledgement of a row that is out (R236). -/
theorem inRuntime_raise_stRowOut : ((stRowOut.raise stRowOut.cur stRowOut.curSlot layoutRowOut).tile 0).inRuntime = false := by
  decide +kernel

/-- Whether an answer leaves tile 0 in the runtime bank. -/
def trapsTile0 : Ans → Bool
  | .next t => (t.tile 0).inRuntime
  | _ => false

theorem trapped_xwait_stRowOut : trapsTile0 (exec (.xwait 0 0) stRowOut) = true := by decide +kernel

/-- Refutes O48: an XWAIT on a slot that is not valid raises LAYOUT in a state whose transfer unit has a row out. A fault of a transfer
step drops the row that is out (xferEnd), so the runtime is entered in the same step; the statement raises the fault in the state as it
stands, where delivery waits for the row. It lacks the hypothesis that no row is out, and each step starts with none (nextX). -/
theorem not_transferSettings : ¬ Obligations.TransferSettings := by
  unfold Obligations.TransferSettings
  intro h
  obtain ⟨-, -, -, -, -, -, waits⟩ := h stRowOut unitOf_stRowOut
  have raised : exec (.xwait 0 0) stRowOut = .next (stRowOut.raise stRowOut.cur stRowOut.curSlot layoutRowOut) :=
    (waits 0 0).1 (by decide +kernel)
  have trapped := trapped_xwait_stRowOut
  rw [raised, trapsTile0, inRuntime_raise_stRowOut] at trapped
  cases trapped

/-! ## An accumulator row of the transfer unit -/

theorem calm_acc (s : State) (t : BitVec 8) : ((calm s).tile t).acc = (s.tile t).acc := by
  have tile : (calm s).tile t = { s.tile t with slots := (s.tile t).slots.map calmSlot } := vget_map ..
  rw [tile]

/-- States that differ at most in memory and race detection hold the same accumulators. -/
theorem acc_eq_of_sameButSync {s t : State} (h : SameButSync s t) (u : BitVec 8) : (s.tile u).acc = (t.tile u).acc := by
  rw [← calm_acc s, ← calm_acc t, h]

theorem acc_modX (s : State) (f : XStep → XStep) (t : BitVec 8) : ((s.modX f).tile t).acc = (s.tile t).acc := by
  unfold State.modX State.modEng
  rw [modSlot_tile]
  split
  case isTrue here => rw [here]; rfl
  case isFalse => rfl

/-- A segment of one barrier object of EXPECTED 2. -/
def segObject : Segment :=
  { num := 5, size := 16, span := 0, check := false, pin := false, shared := false, state := .resident, frame := 0, backing := 0, touch := 0,
    store := { bytes := [(4, 2)] } }

/-- Slot 0 of tile 0 at the arrival of a step of one item, which wrote one byte, on the object of segment 5; row 0 of accumulator tile 0
was written by the transfer unit, which has not released since. -/
def stArrival : State :=
  let s := State.reset.modTile 0 fun t => { t with
    running := some 0
    acc := [(0, { AccTile.reset with owner := 0, prior := [(0, ⟨.xfr, 0, 0⟩)] })] }
  s.modSlot 0 0 fun k => { k with
    ctx := some 0
    mem := { k.mem with segs := [segObject] }
    xs := { k.xs with bo := vset (0 : BitVec 5) ({ ptr := segPtr 5 0, valid := true } : Bo) k.xs.bo }
    xfr := { k.xfr with xs := ({ item := 1, wrote := [(0, 1)] } : XStep) } }

theorem unitOf_stArrival : UnitOf .xfr stArrival := unitOf_of_idle (by decide +kernel) (by decide +kernel)

theorem memory_stArrival : MemoryCanonical stArrival := by unfold MemoryCanonical; decide +kernel

theorem reachable_stArrival : Reachable stArrival stArrival.xfrMe (stArrival.bo 0).ptr 16 16 true false 0 0 segObject where
  mid := by decide +kernel
  live := by decide +kernel
  holds := by decide +kernel
  aligned := .inr (by decide +kernel)
  norace := fun check => absurd check (by decide)
  resident := rfl

/-- The earlier rows of the accumulator tiles of tile 0 that an answer keeps. -/
def priorsOf : Ans → List (List (Nat × Prior))
  | .next t => (t.tile 0).acc.map (·.2.prior)
  | _ => []

theorem priors_xfill_stArrival : priorsOf (exec (.xfill 0 1 0 1 0 0) stArrival) = [[]] := by decide +kernel

theorem priors_stArrival : (stArrival.tile 0).acc.map (·.2.prior) = [[(0, ⟨.xfr, 0, 0⟩)]] := by decide +kernel

/-- Refutes O49: the arrival of a step releases, and a release drops what other engines may still read of the accumulator rows that its
agent wrote (R62); the statement lets the arrival change nothing but the step, memory and race detection. It lacks the hypothesis that
no such row is the transfer unit's, which no instruction of the transfer unit writes. -/
theorem not_transferTurns : ¬ Obligations.TransferTurns := by
  unfold Obligations.TransferTurns
  rintro ⟨-, turns⟩
  obtain ⟨-, -, -, fill, -⟩ := turns stArrival 0 0 1 0 1 0 0 0 0 0 unitOf_stArrival
  obtain ⟨-, -, -, ends, -⟩ := fill
  obtain ⟨-, -, arrives⟩ := ends (by decide +kernel) (by decide +kernel) (by decide +kernel) (by decide +kernel)
    (fun first => absurd first (by decide +kernel))
  obtain ⟨v, run, same, -⟩ := arrives 0 0 segObject rfl rfl (by decide +kernel) (by decide +kernel) memory_stArrival reachable_stArrival
    (by decide +kernel) (by decide +kernel)
  have dropped := priors_xfill_stArrival
  rw [run, priorsOf, acc_eq_of_sameButSync same 0, if_neg (by simp), acc_modX, priors_stArrival] at dropped
  cases dropped

/-! ## Layers of the transfer unit -/

/-- Slot 0 of tile 0 waits for the acknowledgement of a row, and its transfer unit holds a sample of layers. -/
def stAck : State :=
  (State.reset.modTile 0 fun t => { t with running := some 0 }).modSlot 0 0 fun k => { k with xfr := { k.xfr with
    xs := { sent := some {} }
    agt := { wait := some { obj := .xremAck 0 0 }, layers := some (0, false) } } }

/-- The layers that the transfer unit of slot 0 of tile 0 holds after an answer. -/
def xfrLayersOf : Ans → Option (BitVec 4 × Bool)
  | .next t => (t.slot 0 0).xfr.agt.layers
  | _ => none

theorem xfrLayers_xremAck_stAck : xfrLayersOf (exec (.xremAck 0) stAck) = none := by decide +kernel

/-- Refutes O50: XREM_ACK ends the wait by clearRemote, which forgets the layers that an agent has sampled too; the statement's next state
keeps them. It lacks the hypothesis that the transfer unit has sampled none, which only the press does. -/
theorem not_transferItems : ¬ Obligations.TransferItems := by
  unfold Obligations.TransferItems
  rintro ⟨-, acks⟩
  have h := acks stAck 0 0 { obj := .xremAck 0 0 } 0 {} (by decide +kernel) (by decide +kernel) rfl (by decide +kernel)
  have layers := xfrLayers_xremAck_stAck
  rw [h, xfrLayersOf, modSlot_slot_same] at layers
  exact absurd layers (by decide +kernel)

end Sys2Proof.Machine
end

section
/-! SUPPORT. How a sequencer instruction that executes at a plain instruction ends (R8, R47): it goes on, it waits, or it faults. -/

namespace Sys2Proof.Machine

open Sys2Proof.Safety

theorem run_illegalIf_pos {p : Prop} [Decidable p] (h : p) (s : State) :
    illegalIf p s = .error (.fault .illegal (s.wordAt.setWidth 64) 0 none) s := by
  rw [illegalIf, if_pos h]; rfl

theorem run_noRuntime_slot {s : State} (h : s.inRt = false) : noRuntime s = .ok () s :=
  run_illegalIf_neg (by simp [h]) s

theorem run_noRuntime_rt {s : State} (h : s.inRt = true) :
    noRuntime s = .error (.fault .illegal (s.wordAt.setWidth 64) 0 none) s := run_illegalIf_pos h s

/-- SUPP put back as it stands is the same state. -/
theorem backSupp_suppNow (s : State) : s.backSupp s.cur s.seqSlot s.suppNow = s := if_pos rfl

theorem SameFlow.refl (b : Bank) : SameFlow b b := ⟨rfl, rfl, rfl, rfl, rfl⟩

variable {s : State} {q : BitVec 3} {m : M Unit}

/-- A computation that only writes registers goes on to the next word. -/
theorem seqM_onward {b : Bank} (h : Executes s q) (hm : m s = .ok () (s.setBank b)) (flow : SameFlow s.bank b) :
    seqM q s m = .next (onward s b) := by
  obtain ⟨plain, hq⟩ := h
  exact seqM_bank hq plain.rest hm (flow.rpt.trans plain.norpt)
    (noPassEnd_of_eq plain.nopass flow.order flow.lstat flow.ends flow.pc)

/-- A computation that changes nothing goes on to the next word. -/
theorem seqM_passed (h : Executes s q) (hm : m s = .ok () s) : seqM q s m = .next (onward s s.bank) :=
  seqM_onward h (by rw [setBank_same, hm]) (SameFlow.refl _)

theorem seqEnd_wait (h : AtRest s.seqAgt) (o : WaitObj) : seqEnd s.suppNow (.error (.wait o) s) = .next (waiting s o) := by
  rw [seqEnd, backSupp_suppNow, State.seqWait, h.1]; rfl

theorem seqEnd_fault (h : AtRest s.seqAgt) (supp : BitVec 24) (c : Cause) (v i : W64) (x : Option (BitVec 16)) :
    seqEnd supp (.error (.fault c v i x) s) = .next (s.raiseSeq c v i) := by
  rw [seqEnd, clearRemote_rest s h]

/-- A computation that waits before it has changed anything leaves the sequencer waiting. -/
theorem seqM_waits {o : WaitObj} (h : Executes s q) (hm : m s = .error (.wait o) s) : seqM q s m = .next (waiting s o) := by
  obtain ⟨plain, hq⟩ := h
  rw [seqM, if_pos hq, startSeq_rest s plain.rest, hm, seqEnd_wait plain.rest]

/-- A computation that faults before it has changed anything raises the fault. -/
theorem seqM_faults {c : Cause} {v i : W64} {x : Option (BitVec 16)} (h : Executes s q) (hm : m s = .error (.fault c v i x) s) :
    seqM q s m = .next (s.raiseSeq c v i) := by
  obtain ⟨plain, hq⟩ := h
  rw [seqM, if_pos hq, startSeq_rest s plain.rest, hm, seqEnd_fault plain.rest]

theorem seqJ_faults {c : Cause} {v i : W64} {x : Option (BitVec 16)} (h : Executes s q) (hm : m s = .error (.fault c v i x) s) :
    seqJ q s m = .next (s.raiseSeq c v i) := by
  obtain ⟨plain, hq⟩ := h
  rw [seqJ, if_pos hq, startSeq_rest s plain.rest, hm]
  exact seqEnd_fault plain.rest _ c v i x

end Sys2Proof.Machine
end

section
/-! SUPPORT. A record of the moving tile (R292) changes its recorder alone. -/

namespace Sys2Proof.Machine

/-- s with another recorder at the moving tile. -/
def State.withRecorder (s : State) (r : Recorder) : State := s.modTile s.cur fun x => { x with recorder := r }

theorem trace_eq_withRecorder (s : State) (cls : Nat) (kind : BitVec 8) (body : List Byte) :
    ∃ r, s.trace s.cur cls kind body = s.withRecorder r := by
  unfold State.trace
  split
  · exact ⟨_, rfl⟩
  · exact ⟨(s.tile s.cur).recorder, (modTile_self rfl).symm⟩

@[simp] theorem withRecorder_cur (s : State) (r : Recorder) : (s.withRecorder r).cur = s.cur := rfl

@[simp] theorem withRecorder_tile_cur (s : State) (r : Recorder) :
    (s.withRecorder r).tile s.cur = { s.tile s.cur with recorder := r } := tile_modTile_same ..

@[simp] theorem withRecorder_seqMe (s : State) (r : Recorder) : (s.withRecorder r).seqMe = s.seqMe := by
  simp [State.seqMe, State.seqSlot, State.curSlot]

@[simp] theorem withRecorder_seqAgt (s : State) (r : Recorder) : (s.withRecorder r).seqAgt = s.seqAgt := by
  unfold State.seqAgt State.inRt State.slot State.curSlot
  rw [withRecorder_cur, withRecorder_tile_cur]
  rfl

@[simp] theorem modCtx_cur (s : State) (c : BitVec 8) (f : Context → Context) : (s.modCtx c f).cur = s.cur := rfl
@[simp] theorem modCtx_tile (s : State) (c : BitVec 8) (f : Context → Context) (t : BitVec 8) : (s.modCtx c f).tile t = s.tile t := rfl

end Sys2Proof.Machine
end

section
/-! SUPPORT. Fences (R186, R188), ITER (R353) and WAITI (R429). -/

namespace Sys2Proof.Machine

open Sys2Proof.Safety

variable {s : State} {q : BitVec 3} {d a m : BitVec 5}

/-! ## FENCE layer (R188) -/

/-- The slot that runs has issued xlayer items that are not acknowledged, or not written. -/
def LayersDue (s : State) : Prop := (s.slot s.cur s.curSlot).mem.layerOut ≠ 0 ∨ s.layerDue s.cur s.curSlot = true

theorem exec_fenceLayer_passes (k : BitVec 2) (h : Executes s q) (done : s.inRt = true ∨ ¬ LayersDue s) :
    exec (.fenceLayer q k) s = .next (onward s s.bank) := by
  have free : ¬ (s.inRt = false ∧ LayersDue s) := by
    rintro ⟨slot, due⟩
    exact done.elim (by simp [slot]) (· due)
  exact seqM_passed h (congrFun (if_neg free) s)

theorem exec_fenceLayer_waits (k : BitVec 2) (h : Executes s q) (slot : s.inRt = false) (due : LayersDue s) :
    exec (.fenceLayer q k) s = .next (waiting s .layerFence) :=
  seqM_waits h (congrFun (if_pos ⟨slot, due⟩) s)

/-! ## WAITI (R429) -/

/-- The selected conditions that hold; the runtime bank has none. -/
def waitiHeld (s : State) (m : BitVec 5) : BitVec 5 := if s.inRt then 0 else s.waitiConds s.cur s.curSlot &&& m

theorem waitiHeld_rt (h : s.inRt = true) (m : BitVec 5) : waitiHeld s m = 0 := if_pos h

theorem waitiHeld_slot (h : s.inRt = false) (m : BitVec 5) : waitiHeld s m = s.waitiConds s.cur s.curSlot &&& m := by
  rw [waitiHeld, h]; rfl

theorem exec_waiti_answers (h : Executes s q) (legal : ¬ (s.inRt = true ∧ m ≠ 0))
    (ends : waitiHeld s m ≠ 0 ∨ (m = 0 ∧ s.bank.gr a = 0)) :
    exec (.waiti q d a m) s = .next (onward s (s.bank.setG d ((waitiHeld s m).setWidth 64))) :=
  seqM_onward h ((bind_ok (run_illegalIf_neg legal s)).trans (congrFun (if_pos ends) s)) (sameFlow_setG ..)

theorem exec_waiti_waits (h : Executes s q) (legal : ¬ (s.inRt = true ∧ m ≠ 0))
    (goes : ¬ (waitiHeld s m ≠ 0 ∨ (m = 0 ∧ s.bank.gr a = 0))) :
    exec (.waiti q d a m) s = .next (waiting s (.waiti m (s.bank.gr a))) :=
  seqM_waits h ((bind_ok (run_illegalIf_neg legal s)).trans (congrFun (if_neg goes) s))

theorem exec_waiti_illegal (h : Executes s q) (rt : s.inRt = true) (hm : m ≠ 0) :
    exec (.waiti q d a m) s = .next (s.raiseSeq .illegal (s.wordAt.setWidth 64) 0) :=
  seqM_faults h (bind_error (run_illegalIf_pos ⟨rt, hm⟩ s))

/-! ## ITER (R353) -/

theorem exec_iterPt (h : Executes s q) (slot : s.inRt = false) :
    exec (.iterPt q d) s = .next (onward s (s.bank.setG d (BitVec.ofNat 64 (s.slot s.cur s.curSlot).sq.point))) :=
  seqM_onward h (bind_ok (run_noRuntime_slot slot)) (sameFlow_setG ..)

theorem exec_iterPt_illegal (h : Executes s q) (rt : s.inRt = true) :
    exec (.iterPt q d) s = .next (s.raiseSeq .illegal (s.wordAt.setWidth 64) 0) :=
  seqM_faults h (bind_error (run_noRuntime_rt rt))

theorem exec_iterDone_illegal (h : Executes s q) (rt : s.inRt = true) :
    exec (.iterDone q) s = .next (s.raiseSeq .illegal (s.wordAt.setWidth 64) 0) :=
  seqJ_faults h (bind_error (run_noRuntime_rt rt))

/-- The slot that runs has ended its iteration. -/
def iterEnded (s : State) : State :=
  (s.iterRecord s.cur s.curSlot).modSlot s.cur s.curSlot fun y => { y with sq := { y.sq with hasIter := false } }

theorem iterRecord_eq_withRecorder (s : State) : ∃ r, s.iterRecord s.cur s.curSlot = s.withRecorder r :=
  trace_eq_withRecorder s ..

theorem iterRecord_cur (s : State) : (s.iterRecord s.cur s.curSlot).cur = s.cur := by
  obtain ⟨r, e⟩ := iterRecord_eq_withRecorder s
  rw [e, withRecorder_cur]

/-- The record of an iteration leaves an agent at rest nothing to forget. -/
theorem clearRemote_iterRecord (h : AtRest s.seqAgt) :
    (s.iterRecord s.cur s.curSlot).clearRemote s.seqMe = s.iterRecord s.cur s.curSlot := by
  obtain ⟨r, e⟩ := iterRecord_eq_withRecorder s
  rw [e, ← withRecorder_seqMe s r]
  exact clearRemote_rest _ (by rwa [withRecorder_seqAgt])

theorem iterEnded_cur (s : State) : (iterEnded s).cur = s.cur := iterRecord_cur s

theorem iterEnded_trctl (s : State) : ((iterEnded s).tile s.cur).trctl = (s.tile s.cur).trctl := by
  obtain ⟨r, e⟩ := iterRecord_eq_withRecorder s
  rw [iterEnded, modSlot_tile_same, tileSetSlot_trctl, e, withRecorder_tile_cur]

/-- The slot that runs has ended its iteration, and context c has counted it. -/
def iterCounted (s : State) (c : BitVec 8) : State := (iterEnded s).modCtx c fun y => { y with done := y.done + 1 }

theorem iterCounted_trctl (s : State) (c : BitVec 8) :
    ((iterCounted s c).tile (iterCounted s c).cur).trctl = (s.tile s.cur).trctl := by
  rw [iterCounted, modCtx_cur, modCtx_tile, iterEnded_cur, iterEnded_trctl]

/-- Where no stop at the end of an iteration is asked for (R296), ITER done ends the iteration and counts it. -/
theorem exec_iterDone {x : Context} (h : Executes s q) (slot : s.inRt = false) (ctx : s.ctxOf s.cur s.curSlot = some x)
    (nostop : bits (s.tile s.cur).trctl 13 12 ≠ 1) : exec (.iterDone q) s = .next (iterCounted s x.id) := by
  obtain ⟨plain, hq⟩ := h
  have unasked : ¬ bits ((iterCounted s x.id).tile (iterCounted s x.id).cur).trctl 13 12 = 1 := by rwa [iterCounted_trctl]
  refine seqJ_ok hq plain.rest ?_
  rw [bind_ok (run_noRuntime_slot slot), bind_ok (run_modS ..), bind_ok (run_modS ..), clearRemote_iterRecord plain.rest, iterRecord_cur]
  simp only [ctx]
  exact (bind_ok (run_modS ..)).trans ((bind_ok (run_get _)).trans (congrFun (if_neg fun asked => unasked asked.1) (iterCounted s x.id)))

end Sys2Proof.Machine
end

section
/-! SUPPORT. The fences, ITER and WAITI together (O24). -/

namespace Sys2Proof.Machine

open Sys2Proof.Safety

/-- Settles O24: each form runs as the lemmas of its own state; WAITI answers and waits alike in both banks, the runtime bank
having no condition. -/
theorem fencesAndWaits : Obligations.FencesAndWaits := by
  unfold Obligations.FencesAndWaits
  intro s q d a m k h
  refine ⟨⟨?acq, ?rel, ?full⟩, exec_fenceLayer_passes k h, exec_fenceLayer_waits k h,
    fun rt hm hlim => ?rtAnswers, fun rt hm hlim => ?rtWaits,
    fun slot => ⟨exec_iterPt h slot, fun ends => ?answers, fun noneHolds lim => ?waits,
      fun x ctx nostop => exec_iterDone h slot ctx nostop⟩,
    fun rt i hi => ?illegal, exec_waiti_illegal h⟩
  case acq | rel | full => exact seqReg_executes h rfl (SameFlow.refl _)
  case rtAnswers =>
    have := exec_waiti_answers (d := d) h (m := m) (by simp [hm]) (.inr ⟨hm, hlim⟩)
    rwa [waitiHeld_rt rt] at this
  case rtWaits => exact exec_waiti_waits h (by simp [hm]) fun ends => ends.elim (· (waitiHeld_rt rt m)) fun e => hlim e.2
  case answers =>
    rw [← waitiHeld_slot slot] at ends ⊢
    exact exec_waiti_answers h (by simp [slot]) ends
  case waits =>
    rw [← waitiHeld_slot slot] at noneHolds
    refine exec_waiti_waits h (by simp [slot]) ?_
    rintro (held | ⟨hm, hlim⟩)
    · exact held noneHolds
    · exact lim.elim (· hm) (· hlim)
  case illegal =>
    rcases List.mem_cons.1 hi with rfl | hi
    · exact exec_iterPt_illegal h rt
    · obtain rfl := List.mem_singleton.1 hi
      exact exec_iterDone_illegal h rt

end Sys2Proof.Machine
end
